-- ==== Sys2Proof/Word.lean ====
section
/-! DEFINITION. The word types of the ICTC (spec 00_scope.md R7, R9 to R11). -/

namespace Sys2Proof

/-- One byte: a pixel, or one byte of external memory. -/
abbrev Byte := BitVec 8

/-- A 32-bit register, a coefficient in Q23.8 (`P_COEF_W`, R7), or a pair word (R94). -/
abbrev Word := BitVec 32

/-- A master-port byte address (`P_ADDR_W` = 32, R7). -/
abbrev Addr := BitVec 32

/-- A quantized value, a 16-bit two's complement pattern (`P_VALUE_W`, R7). -/
abbrev Value := BitVec 16

/-- One 8x8 block of `w`-bit elements in natural or zig-zag order (R13). -/
abbrev Block (w : Nat) := Vector (BitVec w) 64

end Sys2Proof
end

