-- ==== Sys2Proof/Config.lean ====
section
/-! DEFINITION. What a build of the ICTC fixes, and the free values (spec 00_scope.md R7; 93_implementation_defined.md). -/

namespace Sys2Proof.Config

/-- Free values: draw number `draw` (the State's counter), element `index` of that draw, `w` bits wide.
No body: nothing can be proved about what it answers (log 7). -/
opaque freeBits (w draw index : Nat) : BitVec w

/-- `P_BASE_TABLE` (R7, OPEN), each entry less one, so that an entry lies in 1..255 (R47; log 8). -/
opaque baseTableLessOne : Vector (Fin 255) 64

/-- `P_TX_FWD` (R120, OPEN) on blocks other than the all-zero block (log 9). -/
opaque txFwdNonzero : Block 32 → Block 32

/-- `P_TX_INV` (R120, OPEN) on blocks other than the all-zero block (log 9). -/
opaque txInvNonzero : Block 32 → Block 32

/-- `P_CB_DEPTH` of the reference build, 65536 (R7), less one. A build may have any capacity of 1..65536: the capacity that
commands use is the State's field `cbDepthLessOne` (log 22). -/
def referenceDepthLessOne : Fin 65536 := ⟨65535, by decide⟩

/-- The ID register's constant (R25). -/
def idValue : Word := 0x49435401

end Sys2Proof.Config
end

