-- ==== Sys2Proof/Syntax.lean ====
section
/-! DEFINITION. The command set (spec 30_encoding.md R93), codes (R95) and the names of the host registers (10_state.md R24). -/

namespace Sys2Proof

/-- The 21 commands, one per row of the opcode table (R93). A command has no operand field (R90, R92). -/
inductive Instr where
  | nop | qgen | quant | dequant | txFwd | txInv | zzFlat | zzUnflat | rleEnc | rleDec
  | cbClear | cbAccum | cbBuild | cbEncode | cbDecode | cbLoad | cbRead
  | padFetch | cropStore | seqCompress | seqDecompress
  deriving DecidableEq, Repr

/-- Why a command word is illegal (R91, R99): bits [31:8] are not zero, or the OP is not in the map. -/
inductive IllegalWord where
  | mbzNotZero
  | opNotListed
  deriving DecidableEq, Repr

/-- A code as the pair word and CB_CODE hold it: LEN characters, BITS their value (R94, R95). -/
structure Code where
  len  : BitVec 5
  bits : BitVec 16
  deriving DecidableEq, Repr

/-- The registers and windows of the host port (R24); `reserved` is every offset not listed. -/
inductive HostReg where
  | id | ctrl | status | errCode | errInfo | cmd | quality | width | height
  | width8 | height8 | blkCols | blkRows | blkCount
  | imgBase | strmBase | strmCap | strmLen | blkSel | blkDone | strmPtr | pcount
  | cbCount | cbIndex | cbValue | cbCode | cbWeight
  | cbuf (n : Fin 64) | qbuf (n : Fin 64) | zbuf (n : Fin 64) | pbuf (n : Fin 64)
  | qmat (n : Fin 64) | zz (n : Fin 64) | baseq (n : Fin 64)
  | reserved
  deriving DecidableEq, Repr

end Sys2Proof
end

