-- ==== Sys2Proof/WellFormed.lean ====
section
/-! DEFINITION. What makes a term of Syntax well formed (spec 30_encoding.md R92, R95, R100; 10_state.md R49). -/

namespace Sys2Proof

/-- Every command is well formed: "There are no immediates and no operand forms" (R92), so there is nothing to check. -/
def Instr.wf (_ : Instr) : Bool := true

/-- A legal code has `1 <= LEN <= 16` and `BITS < 2^LEN` (R95, R100). -/
def Code.legal (c : Code) : Bool :=
  decide (1 ≤ c.len.toNat) && decide (c.len.toNat ≤ 16) && decide (c.bits.toNat < 2 ^ c.len.toNat)

/-- A host access is answered without error only at a 4-byte-aligned offset (R49). -/
def alignedOffset (off : BitVec 12) : Bool := off.toNat % 4 == 0

/-- A host write is answered without error only with all byte strobes set (R49). -/
def fullStrobe (strb : BitVec 4) : Bool := strb == 0xF#4

end Sys2Proof
end

