-- ==== Sys2Proof/Decode.lean ====
section
/-! DEFINITION. Decoding a command word and a host offset, and the encoders (spec 30_encoding.md R90, R91, R93, R99; 10_state.md R24). -/

namespace Sys2Proof

/-- The OP values of the opcode map (R93); `none` is an OP the map does not list (R99). -/
def decodeOp (op : BitVec 8) : Option Instr :=
  match op.toNat with
  | 0x00 => some .nop
  | 0x01 => some .qgen
  | 0x02 => some .quant
  | 0x03 => some .dequant
  | 0x04 => some .txFwd
  | 0x05 => some .txInv
  | 0x06 => some .zzFlat
  | 0x07 => some .zzUnflat
  | 0x08 => some .rleEnc
  | 0x09 => some .rleDec
  | 0x10 => some .cbClear
  | 0x11 => some .cbAccum
  | 0x12 => some .cbBuild
  | 0x13 => some .cbEncode
  | 0x14 => some .cbDecode
  | 0x15 => some .cbLoad
  | 0x16 => some .cbRead
  | 0x18 => some .padFetch
  | 0x19 => some .cropStore
  | 0x20 => some .seqCompress
  | 0x21 => some .seqDecompress
  | _ => none

/-- The OP field of a command word (R90). -/
def opField (w : Word) : BitVec 8 := w.extractLsb' 0 8

/-- The MBZ field of a command word (R90). -/
def mbzField (w : Word) : BitVec 24 := w.extractLsb' 8 24

/-- Decoding is total over all 2^32 words (R91): a legal word gives its command, every other word is rejected by name. -/
def decode (w : Word) : Except IllegalWord Instr :=
  if mbzField w = 0 then
    match decodeOp (opField w) with
    | some i => .ok i
    | none => .error .opNotListed
  else .error .mbzNotZero

/-- The OP of each command (R93). -/
def opcode : Instr → BitVec 8
  | .nop => 0x00
  | .qgen => 0x01
  | .quant => 0x02
  | .dequant => 0x03
  | .txFwd => 0x04
  | .txInv => 0x05
  | .zzFlat => 0x06
  | .zzUnflat => 0x07
  | .rleEnc => 0x08
  | .rleDec => 0x09
  | .cbClear => 0x10
  | .cbAccum => 0x11
  | .cbBuild => 0x12
  | .cbEncode => 0x13
  | .cbDecode => 0x14
  | .cbLoad => 0x15
  | .cbRead => 0x16
  | .padFetch => 0x18
  | .cropStore => 0x19
  | .seqCompress => 0x20
  | .seqDecompress => 0x21

/-- "Each row's command word is `zext_32(OP)`" (R93). -/
def encode (i : Instr) : Word := (opcode i).setWidth 32

/-- The command the decoder reads from a table word of `nbits` bits: what a host write of it to CMD issues. -/
def decodeTableWord (nbits w : Nat) : Option Instr :=
  match decode (BitVec.ofNat 32 (w % 2 ^ nbits)) with
  | .ok i => some i
  | .error _ => none

/-- The register or window element at an aligned offset (R24). -/
def decodeOffset (off : BitVec 12) : HostReg :=
  let w := off.toNat / 4
  let n : Fin 64 := ⟨w % 64, Nat.mod_lt _ (by decide)⟩
  match w / 64 with
  | 0 =>
    match w with
    | 0 => .id
    | 1 => .ctrl
    | 2 => .status
    | 3 => .errCode
    | 4 => .errInfo
    | 5 => .cmd
    | 6 => .quality
    | 7 => .width
    | 8 => .height
    | 9 => .width8
    | 10 => .height8
    | 11 => .blkCols
    | 12 => .blkRows
    | 13 => .blkCount
    | 14 => .imgBase
    | 15 => .strmBase
    | 16 => .strmCap
    | 17 => .strmLen
    | 18 => .blkSel
    | 19 => .blkDone
    | 20 => .strmPtr
    | 21 => .pcount
    | 22 => .cbCount
    | 23 => .cbIndex
    | 24 => .cbValue
    | 25 => .cbCode
    | 26 => .cbWeight
    | _ => .reserved
  | 1 => .cbuf n
  | 2 => .qbuf n
  | 3 => .zbuf n
  | 4 => .pbuf n
  | 5 => .qmat n
  | 6 => .zz n
  | 7 => .baseq n
  | _ => .reserved

/-- The offset of each register (R24); `reserved` stands for 0x06C, the first offset not listed. -/
def HostReg.offset : HostReg → BitVec 12
  | .id => 0x000
  | .ctrl => 0x004
  | .status => 0x008
  | .errCode => 0x00C
  | .errInfo => 0x010
  | .cmd => 0x014
  | .quality => 0x018
  | .width => 0x01C
  | .height => 0x020
  | .width8 => 0x024
  | .height8 => 0x028
  | .blkCols => 0x02C
  | .blkRows => 0x030
  | .blkCount => 0x034
  | .imgBase => 0x038
  | .strmBase => 0x03C
  | .strmCap => 0x040
  | .strmLen => 0x044
  | .blkSel => 0x048
  | .blkDone => 0x04C
  | .strmPtr => 0x050
  | .pcount => 0x054
  | .cbCount => 0x058
  | .cbIndex => 0x05C
  | .cbValue => 0x060
  | .cbCode => 0x064
  | .cbWeight => 0x068
  | .cbuf n => BitVec.ofNat 12 (0x100 + 4 * n.val)
  | .qbuf n => BitVec.ofNat 12 (0x200 + 4 * n.val)
  | .zbuf n => BitVec.ofNat 12 (0x300 + 4 * n.val)
  | .pbuf n => BitVec.ofNat 12 (0x400 + 4 * n.val)
  | .qmat n => BitVec.ofNat 12 (0x500 + 4 * n.val)
  | .zz n => BitVec.ofNat 12 (0x600 + 4 * n.val)
  | .baseq n => BitVec.ofNat 12 (0x700 + 4 * n.val)
  | .reserved => 0x06C

end Sys2Proof
end

