-- ==== Sys2Proof/Machine/State.lean ====
section
/-! DEFINITION. The state of the ICTC and of the agents around it, as plain data, and the state after reset
(spec 10_state.md R20 to R48, R52; 20_memory.md R70; 70_reset_and_hazards.md R230). -/

namespace Sys2Proof.Machine

/-- Why the machine stops with a fault. -/
inductive Fault where
  /-- Raised by a host store that lands in an image or stream region of the running command (U5): a race whose
  outcome the spec leaves unspecified. Safe. -/
  | regionRace
  deriving DecidableEq, Repr

/-- Why the machine refuses to go on. -/
inductive Refusal where
  /-- Raised by an arm of `exec` whose instruction has no meaning yet. Safe. -/
  | notModelled (mnemonic : String)
  /-- Raised by SEQ_COMPRESS and SEQ_DECOMPRESS when the image and the stream region overlap (U5, treatment `refuse`). Safe. -/
  | regionsOverlap
  /-- Raised by a host register access while the reset input is asserted (U10, treatment `refuse`). Safe. -/
  | accessDuringReset
  deriving DecidableEq, Repr

/-- The error names of R201; ERRCODE 0 (NONE) is no error and code 15 is reserved. -/
inductive ErrCode where
  | invalidQuality | corruptBlockCount | corruptRunSum | unknownCode | corruptCodebook | illegalCommand
  | invalidGeometry | streamOverflow | codebookFull | pairForm | qmatInvalid | busError | unknownValue
  | cbIndexRange
  deriving DecidableEq, Repr

/-- The phase of a sequence (R48). -/
inductive Phase where
  | none | blocks | build | subst | validate
  deriving DecidableEq, Repr

/-- A transaction of the ICTC: a master-port access (R73) or a transform request (R121). -/
inductive Request where
  | read8 (a : Addr)
  | read32 (a : Addr)
  | write8 (a : Addr) (v : Byte)
  | write32 (a : Addr) (w : Word)
  | txFwd (x : Block 32)
  | txInv (x : Block 32)
  deriving DecidableEq, Repr

/-- The Sequencer's hidden state (R48); `cmd = none` is `idle`, so BUSY is `cmd.isSome` (log 19). -/
structure Sequencer where
  cmd      : Option Word
  phase    : Phase
  row      : Nat
  col      : Nat
  j        : Nat
  sum      : Nat
  inflight : Option Request
  deriving DecidableEq, Repr

/-- The Sequencer with no command. R52 gives `cmd = idle` and nothing in flight; R48 says that `phase`, `cur`, `j` and `sum` are
reset at the start of a command and gives no values: no phase, block (0, 0), 0 and 0 are the model's choice (log 25). -/
def Sequencer.idle : Sequencer :=
  { cmd := none, phase := .none, row := 0, col := 0, j := 0, sum := 0, inflight := none }

/-- One codebook entry (R40). -/
structure Entry where
  value  : Value
  weight : BitVec 32
  code   : Option Code
  deriving DecidableEq, Repr

/-- The STATUS flags but BUSY (R27), and the error record (R28, R29). -/
structure Status where
  done    : Bool
  err     : Bool
  sat     : Bool
  ovf     : Bool
  qv      : Bool
  errCode : BitVec 4
  errInfo : Word
  deriving DecidableEq, Repr

/-- The host-visible registers with storage of their own (R26, R31, R32, R34 to R37, R39). -/
structure Regs where
  irqEn    : Bool
  quality  : BitVec 8
  width    : BitVec 16
  height   : BitVec 16
  imgBase  : Addr
  strmBase : BitVec 30
  strmCap  : BitVec 32
  strmLen  : BitVec 32
  blkRow   : BitVec 14
  blkCol   : BitVec 14
  blkDone  : BitVec 32
  strmPtr  : BitVec 32
  cbIndex  : BitVec 16
  cbValue  : Value
  cbCode   : Code
  cbWeight : BitVec 32
  deriving DecidableEq, Repr

/-- How the Memory agent answers one master-port access (R77, R84; log 6). -/
inductive MemResponse where
  /-- As ordinary memory does (R74). -/
  | ordinary
  /-- A read is answered with this word instead (U4, "reads return whatever the Memory agent returns"). -/
  | returns (w : Word)
  /-- An error response; `landed` says whether a write so answered changed memory (U7). -/
  | error (landed : Bool)
  deriving DecidableEq, Repr

/-- One transaction of the host (R17, R49, R230). -/
inductive HostOp where
  /-- A register-port write with its byte strobes. -/
  | write (off : BitVec 12) (strb : BitVec 4) (data : Word)
  /-- A register-port read. -/
  | read (off : BitVec 12)
  /-- The host's own store of a byte to external memory (MEM8 of R102). -/
  | store (a : Addr) (b : Byte)
  /-- The reset input `rst` is asserted. -/
  | assertReset
  /-- The reset input `rst` is released. -/
  | releaseReset
  deriving DecidableEq, Repr

/-- A host transaction still to come. `gap = none`: it waits until the Sequencer is idle. `gap = some k`: it lands
while the running command's k-th transaction from here is outstanding (at once for 0), or once idle (log 2). -/
structure HostEvent where
  gap : Option Nat
  op  : HostOp
  deriving DecidableEq, Repr

/-- A response of the host register port (R49); a write's data is 0. -/
structure HostResponse where
  error : Bool
  data  : Word
  deriving DecidableEq, Repr

/-- The whole machine. -/
structure State where
  regs    : Regs
  status  : Status
  cbuf    : Block 32
  qbuf    : Block 16
  zbuf    : Block 16
  pbuf    : Block 32
  pcount  : BitVec 7
  qmat    : Block 16
  cb      : List Entry
  seq     : Sequencer
  /-- External memory (R70): see `Memory.wf`. -/
  mem     : List Host.Cell
  /-- The Memory agent's answers to the coming master-port accesses; when it runs out, `ordinary`. -/
  memResp : List MemResponse
  /-- The transactions issued so far, newest first (R78, R180). -/
  busLog  : List Request
  /-- The level of the reset input (R230). -/
  rst     : Bool
  hostIn  : List HostEvent
  /-- The host port's responses so far, newest first. -/
  hostOut : List HostResponse
  /-- How many free values have been drawn (log 7). -/
  draws   : Nat
  /-- `P_CB_DEPTH` of this build less one (R3, R7): a parameter, which no step changes (R18; log 22). -/
  cbDepthLessOne : Fin 65536
  deriving DecidableEq, Repr

/-- The registers after reset (R52). -/
def Regs.reset : Regs :=
  { irqEn := false, quality := 0, width := 0, height := 0, imgBase := 0, strmBase := 0, strmCap := 0, strmLen := 0
    blkRow := 0, blkCol := 0, blkDone := 0, strmPtr := 0
    cbIndex := 0, cbValue := 0, cbCode := { len := 0, bits := 0 }, cbWeight := 0 }

/-- The flags and the error record after reset (R52). -/
def Status.reset : Status :=
  { done := false, err := false, sat := false, ovf := false, qv := false, errCode := 0, errInfo := 0 }

/-- The machine right after the power-up reset (R52, R230), of the reference build (R7). The buffers' zeros are the model's own
choice (log 3). -/
def State.reset : State :=
  { regs := Regs.reset
    status := Status.reset
    cbuf := Vector.replicate 64 0
    qbuf := Vector.replicate 64 0
    zbuf := Vector.replicate 64 0
    pbuf := Vector.replicate 64 0
    pcount := 0
    qmat := Vector.replicate 64 0
    cb := []
    seq := Sequencer.idle
    mem := []
    memResp := []
    busLog := []
    rst := false
    hostIn := []
    hostOut := []
    draws := 0
    cbDepthLessOne := Config.referenceDepthLessOne }

end Sys2Proof.Machine
end

