-- ==== Sys2Proof/Machine/Operands.lean ====
section
/-! DEFINITION. The operand forms: conversion primitives (spec 00_scope.md R11), block indices (R13, R14), pair words and
codes (30_encoding.md R94, R95), derived geometry (10_state.md R33), addresses (20_memory.md R75), the fixed tables (R46, R47). -/

namespace Sys2Proof.Machine

/-- `floorDiv(a, b)` for `b > 0` (R11): the greatest integer `q` with `q·b <= a`. -/
def floorDiv (a b : Int) : Int := a / b

/-- `clamp(v, lo, hi)` (R11). -/
def clamp (v lo hi : Int) : Int := min hi (max lo v)

/-- `bitlen(r)` (R11): the number of bits of `r` without leading zeros, `bitlen(0) = 0`. -/
def bitlen (r : Nat) : Nat := if r = 0 then 0 else Nat.log2 r + 1

/-- An unsigned 32-bit pattern of a natural number (`pat_32`, R11), as ERRINFO takes it (R200). -/
def pat32 (v : Nat) : Word := BitVec.ofNat 32 v

/-! ### Pair words (R94) -/

/-- SYM, bits [15:0]. -/
def symField (w : Word) : BitVec 16 := w.extractLsb' 0 16

/-- LEN, bits [20:16]: 0 is value form, anything else code form. -/
def lenField (w : Word) : BitVec 5 := w.extractLsb' 16 5

/-- RUN, bits [27:21]. -/
def runField (w : Word) : BitVec 7 := w.extractLsb' 21 7

/-- EOB, bit [31]. -/
def eobField (w : Word) : Bool := w.getLsbD 31

/-- The word `{EOB, 0b000, RUN[6:0], LEN[4:0], SYM[15:0]}` (R94). -/
def pairWord (eob : Bool) (run : BitVec 7) (len : BitVec 5) (sym : BitVec 16) : Word :=
  (BitVec.ofBool eob).setWidth 32 <<< 31 ||| run.setWidth 32 <<< 21 ||| len.setWidth 32 <<< 16 ||| sym.setWidth 32

/-- What a host write to PBUF stores: bits [31] and [27:0], and 0 in bits [30:28] (R44); also `{w[31], 0b000, w[27:0]}` of R183. -/
def maskPair (w : Word) : Word := w &&& 0x8FFFFFFF

/-! ### Codes (R95) -/

/-- The code of rank `r` (R95): `(max(1, bitlen(r)), r)`. -/
def rankCode (r : Nat) : Code := { len := BitVec.ofNat 5 (max 1 (bitlen r)), bits := BitVec.ofNat 16 r }

/-- The CB_CODE register's word: LEN in [20:16], BITS in [15:0] (R39). -/
def codeWord (c : Code) : Word := c.len.setWidth 32 <<< 16 ||| c.bits.setWidth 32

/-! ### Block cells (R13) and the fixed tables -/

/-- The row of natural index `n` (`n[5:3]`, R13). -/
def cellRow (n : Nat) : Nat := n / 8

/-- The column of natural index `n` (`n[2:0]`, R13). -/
def cellCol (n : Nat) : Nat := n % 8

/-- The ZZ table in order of `k` (R130). -/
def zzTable : Vector (Fin 64) 64 :=
  #v[0, 8, 1, 2, 9, 16, 24, 17, 10, 3, 4, 11, 18, 25, 32, 40,
     33, 26, 19, 12, 5, 6, 13, 20, 27, 34, 41, 48, 56, 49, 42, 35,
     28, 21, 14, 7, 15, 22, 29, 36, 43, 50, 57, 58, 51, 44, 37, 30,
     23, 31, 38, 45, 52, 59, 60, 53, 46, 39, 47, 54, 61, 62, 55, 63]

/-- The inverse grid, row by row (R131). -/
def zzInvTable : Vector (Fin 64) 64 :=
  #v[0, 2, 3, 9, 10, 20, 21, 35,
     1, 4, 8, 11, 19, 22, 34, 36,
     5, 7, 12, 18, 23, 33, 37, 48,
     6, 13, 17, 24, 32, 38, 47, 49,
     14, 16, 25, 31, 39, 46, 50, 57,
     15, 26, 30, 40, 45, 51, 56, 58,
     27, 29, 41, 44, 52, 55, 59, 62,
     28, 42, 43, 53, 54, 60, 61, 63]

/-- `ZZ[k]` (R130). -/
def zz (k : Fin 64) : Fin 64 := zzTable[k]

/-- `ZZINV[n]` (R131). -/
def zzInv (n : Fin 64) : Fin 64 := zzInvTable[n]

/-- `BASEQ[n]`, an integer in 1..255 (R47). -/
def baseq (n : Fin 64) : Nat := Config.baseTableLessOne[n].val + 1

/-! ### Derived geometry (R33) -/

/-- WIDTH8. -/
def width8 (r : Regs) : Nat := (r.width.toNat + 7) / 8 * 8

/-- HEIGHT8. -/
def height8 (r : Regs) : Nat := (r.height.toNat + 7) / 8 * 8

/-- BLK_COLS. -/
def blkCols (r : Regs) : Nat := width8 r / 8

/-- BLK_ROWS. -/
def blkRows (r : Regs) : Nat := height8 r / 8

/-- BLK_COUNT. -/
def blkCount (r : Regs) : Nat := blkCols r * blkRows r

/-- The BLK_SEL word: ROW in [29:16], COL in [13:0], zeros elsewhere (R36). -/
def blkSelWord (r : Regs) : Word := r.blkRow.setWidth 32 <<< 16 ||| r.blkCol.setWidth 32

/-- `(HEIGHT << 16) | WIDTH`, the ERRINFO of the size check (R172). -/
def sizeWord (r : Regs) : Word := r.height.setWidth 32 <<< 16 ||| r.width.setWidth 32

/-! ### Addresses and regions (R75, R76) -/

/-- A padded-grid position inside the image (R170). -/
def inBounds (r : Regs) (y x : Nat) : Bool := decide (y < r.height.toNat) && decide (x < r.width.toNat)

/-- `pixAddr(y, x) = (IMG_BASE + y·WIDTH + x) mod 2^32` (R170). -/
def pixAddr (r : Regs) (y x : Nat) : Addr := r.imgBase + BitVec.ofNat 32 (y * r.width.toNat + x)

/-- The byte address of stream word 0, `{STRM_BASE.ADDR, 0b00}` (R35). -/
def strmBaseByte (r : Regs) : Addr := r.strmBase.setWidth 32 <<< 2

/-- `strmAddr(j)` (R75): `(STRM_BASE_byte + 4·j) mod 2^32`. -/
def strmAddr (r : Regs) (j : Nat) : Addr := strmBaseByte r + BitVec.ofNat 32 (4 * j)

/-- A region of external memory: its first byte and its length in bytes; it may wrap (R75). -/
structure Region where
  base : Addr
  len  : Nat
  deriving DecidableEq, Repr

/-- Whether a byte address lies in a region. -/
def inRegion (g : Region) (a : Addr) : Bool := decide ((a - g.base).toNat < g.len)

/-- Whether two regions have a byte in common: one of them starts inside the other. -/
def overlaps (g h : Region) : Bool :=
  decide (0 < g.len) && decide (0 < h.len) && (inRegion g h.base || inRegion h g.base)

/-- The image region: `WIDTH·HEIGHT` bytes at IMG_BASE (R76). -/
def imageRegion (r : Regs) : Region := { base := r.imgBase, len := r.width.toNat * r.height.toNat }

/-- The stream region of SEQ_COMPRESS: STRM_CAP words (R76). -/
def streamRegionCap (r : Regs) : Region := { base := strmBaseByte r, len := 4 * r.strmCap.toNat }

/-- The stream region of SEQ_DECOMPRESS: STRM_LEN words (R76). -/
def streamRegionLen (r : Regs) : Region := { base := strmBaseByte r, len := 4 * r.strmLen.toNat }

/-! ### The pair buffer and the codebook as lists -/

/-- `P_CB_DEPTH` of this build, in 1..65536 (R7; log 22). -/
def State.cbDepth (s : State) : Nat := s.cbDepthLessOne.val + 1

/-- The current run-length sequence, `PBUF[0..PCOUNT)` (R38). -/
def validPairs (s : State) : List Word := s.pbuf.toList.take s.pcount.toNat

/-- A buffer whose first elements are replaced by a list; elements past the list keep their contents. -/
def overwrite {w : Nat} (b : Block w) (xs : List (BitVec w)) : Block w := Vector.ofFn fun i => xs[i.val]?.getD b[i]

/-- A buffer filled from a list, 0 where the list ends. -/
def fromList {w : Nat} (xs : List (BitVec w)) : Block w := Vector.ofFn fun i => xs[i.val]?.getD 0

/-- `lookupValue(v)` (R40). -/
def lookupValue (cb : List Entry) (v : Value) : Option Entry := cb.find? fun e => e.value == v

/-- `lookupCode(L, B)` (R40). -/
def lookupCode (cb : List Entry) (c : Code) : Option Entry := cb.find? fun e => e.code == some c

end Sys2Proof.Machine
end

