-- ==== Sys2Proof/Machine/Flags.lean ====
section
/-! DEFINITION. The flag computations: saturation (spec 00_scope.md R11, 40_quantization.md R111, R112), the STATUS word and
its write-1-to-clear bits (10_state.md R27), CTRL (R26) and the interrupt output (60_exceptions.md R210). -/

namespace Sys2Proof.Machine

/-- `sat_N(v)` (R11). -/
def sat (n : Nat) (v : Int) : Int := min (2 ^ (n - 1) - 1) (max (-(2 ^ (n - 1))) v)

/-- `overflowed_N(v)` (R11). -/
def overflowed (n : Nat) (v : Int) : Bool := decide (v < -(2 ^ (n - 1))) || decide (2 ^ (n - 1) - 1 < v)

/-- The `N`-bit pattern of the saturated value, `pat_N(sat_N(v))` (R111, R112). -/
def satPat (n : Nat) (v : Int) : BitVec n := BitVec.ofInt n (sat n v)

/-- BUSY (R27): a command is being executed (R48). -/
def State.busy (s : State) : Bool := s.seq.cmd.isSome

/-- Bit `i` of a word, set or clear. -/
def bit (b : Bool) (i : Nat) : Word := (BitVec.ofBool b).setWidth 32 <<< i

/-- The STATUS word (R27). -/
def statusWord (s : State) : Word :=
  bit s.busy 0 ||| bit s.status.done 1 ||| bit s.status.err 2 ||| bit s.status.sat 3 ||| bit s.status.ovf 4 ||| bit s.status.qv 5

/-- A write to STATUS: writing 1 clears DONE, ERR, SAT, OVF; BUSY and QV are read-only (R27). -/
def Status.writeOneToClear (st : Status) (w : Word) : Status :=
  { st with
    done := st.done && !w.getLsbD 1
    err := st.err && !w.getLsbD 2
    sat := st.sat && !w.getLsbD 3
    ovf := st.ovf && !w.getLsbD 4 }

/-- The CTRL word: SRST reads 0, IRQ_EN in bit [1] (R26). -/
def ctrlWord (r : Regs) : Word := bit r.irqEn 1

/-- The interrupt output (R210). -/
def State.irq (s : State) : Bool := s.regs.irqEn && (s.status.done || s.status.err)

end Sys2Proof.Machine
end

