-- ==== Sys2Proof/Machine/Ops.lean ====
section
/-! DEFINITION. The shared operations: external memory (spec 20_memory.md R71), command issue and completion (10_state.md R30,
46_sequencer.md R180), raising an error (60_exceptions.md R200), reset (70_reset_and_hazards.md R230, R231), free values, and
the result type of a running command with its loops. -/

namespace Sys2Proof.Machine

/-! ### External memory -/

/-- What an address the memory does not list reads as (log 5). -/
def unlistedByte : Byte := 0

/-- The byte at an address. -/
def memGet : List Host.Cell → Nat → Byte
  | [], _ => unlistedByte
  | (k, v) :: m, a => if k = a then v else memGet m a

/-- Put a byte in front of a memory whose addresses are all higher, keeping the canonical form. -/
def memCons (a : Nat) (b : Byte) (m : List Host.Cell) : List Host.Cell := if b = unlistedByte then m else (a, b) :: m

/-- Store a byte, keeping the canonical form. -/
def memSet : List Host.Cell → Nat → Byte → List Host.Cell
  | [], a, b => memCons a b []
  | (k, v) :: m, a, b =>
    if a < k then memCons a b ((k, v) :: m)
    else if a = k then memCons a b m
    else (k, v) :: memSet m a b

/-- The canonical form above a lower bound: addresses rise strictly, stay below 2^32, and no entry is what an unlisted
address reads as. -/
def memWfFrom (lo : Nat) : List Host.Cell → Bool
  | [] => true
  | (k, v) :: m => decide (lo ≤ k) && decide (k < 2 ^ 32) && decide (v ≠ unlistedByte) && memWfFrom (k + 1) m

/-- The canonical form of external memory. -/
def Memory.wf (m : List Host.Cell) : Bool := memWfFrom 0 m

/-- `MemRead32(a)`, little-endian (R71). -/
def memGet32 (m : List Host.Cell) (a : Addr) : Word :=
  (memGet m a.toNat).setWidth 32 ||| (memGet m (a + 1).toNat).setWidth 32 <<< 8
    ||| (memGet m (a + 2).toNat).setWidth 32 <<< 16 ||| (memGet m (a + 3).toNat).setWidth 32 <<< 24

/-- `MemWrite32(a, w)`, little-endian (R71). -/
def memSet32 (m : List Host.Cell) (a : Addr) (w : Word) : List Host.Cell :=
  memSet (memSet (memSet (memSet m a.toNat (w.extractLsb' 0 8)) (a + 1).toNat (w.extractLsb' 8 8))
    (a + 2).toNat (w.extractLsb' 16 8)) (a + 3).toNat (w.extractLsb' 24 8)

/-! ### Issue, completion, error -/

/-- The number of each error (R201). -/
def ErrCode.number : ErrCode → BitVec 4
  | .invalidQuality => 1
  | .corruptBlockCount => 2
  | .corruptRunSum => 3
  | .unknownCode => 4
  | .corruptCodebook => 5
  | .illegalCommand => 6
  | .invalidGeometry => 7
  | .streamOverflow => 8
  | .codebookFull => 9
  | .pairForm => 10
  | .qmatInvalid => 11
  | .busError => 12
  | .unknownValue => 13
  | .cbIndexRange => 14

/-- Command issue (R30): BUSY is set, DONE, ERR, ERRCODE and ERRINFO are cleared, the Sequencer receives the word with
its hidden state reset (R48). -/
def State.issue (w : Word) (s : State) : State :=
  { s with
    seq := { Sequencer.idle with cmd := some w }
    status := { s.status with done := false, err := false, errCode := 0, errInfo := 0 } }

/-- Completion without an error (R180): BUSY falls, DONE is set, no hidden state survives (R48). -/
def State.complete (s : State) : State :=
  { s with seq := Sequencer.idle, status := { s.status with done := true } }

/-- `raise ERR(code, info)` (R200), the taking of an exception on this hardware: ERRCODE, ERRINFO, ERR and DONE are written
and BUSY falls. There is no control transfer and no return command (R204, R205): the record is erased by the next issue
(`State.issue`) or acknowledged by a write to STATUS (`Status.writeOneToClear`). -/
def State.raise (c : ErrCode) (info : Word) (s : State) : State :=
  { s with
    seq := Sequencer.idle
    status := { s.status with done := true, err := true, errCode := c.number, errInfo := info } }

/-! ### Free values (log 7) and reset -/

/-- A block of free values of one draw, elements numbered from `base`. -/
@[irreducible] def freeBlock (w draw base : Nat) : Block w := Vector.ofFn fun n => Config.freeBits w draw (base + n.val)

/-- CBUF unspecified (U7). -/
def State.freeCbuf (s : State) : State := { s with cbuf := freeBlock 32 s.draws 0, draws := s.draws + 1 }

/-- A free PCOUNT, any value in 0..64 (U8). -/
def freePcount (draw : Nat) : BitVec 7 := BitVec.ofNat 7 ((Config.freeBits 32 draw 320).toNat % 65)

/-- The scratch buffers and PCOUNT unspecified (U8). -/
def State.freeScratch (s : State) : State :=
  { s with
    cbuf := freeBlock 32 s.draws 0
    qbuf := freeBlock 16 s.draws 64
    zbuf := freeBlock 16 s.draws 128
    pbuf := freeBlock 32 s.draws 192
    pcount := freePcount s.draws
    draws := s.draws + 1 }

/-- Whether a write outstanding at a reset is performed: either outcome (U9; log 12). -/
def freeLanded (draw : Nat) : Bool := Config.freeBits 1 draw 321 == 1

/-- What a host read returns while BUSY at an offset that is not live (U3). -/
def freeRead (draw : Nat) : Word := Config.freeBits 32 draw 322

/-- External memory after a reset: unchanged (R232), but an outstanding write may or may not be performed (R231 step 3; logs 12
and 29: if it is, at the reset itself, which R231 does not say). -/
def memAfterAbandon (s : State) : List Host.Cell :=
  match s.seq.inflight with
  | some (.write8 a v) => if freeLanded s.draws then memSet s.mem a.toNat v else s.mem
  | some (.write32 a w) => if freeLanded s.draws then memSet32 s.mem a w else s.mem
  | _ => s.mem

/-- The Memory agent's coming answers after a reset: the response of an outstanding access is discarded (R231 step 2). -/
def memRespAfterAbandon (s : State) : List MemResponse :=
  match s.seq.inflight with
  | some (.read8 _) | some (.read32 _) | some (.write8 _ _) | some (.write32 _ _) => s.memResp.tail
  | _ => s.memResp

/-- What a soft reset and the reset input do (R52, R230, R231): a running command is abandoned, every piece of the ICTC's
state takes its value of R52, the unspecified ones a free value (U1, U2); the build (R18), external memory and the agents around
are not touched (R232). -/
def State.resetIctc (s : State) : State :=
  { State.reset with
    cbuf := freeBlock 32 s.draws 0
    qbuf := freeBlock 16 s.draws 64
    zbuf := freeBlock 16 s.draws 128
    pbuf := freeBlock 32 s.draws 192
    qmat := freeBlock 16 s.draws 256
    mem := memAfterAbandon s
    memResp := memRespAfterAbandon s
    busLog := s.busLog
    rst := s.rst
    hostIn := s.hostIn
    hostOut := s.hostOut
    draws := s.draws + 1
    cbDepthLessOne := s.cbDepthLessOne }

/-! ### A running command -/

/-- Where a running command, or a piece of it, stands. -/
inductive Run (α : Type) where
  /-- It goes on, with a result. -/
  | ok (a : α) (s : State)
  /-- It reached `raise ERR(code, info)` (R200). -/
  | raised (c : ErrCode) (info : Word) (s : State)
  /-- A reset abandoned it (R231). -/
  | abandoned (s : State)
  | fault (f : Fault)
  | refused (r : Refusal)

/-- Sequencing: the second piece runs if the first goes on. -/
def Run.bind {α β : Type} (r : Run α) (f : α → State → Run β) : Run β :=
  match r with
  | .ok a s => f a s
  | .raised c info s => .raised c info s
  | .abandoned s => .abandoned s
  | .fault x => .fault x
  | .refused x => .refused x

/-- `for n in start..start+k-1: body` (R12: in that order). -/
def forCount (body : Nat → State → Run Unit) : Nat → Nat → State → Run Unit
  | 0, _, s => .ok () s
  | k + 1, n, s => (body n s).bind fun _ s => forCount body k (n + 1) s

/-- A check that reads no memory: it gives a value, or the error to raise. -/
def ofCheck {α : Type} (r : Except (ErrCode × Word) α) (s : State) : Run α :=
  match r with
  | .ok a => .ok a s
  | .error e => .raised e.1 e.2 s

/-- A change of the state made when a command ends, with or without an error. -/
def Run.atEnd {α : Type} (r : Run α) (onOk : State → State) (onRaise : ErrCode → State → State) : Run α :=
  match r with
  | .ok a s => .ok a (onOk s)
  | .raised c info s => .raised c info (onRaise c s)
  | .abandoned s => .abandoned s
  | .fault x => .fault x
  | .refused x => .refused x

/-- The end of a command (R180): completion, or the record of its error; an abandoned command performs no completion (R231). -/
def finish (r : Run Unit) : Host.Outcome State Fault Refusal :=
  match r with
  | .ok _ s => .next s.complete
  | .raised c info s => .next (s.raise c info)
  | .abandoned s => .next s
  | .fault x => .fault x
  | .refused x => .refused x

end Sys2Proof.Machine
end

