-- ==== Sys2Proof/Machine/HostPort.lean ====
section
/-! DEFINITION. The host's side: the register port (spec 10_state.md R24 to R50), soft reset, the reset input
(70_reset_and_hazards.md R230, R231) and the host's own memory stores (00_scope.md R17). -/

namespace Sys2Proof.Machine

/-- What a register or window element reads as (R25 to R47). Reserved offsets and CMD read 0 (R24, R30). -/
def regRead (r : HostReg) (s : State) : Word :=
  match r with
  | .id => Config.idValue
  | .ctrl => ctrlWord s.regs
  | .status => statusWord s
  | .errCode => s.status.errCode.setWidth 32
  | .errInfo => s.status.errInfo
  | .cmd => 0
  | .quality => s.regs.quality.setWidth 32
  | .width => s.regs.width.setWidth 32
  | .height => s.regs.height.setWidth 32
  | .width8 => BitVec.ofNat 32 (width8 s.regs)
  | .height8 => BitVec.ofNat 32 (height8 s.regs)
  | .blkCols => BitVec.ofNat 32 (blkCols s.regs)
  | .blkRows => BitVec.ofNat 32 (blkRows s.regs)
  | .blkCount => BitVec.ofNat 32 (blkCount s.regs)
  | .imgBase => s.regs.imgBase
  | .strmBase => strmBaseByte s.regs
  | .strmCap => s.regs.strmCap
  | .strmLen => s.regs.strmLen
  | .blkSel => blkSelWord s.regs
  | .blkDone => s.regs.blkDone
  | .strmPtr => s.regs.strmPtr
  | .pcount => s.pcount.setWidth 32
  | .cbCount => BitVec.ofNat 32 s.cb.length
  | .cbIndex => s.regs.cbIndex.setWidth 32
  | .cbValue => s.regs.cbValue.setWidth 32
  | .cbCode => codeWord s.regs.cbCode
  | .cbWeight => s.regs.cbWeight
  | .cbuf n => s.cbuf[n]
  | .qbuf n => s.qbuf[n].signExtend 32
  | .zbuf n => s.zbuf[n].signExtend 32
  | .pbuf n => s.pbuf[n]
  | .qmat n => s.qmat[n].setWidth 32
  | .zz k => BitVec.ofNat 32 (zz k).val
  | .baseq n => BitVec.ofNat 32 (baseq n)
  | .reserved => 0

/-- A write to CTRL (R26): SRST = 1 performs the soft reset and leaves IRQ_EN 0, else bit [1] is IRQ_EN. -/
def writeCtrl (w : Word) (s : State) : State :=
  if w.getLsbD 0 then s.resetIctc else { s with regs := { s.regs with irqEn := w.getLsbD 1 } }

/-- A write to PCOUNT (R38): `w[6:0]` is stored when it is at most 64, else nothing changes. -/
def writePcount (w : Word) (s : State) : State :=
  let v : BitVec 7 := w.extractLsb' 0 7
  if v.toNat ≤ 64 then { s with pcount := v } else s

/-- What a write stores (R26 to R47). Writes to read-only registers, tables and reserved offsets are ignored. -/
def regWrite (r : HostReg) (w : Word) (s : State) : State :=
  match r with
  | .ctrl => writeCtrl w s
  | .status => { s with status := s.status.writeOneToClear w }
  | .cmd => s.issue w
  | .quality => { s with regs := { s.regs with quality := w.extractLsb' 0 8 } }
  | .width => { s with regs := { s.regs with width := w.extractLsb' 0 16 } }
  | .height => { s with regs := { s.regs with height := w.extractLsb' 0 16 } }
  | .imgBase => { s with regs := { s.regs with imgBase := w } }
  | .strmBase => { s with regs := { s.regs with strmBase := w.extractLsb' 2 30 } }
  | .strmCap => { s with regs := { s.regs with strmCap := w } }
  | .strmLen => { s with regs := { s.regs with strmLen := w } }
  | .blkSel => { s with regs := { s.regs with blkRow := w.extractLsb' 16 14, blkCol := w.extractLsb' 0 14 } }
  | .pcount => writePcount w s
  | .cbIndex => { s with regs := { s.regs with cbIndex := w.extractLsb' 0 16 } }
  | .cbValue => { s with regs := { s.regs with cbValue := w.extractLsb' 0 16 } }
  | .cbCode => { s with regs := { s.regs with cbCode := { len := w.extractLsb' 16 5, bits := w.extractLsb' 0 16 } } }
  | .cbuf n => { s with cbuf := s.cbuf.set n w }
  | .qbuf n => { s with qbuf := s.qbuf.set n (w.extractLsb' 0 16) }
  | .zbuf n => { s with zbuf := s.zbuf.set n (w.extractLsb' 0 16) }
  | .pbuf n => { s with pbuf := s.pbuf.set n (maskPair w) }
  | .id | .errCode | .errInfo | .width8 | .height8 | .blkCols | .blkRows | .blkCount | .blkDone | .strmPtr
  | .cbCount | .cbWeight => s
  | .qmat _ | .zz _ | .baseq _ | .reserved => s

/-- The registers whose current value a read returns while BUSY = 1 (R50). -/
def liveWhileBusy : HostReg → Bool
  | .id | .ctrl | .status | .blkDone | .strmPtr => true
  | _ => false

/-- The registers a write reaches while BUSY = 1 (R50). -/
def writableWhileBusy : HostReg → Bool
  | .ctrl | .status => true
  | _ => false

/-- A response of the host port. -/
def State.reply (error : Bool) (data : Word) (s : State) : State :=
  { s with hostOut := { error := error, data := data } :: s.hostOut }

/-- A host read (R49, R50). -/
def hostRead (off : BitVec 12) (s : State) : State :=
  if !alignedOffset off then s.reply true 0
  else if s.busy && !liveWhileBusy (decodeOffset off) then { s.reply false (freeRead s.draws) with draws := s.draws + 1 }
  else s.reply false (regRead (decodeOffset off) s)

/-- A host write (R49, R50): a malformed one gets an error response and changes nothing else; while BUSY one that is not to
CTRL or STATUS is dropped and sets OVF. -/
def hostWrite (off : BitVec 12) (strb : BitVec 4) (w : Word) (s : State) : State :=
  if !alignedOffset off || !fullStrobe strb then s.reply true 0
  else if s.busy && !writableWhileBusy (decodeOffset off) then
    { s.reply false 0 with status := { s.status with ovf := true } }
  else (regWrite (decodeOffset off) w s).reply false 0

/-- The regions of the running command (R76). -/
def commandRegions (s : State) : List Region :=
  match s.seq.cmd.map decode with
  | some (.ok .padFetch) | some (.ok .cropStore) => [imageRegion s.regs]
  | some (.ok .seqCompress) => [imageRegion s.regs, streamRegionCap s.regs]
  | some (.ok .seqDecompress) => [imageRegion s.regs, streamRegionLen s.regs]
  | _ => []

/-- One transaction of the host lands. -/
def hostOp (op : HostOp) (s : State) : Host.Outcome State Fault Refusal :=
  match op with
  | .read off => if s.rst then .refused .accessDuringReset else .next (hostRead off s)
  | .write off strb w => if s.rst then .refused .accessDuringReset else .next (hostWrite off strb w s)
  | .store a b =>
    if (commandRegions s).any fun g => inRegion g a then .fault .regionRace
    else .next { s with mem := memSet s.mem a.toNat b }
  | .assertReset => .next { s.resetIctc with rst := true }
  | .releaseReset => if s.rst then .next { s.resetIctc with rst := false } else .next s

end Sys2Proof.Machine
end

