-- ==== Sys2Proof/Machine/Bus.lean ====
section
/-! DEFINITION. The transactions of a running command: master-port accesses (spec 20_memory.md R71, R78, R84) and transform
requests (41_transform_port.md R121, R122), with the host transactions that land while one is outstanding (log 1, log 2). -/

namespace Sys2Proof.Machine

/-- A transaction has been issued: the next host transaction that lands during the command is one transaction nearer. -/
def countDown : List HostEvent → List HostEvent
  | { gap := some (k + 1), op := op } :: rest => { gap := some k, op := op } :: rest
  | q => q

/-- The host transactions that are due land, in order; a reset among them abandons the command (R231). -/
def landDue : List HostEvent → State → Run Unit
  | { gap := some 0, op := op } :: rest, s =>
    match hostOp op { s with hostIn := rest } with
    | .next s' => if s'.busy then landDue rest s' else .abandoned s'
    | .fault f => .fault f
    | .refused r => .refused r
  | _, s => .ok () s

/-- The Sequencer issues a transaction and waits for its response (R78, R122). -/
def request (r : Request) (s : State) : Run Unit :=
  let q := countDown s.hostIn
  landDue q { s with seq := { s.seq with inflight := some r }, busLog := r :: s.busLog, hostIn := q }

/-- The response has come: nothing is outstanding, and for a master-port access the Memory agent's answer is used up. -/
def State.answered (s : State) : State := { s with seq := { s.seq with inflight := none }, memResp := s.memResp.tail }

/-- `MemRead8(a)` (R71, R84). -/
def memRead8 (a : Addr) (s : State) : Run Byte :=
  (request (.read8 a) s).bind fun _ s =>
    match s.memResp.headD .ordinary with
    | .ordinary => .ok (memGet s.mem a.toNat) s.answered
    | .returns w => .ok (w.extractLsb' 0 8) s.answered
    | .error _ => .raised .busError a s.answered

/-- `MemRead32(a)` (R71, R84). -/
def memRead32 (a : Addr) (s : State) : Run Word :=
  (request (.read32 a) s).bind fun _ s =>
    match s.memResp.headD .ordinary with
    | .ordinary => .ok (memGet32 s.mem a) s.answered
    | .returns w => .ok w s.answered
    | .error _ => .raised .busError a s.answered

/-- How a write is answered: on an error response it may or may not have changed memory (R84, U7). -/
def answerWrite (a : Addr) (m : List Host.Cell) (s : State) : Run Unit :=
  match s.memResp.headD .ordinary with
  | .ordinary | .returns _ => .ok () { s.answered with mem := m }
  | .error landed => .raised .busError a { s.answered with mem := if landed then m else s.mem }

/-- `MemWrite8(a, v)` (R71, R84). -/
def memWrite8 (a : Addr) (v : Byte) (s : State) : Run Unit :=
  (request (.write8 a v) s).bind fun _ s => answerWrite a (memSet s.mem a.toNat v) s

/-- `MemWrite32(a, w)` (R71, R84). -/
def memWrite32 (a : Addr) (w : Word) (s : State) : Run Unit :=
  (request (.write32 a w) s).bind fun _ s => answerWrite a (memSet32 s.mem a w) s

/-- The all-zero block. -/
def zeroBlock : Block 32 := Vector.replicate 64 0

/-- `P_TX_FWD` (R120): a function of its 64 words that maps the all-zero block to itself (log 9). -/
def txFwd (x : Block 32) : Block 32 := if x = zeroBlock then zeroBlock else Config.txFwdNonzero x

/-- `P_TX_INV` (R120). -/
def txInv (x : Block 32) : Block 32 := if x = zeroBlock then zeroBlock else Config.txInvNonzero x

/-- The transform unit has answered; it has no error response (R121). -/
def State.transformed (y : Block 32) (s : State) : State := { s with cbuf := y, seq := { s.seq with inflight := none } }

end Sys2Proof.Machine
end

