-- ==== Sys2Proof/Machine/Codebook.lean ====
section
/-! DEFINITION. The codebook commands CB_CLEAR, CB_ACCUM, CB_BUILD, CB_ENCODE, CB_DECODE, CB_LOAD and CB_READ
(spec 44_codebook.md R151 to R157). -/

namespace Sys2Proof.Machine

/-- `body(CB_CLEAR)` (R151). -/
def bodyCbClear (s : State) : Run Unit := .ok () { s with cb := [] }

/-- The PAIR_FORM check of CB_ACCUM: the lowest index holding a code-form word (R152). -/
def valueFormCheck (i : Nat) : List Word → Except (ErrCode × Word) Unit
  | [] => .ok ()
  | w :: ws => if lenField w ≠ 0 then .error (.pairForm, pat32 i) else valueFormCheck (i + 1) ws

/-- The distinct values of a list that are not in `known`, in order of first occurrence (R152, `new`). -/
def newValues (known : List Value) : List Value → List Value
  | [] => []
  | v :: vs => if v ∈ known then newValues known vs else v :: newValues (v :: known) vs

/-- `min(2^32 - 1, weight + 1)` (R152). -/
def bumpWeight (w : BitVec 32) : BitVec 32 := if w = BitVec.allOnes 32 then w else w + 1

/-- Count one pair with value `v`: its entry gains weight, or a new entry of weight 1 and no code is appended (R152). -/
def countValue (v : Value) : List Entry → List Entry
  | [] => [{ value := v, weight := 1, code := none }]
  | e :: es => if e.value = v then { e with weight := bumpWeight e.weight } :: es else e :: countValue v es

/-- Count the pairs of a list of values, in order. -/
def countValues (vs : List Value) (cb : List Entry) : List Entry := vs.foldl (fun cb v => countValue v cb) cb

/-- CB_ACCUM on a codebook of capacity `depth` (R152; `P_CB_DEPTH` is a build's parameter, R7; log 22). -/
def accumulate (depth : Nat) (ws : List Word) (cb : List Entry) : Except (ErrCode × Word) (List Entry) :=
  match valueFormCheck 0 ws with
  | .error e => .error e
  | .ok _ =>
    let vs := ws.map symField
    let new := newValues (cb.map fun e => e.value) vs
    if depth < cb.length + new.length then .error (.codebookFull, ((new[depth - cb.length]?).getD 0).setWidth 32)
    else .ok (countValues vs cb)

/-- `body(CB_ACCUM)` (R152). -/
def bodyCbAccum (s : State) : Run Unit :=
  (ofCheck (accumulate s.cbDepth (validPairs s) s.cb) s).bind fun cb s => .ok () { s with cb := cb }

/-- The rank order: weight descending, then value ascending as a signed integer (R153). -/
def ranksBefore (e f : Entry) : Bool :=
  decide (f.weight.toNat < e.weight.toNat) || (e.weight == f.weight && decide (e.value.toInt ≤ f.value.toInt))

/-- The rank codes, from rank `r` on (R153). -/
def assignCodes (r : Nat) : List Entry → List Entry
  | [] => []
  | e :: es => { e with code := some (rankCode r) } :: assignCodes (r + 1) es

/-- CB_BUILD on a codebook: sort, then assign the rank codes (R153). -/
def buildCodebook (cb : List Entry) : List Entry := assignCodes 0 (cb.insertionSort fun e f => ranksBefore e f = true)

/-- `body(CB_BUILD)` (R153). -/
def bodyCbBuild (s : State) : Run Unit := .ok () { s with cb := buildCodebook s.cb }

/-- The code of a value, if it has an entry with one: the forward multiplexer (R153, R154). -/
def codeOf (cb : List Entry) (v : Value) : Option Code := (lookupValue cb v).bind fun e => e.code

/-- The code-form word of a pair (R154): EOB and RUN kept. -/
def encodedWord (c : Code) (w : Word) : Word := pairWord (eobField w) (runField w) c.len c.bits

/-- CB_ENCODE on the pairs from index `i` on (R154): every check precedes every write. -/
def encodePairs (cb : List Entry) (i : Nat) : List Word → Except (ErrCode × Word) (List Word)
  | [] => .ok []
  | w :: ws =>
    if lenField w ≠ 0 then .error (.pairForm, pat32 i)
    else
      match codeOf cb (symField w) with
      | none => .error (.unknownValue, pat32 i)
      | some c =>
        match encodePairs cb (i + 1) ws with
        | .error e => .error e
        | .ok rest => .ok (encodedWord c w :: rest)

/-- `body(CB_ENCODE)` (R154). -/
def bodyCbEncode (s : State) : Run Unit :=
  (ofCheck (encodePairs s.cb 0 (validPairs s)) s).bind fun ws s => .ok () { s with pbuf := overwrite s.pbuf ws }

/-- The value-form word of an entry of the codebook (R155): EOB and RUN kept. -/
def decodedWord (v : Value) (w : Word) : Word := pairWord (eobField w) (runField w) 0 v

/-- CB_DECODE on the pairs from index `i` on (R155): the match is on the whole code, LEN and BITS. -/
def decodePairs (cb : List Entry) (i : Nat) : List Word → Except (ErrCode × Word) (List Word)
  | [] => .ok []
  | w :: ws =>
    if lenField w = 0 then .error (.pairForm, pat32 i)
    else
      match lookupCode cb { len := lenField w, bits := symField w } with
      | none => .error (.unknownCode, pat32 i)
      | some e =>
        match decodePairs cb (i + 1) ws with
        | .error x => .error x
        | .ok rest => .ok (decodedWord e.value w :: rest)

/-- `body(CB_DECODE)` (R155). -/
def bodyCbDecode (s : State) : Run Unit :=
  (ofCheck (decodePairs s.cb 0 (validPairs s)) s).bind fun ws s => .ok () { s with pbuf := overwrite s.pbuf ws }

/-- CB_LOAD on a codebook of capacity `depth` (R156). -/
def loadEntry (depth : Nat) (v : Value) (c : Code) (cb : List Entry) : Except (ErrCode × Word) (List Entry) :=
  if !c.legal then .error (.corruptCodebook, pat32 cb.length)
  else if (lookupValue cb v).isSome || (lookupCode cb c).isSome then .error (.corruptCodebook, pat32 cb.length)
  else if cb.length = depth then .error (.codebookFull, v.setWidth 32)
  else .ok (cb ++ [{ value := v, weight := 0, code := some c }])

/-- `body(CB_LOAD)` (R156). -/
def bodyCbLoad (s : State) : Run Unit :=
  (ofCheck (loadEntry s.cbDepth s.regs.cbValue s.regs.cbCode s.cb) s).bind fun cb s => .ok () { s with cb := cb }

/-- `body(CB_READ)` (R157): no code reads as CB_CODE = 0. -/
def bodyCbRead (s : State) : Run Unit :=
  match s.cb[s.regs.cbIndex.toNat]? with
  | none => .raised .cbIndexRange (pat32 s.regs.cbIndex.toNat) s
  | some e => .ok () { s with
      regs := { s.regs with
        cbValue := e.value
        cbCode := e.code.getD { len := 0, bits := 0 }
        cbWeight := e.weight } }

/-- CB_CLEAR (R151). -/
def execCbClear (s : State) : Host.Outcome State Fault Refusal := finish (bodyCbClear s)

/-- CB_ACCUM (R152). -/
def execCbAccum (s : State) : Host.Outcome State Fault Refusal := finish (bodyCbAccum s)

/-- CB_BUILD (R153). -/
def execCbBuild (s : State) : Host.Outcome State Fault Refusal := finish (bodyCbBuild s)

/-- CB_ENCODE (R154). -/
def execCbEncode (s : State) : Host.Outcome State Fault Refusal := finish (bodyCbEncode s)

/-- CB_DECODE (R155). -/
def execCbDecode (s : State) : Host.Outcome State Fault Refusal := finish (bodyCbDecode s)

/-- CB_LOAD (R156). -/
def execCbLoad (s : State) : Host.Outcome State Fault Refusal := finish (bodyCbLoad s)

/-- CB_READ (R157). -/
def execCbRead (s : State) : Host.Outcome State Fault Refusal := finish (bodyCbRead s)

end Sys2Proof.Machine
end

