-- ==== Sys2Proof/Machine/Geometry.lean ====
section
/-! DEFINITION. PAD_FETCH and CROP_STORE (spec 45_geometry.md R170 to R174). -/

namespace Sys2Proof.Machine

/-- `checkGeometry(sel)` (R172): the size check before the selection check. -/
def checkGeometry (sel : Bool) (r : Regs) : Except (ErrCode × Word) Unit :=
  if r.width = 0 ∨ r.height = 0 then .error (.invalidGeometry, sizeWord r)
  else if sel && (decide (blkCols r ≤ r.blkCol.toNat) || decide (blkRows r ≤ r.blkRow.toNat)) then
    .error (.invalidGeometry, blkSelWord r)
  else .ok ()

/-- The padded-grid row of cell `n` of a block (R170). -/
def cellY (row n : Nat) : Nat := 8 * row + cellRow n

/-- The padded-grid column of cell `n` of a block (R170). -/
def cellX (col n : Nat) : Nat := 8 * col + cellCol n

/-- The Q23.8 sample of a pixel, `256 * p` (R173). -/
def sample (p : Byte) : Word := p.setWidth 32 <<< 8

/-- Cell `n` of PAD_FETCH: the image byte in bounds, 0 in the padding, with no access there (R170, R173). -/
def fetchCell (row col n : Nat) (s : State) : Run Unit :=
  if inBounds s.regs (cellY row n) (cellX col n) then
    (memRead8 (pixAddr s.regs (cellY row n) (cellX col n)) s).bind fun p s =>
      .ok () { s with cbuf := s.cbuf.setIfInBounds n (sample p) }
  else .ok () { s with cbuf := s.cbuf.setIfInBounds n (sample 0) }

/-- `body(PAD_FETCH)` of block `(row, col)`, after its geometry check (R173). -/
def fetchBlock (row col : Nat) (s : State) : Run Unit := forCount (fetchCell row col) 64 0 s

/-- The byte of a reconstructed sample, `clamp(floorDiv(sext_32(c) + 128, 256), 0, 255)` (R174). -/
def pixel (c : Word) : Byte := BitVec.ofInt 8 (clamp (floorDiv (c.toInt + 128) 256) 0 255)

/-- Cell `n` of CROP_STORE: a cell in the padding causes no access (R171, R174). -/
def storeCell (row col n : Nat) (s : State) : Run Unit :=
  if inBounds s.regs (cellY row n) (cellX col n) then
    memWrite8 (pixAddr s.regs (cellY row n) (cellX col n)) (pixel (s.cbuf[n]?.getD 0)) s
  else .ok () s

/-- `body(CROP_STORE)` of block `(row, col)`, after its geometry check (R174). -/
def storeBlock (row col : Nat) (s : State) : Run Unit := forCount (storeCell row col) 64 0 s

/-- CBUF is unspecified after a BUS_ERROR of PAD_FETCH (U7); a geometry error leaves it unchanged (R203). -/
def fetchFailed (c : ErrCode) (s : State) : State := if c = .busError then s.freeCbuf else s

/-- PAD_FETCH (R173). -/
def execPadFetch (s : State) : Host.Outcome State Fault Refusal :=
  finish (((ofCheck (checkGeometry true s.regs) s).bind fun _ s =>
    fetchBlock s.regs.blkRow.toNat s.regs.blkCol.toNat s).atEnd id fetchFailed)

/-- CROP_STORE (R174). -/
def execCropStore (s : State) : Host.Outcome State Fault Refusal :=
  finish ((ofCheck (checkGeometry true s.regs) s).bind fun _ s =>
    storeBlock s.regs.blkRow.toNat s.regs.blkCol.toNat s)

end Sys2Proof.Machine
end

