-- ==== Sys2Proof/Machine/Quantization.lean ====
section
/-! DEFINITION. QGEN, QUANT and DEQUANT (spec 40_quantization.md R110 to R112). -/

namespace Sys2Proof.Machine

/-- One entry of the quantization matrix, `max(1, t)` (R110). -/
def qgenEntry (b q : Nat) : Nat :=
  max 1 (if q < 50 then (b * 5000 + 50 * q) / (100 * q) else (b * (200 - 2 * q) + 50) / 100)

/-- Whether QUALITY.Q is legal, 1..100 (R31, R110). -/
def qualityLegal (r : Regs) : Bool := decide (1 ≤ r.quality.toNat) && decide (r.quality.toNat ≤ 100)

/-- `body(QGEN)` (R110). -/
def bodyQgen (s : State) : Run Unit :=
  if !qualityLegal s.regs then .raised .invalidQuality (pat32 s.regs.quality.toNat) s
  else .ok () { s with
    qmat := Vector.ofFn fun n => BitVec.ofNat 16 (qgenEntry (baseq n) s.regs.quality.toNat)
    status := { s.status with qv := true } }

/-- The exact quotient of QUANT before saturation: `floor(c/(256 d) + 1/2)` (R111). -/
def quantExact (c : Word) (d : BitVec 16) : Int := floorDiv (c.toInt + d.toNat * 128) (d.toNat * 256)

/-- The exact product of DEQUANT before saturation (R112). -/
def dequantExact (v : Value) (d : BitVec 16) : Int := v.toInt * d.toNat * 256

/-- Whether some element of a block has a property; SAT is set when one overflows. -/
def anyCell (p : Fin 64 → Bool) : Bool := (List.finRange 64).any p

/-- `body(QUANT)` (R111). -/
def bodyQuant (s : State) : Run Unit :=
  if !s.status.qv then .raised .qmatInvalid 0 s
  else .ok () { s with
    qbuf := Vector.ofFn fun n => satPat 16 (quantExact s.cbuf[n] s.qmat[n])
    status := { s.status with sat := s.status.sat || anyCell fun n => overflowed 16 (quantExact s.cbuf[n] s.qmat[n]) } }

/-- `body(DEQUANT)` (R112). -/
def bodyDequant (s : State) : Run Unit :=
  if !s.status.qv then .raised .qmatInvalid 0 s
  else .ok () { s with
    cbuf := Vector.ofFn fun n => satPat 32 (dequantExact s.qbuf[n] s.qmat[n])
    status := { s.status with sat := s.status.sat || anyCell fun n => overflowed 32 (dequantExact s.qbuf[n] s.qmat[n]) } }

/-- QGEN (R110). -/
def execQgen (s : State) : Host.Outcome State Fault Refusal := finish (bodyQgen s)

/-- QUANT (R111). -/
def execQuant (s : State) : Host.Outcome State Fault Refusal := finish (bodyQuant s)

/-- DEQUANT (R112). -/
def execDequant (s : State) : Host.Outcome State Fault Refusal := finish (bodyDequant s)

end Sys2Proof.Machine
end

