-- ==== Sys2Proof/Machine/Rle.lean ====
section
/-! DEFINITION. RLE_ENC and RLE_DEC (spec 43_rle.md R140, R141). -/

namespace Sys2Proof.Machine

/-- The runs of a sequence, in order: maximal groups of equal neighbours with their counts (R140). -/
def runs : List Value → List (Value × Nat)
  | [] => []
  | v :: vs =>
    match runs vs with
    | (u, n) :: rest => if v = u then (u, n + 1) :: rest else (v, 1) :: (u, n) :: rest
    | [] => [(v, 1)]

/-- The value-form words of a list of runs, EOB on the last (R140). -/
def runWords : List (Value × Nat) → List Word
  | [] => []
  | [(v, n)] => [pairWord true (BitVec.ofNat 7 n) 0 v]
  | (v, n) :: rest => pairWord false (BitVec.ofNat 7 n) 0 v :: runWords rest

/-- The pair words of a block's sequence. -/
def rleWords (z : Block 16) : List Word := runWords (runs z.toList)

/-- `body(RLE_ENC)` (R140): elements past the runs keep their contents. -/
def bodyRleEnc (s : State) : Run Unit :=
  .ok () { s with
    pbuf := overwrite s.pbuf (rleWords s.zbuf)
    pcount := BitVec.ofNat 7 (rleWords s.zbuf).length }

/-- The checks of RLE_DEC on the pairs from index `i` on, with running sum `sum` (R141); the total when they pass. -/
def rleCheck (i sum : Nat) : List Word → Except (ErrCode × Word) Nat
  | [] => .ok sum
  | w :: ws =>
    if lenField w ≠ 0 then .error (.pairForm, pat32 i)
    else if (runField w).toNat = 0 ∨ 64 < sum + (runField w).toNat then .error (.corruptRunSum, pat32 i)
    else rleCheck (i + 1) (sum + (runField w).toNat) ws

/-- The values the pairs expand to, in order (R141). -/
def expand : List Word → List Value
  | [] => []
  | w :: ws => List.replicate (runField w).toNat (symField w) ++ expand ws

/-- `body(RLE_DEC)` (R141). -/
def bodyRleDec (s : State) : Run Unit :=
  (ofCheck (rleCheck 0 0 (validPairs s)) s).bind fun total s =>
    if total ≠ 64 then .raised .corruptRunSum (pat32 s.pcount.toNat) s
    else .ok () { s with zbuf := fromList (expand (validPairs s)) }

/-- RLE_ENC (R140). -/
def execRleEnc (s : State) : Host.Outcome State Fault Refusal := finish (bodyRleEnc s)

/-- RLE_DEC (R141). -/
def execRleDec (s : State) : Host.Outcome State Fault Refusal := finish (bodyRleDec s)

end Sys2Proof.Machine
end

