-- ==== Sys2Proof/Machine/Transform.lean ====
section
/-! DEFINITION. TX_FWD and TX_INV (spec 41_transform_port.md R123, R124). -/

namespace Sys2Proof.Machine

/-- `body(TX_FWD)` (R123): one transform transaction (FWD, CBUF), its response into CBUF. -/
def bodyTxFwd (s : State) : Run Unit :=
  (request (.txFwd s.cbuf) s).bind fun _ t => .ok () (t.transformed (txFwd s.cbuf))

/-- `body(TX_INV)` (R124). -/
def bodyTxInv (s : State) : Run Unit :=
  (request (.txInv s.cbuf) s).bind fun _ t => .ok () (t.transformed (txInv s.cbuf))

/-- TX_FWD (R123). -/
def execTxFwd (s : State) : Host.Outcome State Fault Refusal := finish (bodyTxFwd s)

/-- TX_INV (R124). -/
def execTxInv (s : State) : Host.Outcome State Fault Refusal := finish (bodyTxInv s)

end Sys2Proof.Machine
end

