-- ==== Sys2Proof/Machine/Zigzag.lean ====
section
/-! DEFINITION. ZZ_FLAT and ZZ_UNFLAT (spec 42_zigzag.md R132, R133). -/

namespace Sys2Proof.Machine

/-- `body(ZZ_FLAT)` (R132): `ZBUF[k] <- QBUF[ZZ[k]]`. -/
def bodyZzFlat (s : State) : Run Unit := .ok () { s with zbuf := Vector.ofFn fun k => s.qbuf[zz k] }

/-- `body(ZZ_UNFLAT)` (R133): `QBUF[ZZ[k]] <- ZBUF[k]` for every `k`, that is `QBUF[n] = ZBUF[ZZINV[n]]` (R131). -/
def bodyZzUnflat (s : State) : Run Unit := .ok () { s with qbuf := Vector.ofFn fun n => s.zbuf[zzInv n] }

/-- ZZ_FLAT (R132). -/
def execZzFlat (s : State) : Host.Outcome State Fault Refusal := finish (bodyZzFlat s)

/-- ZZ_UNFLAT (R133). -/
def execZzUnflat (s : State) : Host.Outcome State Fault Refusal := finish (bodyZzUnflat s)

end Sys2Proof.Machine
end

