-- ==== Sys2Proof/Machine/Sequencer.lean ====
section
/-! DEFINITION. NOP, SEQ_COMPRESS and SEQ_DECOMPRESS (spec 46_sequencer.md R181 to R183). -/

namespace Sys2Proof.Machine

/-- NOP (R181). -/
def execNop (s : State) : Host.Outcome State Fault Refusal := finish (.ok () s)

/-! ### The Sequencer's hidden state during a sequence (R48) -/

/-- A phase begins at stream word 0 of its pass: STRM_PTR is 0. -/
def State.startPass (p : Phase) (s : State) : State :=
  { s with seq := { s.seq with phase := p, j := 0 }, regs := { s.regs with strmPtr := 0 } }

/-- The cursor moves to block `b` in row-major order (R14, R184). -/
def State.atBlock (b : Nat) (s : State) : State :=
  { s with seq := { s.seq with row := b / blkCols s.regs, col := b % blkCols s.regs } }

/-- `j <- j + 1; STRM_PTR <- j`. -/
def State.nextWord (s : State) : State :=
  { s with seq := { s.seq with j := s.seq.j + 1 }, regs := { s.regs with strmPtr := pat32 (s.seq.j + 1) } }

/-- `BLK_DONE <- BLK_DONE + 1` (R37). -/
def State.blockDone (s : State) : State := { s with regs := { s.regs with blkDone := s.regs.blkDone + 1 } }

/-- The register checks both sequences begin with: quality, then size (R202). -/
def checkSequence (r : Regs) : Except (ErrCode × Word) Unit :=
  if !qualityLegal r then .error (.invalidQuality, pat32 r.quality.toNat) else checkGeometry false r

/-- A sequence's image and stream regions must not overlap (R76, U5, treatment `refuse`; log 13). -/
def checkRegions (image stream : Region) (s : State) : Run Unit :=
  if overlaps image stream then .refused .regionsOverlap else .ok () s

/-- The end of a sequence: the scratch buffers and PCOUNT are unspecified, with or without error (U8; log 10). -/
def sequenceEnd (r : Run Unit) : Run Unit := r.atEnd State.freeScratch fun _ s => s.freeScratch

/-! ### SEQ_COMPRESS (R182) -/

/-- The stream writes of one block: value-form words, STREAM_OVERFLOW rather than word index STRM_CAP. -/
def streamPairs : List Word → State → Run Unit
  | [], s => .ok () s
  | w :: ws, s =>
    if s.regs.strmCap.toNat ≤ s.seq.j then .raised .streamOverflow s.regs.strmCap s
    else (memWrite32 (strmAddr s.regs s.seq.j) w s).bind fun _ s => streamPairs ws s.nextWord

/-- The stages of one block in phase BLOCKS, in order (R182, R184). -/
def compressBlock (b : Nat) (s : State) : Run Unit :=
  let s := s.atBlock b
  (fetchBlock s.seq.row s.seq.col s).bind fun _ s =>
  (bodyTxFwd s).bind fun _ s =>
  (bodyQuant s).bind fun _ s =>
  (bodyZzFlat s).bind fun _ s =>
  (bodyRleEnc s).bind fun _ s =>
  (bodyCbAccum s).bind fun _ s =>
  (streamPairs (validPairs s) s).bind fun _ s => .ok () s.blockDone

/-- One word of phase SUBST: read back, value to code, write (R182). -/
def substWord (t : Nat) (s : State) : Run Unit :=
  (memRead32 (strmAddr s.regs t) s).bind fun w s =>
    if lenField w ≠ 0 then .raised .pairForm (pat32 t) s
    else
      match codeOf s.cb (symField w) with
      | none => .raised .unknownValue (pat32 t) s
      | some c =>
        (memWrite32 (strmAddr s.regs t) (encodedWord c w) s).bind fun _ s =>
          .ok () { s with regs := { s.regs with strmPtr := pat32 (t + 1) } }

/-- CB emptied, and the start of phase BLOCKS. -/
def State.startCompress (s : State) : State :=
  let s := s.startPass .blocks
  { s with cb := [], regs := { s.regs with blkDone := 0 } }

/-- The start of phase SUBST: STRM_PTR is 0 and `j` keeps the number of words (R182). The cursor stays at the last block, as in phase
BUILD (R48 does not say; log 31, DESIGN CHOICE). -/
def State.startSubst (s : State) : State :=
  { s with seq := { s.seq with phase := .subst }, regs := { s.regs with strmPtr := 0 } }

/-- Phase BUILD: the aggregation barrier, after every block has been accumulated (R185). -/
def buildPhase (s : State) : Run Unit := bodyCbBuild { s with seq := { s.seq with phase := .build } }

/-- `STRM_LEN <- j`. -/
def State.setStrmLen (s : State) : State := { s with regs := { s.regs with strmLen := pat32 s.seq.j } }

/-- SEQ_COMPRESS without its end (R182). -/
def bodySeqCompress (s : State) : Run Unit :=
  (ofCheck (checkSequence s.regs) s).bind fun _ s =>
  (checkRegions (imageRegion s.regs) (streamRegionCap s.regs) s).bind fun _ s =>
  (bodyQgen s).bind fun _ s =>
  (forCount compressBlock (blkCount s.regs) 0 s.startCompress).bind fun _ s =>
  (buildPhase s).bind fun _ s =>
  (forCount substWord s.seq.j 0 s.startSubst).bind fun _ s => .ok () s.setStrmLen

/-- SEQ_COMPRESS (R182). -/
def execSeqCompress (s : State) : Host.Outcome State Fault Refusal := finish (sequenceEnd (bodySeqCompress s))

/-! ### SEQ_DECOMPRESS (R183) -/

/-- `sum <- v` (R48). -/
def State.setSum (v : Nat) (s : State) : State := { s with seq := { s.seq with sum := v } }

/-- The inner loop of phase VALIDATE, with `left = STRM_LEN - j` words still to come: `left = 0` is `j >= STRM_LEN`. -/
def validateWords : Nat → State → Run Unit
  | 0, s => .raised .corruptBlockCount (pat32 s.seq.j) s
  | left + 1, s =>
    (memRead32 (strmAddr s.regs s.seq.j) s).bind fun w s =>
      if lenField w = 0 then .raised .pairForm (pat32 s.seq.j) s
      else if (lookupCode s.cb { len := lenField w, bits := symField w }).isNone then .raised .unknownCode (pat32 s.seq.j) s
      else if (runField w).toNat = 0 ∨ 64 < s.seq.sum + (runField w).toNat then .raised .corruptRunSum (pat32 s.seq.j) s
      else
        let s := (s.setSum (s.seq.sum + (runField w).toNat)).nextWord
        if eobField w then
          if s.seq.sum ≠ 64 then .raised .corruptRunSum (pat32 (s.seq.j - 1)) s else .ok () s
        else validateWords left s

/-- One block of phase VALIDATE. R183 loops over its number without ROW and COL, so which block `cur` (R48) names meanwhile is open:
the model leaves the cursor at block (0, 0), which nothing reads (log 31, DESIGN CHOICE). -/
def validateBlock (_ : Nat) (s : State) : Run Unit := validateWords (s.regs.strmLen.toNat - s.seq.j) (s.setSum 0)

/-- Phase VALIDATE (R183): no image byte is written in it. -/
def validatePhase (s : State) : Run Unit :=
  (forCount validateBlock (blkCount s.regs) 0 (s.startPass .validate)).bind fun _ s =>
    if s.seq.j ≠ s.regs.strmLen.toNat then .raised .corruptBlockCount (pat32 s.seq.j) s else .ok () s

/-- The stream reads of one block in phase BLOCKS, into PBUF from index `m` on, with `left = STRM_LEN - j`. -/
def readPairs : Nat → Nat → State → Run Nat
  | 0, _, s => .raised .corruptBlockCount (pat32 s.seq.j) s
  | left + 1, m, s =>
    if m = 64 then .raised .corruptRunSum (pat32 s.seq.j) s
    else
      (memRead32 (strmAddr s.regs s.seq.j) s).bind fun w s =>
        let s := { s with pbuf := s.pbuf.setIfInBounds m (maskPair w) }.nextWord
        if eobField w then .ok (m + 1) s else readPairs left (m + 1) s

/-- The stages of one block in phase BLOCKS, in order (R183, R184). An error of a body ends the sequence with that error, its
ERRINFO a PBUF index or PCOUNT (log 28). -/
def decompressBlock (b : Nat) (s : State) : Run Unit :=
  (readPairs (s.regs.strmLen.toNat - s.seq.j) 0 (s.atBlock b)).bind fun m s =>
  (bodyCbDecode { s with pcount := BitVec.ofNat 7 m }).bind fun _ s =>
  (bodyRleDec s).bind fun _ s =>
  (bodyZzUnflat s).bind fun _ s =>
  (bodyDequant s).bind fun _ s =>
  (bodyTxInv s).bind fun _ s =>
  (storeBlock s.seq.row s.seq.col s).bind fun _ s => .ok () s.blockDone

/-- `BLK_DONE <- 0`. -/
def State.clearBlkDone (s : State) : State := { s with regs := { s.regs with blkDone := 0 } }

/-- SEQ_DECOMPRESS without its end (R183). -/
def bodySeqDecompress (s : State) : Run Unit :=
  (ofCheck (checkSequence s.regs) s).bind fun _ s =>
  (checkRegions (imageRegion s.regs) (streamRegionLen s.regs) s).bind fun _ s =>
  (bodyQgen s).bind fun _ s =>
  (validatePhase s.clearBlkDone).bind fun _ s =>
  forCount decompressBlock (blkCount s.regs) 0 (s.startPass .blocks)

/-- SEQ_DECOMPRESS (R183). -/
def execSeqDecompress (s : State) : Host.Outcome State Fault Refusal := finish (sequenceEnd (bodySeqDecompress s))

end Sys2Proof.Machine
end

