-- ==== Sys2Proof/Machine/Dispatch.lean ====
section
/-! DEFINITION. One arm per command: the meaning `exec` gives it (spec 30_encoding.md R93). -/

namespace Sys2Proof.Machine

def exec (i : Instr) (s : State) : Host.Outcome State Fault Refusal :=
  match i with
  | .nop => Sys2Proof.Machine.execNop s
  | .qgen => Sys2Proof.Machine.execQgen s
  | .quant => Sys2Proof.Machine.execQuant s
  | .dequant => Sys2Proof.Machine.execDequant s
  | .txFwd => Sys2Proof.Machine.execTxFwd s
  | .txInv => Sys2Proof.Machine.execTxInv s
  | .zzFlat => Sys2Proof.Machine.execZzFlat s
  | .zzUnflat => Sys2Proof.Machine.execZzUnflat s
  | .rleEnc => Sys2Proof.Machine.execRleEnc s
  | .rleDec => Sys2Proof.Machine.execRleDec s
  | .cbClear => Sys2Proof.Machine.execCbClear s
  | .cbAccum => Sys2Proof.Machine.execCbAccum s
  | .cbBuild => Sys2Proof.Machine.execCbBuild s
  | .cbEncode => Sys2Proof.Machine.execCbEncode s
  | .cbDecode => Sys2Proof.Machine.execCbDecode s
  | .cbLoad => Sys2Proof.Machine.execCbLoad s
  | .cbRead => Sys2Proof.Machine.execCbRead s
  | .padFetch => Sys2Proof.Machine.execPadFetch s
  | .cropStore => Sys2Proof.Machine.execCropStore s
  | .seqCompress => Sys2Proof.Machine.execSeqCompress s
  | .seqDecompress => Sys2Proof.Machine.execSeqDecompress s

end Sys2Proof.Machine
end

