-- ==== Sys2Proof/Machine/Control.lean ====
section
/-! DEFINITION. What a step calls: running a received command word (spec 30_encoding.md R91), landing the next host transaction
(10_state.md R50, 60_exceptions.md R225), and which of the two is due. -/

namespace Sys2Proof.Machine

/-- The Sequencer decodes the word it received and runs its command, or raises ILLEGAL_COMMAND with the word (R91). -/
def runCommand (w : Word) (s : State) : Host.Outcome State Fault Refusal :=
  match decode w with
  | .ok i => exec i s
  | .error _ => .next (s.raise .illegalCommand w)

/-- The first host transaction of the queue lands. With none the ICTC is idle: it "does nothing until a host write" (R225). -/
def hostStep (s : State) : Host.Outcome State Fault Refusal :=
  match s.hostIn with
  | [] => .next s
  | e :: rest => hostOp e.op { s with hostIn := rest }

/-- Whether the next host transaction lands before the running command's first transaction (log 2). -/
def hostDueNow (s : State) : Bool :=
  match s.hostIn with
  | e :: _ => e.gap == some 0
  | [] => false

end Sys2Proof.Machine
end

