-- ==== Sys2Proof/Machine/Step.lean ====
section
/-! DEFINITION. One step of the machine (spec 10_state.md R30, R50; 30_encoding.md R91; 46_sequencer.md R180). -/

namespace Sys2Proof.Machine

/-- One step: while the reset input is asserted only host transactions move (R230); else a received command runs from
issue to completion as one step (R180), with the host transactions due in it; else the next host transaction lands. -/
def step (s : State) : Host.Outcome State Fault Refusal :=
  if s.rst then hostStep s
  else
    match s.seq.cmd with
    | some w => if hostDueNow s then hostStep s else runCommand w s
    | none => hostStep s

/-- The machine with a command word just written to CMD, so that the very next step runs it: the reset input is
released, and no host transaction is due before the command is over (log 2). -/
def State.withFetchWord (s : State) (nbits w : Nat) : State :=
  { s.issue (BitVec.ofNat 32 (w % 2 ^ nbits)) with
    rst := false
    hostIn := s.hostIn.dropWhile fun e => e.gap.isSome }

end Sys2Proof.Machine
end

