-- ==== Sys2Proof/Machine/HostScript.lean ====
section
/-! DEFINITION. Host programs: the host-script statements as queues of host transactions (spec 30_encoding.md R102, R103). -/

namespace Sys2Proof.Machine

/-- A statement of the host-script language (R102) or a pseudo-statement (R103). The values that RD, CHK8 and CHK32 assert
are claims about a run, not transactions. -/
inductive Stmt where
  | wr (r : HostReg) (v : Word)
  | rd (r : HostReg)
  | cmd (i : Instr)
  | cmdWord (w : Word)
  | wait
  | mem8 (a : Addr) (b : Byte)
  | mem32 (a : Addr) (w : Word)
  | run (i : Instr)
  | clrst
  | cbload (v : Value) (c : Code)
  | cbread (i : BitVec 16)
  | block (row col : BitVec 14)
  deriving DecidableEq, Repr

/-- A transaction the host makes as soon as it can. -/
def atOnce (op : HostOp) : HostEvent := { gap := some 0, op := op }

/-- One register write at the register's offset. -/
def wrEvent (r : HostReg) (v : Word) : HostEvent := atOnce (.write r.offset 0xF v)

/-- One write of a command word at 0x014. -/
def cmdEvent (w : Word) : HostEvent := wrEvent .cmd w

/-- `WAIT`, as its final read: the read of STATUS that finds BUSY = 0 (R102; the earlier polls change nothing). -/
def waitEvent : HostEvent := { gap := none, op := .read HostReg.status.offset }

/-- `CMD` then `WAIT` (R103, RUN). -/
def runEvents (i : Instr) : List HostEvent := [cmdEvent (encode i), waitEvent]

/-- The transactions of a statement (R102, R103). -/
def expandStmt : Stmt → List HostEvent
  | .wr r v => [wrEvent r v]
  | .rd r => [atOnce (.read r.offset)]
  | .cmd i => [cmdEvent (encode i)]
  | .cmdWord w => [cmdEvent w]
  | .wait => [waitEvent]
  | .mem8 a b => [atOnce (.store a b)]
  | .mem32 a w =>
    [atOnce (.store a (w.extractLsb' 0 8)), atOnce (.store (a + 1) (w.extractLsb' 8 8)),
     atOnce (.store (a + 2) (w.extractLsb' 16 8)), atOnce (.store (a + 3) (w.extractLsb' 24 8))]
  | .run i => runEvents i
  | .clrst => [wrEvent .status 0x1E]
  | .cbload v c => wrEvent .cbValue (v.setWidth 32) :: wrEvent .cbCode (codeWord c) :: runEvents .cbLoad
  | .cbread i => wrEvent .cbIndex (i.setWidth 32) :: runEvents .cbRead
  | .block row col => [wrEvent .blkSel (row.setWidth 32 <<< 16 ||| col.setWidth 32)]

/-- A host program: its statements' transactions in order. -/
def expandScript (p : List Stmt) : List HostEvent := p.flatMap expandStmt

/-- `PAIR value, run[, EOB]` (R103). -/
def pairOf (v : Value) (run : BitVec 7) (eob : Bool) : Word := pairWord eob run 0 v

/-- `CPAIR code, run[, EOB]` (R103). -/
def codePairOf (c : Code) (run : BitVec 7) (eob : Bool) : Word := pairWord eob run c.len c.bits

end Sys2Proof.Machine
end

