-- ==== Sys2Proof/Machine/Artifact.lean ====
section
/-! DEFINITION. The artifact in ICTC terms: code texts, the view of a state as an artifact, what the host must reject, and
the host program that loads one (spec 30_encoding.md R95, R96, R98; 70_reset_and_hazards.md R235, R244). The textual form is out of
scope (00_scope.md R5). -/

namespace Sys2Proof.Machine

/-- An artifact's content (R96). A code text is its characters, `true` for '1'. -/
structure Artifact where
  width    : Nat
  height   : Nat
  width8   : Nat
  height8  : Nat
  quality  : Nat
  codebook : List (Int × List Bool)
  encoded  : List (List (List Bool × Nat))
  deriving DecidableEq, Repr

/-- The text of a code: LEN characters, the first the most significant bit of BITS (R95). -/
def codeText (c : Code) : List Bool := (List.range c.len.toNat).map fun i => c.bits.getLsbD (c.len.toNat - 1 - i)

/-- The value of a text of binary digits, the first the most significant. -/
def textValue (t : List Bool) : Nat := t.foldl (fun n b => 2 * n + b.toNat) 0

/-- The code of a text of 1 to 16 characters (R95). -/
def textCode (t : List Bool) : Option Code :=
  if 1 ≤ t.length ∧ t.length ≤ 16 then some { len := BitVec.ofNat 5 t.length, bits := BitVec.ofNat 16 (textValue t) }
  else none

/-- The blocks of a stream: each ends with a word that has EOB (R96); a tail without EOB is a block of its own. -/
def splitBlocks : List Word → List (List Word)
  | [] => []
  | w :: ws =>
    if eobField w then [w] :: splitBlocks ws
    else
      match splitBlocks ws with
      | b :: bs => (w :: b) :: bs
      | [] => [[w]]

/-- The stream: STRM_LEN words at STRM_BASE (R96). -/
def streamWords (s : State) : List Word :=
  (List.range s.regs.strmLen.toNat).map fun j => memGet32 s.mem (strmAddr s.regs j)

/-- The entry of a code-form word (R96). -/
def entryOf (w : Word) : List Bool × Nat := (codeText { len := lenField w, bits := symField w }, (runField w).toNat)

/-- The artifact a host makes from the state after a successful SEQ_COMPRESS (R96, R244). -/
def artifactOf (s : State) : Artifact :=
  { width := s.regs.width.toNat
    height := s.regs.height.toNat
    width8 := width8 s.regs
    height8 := height8 s.regs
    quality := s.regs.quality.toNat
    codebook := s.cb.filterMap fun e => e.code.map fun c => (e.value.toInt, codeText c)
    encoded := (splitBlocks (streamWords s)).map fun b => b.map entryOf }

/-- What the state of an ICTC of capacity `depth` can hold of an artifact. Beside what R98 lists, the host rejects a width, a
height or a quality that its register does not hold (R31, R32): R98's list does not name it, and the model follows
93_implementation_defined.md I5, "cannot be parsed or held" (log 26). A quality that fits and is not legal is passed on (R98). -/
def Artifact.holdable (depth : Nat) (a : Artifact) : Bool :=
  decide (a.width < 2 ^ 16) && decide (a.height < 2 ^ 16) && decide (a.quality < 2 ^ 8)
    && (a.codebook.all fun e => decide (-32768 ≤ e.1) && decide (e.1 ≤ 32767) && (textCode e.2).isSome)
    && decide (a.codebook.length ≤ depth)
    && (a.encoded.all fun b => !b.isEmpty && b.all fun e => (textCode e.1).isSome && decide (e.2 ≤ 127))
    && decide ((a.encoded.map List.length).sum ≤ 2 ^ 32 - 1)
    && decide (a.width8 = (a.width + 7) / 8 * 8) && decide (a.height8 = (a.height + 7) / 8 * 8)

/-- The stream words of one block: EOB on the last (R96). -/
def blockWords : List (List Bool × Nat) → List Word
  | [] => []
  | [e] => [codePairOf ((textCode e.1).getD { len := 0, bits := 0 }) (BitVec.ofNat 7 e.2) true]
  | e :: es => codePairOf ((textCode e.1).getD { len := 0, bits := 0 }) (BitVec.ofNat 7 e.2) false :: blockWords es

/-- The stores of a list of stream words from a byte address on. -/
def storeWords (a : Addr) : List Word → List Stmt
  | [] => []
  | w :: ws => .mem32 a w :: storeWords (a + 4) ws

/-- The host program that loads an artifact for SEQ_DECOMPRESS (R235 steps 4 to 6, R244) into an ICTC of capacity `depth`;
`none` if the host rejects it. The stream's place is a word address, what STRM_BASE.ADDR holds, so a stream at a byte address
that is no multiple of 4, which R35 makes impossible and R96 does not speak of, cannot be asked for (log 27). The program does not
look at the outcome of a CB_LOAD: after one that raises an error (a duplicate code: CORRUPT_CODEBOOK, R156) it goes on with the
other entries and issues SEQ_DECOMPRESS, on which R96, R235 and R244 are silent (log 30, DESIGN CHOICE). -/
def loadScript (depth : Nat) (a : Artifact) (img : Addr) (strmWord : BitVec 30) : Option (List Stmt) :=
  if a.holdable depth then
    let strm : Addr := strmWord.setWidth 32 <<< 2
    let words := a.encoded.flatMap blockWords
    some ([.wr .imgBase img, .wr .strmBase strm, .wr .width (pat32 a.width), .wr .height (pat32 a.height),
        .wr .quality (pat32 a.quality), .run .cbClear]
      ++ (a.codebook.map fun e => .cbload (BitVec.ofInt 16 e.1) ((textCode e.2).getD { len := 0, bits := 0 }))
      ++ storeWords strm words ++ [.wr .strmLen (pat32 words.length), .run .seqDecompress])
  else none

end Sys2Proof.Machine
end

