-- ==== Sys2Proof/Safety.lean ====
section
/-! DEFINITION. The terms claims use: the invariant of the machine, undisturbed runs, and well-formed streams. -/

namespace Sys2Proof.Machine

/-- The invariants of the codebook (spec 10_state.md R40): at most P_CB_DEPTH entries (`depth`), no two with the same value, no two
coded ones with the same code, every code legal. -/
def Codebook.wf (depth : Nat) (cb : List Entry) : Bool :=
  decide (cb.length ≤ depth) && decide ((cb.map fun e => e.value).Nodup)
    && decide ((cb.filterMap fun e => e.code).Nodup) && (cb.all fun e => (e.code.map Code.legal).getD true)

/-- A transaction a 32-bit access of which is 4-byte aligned (R72). -/
def Request.aligned : Request → Bool
  | .read32 a | .write32 a _ => a.toNat % 4 == 0
  | .read8 _ | .write8 _ _ | .txFwd _ | .txInv _ => true

/-- Whether a transaction goes to the master port (R70); the others go to the transform port. -/
def Request.isMaster : Request → Bool
  | .read8 _ | .read32 _ | .write8 _ _ | .write32 _ _ => true
  | .txFwd _ | .txInv _ => false

/-- The byte address of a master-port access (R73); 0 for a transform request, which has none. -/
def Request.addr : Request → Addr
  | .read8 a | .read32 a | .write8 a _ | .write32 a _ => a
  | .txFwd _ | .txInv _ => 0

/-- A read of a stream word (R70). -/
def Request.isRead32 : Request → Bool
  | .read32 _ => true
  | .read8 _ | .write8 _ _ | .write32 _ _ | .txFwd _ | .txInv _ => false

/-- A write of a stream word (R70). -/
def Request.isWrite32 : Request → Bool
  | .write32 _ _ => true
  | .read8 _ | .read32 _ | .write8 _ _ | .txFwd _ | .txInv _ => false

/-- The block a transform request carries (R122). -/
def Request.txBlock : Request → Option (Block 32)
  | .txFwd x | .txInv x => some x
  | .read8 _ | .read32 _ | .write8 _ _ | .write32 _ _ => none

/-- The blocks given to the Transform unit by a list of transactions, in order: one for each block of a sequence (R184). -/
abbrev transformed (l : List Request) : List (Block 32) := l.filterMap Request.txBlock

/-- External memory after a transaction that the Memory agent performs (R71). -/
def Request.perform (m : List Host.Cell) : Request → List Host.Cell
  | .write8 a v => memSet m a.toNat v
  | .write32 a w => memSet32 m a w
  | .read8 _ | .read32 _ | .txFwd _ | .txInv _ => m

/-- What every step keeps: the memory's canonical form; PCOUNT in 0..64 (R38); the codebook's invariants (R40); a
generated matrix lies in 1..12750 (R45); no hidden state of a sequence outlives its command (R48); nothing runs while the
reset input is asserted (R230); every 32-bit access issued was aligned (R72). -/
structure State.Inv (s : State) : Prop where
  mem : Memory.wf s.mem = true
  pcount : s.pcount.toNat ≤ 64
  codebook : Codebook.wf s.cbDepth s.cb = true
  matrix : s.status.qv = true → ∀ n : Fin 64, 1 ≤ s.qmat[n].toNat ∧ s.qmat[n].toNat ≤ 12750
  hidden : s.seq = { Sequencer.idle with cmd := s.seq.cmd }
  reset : s.rst = true → s.busy = false
  aligned : s.busLog.all Request.aligned = true

/-- No host transaction lands during the running command: the next one waits until the Sequencer is idle. -/
abbrev State.Alone (s : State) : Prop := s.hostIn.all (fun e => e.gap.isNone) = true

/-- The memory answers every access of the command as ordinary memory does (R74). -/
abbrev State.OrdinaryMemory (s : State) : Prop := s.memResp = []

/-- A command runs by itself on ordinary memory. -/
abbrev State.Undisturbed (s : State) : Prop := s.Alone ∧ s.OrdinaryMemory

/-- The byte of external memory at an address. -/
abbrev State.byte (s : State) (a : Addr) : Byte := memGet s.mem a.toNat

/-- The stream word `j` as memory holds it. -/
abbrev State.strmWord (s : State) (j : Nat) : Word := memGet32 s.mem (strmAddr s.regs j)

/-- A code-form word that a codebook can decode (R155). -/
def decodable (cb : List Entry) (w : Word) : Bool :=
  decide (lenField w ≠ 0) && (lookupCode cb { len := lenField w, bits := symField w }).isSome

/-- The sum of the runs of a list of pair words. -/
abbrev runSum (ws : List Word) : Nat := (ws.map fun w => (runField w).toNat).sum

/-- A block of pair words that SEQ_DECOMPRESS accepts (R183): decodable words, runs of at least 1 that sum to 64, EOB on the
last word and on no other. -/
def legalBlock (cb : List Entry) (b : List Word) : Bool :=
  !b.isEmpty && (b.all fun w => decodable cb w && decide (1 ≤ (runField w).toNat))
    && decide (runSum b = 64)
    && (b.map eobField == List.replicate (b.length - 1) false ++ [true])

/-- The beginning of a block of pair words after which SEQ_DECOMPRESS reads on (R183): decodable words without EOB, runs of at
least 1 that sum to at most 64. -/
def blockPrefix (cb : List Entry) (p : List Word) : Bool :=
  (p.all fun w => decodable cb w && decide (1 ≤ (runField w).toNat) && !eobField w) && decide (runSum p ≤ 64)

/-- Words that phase BLOCKS of SEQ_DECOMPRESS reads as one block (R183): at most 64, EOB on the last and on no other. -/
def readAsBlock (ws : List Word) : Bool :=
  decide (ws.length ≤ 64) && (ws.map eobField == List.replicate (ws.length - 1) false ++ [true])

/-- Whether every run of a list of pair words is at least 1. -/
abbrev runsPositive (ws : List Word) : Bool := ws.all fun w => decide (1 ≤ (runField w).toNat)

/-- A stream that SEQ_DECOMPRESS accepts (R183): BLK_COUNT legal blocks and nothing after them. -/
def legalStream (cb : List Entry) (blocks : Nat) (ws : List Word) : Prop :=
  ∃ bs : List (List Word), bs.length = blocks ∧ (bs.all (legalBlock cb)) = true ∧ bs.flatten = ws

/-- The stream of the machine: its first `n` words (R96). -/
def strmWords (s : State) (n : Nat) : List Word := (List.range n).map s.strmWord

/-- A byte lies in the first `n` words of the stream. -/
def inStream (r : Regs) (n : Nat) (a : Addr) : Bool := inRegion { base := strmBaseByte r, len := 4 * n } a

/-- The value a code-form word stands for in a codebook (R155). -/
def pairValue (cb : List Entry) (w : Word) : Value :=
  ((lookupCode cb { len := lenField w, bits := symField w }).map Entry.value).getD 0

/-- The zig-zag sequence that the words of one block stand for (R183): codes to values, run-length decode. -/
def codedSequence (cb : List Entry) (ws : List Word) : Block 16 :=
  fromList (expand (ws.map fun w => decodedWord (pairValue cb w) w))

/-- The coefficients that SEQ_DECOMPRESS gives to the Transform unit for the words of one block (R183): codes to values, run-length
decode, un-zigzag, dequantize. -/
def dequantized (cb : List Entry) (qmat : Block 16) (ws : List Word) : Block 32 :=
  Vector.ofFn fun n => satPat 32 (dequantExact (codedSequence cb ws)[zzInv n] qmat[n])

/-- The spatial samples that SEQ_DECOMPRESS reconstructs from the words of one block (R183). -/
def reconstruct (cb : List Entry) (qmat : Block 16) (ws : List Word) : Block 32 := txInv (dequantized cb qmat ws)

/-- Whether DEQUANT saturates at a cell of the block of the words `ws` (R112, R183). -/
def dequantSaturates (cb : List Entry) (qmat : Block 16) (ws : List Word) : Bool :=
  (List.finRange 64).any fun n => overflowed 32 (dequantExact (codedSequence cb ws)[zzInv n] qmat[n])

/-- The spatial samples of block (`row`, `col`) of the image (R170, R173): 256 times the pixel of an in-bounds cell, else 0. -/
def imageBlock (s : State) (row col : Nat) : Block 32 :=
  Vector.ofFn fun n =>
    if 8 * row + n.val / 8 < s.regs.height.toNat ∧ 8 * col + n.val % 8 < s.regs.width.toNat then
      sample (s.byte (pixAddr s.regs (8 * row + n.val / 8) (8 * col + n.val % 8)))
    else 0

/-- The matrix QGEN generates from a quality (R110). -/
def matrixOf (q : Nat) : Block 16 := Vector.ofFn fun n => BitVec.ofNat 16 (qgenEntry (baseq n) q)

/-- The value-form words SEQ_COMPRESS makes of a padded block `x` (R182, R184): transformed, quantized, zig-zag flattened,
run-length encoded. -/
def wordsOfBlock (qmat : Block 16) (x : Block 32) : List Word :=
  rleWords (Vector.ofFn fun k => satPat 16 (quantExact (txFwd x)[zz k] qmat[zz k]))

/-- Whether QUANT saturates at a cell of the padded block `x`, transformed (R111, R182). -/
def quantSaturates (qmat : Block 16) (x : Block 32) : Bool :=
  (List.finRange 64).any fun n => overflowed 16 (quantExact (txFwd x)[n] qmat[n])

/-- Block `b` of the image, in row-major order (R14, R184), padded. -/
def nthBlock (s : State) (b : Nat) : Block 32 := imageBlock s (b / blkCols s.regs) (b % blkCols s.regs)

/-- The value-form words SEQ_COMPRESS makes of block `b` of the image, with the matrix of QUALITY. -/
def blockStream (s : State) (b : Nat) : List Word := wordsOfBlock (matrixOf s.regs.quality.toNat) (nthBlock s b)

/-- Whether a QUANT step of the first `k` blocks of the image saturates, with the matrix of QUALITY. -/
def streamSaturates (s : State) (k : Nat) : Bool :=
  (List.range k).any fun b => quantSaturates (matrixOf s.regs.quality.toNat) (nthBlock s b)

/-- The value-form words of the first `k` blocks of the image. -/
def valueStream (s : State) (k : Nat) : List Word := (List.range k).flatMap (blockStream s)

/-- The distinct values of the first `k` blocks of the image, in order of first occurrence. -/
def streamValues (s : State) (k : Nat) : List Value := ((valueStream s k).map symField).eraseDups

/-- The first `k` blocks of the image fit the stream's capacity and the codebook's (R182). -/
def blocksFit (s : State) (k : Nat) : Prop :=
  (valueStream s k).length ≤ s.regs.strmCap.toNat ∧ (streamValues s k).length ≤ s.cbDepth

/-- The codebook that counts the pairs of a list of value-form words (R152): values in order of first occurrence, no codes. -/
def countedCodebook (ws : List Word) : List Entry :=
  (ws.map symField).eraseDups.map fun v =>
    { value := v, weight := BitVec.ofNat 32 (min (2 ^ 32 - 1) ((ws.map symField).count v)), code := none }

/-! ### The transactions of a sequence, in order (R12, R78, R180, R186) -/

/-- The cells of block (`row`, `col`) that lie in the image, in increasing order (R171). -/
def cellsInside (r : Regs) (row col : Nat) : List (Fin 64) :=
  (List.finRange 64).filter fun n => inBounds r (cellY row n) (cellX col n)

/-- PAD_FETCH's reads of a block (R173). -/
def fetchRequests (r : Regs) (row col : Nat) : List Request :=
  (cellsInside r row col).map fun n : Fin 64 => .read8 (pixAddr r (cellY row n) (cellX col n))

/-- CROP_STORE's writes of a block of samples (R174). -/
def storeRequests (r : Regs) (row col : Nat) (x : Block 32) : List Request :=
  (cellsInside r row col).map fun n : Fin 64 => .write8 (pixAddr r (cellY row n) (cellX col n)) (pixel x[n])

/-- The reads of `k` stream words from word `j` on. -/
def readRequests (r : Regs) (j k : Nat) : List Request := (List.range' j k).map fun i => .read32 (strmAddr r i)

/-- The writes of the words `ws` from stream word `j` on. -/
def writeRequests (r : Regs) (j : Nat) (ws : List Word) : List Request :=
  (ws.zipIdx j).map fun p => .write32 (strmAddr r p.2) p.1

/-- The transactions of block `b` of SEQ_COMPRESS before its words are written (R182, R184). -/
def codingRequests (s : State) (b : Nat) : List Request :=
  fetchRequests s.regs (b / blkCols s.regs) (b % blkCols s.regs) ++ [.txFwd (nthBlock s b)]

/-- The transactions of block `b` of SEQ_COMPRESS in phase BLOCKS (R182, R184). -/
def compressBlockRequests (s : State) (b : Nat) : List Request :=
  codingRequests s b ++ writeRequests s.regs (valueStream s b).length (blockStream s b)

/-- The transactions of SEQ_COMPRESS where it leaves the code-form words `ws` (R182): phase BLOCKS, then phase SUBST. -/
def compressRequests (s : State) (ws : List Word) : List Request :=
  (List.range (blkCount s.regs)).flatMap (compressBlockRequests s) ++
    ws.zipIdx.flatMap fun p => [.read32 (strmAddr s.regs p.2), .write32 (strmAddr s.regs p.2) p.1]

/-- The transactions of block `b` of SEQ_DECOMPRESS in phase BLOCKS, of a stream of the blocks `bs` (R183, R184). -/
def decompressBlockRequests (s : State) (qmat : Block 16) (bs : List (List Word)) (b : Nat) : List Request :=
  let ws := bs.getD b []
  readRequests s.regs (bs.take b).flatten.length ws.length ++ [.txInv (dequantized s.cb qmat ws)] ++
    storeRequests s.regs (b / blkCols s.regs) (b % blkCols s.regs) (reconstruct s.cb qmat ws)

/-- The transactions of SEQ_DECOMPRESS of a stream of the blocks `bs` (R183): phase VALIDATE, then phase BLOCKS. -/
def decompressRequests (s : State) (bs : List (List Word)) : List Request :=
  readRequests s.regs 0 bs.flatten.length ++
    (List.range bs.length).flatMap (decompressBlockRequests s (matrixOf s.regs.quality.toNat) bs)

/-! ### Where a run stops -/

/-- Phase SUBST of SEQ_COMPRESS has begun (R182): a stream word has been read back. -/
def substBegun (l : List Request) : Bool := l.any Request.isRead32

/-- The registers of SEQ_COMPRESS when its access `r` fails after the transactions `done` (R182, R37; 90_conflicts.md C3).
BLK_DONE: the blocks transformed, but for one whose words are still being written. STRM_PTR: the words written in the pass. -/
def compressStopped (done : List Request) (r : Request) (g : Regs) : Regs :=
  let subst := substBegun (done ++ [r])
  let blocks := (transformed done).length
  { g with
    blkDone := BitVec.ofNat 32 (if r.isWrite32 && !subst then blocks - 1 else blocks)
    strmPtr := BitVec.ofNat 32 ((if subst then done.dropWhile fun q => !q.isRead32 else done).countP Request.isWrite32) }

/-- The registers of SEQ_DECOMPRESS when its access `r` fails after the transactions `done` (R183, R37; 90_conflicts.md C3).
BLK_DONE: the blocks transformed, but for one whose pixels are still being stored. STRM_PTR: the words read in the pass, the
first of which reads STRM_LEN words. -/
def decompressStopped (done : List Request) (r : Request) (g : Regs) : Regs :=
  let blocks := (transformed done).length
  let words := done.countP Request.isRead32
  { g with
    blkDone := BitVec.ofNat 32 (if r.isRead32 then blocks else blocks - 1)
    strmPtr := BitVec.ofNat 32 (if words < g.strmLen.toNat then words else words - g.strmLen.toNat) }

/-- What external memory may be when a reset abandons a command (R231 step 3, R232): as it was, but for an outstanding write,
which may have been performed (logs 12 and 29). -/
def State.mayLeave (s : State) (m : List Host.Cell) : Prop :=
  m = s.mem ∨ (∃ a v, s.seq.inflight = some (.write8 a v) ∧ m = memSet s.mem a.toNat v) ∨
    (∃ a v, s.seq.inflight = some (.write32 a v) ∧ m = memSet32 s.mem a v)

/-- The transactions of the host that abandon a running command (R230, R231). -/
def HostOp.abandons : HostOp → Bool
  | .write off strb w => off == 0x004 && strb == 0xF && w.getLsbD 0
  | .assertReset => true
  | .read _ | .store _ _ | .releaseReset => false

/-- The commands that reach external memory (R70). -/
def reachesMemory : Instr → Bool
  | .padFetch | .cropStore | .seqCompress | .seqDecompress => true
  | _ => false

/-- The whole-image sequences. -/
def isSequence : Instr → Bool
  | .seqCompress | .seqDecompress => true
  | _ => false

end Sys2Proof.Machine
end

