-- ==== Sys2Proof/Certificates/Slice0/Obligations.lean ====
section
/-! DEFINITION. The statements for the provers. Each docstring says which rule of spec/ it formalises. -/

open Sys2Proof Sys2Proof.Machine

/-! ### Decoding and the step -/

/-- R93: the 21 command words of the opcode map decode to their commands, and `encode` gives those words back. -/
def Obligations.TableWordsDecode : Prop :=
  (∀ i, i.wf = true → decode (encode i) = .ok i) ∧
  (List.map encode [.nop, .qgen, .quant, .dequant, .txFwd, .txInv, .zzFlat, .zzUnflat, .rleEnc, .rleDec] =
    [0x00, 0x01, 0x02, 0x03, 0x04, 0x05, 0x06, 0x07, 0x08, 0x09]) ∧
  (List.map encode [.cbClear, .cbAccum, .cbBuild, .cbEncode, .cbDecode, .cbLoad, .cbRead, .padFetch, .cropStore, .seqCompress,
      .seqDecompress] = [0x10, 0x11, 0x12, 0x13, 0x14, 0x15, 0x16, 0x18, 0x19, 0x20, 0x21])

/-- Decoding is unambiguous over all 2^32 words: a word that decodes to a command is that command's word (R91, R93). -/
def Obligations.DecodedWordIsEncoding : Prop := ∀ (w : Word) (i : Instr), decode w = .ok i → encode i = w

/-- R99, R91: a step that runs an illegal word raises ILLEGAL_COMMAND with the word, and changes nothing else. -/
def Obligations.IllegalWordRaises : Prop :=
  ∀ (s : State) (w : Word), s.rst = false → s.seq.cmd = some w → hostDueNow s = false →
    (w.toNat / 256 ≠ 0 ∨ (0x0A ≤ w.toNat ∧ w.toNat ≤ 0x0F) ∨ w.toNat = 0x17 ∨ (0x1A ≤ w.toNat ∧ w.toNat ≤ 0x1F) ∨
      0x22 ≤ w.toNat) →
    step s = .next { s with
      seq := Sequencer.idle
      status := { s.status with done := true, err := true, errCode := 6, errInfo := w } }

/-- R180: while a legal word is being executed, and no host access is due before it, a step is that command's meaning. -/
def Obligations.StepRunsDecodedCommand : Prop :=
  ∀ (s : State) (w : Word) (i : Instr), s.rst = false → s.seq.cmd = some w → hostDueNow s = false → decode w = .ok i →
    step s = exec i s

/-- R225: with no command in progress a step lands the next host transaction, and does nothing when there is none. The queue of
host transactions is the model's own field (log 2). -/
def Obligations.IdleStepServesHost : Prop :=
  (∀ s : State, s.seq.cmd = none → s.hostIn = [] → step s = .next s) ∧
  (∀ (s : State) (e : HostEvent) (rest : List HostEvent), s.seq.cmd = none → s.hostIn = e :: rest →
    step s = hostOp e.op { s with hostIn := rest }) ∧
  (∀ (s : State) (w : Word) (rest : List HostEvent) (g : Option Nat), s.rst = false → s.seq.cmd = none →
    s.hostIn = { gap := g, op := .write 0x014 0xF w } :: rest →
    ∃ t, step s = .next t ∧ t.seq.cmd = some w ∧ t.hostIn = rest ∧ t.regs = s.regs ∧ t.mem = s.mem ∧ t.cb = s.cb)

/-! ### The host port -/

/-- R30: a write to CMD while BUSY = 0 issues a command; while BUSY = 1 it is dropped and sets OVF; CMD reads 0. -/
def Obligations.CommandIssue : Prop :=
  (∀ (s : State) (w : Word), s.busy = false →
    hostWrite 0x014 0xF w s = { s with
      seq := { Sequencer.idle with cmd := some w }
      status := { s.status with done := false, err := false, errCode := 0, errInfo := 0 }
      hostOut := { error := false, data := 0 } :: s.hostOut }) ∧
  (∀ (s : State) (w : Word), s.busy = true →
    hostWrite 0x014 0xF w s = { s with
      status := { s.status with ovf := true }
      hostOut := { error := false, data := 0 } :: s.hostOut }) ∧
  (∀ s : State, s.busy = false → hostRead 0x014 s = { s with hostOut := { error := false, data := 0 } :: s.hostOut })

/-- R50: host accesses while BUSY = 1. Writes to CTRL and STATUS take effect, every other write is dropped and sets OVF;
ID, CTRL, STATUS, BLK_DONE and STRM_PTR read their current values; any other read answers some value and has no side effect.
The model's own choices in it: a dropped write to a read-only or reserved offset sets OVF too (log 21); CMD and the reserved
offsets, which R24 and R30 say read 0, are such other reads (log 16); `draws` is the model's counter of free values (log 7). -/
def Obligations.AccessWhileBusy : Prop :=
  ∀ s : State, s.busy = true →
    (∀ w, hostWrite 0x004 0xF w s = (regWrite .ctrl w s).reply false 0) ∧
    (∀ w, hostWrite 0x008 0xF w s = (regWrite .status w s).reply false 0) ∧
    (∀ (off : BitVec 12) (w : Word), off.toNat % 4 = 0 → off ≠ 0x004 → off ≠ 0x008 →
      hostWrite off 0xF w s = { s with
        status := { s.status with ovf := true }
        hostOut := { error := false, data := 0 } :: s.hostOut }) ∧
    hostRead 0x000 s = s.reply false 0x49435401 ∧
    hostRead 0x004 s = s.reply false (ctrlWord s.regs) ∧
    hostRead 0x008 s = s.reply false (statusWord s) ∧
    hostRead 0x04C s = s.reply false s.regs.blkDone ∧
    hostRead 0x050 s = s.reply false s.regs.strmPtr ∧
    (∀ off : BitVec 12, off.toNat % 4 = 0 → off ∉ ([0x000, 0x004, 0x008, 0x04C, 0x050] : List (BitVec 12)) →
      ∃ v, hostRead off s = { s with hostOut := { error := false, data := v } :: s.hostOut, draws := s.draws + 1 })

/-- R49: an access at a misaligned offset, or a write without all strobes, gets an error response and has no effect, a read
so answered returns 0; a write to a read-only register, table or field is ignored without error (the fields: BUSY and QV of
STATUS, bits [1:0] of STRM_BASE); the write-only CMD reads 0. The model's own choice: the first two clauses hold while BUSY
= 1 as well, where R50 would have every other write set OVF and the spec does not say which rule comes first (log 21). -/
def Obligations.HostAccessForms : Prop :=
  (∀ (off : BitVec 12) (strb : BitVec 4) (w : Word) (s : State), off.toNat % 4 ≠ 0 ∨ strb ≠ 0xF →
    hostWrite off strb w s = { s with hostOut := { error := true, data := 0 } :: s.hostOut }) ∧
  (∀ (off : BitVec 12) (s : State), off.toNat % 4 ≠ 0 →
    hostRead off s = { s with hostOut := { error := true, data := 0 } :: s.hostOut }) ∧
  (∀ (off : BitVec 12) (w : Word) (s : State), off.toNat % 4 = 0 → s.busy = false →
    (off ∈ ([0x000, 0x00C, 0x010, 0x024, 0x028, 0x02C, 0x030, 0x034, 0x04C, 0x050, 0x058, 0x068] : List (BitVec 12)) ∨
      0x06C ≤ off.toNat ∧ off.toNat < 0x100 ∨ 0x500 ≤ off.toNat) →
    hostWrite off 0xF w s = { s with hostOut := { error := false, data := 0 } :: s.hostOut }) ∧
  (∀ (w : Word) (s : State), (regWrite .status w s).busy = s.busy ∧ (regWrite .status w s).status.qv = s.status.qv ∧
    regWrite .strmBase w s = regWrite .strmBase (w &&& 0xFFFFFFFC) s) ∧
  (∀ s : State, s.busy = false → hostRead 0x014 s = { s with hostOut := { error := false, data := 0 } :: s.hostOut })

/-- R24: the register map, and what the read-only registers and windows read. Every listed offset is its register or window
element; every other aligned offset reads as zero and ignores writes, without error. ID is the constant of R25; ERRCODE, ERRINFO,
BLK_DONE, STRM_PTR and CB_WEIGHT read their values (R28, R29, R37, R39), CB_COUNT the number of entries (R39), and QMAT, ZZ and
BASEQ their elements, zero-extended (R45 to R47). -/
def Obligations.RegisterMapAgrees : Prop :=
  (List.map decodeOffset [0x000, 0x004, 0x008, 0x00C, 0x010, 0x014, 0x018, 0x01C, 0x020, 0x024, 0x028, 0x02C, 0x030, 0x034] =
    [.id, .ctrl, .status, .errCode, .errInfo, .cmd, .quality, .width, .height, .width8, .height8, .blkCols, .blkRows, .blkCount]) ∧
  (List.map decodeOffset [0x038, 0x03C, 0x040, 0x044, 0x048, 0x04C, 0x050, 0x054, 0x058, 0x05C, 0x060, 0x064, 0x068] =
    [.imgBase, .strmBase, .strmCap, .strmLen, .blkSel, .blkDone, .strmPtr, .pcount, .cbCount, .cbIndex, .cbValue, .cbCode,
      .cbWeight]) ∧
  (∀ n : Fin 64,
    decodeOffset (BitVec.ofNat 12 (0x100 + 4 * n.val)) = .cbuf n ∧ decodeOffset (BitVec.ofNat 12 (0x200 + 4 * n.val)) = .qbuf n ∧
    decodeOffset (BitVec.ofNat 12 (0x300 + 4 * n.val)) = .zbuf n ∧ decodeOffset (BitVec.ofNat 12 (0x400 + 4 * n.val)) = .pbuf n ∧
    decodeOffset (BitVec.ofNat 12 (0x500 + 4 * n.val)) = .qmat n ∧ decodeOffset (BitVec.ofNat 12 (0x600 + 4 * n.val)) = .zz n ∧
    decodeOffset (BitVec.ofNat 12 (0x700 + 4 * n.val)) = .baseq n) ∧
  (∀ (off : BitVec 12) (w : Word) (s : State), s.busy = false → off.toNat % 4 = 0 →
    (0x06C ≤ off.toNat ∧ off.toNat < 0x100 ∨ 0x800 ≤ off.toNat) →
    hostRead off s = { s with hostOut := { error := false, data := 0 } :: s.hostOut } ∧
    hostWrite off 0xF w s = { s with hostOut := { error := false, data := 0 } :: s.hostOut }) ∧
  (∀ (s : State) (n : Fin 64),
    regRead .id s = 0x49435401 ∧ (regRead .errCode s).toNat = s.status.errCode.toNat ∧ regRead .errInfo s = s.status.errInfo ∧
    regRead .blkDone s = s.regs.blkDone ∧ regRead .strmPtr s = s.regs.strmPtr ∧ regRead .cbWeight s = s.regs.cbWeight ∧
    (Codebook.wf s.cbDepth s.cb = true → (regRead .cbCount s).toNat = s.cb.length) ∧
    (regRead (.qmat n) s).toNat = s.qmat[n].toNat ∧ (regRead (.zz n) s).toNat = (zz n).val ∧
    (regRead (.baseq n) s).toNat = baseq n)

/-- What each writable register and window element reads back after a host write while idle, reserved bits reading 0 (R26, R31,
R32, R34 to R36, R38, R39, R41 to R44), and the frame of such a write: that register or element alone changes. CTRL is written
with SRST = 0 here (SoftReset has SRST = 1); CMD and STATUS have CommandIssue and StatusWriteOneToClear. The first clause ties
an idle host access at an aligned offset to the reads and writes of registers that the others speak of (R49). -/
def Obligations.RegisterReadBack : Prop :=
  (∀ (off : BitVec 12) (w : Word) (s : State), s.busy = false → off.toNat % 4 = 0 →
    hostWrite off 0xF w s = (regWrite (decodeOffset off) w s).reply false 0 ∧
    hostRead off s = s.reply false (regRead (decodeOffset off) s)) ∧
  (∀ (s : State) (w : Word), w.getLsbD 0 = false →
    regRead .ctrl (regWrite .ctrl w s) = w &&& 0x00000002 ∧
    ∃ x, regWrite .ctrl w s = { s with regs := { s.regs with irqEn := x } }) ∧
  (∀ (s : State) (w : Word) (n : Fin 64),
    regRead .quality (regWrite .quality w s) = w &&& 0x000000FF ∧
    regRead .width (regWrite .width w s) = w &&& 0x0000FFFF ∧
    regRead .height (regWrite .height w s) = w &&& 0x0000FFFF ∧
    regRead .imgBase (regWrite .imgBase w s) = w ∧
    regRead .strmBase (regWrite .strmBase w s) = w &&& 0xFFFFFFFC ∧
    regRead .strmCap (regWrite .strmCap w s) = w ∧
    regRead .strmLen (regWrite .strmLen w s) = w ∧
    regRead .blkSel (regWrite .blkSel w s) = w &&& 0x3FFF3FFF ∧
    regRead .cbIndex (regWrite .cbIndex w s) = w &&& 0x0000FFFF ∧
    regRead .cbValue (regWrite .cbValue w s) = w &&& 0x0000FFFF ∧
    regRead .cbCode (regWrite .cbCode w s) = w &&& 0x001FFFFF ∧
    regRead .pcount (regWrite .pcount w s) =
      (if (w &&& 0x7F).toNat ≤ 64 then w &&& 0x7F else regRead .pcount s) ∧
    regRead (.cbuf n) (regWrite (.cbuf n) w s) = w ∧
    regRead (.qbuf n) (regWrite (.qbuf n) w s) = (w.setWidth 16).signExtend 32 ∧
    regRead (.zbuf n) (regWrite (.zbuf n) w s) = (w.setWidth 16).signExtend 32 ∧
    regRead (.pbuf n) (regWrite (.pbuf n) w s) = w &&& 0x8FFFFFFF) ∧
  (∀ (s : State) (w : Word),
    (∃ x, regWrite .quality w s = { s with regs := { s.regs with quality := x } }) ∧
    (∃ x, regWrite .width w s = { s with regs := { s.regs with width := x } }) ∧
    (∃ x, regWrite .height w s = { s with regs := { s.regs with height := x } }) ∧
    (∃ x, regWrite .imgBase w s = { s with regs := { s.regs with imgBase := x } }) ∧
    (∃ x, regWrite .strmBase w s = { s with regs := { s.regs with strmBase := x } }) ∧
    (∃ x, regWrite .strmCap w s = { s with regs := { s.regs with strmCap := x } }) ∧
    (∃ x, regWrite .strmLen w s = { s with regs := { s.regs with strmLen := x } }) ∧
    (∃ x y, regWrite .blkSel w s = { s with regs := { s.regs with blkRow := x, blkCol := y } }) ∧
    (∃ x, regWrite .cbIndex w s = { s with regs := { s.regs with cbIndex := x } }) ∧
    (∃ x, regWrite .cbValue w s = { s with regs := { s.regs with cbValue := x } }) ∧
    (∃ x, regWrite .cbCode w s = { s with regs := { s.regs with cbCode := x } }) ∧
    (∃ x, regWrite .pcount w s = { s with pcount := x })) ∧
  (∀ (s : State) (w : Word) (n : Fin 64),
    (∃ b : Block 32, regWrite (.cbuf n) w s = { s with cbuf := b } ∧ ∀ m, m ≠ n → b[m] = s.cbuf[m]) ∧
    (∃ b : Block 16, regWrite (.qbuf n) w s = { s with qbuf := b } ∧ ∀ m, m ≠ n → b[m] = s.qbuf[m]) ∧
    (∃ b : Block 16, regWrite (.zbuf n) w s = { s with zbuf := b } ∧ ∀ m, m ≠ n → b[m] = s.zbuf[m]) ∧
    (∃ b : Block 32, regWrite (.pbuf n) w s = { s with pbuf := b } ∧ ∀ m, m ≠ n → b[m] = s.pbuf[m]))

/-- R33: the derived geometry registers, in the same state as WIDTH and HEIGHT, and their ranges. -/
def Obligations.DerivedGeometry : Prop :=
  ∀ s : State,
    (regRead .width8 s).toNat = 8 * ⌈(s.regs.width.toNat : ℚ) / 8⌉₊ ∧
    (regRead .height8 s).toNat = 8 * ⌈(s.regs.height.toNat : ℚ) / 8⌉₊ ∧
    (regRead .blkCols s).toNat = (regRead .width8 s).toNat / 8 ∧
    (regRead .blkRows s).toNat = (regRead .height8 s).toNat / 8 ∧
    (regRead .blkCount s).toNat = (regRead .blkCols s).toNat * (regRead .blkRows s).toNat ∧
    (regRead .width8 s).toNat ≤ 65536 ∧ (regRead .blkCols s).toNat ≤ 8192 ∧ (regRead .blkCount s).toNat ≤ 2 ^ 26 ∧
    (∀ r w, r ∈ ([.width8, .height8, .blkCols, .blkRows, .blkCount] : List HostReg) → regWrite r w s = s)

/-- R27: STATUS holds BUSY, DONE, ERR, SAT, OVF and QV in bits 0 to 5 and zeros above. A write to it clears exactly those of
DONE, ERR, SAT and OVF (bits 1 to 4) that are written 1, changes nothing else, and so BUSY and QV are read-only. -/
def Obligations.StatusWriteOneToClear : Prop :=
  (∀ s : State, (regRead .status s).getLsbD 0 = s.busy ∧ (regRead .status s).getLsbD 1 = s.status.done ∧
    (regRead .status s).getLsbD 2 = s.status.err ∧ (regRead .status s).getLsbD 3 = s.status.sat ∧
    (regRead .status s).getLsbD 4 = s.status.ovf ∧ (regRead .status s).getLsbD 5 = s.status.qv ∧
    ∀ i, 6 ≤ i → (regRead .status s).getLsbD i = false) ∧
  (∀ (s : State) (w : Word), regWrite .status w s = { s with
    status := { s.status with
      done := s.status.done && !w.getLsbD 1
      err := s.status.err && !w.getLsbD 2
      sat := s.status.sat && !w.getLsbD 3
      ovf := s.status.ovf && !w.getLsbD 4 } }) ∧
  (∀ (s : State) (w : Word), regRead .status (regWrite .status w s) = regRead .status s &&& ~~~(w &&& 0x1E))

/-! ### Reset and interrupt -/

/-- R52: the values after a reset, for the power-up state and for a reset event of a run (soft reset and reset input). The
buffers and QMAT, which R52 leaves unspecified, are not named. Of `Sequencer.idle`, R52 gives that no command is held and
nothing is in flight, and its phase, cursor, `j` and `sum` are the model's choice (log 25); the build keeps its capacity (R18). -/
def Obligations.ResetValues : Prop :=
  (∀ s : State, s.resetIctc.cbDepthLessOne = s.cbDepthLessOne) ∧
  ∀ s t : State, (t = State.reset ∨ t = s.resetIctc) →
    t.regs.irqEn = false ∧ t.busy = false ∧ t.status.done = false ∧ t.status.err = false ∧ t.status.sat = false ∧
    t.status.ovf = false ∧ t.status.qv = false ∧ t.status.errCode = 0 ∧ t.status.errInfo = 0 ∧
    t.regs.quality = 0 ∧ t.regs.width = 0 ∧ t.regs.height = 0 ∧ t.regs.imgBase = 0 ∧ t.regs.strmBase = 0 ∧
    t.regs.strmCap = 0 ∧ t.regs.strmLen = 0 ∧ t.regs.blkRow = 0 ∧ t.regs.blkCol = 0 ∧ t.regs.blkDone = 0 ∧
    t.regs.strmPtr = 0 ∧ t.pcount = 0 ∧ t.cb = [] ∧ t.regs.cbIndex = 0 ∧ t.regs.cbValue = 0 ∧
    t.regs.cbCode = { len := 0, bits := 0 } ∧ t.regs.cbWeight = 0 ∧ t.seq.cmd = none ∧ t.seq.inflight = none ∧
    t.seq = Sequencer.idle ∧ t.irq = false ∧
    regRead .id t = 0x49435401 ∧ regRead .width8 t = 0 ∧ regRead .height8 t = 0 ∧ regRead .blkCols t = 0 ∧
    regRead .blkRows t = 0 ∧ regRead .blkCount t = 0 ∧ regRead .cbCount t = 0

/-- R231: a write to CTRL with SRST = 1, idle or while BUSY, abandons the command without completion, gives every piece of
the ICTC's state its reset value, and leaves external memory as it was but for a write outstanding at that moment, which may
or may not be performed. (`Sequencer.idle`: log 25. That such a write is performed at the reset and not later: log 29.) -/
def Obligations.SoftReset : Prop :=
  ∀ (s : State) (w : Word), w.getLsbD 0 = true →
    ∃ t, hostWrite 0x004 0xF w s = t ∧
      t.seq = Sequencer.idle ∧ t.regs = Regs.reset ∧ t.status = Status.reset ∧ t.cb = [] ∧ t.pcount = 0 ∧ t.irq = false ∧
      t.busLog = s.busLog ∧ t.rst = s.rst ∧ t.hostIn = s.hostIn ∧ t.cbDepthLessOne = s.cbDepthLessOne ∧
      s.mayLeave t.mem ∧ (s.seq.inflight = none → t.memResp = s.memResp)

/-- R230, R232: asserting the reset input stops a running command and issues no transaction; while it is asserted no step issues
a transaction or starts a command; releasing it leaves the reset values. Neither touches external memory, but for a write
outstanding at that moment, which may or may not be performed (log 12: as at a soft reset; log 29: at the reset and not later).
(`Sequencer.idle`: log 25.) -/
def Obligations.ResetInput : Prop :=
  (∀ s : State, ∃ t, hostOp .assertReset s = .next t ∧ t.rst = true ∧ t.busy = false ∧ t.busLog = s.busLog ∧
    s.mayLeave t.mem) ∧
  (∀ s t : State, s.rst = true → step s = .next t → t.busLog = s.busLog ∧ (s.busy = false → t.busy = false)) ∧
  (∀ s : State, s.rst = true → s.hostIn = [] → step s = .next s) ∧
  (∀ s : State, s.rst = true → ∃ t, hostOp .releaseReset s = .next t ∧ t.rst = false ∧ t.seq = Sequencer.idle ∧
    t.regs = Regs.reset ∧ t.status = Status.reset ∧ t.cb = [] ∧ t.pcount = 0 ∧ t.irq = false ∧ t.busLog = s.busLog ∧
    s.mayLeave t.mem)

/-- R231, R230 in a run: a write to CTRL with SRST = 1, or the reset input, that lands while a transaction of a command is
outstanding abandons the command: no completion, no further transaction, the registers at their reset values, the coming host
transactions left as they are. For any command that issues transactions and any of them, the `k`-th (from 0) of its run `u` without
the reset: memory holds what the transactions before it wrote, and what it writes itself or not (log 12; log 29: at the reset and
not later), and the Memory agent's answers to all of them are used up. And TX_FWD by itself: memory is as it was. -/
def Obligations.ResetAbandonsCommand : Prop :=
  (∀ (i : Instr) (s u : State) (op : HostOp) (rest : List HostEvent) (k : Nat) (log : List Request),
    s.rst = false → op.abandons = true → s.hostIn = { gap := some (k + 1), op := op } :: rest →
    exec i { s with hostIn := [] } = .next u → u.busLog = log.reverse ++ s.busLog → k < log.length →
    ∃ t, exec i s = .next t ∧ t.seq = Sequencer.idle ∧ t.status = Status.reset ∧ t.regs = Regs.reset ∧ t.cb = [] ∧
      t.pcount = 0 ∧ t.irq = false ∧ t.rst = decide (op = .assertReset) ∧ t.hostIn = rest ∧
      t.busLog = (log.take (k + 1)).reverse ++ s.busLog ∧
      (t.mem = (log.take k).foldl Request.perform s.mem ∨ t.mem = (log.take (k + 1)).foldl Request.perform s.mem) ∧
      t.memResp = s.memResp.drop ((log.take (k + 1)).countP Request.isMaster)) ∧
  ∀ (s : State) (w : Word) (rest : List HostEvent), s.rst = false → s.busy = true → w.getLsbD 0 = true →
    s.hostIn = { gap := some 1, op := .write 0x004 0xF w } :: rest →
    ∃ t, exec .txFwd s = .next t ∧ t.seq = Sequencer.idle ∧ t.status = Status.reset ∧ t.regs = Regs.reset ∧ t.irq = false ∧
      t.busLog = .txFwd s.cbuf :: s.busLog ∧ t.mem = s.mem ∧ t.memResp = s.memResp ∧ t.hostIn = rest

/-- R210, R180, R48: whatever command ends, with or without an error, DONE is set, BUSY falls, no hidden state survives, and
`irq` is exactly IRQ_EN; a command issue makes `irq` fall. A write to STATUS leaves `irq` asserted while DONE or ERR is still
set, one to CTRL follows IRQ_EN; so after an error, clearing DONE alone keeps `irq`, and clearing both or IRQ_EN makes it fall. -/
def Obligations.CompletionRaisesInterrupt : Prop :=
  (∀ (i : Instr) (s t : State), s.Alone → exec i s = .next t →
    t.status.done = true ∧ t.seq = Sequencer.idle ∧ t.irq = t.regs.irqEn ∧ t.regs.irqEn = s.regs.irqEn) ∧
  (∀ (s : State) (w : Word), (s.issue w).irq = false) ∧
  (∀ (s : State) (w : Word), (hostWrite 0x008 0xF w s).irq =
    (s.regs.irqEn && (s.status.done && !w.getLsbD 1 || s.status.err && !w.getLsbD 2))) ∧
  (∀ (s : State) (w : Word), w.getLsbD 0 = false →
    (hostWrite 0x004 0xF w s).irq = (w.getLsbD 1 && (s.status.done || s.status.err))) ∧
  (∀ (i : Instr) (s t : State), s.Alone → exec i s = .next t → t.status.err = true → s.regs.irqEn = true →
    (hostWrite 0x008 0xF 0x2 t).irq = true ∧ (hostWrite 0x008 0xF 0x6 t).irq = false ∧ (hostWrite 0x004 0xF 0x0 t).irq = false)

/-! ### Whole-machine rules -/

/-- R200, R203: a command other than a sequence that ends with an error other than BUS_ERROR changes nothing but STATUS,
ERRCODE and ERRINFO (and the Sequencer, which is idle again), and of STATUS only DONE and ERR. -/
def Obligations.SingleBlockErrorsWriteNothing : Prop :=
  ∀ (i : Instr) (s t : State), isSequence i = false → s.Alone → s.status.err = false → exec i s = .next t →
    t.status.err = true → t.status.errCode ≠ 12 →
    ∃ c info, c ≠ 0 ∧ t = { s with
      seq := Sequencer.idle
      status := { s.status with done := true, err := true, errCode := c, errInfo := info } }

/-- R92: no command changes a register that it does not write: QUALITY, WIDTH, HEIGHT, IMG_BASE, STRM_BASE, STRM_CAP, BLK_SEL,
CB_INDEX and IRQ_EN are changed by none; STRM_LEN only by SEQ_COMPRESS; BLK_DONE and STRM_PTR only by the sequences; CB_VALUE,
CB_CODE and CB_WEIGHT only by CB_READ; OVF by none. No step of any kind changes the build's codebook capacity (R18). -/
def Obligations.CommandsKeepConfiguration : Prop :=
  (∀ s t : State, step s = .next t → t.cbDepthLessOne = s.cbDepthLessOne) ∧
  ∀ (i : Instr) (s t : State), s.Alone → exec i s = .next t →
    t.regs.quality = s.regs.quality ∧ t.regs.width = s.regs.width ∧ t.regs.height = s.regs.height ∧
    t.regs.imgBase = s.regs.imgBase ∧ t.regs.strmBase = s.regs.strmBase ∧ t.regs.strmCap = s.regs.strmCap ∧
    t.regs.blkRow = s.regs.blkRow ∧ t.regs.blkCol = s.regs.blkCol ∧ t.regs.cbIndex = s.regs.cbIndex ∧
    t.regs.irqEn = s.regs.irqEn ∧ t.status.ovf = s.status.ovf ∧
    (i ≠ .seqCompress → t.regs.strmLen = s.regs.strmLen) ∧
    (isSequence i = false → t.regs.blkDone = s.regs.blkDone ∧ t.regs.strmPtr = s.regs.strmPtr) ∧
    (i ≠ .cbRead → t.regs.cbValue = s.regs.cbValue ∧ t.regs.cbCode = s.regs.cbCode ∧ t.regs.cbWeight = s.regs.cbWeight) ∧
    (i ∉ ([.qgen, .seqCompress, .seqDecompress] : List Instr) → t.qmat = s.qmat ∧ t.status.qv = s.status.qv) ∧
    (i ∉ ([.cbClear, .cbAccum, .cbBuild, .cbLoad, .seqCompress] : List Instr) → t.cb = s.cb)

/-- R70, R73: only PAD_FETCH, CROP_STORE and the sequences reach external memory: every other command leaves it unchanged
and issues no master-port access; PAD_FETCH writes none of it. -/
def Obligations.OnlyMemoryCommandsReachMemory : Prop :=
  ∀ (i : Instr) (s t : State), s.Alone → exec i s = .next t →
    (reachesMemory i = false → t.mem = s.mem ∧ t.memResp = s.memResp ∧
      t.busLog.filter Request.isMaster = s.busLog.filter Request.isMaster) ∧
    (i = .padFetch → t.mem = s.mem)

/-- R27: SAT is sticky, and QV is cleared by reset only: no command clears either. -/
def Obligations.StickyFlags : Prop :=
  ∀ (i : Instr) (s t : State), s.Alone → exec i s = .next t →
    (s.status.sat = true → t.status.sat = true) ∧ (s.status.qv = true → t.status.qv = true) ∧
    (i ∉ ([.quant, .dequant, .seqCompress, .seqDecompress] : List Instr) → t.status.sat = s.status.sat)

/-- The power-up state meets the invariant. -/
def Obligations.ResetMeetsInvariant : Prop := State.reset.Inv

/-- Every step keeps the invariant: memory's canonical form, PCOUNT in 0..64 (R38), the codebook's invariants (R40), the range
of a generated matrix (R45), no hidden state between commands (R48), nothing running in reset (R230), aligned accesses (R72). -/
def Obligations.StepKeepsInvariant : Prop := ∀ s t : State, s.Inv → step s = .next t → t.Inv

/-! ### Quantization (40_quantization.md) -/

/-- R181: NOP completes and does nothing else; it does not clear SAT or OVF. -/
def Obligations.NopCompletes : Prop :=
  decode 0x00000000 = .ok .nop ∧
  ∀ s : State, exec .nop s = .next { s with seq := Sequencer.idle, status := { s.status with done := true } }

/-- R110: QGEN. A legal quality gives `max(1, floor((base·scale + 50)/100))` with the exact rational scale, sets QV and changes
nothing else; an illegal one raises INVALID_QUALITY with the quality and changes neither QMAT nor QV. -/
def Obligations.QgenMatrix : Prop :=
  decode 0x00000001 = .ok .qgen ∧
  (∀ s : State, 1 ≤ s.regs.quality.toNat → s.regs.quality.toNat ≤ 100 →
    ∃ m : Block 16,
      exec .qgen s = .next { s with
        qmat := m, seq := Sequencer.idle, status := { s.status with done := true, qv := true } } ∧
      ∀ n : Fin 64, (m[n].toNat : ℤ) =
        max 1 ⌊((baseq n : ℚ) * (if s.regs.quality.toNat < 50 then 5000 / (s.regs.quality.toNat : ℚ)
          else 200 - 2 * (s.regs.quality.toNat : ℚ)) + 50) / 100⌋) ∧
  (∀ s : State, (s.regs.quality.toNat < 1 ∨ 100 < s.regs.quality.toNat) →
    exec .qgen s = .next { s with
      seq := Sequencer.idle
      status := { s.status with done := true, err := true, errCode := 1, errInfo := s.regs.quality.setWidth 32 } })

/-- R114, R45, R110's corner cases: for a base entry in 1..255 the entry lies in 1..12750, does not rise with the quality, is
`50·b` at 1, `b` at 50 and 1 at 100. -/
def Obligations.MatrixEntryOrder : Prop :=
  ∀ b q q' : Nat, 1 ≤ b → b ≤ 255 → 1 ≤ q → q ≤ q' → q' ≤ 100 →
    qgenEntry b q' ≤ qgenEntry b q ∧ 1 ≤ qgenEntry b q ∧ qgenEntry b q ≤ 12750 ∧
    qgenEntry b 1 = 50 * b ∧ qgenEntry b 50 = b ∧ qgenEntry b 100 = 1

/-- R111: QUANT. With QV = 1 every element is `CBUF/256/QMAT` rounded half up and clamped to 16 bits, SAT is set when one was
clamped and never cleared, nothing else changes; with QV = 0 it raises QMAT_INVALID. QMAT's entries are at least 1 whenever
QV = 1 (StepKeepsInvariant). -/
def Obligations.QuantRounds : Prop :=
  decode 0x00000002 = .ok .quant ∧
  (∀ s : State, s.status.qv = true → (∀ n : Fin 64, 1 ≤ s.qmat[n].toNat) →
    ∃ (b : Block 16) (f : Bool),
      exec .quant s = .next { s with
        qbuf := b, seq := Sequencer.idle, status := { s.status with done := true, sat := f } } ∧
      (∀ n : Fin 64, b[n].toInt =
        max (-32768) (min 32767 ⌊(s.cbuf[n].toInt : ℚ) / 256 / (s.qmat[n].toNat : ℚ) + 1 / 2⌋)) ∧
      (f = true ↔ s.status.sat = true ∨ ∃ n : Fin 64,
        32767 < ⌊(s.cbuf[n].toInt : ℚ) / 256 / (s.qmat[n].toNat : ℚ) + 1 / 2⌋ ∨
        ⌊(s.cbuf[n].toInt : ℚ) / 256 / (s.qmat[n].toNat : ℚ) + 1 / 2⌋ < -32768)) ∧
  (∀ s : State, s.status.qv = false →
    exec .quant s = .next { s with
      seq := Sequencer.idle
      status := { s.status with done := true, err := true, errCode := 11, errInfo := 0 } })

/-- R112: DEQUANT. With QV = 1 every element is `QBUF·QMAT·256` clamped to 32 bits, SAT is set when one was clamped, nothing
else changes; with QV = 0 it raises QMAT_INVALID. -/
def Obligations.DequantScales : Prop :=
  decode 0x00000003 = .ok .dequant ∧
  (∀ s : State, s.status.qv = true →
    ∃ (b : Block 32) (f : Bool),
      exec .dequant s = .next { s with
        cbuf := b, seq := Sequencer.idle, status := { s.status with done := true, sat := f } } ∧
      (∀ n : Fin 64, b[n].toInt =
        max (-2147483648) (min 2147483647 (s.qbuf[n].toInt * s.qmat[n].toNat * 256))) ∧
      (f = true ↔ s.status.sat = true ∨ ∃ n : Fin 64,
        2147483647 < s.qbuf[n].toInt * s.qmat[n].toNat * 256 ∨ s.qbuf[n].toInt * s.qmat[n].toNat * 256 < -2147483648)) ∧
  (∀ s : State, s.status.qv = false →
    exec .dequant s = .next { s with
      seq := Sequencer.idle
      status := { s.status with done := true, err := true, errCode := 11, errInfo := 0 } })

/-! ### Transform port and zig-zag -/

/-- R123, R124, R120 (b): TX_FWD and TX_INV replace CBUF by the transform unit's answer, issue exactly that one request, and
change nothing else; the all-zero block stays all zero. -/
def Obligations.TransformInPlace : Prop :=
  decode 0x00000004 = .ok .txFwd ∧ decode 0x00000005 = .ok .txInv ∧
  (∀ s : State, s.Alone →
    exec .txFwd s = .next { s with
      cbuf := txFwd s.cbuf, busLog := .txFwd s.cbuf :: s.busLog, seq := Sequencer.idle
      status := { s.status with done := true } }) ∧
  (∀ s : State, s.Alone →
    exec .txInv s = .next { s with
      cbuf := txInv s.cbuf, busLog := .txInv s.cbuf :: s.busLog, seq := Sequencer.idle
      status := { s.status with done := true } }) ∧
  txFwd (Vector.replicate 64 0) = Vector.replicate 64 0 ∧ txInv (Vector.replicate 64 0) = Vector.replicate 64 0

/-- R130: the scan visits every cell once, by anti-diagonal, even ones with the row ascending and odd ones with it
descending. -/
def Obligations.ZigzagTableOrder : Prop :=
  (∀ n : Fin 64, ∃ k : Fin 64, zz k = n ∧ ∀ k' : Fin 64, zz k' = n → k' = k) ∧
  (∀ k k' : Fin 64, k < k' →
    let d := cellRow (zz k).val + cellCol (zz k).val
    let d' := cellRow (zz k').val + cellCol (zz k').val
    d < d' ∨ (d = d' ∧ (if d % 2 = 0 then cellRow (zz k).val < cellRow (zz k').val else cellRow (zz k').val < cellRow (zz k).val)))

/-- R132, R133: ZZ_FLAT and ZZ_UNFLAT move every element along the table and change nothing else. -/
def Obligations.ZigzagMoves : Prop :=
  decode 0x00000006 = .ok .zzFlat ∧ decode 0x00000007 = .ok .zzUnflat ∧
  (∀ s : State, ∃ z : Block 16,
    exec .zzFlat s = .next { s with zbuf := z, seq := Sequencer.idle, status := { s.status with done := true } } ∧
    ∀ k : Fin 64, z[k] = s.qbuf[zz k]) ∧
  (∀ s : State, ∃ q : Block 16,
    exec .zzUnflat s = .next { s with qbuf := q, seq := Sequencer.idle, status := { s.status with done := true } } ∧
    ∀ k : Fin 64, q[zz k] = s.zbuf[k])

/-- R134: ZZ_UNFLAT after ZZ_FLAT leaves QBUF as it was, and ZZ_FLAT after ZZ_UNFLAT leaves ZBUF as it was, with a command
issue between. -/
def Obligations.ZigzagRoundTrip : Prop :=
  ∀ (s t u : State) (w : Word),
    (exec .zzFlat s = .next t → exec .zzUnflat (t.issue w) = .next u → u.qbuf = s.qbuf) ∧
    (exec .zzUnflat s = .next t → exec .zzFlat (t.issue w) = .next u → u.zbuf = s.zbuf)

/-! ### Run-length codec (43_rle.md) -/

/-- R140: RLE_ENC gives the maximal runs of ZBUF as value-form words whose counts are at least 1 and sum to 64, EOB on the last
alone; elements past PCOUNT keep their contents; nothing else changes. -/
def Obligations.RleEncodeResult : Prop :=
  decode 0x00000008 = .ok .rleEnc ∧
  ∀ s : State, ∃ (p : Block 32) (m : BitVec 7),
    exec .rleEnc s = .next { s with
      pbuf := p, pcount := m, seq := Sequencer.idle, status := { s.status with done := true } } ∧
    1 ≤ m.toNat ∧ m.toNat ≤ 64 ∧
    (p.toList.take m.toNat).flatMap (fun w => List.replicate (runField w).toNat (symField w)) = s.zbuf.toList ∧
    (∀ w ∈ p.toList.take m.toNat, lenField w = 0 ∧ 1 ≤ (runField w).toNat ∧ w &&& 0x70000000 = 0) ∧
    ((p.toList.take m.toNat).map fun w => (runField w).toNat).sum = 64 ∧
    ((p.toList.take m.toNat).map symField).IsChain (fun a b => a ≠ b) ∧
    (p.toList.take m.toNat).map eobField = List.replicate (m.toNat - 1) false ++ [true] ∧
    (∀ i : Fin 64, m.toNat ≤ i.val → p[i] = s.pbuf[i])

/-- R141: RLE_DEC. Pair `i` fails when it is in code form, has count 0 or makes the running sum pass 64. The lowest failing pair
decides: PAIR_FORM if it is in code form, else CORRUPT_RUN_SUM, with its index; with no failing pair a total below 64 raises
CORRUPT_RUN_SUM with PCOUNT; else ZBUF becomes the expansion and nothing else changes. -/
def Obligations.RleDecodeResult : Prop :=
  decode 0x00000009 = .ok .rleDec ∧
  ∀ s : State,
    let ws := validPairs s
    let runOf := fun i : Nat => (runField (ws.getD i 0)).toNat
    let sumBefore := fun i : Nat => ((ws.take i).map fun w => (runField w).toNat).sum
    let fails := fun i : Nat => lenField (ws.getD i 0) ≠ 0 ∨ runOf i = 0 ∨ 64 < sumBefore i + runOf i
    (∀ i, i < ws.length → fails i → (∀ j, j < i → ¬ fails j) →
      exec .rleDec s = .next { s with
        seq := Sequencer.idle
        status := { s.status with
          done := true, err := true, errCode := if lenField (ws.getD i 0) ≠ 0 then 10 else 3, errInfo := BitVec.ofNat 32 i } }) ∧
    ((∀ i, i < ws.length → ¬ fails i) → sumBefore ws.length < 64 →
      exec .rleDec s = .next { s with
        seq := Sequencer.idle
        status := { s.status with done := true, err := true, errCode := 3, errInfo := s.pcount.setWidth 32 } }) ∧
    ((∀ i, i < ws.length → ¬ fails i) → sumBefore ws.length = 64 →
      ∃ z : Block 16,
        exec .rleDec s = .next { s with zbuf := z, seq := Sequencer.idle, status := { s.status with done := true } } ∧
        z.toList = ws.flatMap fun w => List.replicate (runField w).toNat (symField w))

/-- R142: RLE_DEC after RLE_ENC, with a command issue between, raises no error and leaves ZBUF as it was. -/
def Obligations.RleRoundTrip : Prop :=
  ∀ (s t : State) (w : Word), exec .rleEnc s = .next t →
    ∃ u, exec .rleDec (t.issue w) = .next u ∧ u.zbuf = s.zbuf ∧ u.status.err = false ∧ u.status.errCode = 0 ∧
      u.pbuf = t.pbuf ∧ u.pcount = t.pcount

/-! ### Codebook (44_codebook.md) -/

/-- R94: the layout of a pair word, its fields, its reserved bits, and that a word is its fields. -/
def Obligations.PairWordFields : Prop :=
  (∀ (eob : Bool) (run : BitVec 7) (len : BitVec 5) (sym : BitVec 16),
    (pairWord eob run len sym).toNat = eob.toNat * 2 ^ 31 + run.toNat * 2 ^ 21 + len.toNat * 2 ^ 16 + sym.toNat) ∧
  (∀ (eob : Bool) (run : BitVec 7) (len : BitVec 5) (sym : BitVec 16),
    symField (pairWord eob run len sym) = sym ∧ lenField (pairWord eob run len sym) = len ∧
    runField (pairWord eob run len sym) = run ∧ eobField (pairWord eob run len sym) = eob ∧
    (pairWord eob run len sym).extractLsb' 28 3 = 0) ∧
  (∀ w : Word, pairWord (eobField w) (runField w) (lenField w) (symField w) = w &&& 0x8FFFFFFF)

/-- R95: rank codes of different ranks below 65536 are different and legal, and a rank's code is its binary text: LEN is the
least positive number of digits that holds it. -/
def Obligations.RankCodes : Prop :=
  ∀ r r' : Nat, r < 65536 → r' < 65536 →
    (rankCode r).legal = true ∧ (rankCode r).bits.toNat = r ∧
    (∀ k : Nat, 1 ≤ k → (r < 2 ^ k ↔ (rankCode r).len.toNat ≤ k)) ∧
    (rankCode r = rankCode r' → r = r') ∧
    textValue (codeText (rankCode r)) = r

/-- R95: legal codes and texts of 1 to 16 binary digits correspond one to one. -/
def Obligations.CodeTextBijection : Prop :=
  (∀ c : Code, c.legal = true → textCode (codeText c) = some c) ∧
  (∀ t : List Bool, 1 ≤ t.length → t.length ≤ 16 → ∃ c, textCode t = some c ∧ c.legal = true ∧ codeText c = t)

/-- R151: CB_CLEAR empties the codebook and changes nothing else. -/
def Obligations.CbClearEmpties : Prop :=
  decode 0x00000010 = .ok .cbClear ∧
  ∀ s : State, exec .cbClear s = .next { s with
    cb := [], seq := Sequencer.idle, status := { s.status with done := true } }

/-- R152: CB_ACCUM. A code-form word raises PAIR_FORM with the lowest index of one. Otherwise, on a codebook that meets its
invariants (StepKeepsInvariant), each value's weight grows by the number of pairs that hold it, saturating; new values are
appended in order of first occurrence, with no code; codes are kept; nothing else changes. New values that do not fit the
build's capacity raise CODEBOOK_FULL with the first that does not, and nothing else changes. -/
def Obligations.CbAccumResult : Prop :=
  decode 0x00000011 = .ok .cbAccum ∧
  (∀ (s : State) (i : Nat), i < (validPairs s).length → lenField ((validPairs s).getD i 0) ≠ 0 →
    (∀ j, j < i → lenField ((validPairs s).getD j 0) = 0) →
    exec .cbAccum s = .next { s with
      seq := Sequencer.idle
      status := { s.status with done := true, err := true, errCode := 10, errInfo := BitVec.ofNat 32 i } }) ∧
  (∀ s : State, Codebook.wf s.cbDepth s.cb = true → (∀ w ∈ validPairs s, lenField w = 0) →
    let vs := (validPairs s).map symField
    s.cb.length + (vs.filter fun v => (lookupValue s.cb v).isNone).eraseDups.length ≤ s.cbDepth →
    ∃ cb : List Entry,
      exec .cbAccum s = .next { s with cb := cb, seq := Sequencer.idle, status := { s.status with done := true } } ∧
      cb.map Entry.value = s.cb.map Entry.value ++ (vs.filter fun v => (lookupValue s.cb v).isNone).eraseDups ∧
      (∀ v, lookupValue cb v =
        if vs.count v = 0 then lookupValue s.cb v
        else
          match lookupValue s.cb v with
          | some e => some { e with weight := BitVec.ofNat 32 (min (2 ^ 32 - 1) (e.weight.toNat + vs.count v)) }
          | none => some { value := v, weight := BitVec.ofNat 32 (vs.count v), code := none })) ∧
  (∀ s : State, (∀ w ∈ validPairs s, lenField w = 0) →
    let new := (((validPairs s).map symField).filter fun v => (lookupValue s.cb v).isNone).eraseDups
    s.cbDepth < s.cb.length + new.length →
    exec .cbAccum s = .next { s with
      seq := Sequencer.idle
      status := { s.status with
        done := true, err := true, errCode := 9, errInfo := (new.getD (s.cbDepth - s.cb.length) 0).setWidth 32 } })

/-- R153: CB_BUILD sorts by weight descending, then value ascending, and gives the entry at rank `r` the code of `r`; values
and weights are kept, and nothing else changes. -/
def Obligations.CbBuildResult : Prop :=
  decode 0x00000012 = .ok .cbBuild ∧
  ∀ s : State, ∃ cb : List Entry,
    exec .cbBuild s = .next { s with cb := cb, seq := Sequencer.idle, status := { s.status with done := true } } ∧
    List.Perm (cb.map fun e => (e.value, e.weight)) (s.cb.map fun e => (e.value, e.weight)) ∧
    cb.Pairwise (fun e f => f.weight.toNat < e.weight.toNat ∨ (e.weight = f.weight ∧ e.value.toInt ≤ f.value.toInt)) ∧
    (∀ (r : Nat) (e : Entry), cb[r]? = some e → e.code = some (rankCode r))

/-- R154: CB_ENCODE. The lowest pair that is in code form, or whose value has no entry with a code, raises PAIR_FORM or
UNKNOWN_VALUE with its index; else every valid pair keeps EOB and RUN and takes its value's code; nothing else changes. -/
def Obligations.CbEncodeResult : Prop :=
  decode 0x00000013 = .ok .cbEncode ∧
  ∀ s : State,
    let ws := validPairs s
    let fails := fun i : Nat => lenField (ws.getD i 0) ≠ 0 ∨ codeOf s.cb (symField (ws.getD i 0)) = none
    (∀ i, i < ws.length → fails i → (∀ j, j < i → ¬ fails j) →
      exec .cbEncode s = .next { s with
        seq := Sequencer.idle
        status := { s.status with
          done := true, err := true, errCode := if lenField (ws.getD i 0) ≠ 0 then 10 else 13, errInfo := BitVec.ofNat 32 i } }) ∧
    ((∀ i, i < ws.length → ¬ fails i) →
      ∃ p : Block 32,
        exec .cbEncode s = .next { s with pbuf := p, seq := Sequencer.idle, status := { s.status with done := true } } ∧
        ∀ i : Fin 64,
          if i.val < s.pcount.toNat then
            ∃ c, codeOf s.cb (symField s.pbuf[i]) = some c ∧
              p[i] = pairWord (eobField s.pbuf[i]) (runField s.pbuf[i]) c.len c.bits
          else p[i] = s.pbuf[i])

/-- R155: CB_DECODE. The lowest pair that is in value form, or whose (LEN, BITS) is the code of no entry, raises PAIR_FORM or
UNKNOWN_CODE with its index; else every valid pair keeps EOB and RUN and takes the value of its code; nothing else changes. -/
def Obligations.CbDecodeResult : Prop :=
  decode 0x00000014 = .ok .cbDecode ∧
  ∀ s : State,
    let ws := validPairs s
    let code := fun w : Word => ({ len := lenField w, bits := symField w } : Code)
    let fails := fun i : Nat => lenField (ws.getD i 0) = 0 ∨ lookupCode s.cb (code (ws.getD i 0)) = none
    (∀ i, i < ws.length → fails i → (∀ j, j < i → ¬ fails j) →
      exec .cbDecode s = .next { s with
        seq := Sequencer.idle
        status := { s.status with
          done := true, err := true, errCode := if lenField (ws.getD i 0) = 0 then 10 else 4, errInfo := BitVec.ofNat 32 i } }) ∧
    ((∀ i, i < ws.length → ¬ fails i) →
      ∃ p : Block 32,
        exec .cbDecode s = .next { s with pbuf := p, seq := Sequencer.idle, status := { s.status with done := true } } ∧
        ∀ i : Fin 64,
          if i.val < s.pcount.toNat then
            ∃ e, lookupCode s.cb (code s.pbuf[i]) = some e ∧ e.code = some (code s.pbuf[i]) ∧
              p[i] = pairWord (eobField s.pbuf[i]) (runField s.pbuf[i]) 0 e.value
          else p[i] = s.pbuf[i])

/-- R158: with a codebook that meets its invariants, CB_DECODE of what CB_ENCODE produced, with the same codebook and a command
issue between, raises no error and gives back the value-form words. -/
def Obligations.CodebookRoundTrip : Prop :=
  ∀ (s t : State) (w : Word), Codebook.wf s.cbDepth s.cb = true →
    (∀ p ∈ validPairs s, lenField p = 0 ∧ (codeOf s.cb (symField p)).isSome = true) → exec .cbEncode s = .next t →
    ∃ u, exec .cbDecode (t.issue w) = .next u ∧ u.status.err = false ∧ u.status.errCode = 0 ∧ u.cb = s.cb ∧
      validPairs u = (validPairs s).map maskPair

/-- R156: CB_LOAD. An illegal code, then a value or a code already present, raises CORRUPT_CODEBOOK with CB_COUNT; then a full
codebook raises CODEBOOK_FULL with the value; else the entry is appended with weight 0 and nothing else changes. -/
def Obligations.CbLoadResult : Prop :=
  decode 0x00000015 = .ok .cbLoad ∧
  ∀ s : State,
    let v := s.regs.cbValue
    let c := s.regs.cbCode
    let illegal := c.len.toNat = 0 ∨ 16 < c.len.toNat ∨ 2 ^ c.len.toNat ≤ c.bits.toNat
    let duplicate := (∃ e ∈ s.cb, e.value = v) ∨ (∃ e ∈ s.cb, e.code = some c)
    (illegal ∨ duplicate →
      exec .cbLoad s = .next { s with
        seq := Sequencer.idle
        status := { s.status with
          done := true, err := true, errCode := 5, errInfo := BitVec.ofNat 32 s.cb.length } }) ∧
    (¬ illegal → ¬ duplicate → s.cb.length = s.cbDepth →
      exec .cbLoad s = .next { s with
        seq := Sequencer.idle
        status := { s.status with done := true, err := true, errCode := 9, errInfo := v.setWidth 32 } }) ∧
    (¬ illegal → ¬ duplicate → s.cb.length ≠ s.cbDepth →
      exec .cbLoad s = .next { s with
        cb := s.cb ++ [{ value := v, weight := 0, code := some c }]
        seq := Sequencer.idle, status := { s.status with done := true } })

/-- R157: CB_READ copies the entry at CB_INDEX to CB_VALUE, CB_CODE (0 when it has no code) and CB_WEIGHT and changes nothing
else; an index not below CB_COUNT raises CB_INDEX_RANGE with the index. -/
def Obligations.CbReadResult : Prop :=
  decode 0x00000016 = .ok .cbRead ∧
  (∀ (s : State) (e : Entry), s.cb[s.regs.cbIndex.toNat]? = some e →
    exec .cbRead s = .next { s with
      regs := { s.regs with
        cbValue := e.value
        cbCode := match e.code with | some c => c | none => { len := 0, bits := 0 }
        cbWeight := e.weight }
      seq := Sequencer.idle, status := { s.status with done := true } }) ∧
  (∀ s : State, s.cb.length ≤ s.regs.cbIndex.toNat →
    exec .cbRead s = .next { s with
      seq := Sequencer.idle
      status := { s.status with done := true, err := true, errCode := 14, errInfo := s.regs.cbIndex.setWidth 32 } })

/-! ### Padding and cropping (45_geometry.md) -/

/-- R172: the geometry errors of PAD_FETCH and CROP_STORE: the size check, then the selection check, with no memory access and
no other change. -/
def Obligations.GeometryErrors : Prop :=
  ∀ (i : Instr) (s : State), (i = .padFetch ∨ i = .cropStore) →
    ((s.regs.width = 0 ∨ s.regs.height = 0) →
      exec i s = .next { s with
        seq := Sequencer.idle
        status := { s.status with
          done := true, err := true, errCode := 7, errInfo := s.regs.height ++ s.regs.width } }) ∧
    (s.regs.width ≠ 0 → s.regs.height ≠ 0 → (blkCols s.regs ≤ s.regs.blkCol.toNat ∨ blkRows s.regs ≤ s.regs.blkRow.toNat) →
      exec i s = .next { s with
        seq := Sequencer.idle
        status := { s.status with done := true, err := true, errCode := 7, errInfo := regRead .blkSel s } })

/-- R173, R170: PAD_FETCH in an undisturbed run. Every in-bounds cell becomes 256 times its image byte and every other cell 0;
exactly the in-bounds bytes are read, in increasing cell order; nothing else changes. -/
def Obligations.PadFetchResult : Prop :=
  ∀ s : State, s.Undisturbed → s.regs.width ≠ 0 → s.regs.height ≠ 0 →
    s.regs.blkCol.toNat < blkCols s.regs → s.regs.blkRow.toNat < blkRows s.regs →
    let y := fun n : Nat => 8 * s.regs.blkRow.toNat + n / 8
    let x := fun n : Nat => 8 * s.regs.blkCol.toNat + n % 8
    let inside := fun n : Nat => decide (y n < s.regs.height.toNat) && decide (x n < s.regs.width.toNat)
    let addr := fun n : Nat => s.regs.imgBase + BitVec.ofNat 32 (y n * s.regs.width.toNat + x n)
    ∃ b : Block 32,
      exec .padFetch s = .next { s with
        cbuf := b
        busLog := (((List.range 64).filter inside).map fun n => Request.read8 (addr n)).reverse ++ s.busLog
        seq := Sequencer.idle, status := { s.status with done := true } } ∧
      ∀ n : Fin 64, b[n].toNat = if inside n.val then 256 * (s.byte (addr n.val)).toNat else 0

/-- R174, R171: CROP_STORE in an undisturbed run. Every in-bounds cell's sample, rounded half up and clamped to 0..255, is
stored at its image byte, in increasing cell order; every other byte and everything else is unchanged. -/
def Obligations.CropStoreResult : Prop :=
  ∀ s : State, s.Undisturbed → Memory.wf s.mem = true → s.regs.width ≠ 0 → s.regs.height ≠ 0 →
    s.regs.blkCol.toNat < blkCols s.regs → s.regs.blkRow.toNat < blkRows s.regs →
    let y := fun n : Nat => 8 * s.regs.blkRow.toNat + n / 8
    let x := fun n : Nat => 8 * s.regs.blkCol.toNat + n % 8
    let inside := fun n : Nat => decide (y n < s.regs.height.toNat) && decide (x n < s.regs.width.toNat)
    let addr := fun n : Nat => s.regs.imgBase + BitVec.ofNat 32 (y n * s.regs.width.toNat + x n)
    ∃ (m : List Host.Cell) (px : Fin 64 → Byte),
      exec .cropStore s = .next { s with
        mem := m
        busLog := (((List.finRange 64).filter fun n => inside n.val).map fun n => Request.write8 (addr n.val) (px n)).reverse ++ s.busLog
        seq := Sequencer.idle, status := { s.status with done := true } } ∧
      (∀ n : Fin 64, ((px n).toNat : ℤ) = max 0 (min 255 ⌊(s.cbuf[n].toInt : ℚ) / 256 + 1 / 2⌋)) ∧
      (∀ n : Fin 64, inside n.val = true → memGet m (addr n.val).toNat = px n) ∧
      (∀ a : Addr, (∀ n : Fin 64, inside n.val = true → a ≠ addr n.val) → memGet m a.toNat = s.byte a)

/-- R84, R173, R174, R203: when the memory answers the `k`-th access (from 0) of PAD_FETCH or CROP_STORE with an error, the
command raises BUS_ERROR with that access's address and issues no further one. After PAD_FETCH nothing else has changed but
CBUF (and the model's own `draws`); after CROP_STORE the bytes before the failing one stay written, the failing byte is as the
memory answered, and every other byte is unchanged. In the same way for each of the four commands that reach memory, and so
inside both sequences (R187 (d)): the transactions issued are those of the run on ordinary memory up to its `k`-th access, whose
address is recorded, memory holds what the accesses before it wrote (and the failing write if it `landed`), QMAT and QV are
the generated ones, and no further answer of the memory is used. BLK_DONE and STRM_PTR of a sequence hold its progress (R37, C3),
and no other register changes; CB is unchanged but by SEQ_COMPRESS, where it counts the pairs of the blocks transformed until
phase BUILD; SAT is set only where the ordinary run sets it, in SEQ_COMPRESS exactly when a block transformed saturated. -/
def Obligations.BusErrorAtAnyAccess : Prop :=
  (∀ (i : Instr) (s u : State) (k : Nat) (landed : Bool) (rest : List MemResponse) (log : List Request) (r : Request),
    reachesMemory i = true → s.Alone → Memory.wf s.mem = true →
    s.memResp = List.replicate k .ordinary ++ .error landed :: rest →
    exec i { s with memResp := [] } = .next u → u.busLog = log.reverse ++ s.busLog →
    (log.filter Request.isMaster)[k]? = some r →
    ∃ (t : State) (done : List Request),
      exec i s = .next t ∧ t.busLog = (done ++ [r]).reverse ++ s.busLog ∧
      (done ++ [r]) <+: log ∧ done.countP Request.isMaster = k ∧
      t.status = { s.status with
        done := true, err := true, errCode := 12, errInfo := r.addr, sat := t.status.sat, qv := u.status.qv } ∧
      t.seq = Sequencer.idle ∧ t.qmat = u.qmat ∧ t.memResp = rest ∧
      t.mem = (done ++ if landed then [r] else []).foldl Request.perform s.mem ∧
      t.regs = (if i = .seqCompress then compressStopped done r s.regs
        else if i = .seqDecompress then decompressStopped done r s.regs else s.regs) ∧
      t.cb = (if i ≠ .seqCompress then s.cb else if substBegun (done ++ [r]) then u.cb
        else countedCodebook ((transformed done).flatMap (wordsOfBlock t.qmat))) ∧
      (t.status.sat = true → u.status.sat = true) ∧
      (i = .seqCompress → t.status.sat = (s.status.sat || (transformed done).any (quantSaturates t.qmat)))) ∧
  ∀ (s : State) (k : Nat) (landed : Bool) (rest : List MemResponse) (f : Fin 64), s.Alone → Memory.wf s.mem = true →
    s.memResp = List.replicate k .ordinary ++ .error landed :: rest →
    s.regs.width ≠ 0 → s.regs.height ≠ 0 → s.regs.blkCol.toNat < blkCols s.regs → s.regs.blkRow.toNat < blkRows s.regs →
    let y := fun n : Fin 64 => 8 * s.regs.blkRow.toNat + n.val / 8
    let x := fun n : Fin 64 => 8 * s.regs.blkCol.toNat + n.val % 8
    let inside := fun n : Fin 64 => decide (y n < s.regs.height.toNat) && decide (x n < s.regs.width.toNat)
    let addr := fun n : Fin 64 => s.regs.imgBase + BitVec.ofNat 32 (y n * s.regs.width.toNat + x n)
    let cells := (List.finRange 64).filter inside
    cells[k]? = some f →
    (∃ b : Block 32,
      exec .padFetch s = .next { s with
        cbuf := b, draws := s.draws + 1, memResp := rest, seq := Sequencer.idle
        busLog := ((cells.take (k + 1)).map fun n => Request.read8 (addr n)).reverse ++ s.busLog
        status := { s.status with done := true, err := true, errCode := 12, errInfo := addr f } }) ∧
    (∃ (m : List Host.Cell) (px : Fin 64 → Byte),
      exec .cropStore s = .next { s with
        mem := m, memResp := rest, seq := Sequencer.idle
        busLog := ((cells.take (k + 1)).map fun n => Request.write8 (addr n) (px n)).reverse ++ s.busLog
        status := { s.status with done := true, err := true, errCode := 12, errInfo := addr f } } ∧
      (∀ n : Fin 64, ((px n).toNat : ℤ) = max 0 (min 255 ⌊(s.cbuf[n].toInt : ℚ) / 256 + 1 / 2⌋)) ∧
      (∀ n ∈ cells.take k, memGet m (addr n).toNat = px n) ∧
      memGet m (addr f).toNat = (if landed then px f else s.byte (addr f)) ∧
      (∀ a : Addr, (∀ n ∈ cells.take (k + 1), a ≠ addr n) → memGet m a.toNat = s.byte a))

/-! ### Sequences (46_sequencer.md) -/

/-- R202 (2), R182, R183: both sequences check the quality, then the size, before anything else: no access is made, and
nothing but the error record and the scratch buffers (U8) changes. -/
def Obligations.SequenceRegisterChecks : Prop :=
  ∀ (i : Instr) (s : State), (i = .seqCompress ∨ i = .seqDecompress) →
    ((s.regs.quality.toNat < 1 ∨ 100 < s.regs.quality.toNat) →
      exec i s = .next { s.freeScratch with
        seq := Sequencer.idle
        status := { s.status with done := true, err := true, errCode := 1, errInfo := s.regs.quality.setWidth 32 } }) ∧
    (1 ≤ s.regs.quality.toNat → s.regs.quality.toNat ≤ 100 → (s.regs.width = 0 ∨ s.regs.height = 0) →
      exec i s = .next { s.freeScratch with
        seq := Sequencer.idle
        status := { s.status with done := true, err := true, errCode := 7, errInfo := s.regs.height ++ s.regs.width } })

/-- The model's named stops (U5 and U10 of 93_implementation_defined.md, treatment `refuse`; logs 13, 14, 15): overlapping
regions of a sequence; a host store into the image region of a running PAD_FETCH, CROP_STORE or sequence, or into the stream
region of a running sequence (STRM_CAP words of SEQ_COMPRESS, STRM_LEN of SEQ_DECOMPRESS); a register access in reset. -/
def Obligations.NamedStops : Prop :=
  (∀ s : State, 1 ≤ s.regs.quality.toNat → s.regs.quality.toNat ≤ 100 → s.regs.width ≠ 0 → s.regs.height ≠ 0 →
    (overlaps (imageRegion s.regs) (streamRegionCap s.regs) = true → exec .seqCompress s = .refused .regionsOverlap) ∧
    (overlaps (imageRegion s.regs) (streamRegionLen s.regs) = true → exec .seqDecompress s = .refused .regionsOverlap)) ∧
  (∀ (s : State) (a : Addr) (b : Byte) (w : Word), s.seq.cmd = some w →
    (w = 0x18 ∨ w = 0x19 ∨ w = 0x20 ∨ w = 0x21) → inRegion (imageRegion s.regs) a = true →
    hostOp (.store a b) s = .fault .regionRace) ∧
  (∀ (s : State) (a : Addr) (b : Byte), s.seq.cmd = some 0x20 → inRegion (streamRegionCap s.regs) a = true →
    hostOp (.store a b) s = .fault .regionRace) ∧
  (∀ (s : State) (a : Addr) (b : Byte), s.seq.cmd = some 0x21 → inRegion (streamRegionLen s.regs) a = true →
    hostOp (.store a b) s = .fault .regionRace) ∧
  (∀ (s : State) (off : BitVec 12) (strb : BitVec 4) (w : Word), s.rst = true →
    hostOp (.read off) s = .refused .accessDuringReset ∧ hostOp (.write off strb w) s = .refused .accessDuringReset)

/-- R182, R76, R203: the frame of SEQ_COMPRESS, whether it ends with an error or not and whatever the memory answers: every byte
outside the stream region is unchanged, and so is every register but STRM_LEN, BLK_DONE and STRM_PTR; on an error STRM_LEN is
unchanged. And, on ordinary memory, where it stops when block `b` is the first that does not fit: CODEBOOK_FULL with the first
value past the capacity if the codebook is full, else STREAM_OVERFLOW with STRM_CAP. BLK_DONE is `b`; the stream words below
STRM_PTR (those of the blocks before, or STRM_CAP of them) are written in value form and no other byte is; CB counts the pairs
accumulated; QMAT is generated; SAT is set if a block up to `b` saturated; the transactions are those of the blocks before, then
of `b` up to the failing check. -/
def Obligations.CompressFrame : Prop :=
  (∀ s t : State, s.Alone → Memory.wf s.mem = true → s.status.err = false → exec .seqCompress s = .next t →
    (∀ a : Addr, inRegion (streamRegionCap s.regs) a = false → t.byte a = s.byte a) ∧
    t.regs = { s.regs with strmLen := t.regs.strmLen, blkDone := t.regs.blkDone, strmPtr := t.regs.strmPtr } ∧
    (t.status.err = true → t.regs.strmLen = s.regs.strmLen) ∧
    t.rst = s.rst ∧ t.hostIn = s.hostIn ∧ t.hostOut = s.hostOut) ∧
  (∀ (s : State) (b : Nat), s.Undisturbed → Memory.wf s.mem = true → 1 ≤ s.regs.quality.toNat → s.regs.quality.toNat ≤ 100 →
    s.regs.width ≠ 0 → s.regs.height ≠ 0 → overlaps (imageRegion s.regs) (streamRegionCap s.regs) = false →
    b < blkCount s.regs → blocksFit s b → ¬ blocksFit s (b + 1) →
    let full := s.cbDepth < (streamValues s (b + 1)).length
    let written := if full then valueStream s b else (valueStream s (b + 1)).take s.regs.strmCap.toNat
    ∃ t : State, exec .seqCompress s = .next t ∧
      t.status = { s.status with
        done := true, err := true, qv := true, sat := s.status.sat || streamSaturates s (b + 1)
        errCode := if full then 9 else 8
        errInfo := if full then ((streamValues s (b + 1)).getD s.cbDepth 0).setWidth 32 else s.regs.strmCap } ∧
      t.regs = { s.regs with
        blkDone := BitVec.ofNat 32 b, strmPtr := BitVec.ofNat 32 written.length } ∧
      strmWords t written.length = written ∧
      (∀ a : Addr, inStream s.regs written.length a = false → t.byte a = s.byte a) ∧
      t.cb = countedCodebook (if full then valueStream s b else valueStream s (b + 1)) ∧
      t.qmat = matrixOf s.regs.quality.toNat ∧
      t.busLog = ((List.range b).flatMap (compressBlockRequests s) ++ codingRequests s b ++
        writeRequests s.regs (valueStream s b).length (written.drop (valueStream s b).length)).reverse ++ s.busLog)

/-- R183, R171: the frame of SEQ_DECOMPRESS, whatever the memory answers: every byte outside the image region, the codebook,
and every register but BLK_DONE and STRM_PTR are unchanged. -/
def Obligations.DecompressFrame : Prop :=
  ∀ s t : State, s.Alone → Memory.wf s.mem = true → exec .seqDecompress s = .next t →
    (∀ a : Addr, inRegion (imageRegion s.regs) a = false → t.byte a = s.byte a) ∧ t.cb = s.cb ∧
    t.regs = { s.regs with blkDone := t.regs.blkDone, strmPtr := t.regs.strmPtr } ∧
    t.rst = s.rst ∧ t.hostIn = s.hostIn ∧ t.hostOut = s.hostOut

/-- R182: an undisturbed SEQ_COMPRESS with legal registers and disjoint regions, whose blocks fit the stream's capacity and the
codebook's, raises no error; it has completed every block; the stream of STRM_LEN = STRM_PTR words is as long as the blocks
need and is one that SEQ_DECOMPRESS accepts with the codebook left behind (R158), whose entries carry their rank codes; no byte
outside those words changes; SAT is set if a QUANT step of a block saturated, and kept else. Its transactions are, in this order
(R12, R78, R180, R186): for each block the reads of its in-bounds pixels, its transform request, and the writes of its words in
value form; then for each word a read and the write of its code form. The need of `k` blocks lies in `k`..`64·k` words, so STRM_CAP =
64·BLK_COUNT always suffices; it is at most 65536 values, so the reference build's capacity always does. -/
def Obligations.CompressCompletes : Prop :=
  (∀ s : State, s.Undisturbed → Memory.wf s.mem = true → 1 ≤ s.regs.quality.toNat → s.regs.quality.toNat ≤ 100 →
    s.regs.width ≠ 0 → s.regs.height ≠ 0 → overlaps (imageRegion s.regs) (streamRegionCap s.regs) = false →
    blocksFit s (blkCount s.regs) →
    ∃ (t : State) (n : Nat), exec .seqCompress s = .next t ∧
      t.status = { s.status with done := true, qv := true, sat := s.status.sat || streamSaturates s (blkCount s.regs) } ∧
      t.regs = { s.regs with
        blkDone := BitVec.ofNat 32 (blkCount s.regs), strmPtr := BitVec.ofNat 32 n, strmLen := BitVec.ofNat 32 n } ∧
      n = (valueStream s (blkCount s.regs)).length ∧ n < 2 ^ 32 ∧
      legalStream t.cb (blkCount s.regs) (strmWords t n) ∧
      Codebook.wf t.cbDepth t.cb = true ∧ (∀ (r : Nat) (e : Entry), t.cb[r]? = some e → e.code = some (rankCode r)) ∧
      (∀ a : Addr, inStream s.regs n a = false → t.byte a = s.byte a) ∧
      t.busLog = (compressRequests s (strmWords t n)).reverse ++ s.busLog) ∧
  (∀ (s : State) (k : Nat), k ≤ (valueStream s k).length ∧ (valueStream s k).length ≤ 64 * k ∧
    (streamValues s k).length ≤ 65536)

/-- R182: SEQ_COMPRESS's result. An error-free undisturbed run leaves the matrix of QUALITY, and a stream of BLK_COUNT legal
blocks in row-major order, each the maximal runs, in codes, of its image block: padded, transformed, quantized and zig-zag
flattened; the codebook has the stream's values alone, each with its number of pairs, in rank order; SAT is set exactly if it
was set before or some coefficient of some block saturated in QUANT (R27, R111). -/
def Obligations.CompressStream : Prop :=
  ∀ s t : State, s.Undisturbed → Memory.wf s.mem = true → s.regs.width ≠ 0 → s.regs.height ≠ 0 →
    exec .seqCompress s = .next t → t.status.errCode = 0 → s.status.errCode = 0 →
    (∀ n : Fin 64, t.qmat[n].toNat = qgenEntry (baseq n) s.regs.quality.toNat) ∧
    (t.status.sat = true ↔ s.status.sat = true ∨ ∃ (row col : Nat) (n : Fin 64), row < blkRows s.regs ∧ col < blkCols s.regs ∧
      overflowed 16 (quantExact (txFwd (imageBlock s row col))[n] t.qmat[n]) = true) ∧
    ∃ bs : List (List Word), bs.length = blkCount s.regs ∧ bs.flatten = strmWords t t.regs.strmLen.toNat ∧
      (∀ b ∈ bs, legalBlock t.cb b = true ∧ (b.map (pairValue t.cb)).IsChain (fun u v => u ≠ v)) ∧
      (∀ (row col : Nat) (k : Fin 64), row < blkRows s.regs → col < blkCols s.regs →
        ((bs.getD (row * blkCols s.regs + col) []).flatMap fun w =>
          List.replicate (runField w).toNat (pairValue t.cb w))[k.val]? =
        some (satPat 16 (quantExact (txFwd (imageBlock s row col))[zz k] t.qmat[zz k]))) ∧
      (∀ e ∈ t.cb, 1 ≤ e.weight.toNat ∧ e.weight.toNat = (bs.flatten.map (pairValue t.cb)).count e.value) ∧
      t.cb.Pairwise (fun e f =>
        f.weight.toNat < e.weight.toNat ∨ (e.weight = f.weight ∧ e.value.toInt ≤ f.value.toInt))

/-- R183: an undisturbed SEQ_DECOMPRESS with legal registers, disjoint regions and a stream its codebook accepts raises no
error, completes every block and every stream word, sets SAT if a DEQUANT step of a block saturated, and leaves the codebook and
every byte outside the image as they were. Its transactions are, in this order (R12, R78, R180, R186): the reads of all stream words;
then for each block the reads of its words, its transform request, and the writes of its in-bounds pixels. -/
def Obligations.DecompressCompletes : Prop :=
  ∀ (s : State) (bs : List (List Word)), s.Undisturbed → Memory.wf s.mem = true →
    1 ≤ s.regs.quality.toNat → s.regs.quality.toNat ≤ 100 → s.regs.width ≠ 0 → s.regs.height ≠ 0 →
    overlaps (imageRegion s.regs) (streamRegionLen s.regs) = false →
    bs.length = blkCount s.regs → bs.all (legalBlock s.cb) = true → bs.flatten = strmWords s s.regs.strmLen.toNat →
    ∃ t : State, exec .seqDecompress s = .next t ∧
      t.status = { s.status with
        done := true, qv := true
        sat := s.status.sat || bs.any (dequantSaturates s.cb (matrixOf s.regs.quality.toNat)) } ∧
      t.regs = { s.regs with blkDone := BitVec.ofNat 32 (blkCount s.regs), strmPtr := s.regs.strmLen } ∧
      t.cb = s.cb ∧ (∀ a : Addr, inRegion (imageRegion s.regs) a = false → t.byte a = s.byte a) ∧
      t.busLog = (decompressRequests s bs).reverse ++ s.busLog

/-- R183, R170: under the same conditions every pixel of the image is the reconstruction of its cell of its stream block: codes
to values, run-length decode, un-zigzag, dequantize with the matrix of QUALITY, inverse transform, round and clamp; SAT is set
exactly if it was set before or some value of some block saturated in DEQUANT (R27, R112). -/
def Obligations.DecompressImage : Prop :=
  ∀ (s t : State) (bs : List (List Word)), s.Undisturbed → Memory.wf s.mem = true →
    s.regs.width ≠ 0 → s.regs.height ≠ 0 → exec .seqDecompress s = .next t → t.status.errCode = 0 → s.status.errCode = 0 →
    bs.length = blkCount s.regs → bs.all (legalBlock s.cb) = true → bs.flatten = strmWords s s.regs.strmLen.toNat →
    (∀ n : Fin 64, t.qmat[n].toNat = qgenEntry (baseq n) s.regs.quality.toNat) ∧
    (t.status.sat = true ↔ s.status.sat = true ∨ ∃ b ∈ bs, ∃ n : Fin 64,
      overflowed 32 (dequantExact (codedSequence s.cb b)[zzInv n] t.qmat[n]) = true) ∧
    ∀ (row col : Nat) (n : Fin 64), row < blkRows s.regs → col < blkCols s.regs →
      8 * row + n.val / 8 < s.regs.height.toNat → 8 * col + n.val % 8 < s.regs.width.toNat →
      t.byte (pixAddr s.regs (8 * row + n.val / 8) (8 * col + n.val % 8)) =
        pixel (reconstruct s.cb t.qmat (bs.getD (row * blkCols s.regs + col) []))[n]

/-- R187 (b), R183: all or nothing, and what stops SEQ_DECOMPRESS. On ordinary memory a run that ends with any error has written
no byte, and a run without error had a stream that its codebook accepts. For legal registers and disjoint regions, let the stream
begin with whole legal blocks and the beginning `p` of one more; `j` is the index of the word after them. With blocks to come, no
word at `j` is CORRUPT_BLOCK_COUNT, a value-form word PAIR_FORM, a code of no entry UNKNOWN_CODE, a run of 0 or one past 64
CORRUPT_RUN_SUM, all with ERRINFO = STRM_PTR = `j`; EOB before the runs reach 64 is CORRUPT_RUN_SUM with ERRINFO = `j` and the word
counted in STRM_PTR. After the last block any word is CORRUPT_BLOCK_COUNT. Memory, CB and the other registers stay as they were
and BLK_DONE is 0; the transactions are the reads of the words up to the failing one. And whatever the memory answers, ERRINFO of
CORRUPT_BLOCK_COUNT is STRM_PTR, and that of the others is the index of a stream word of the current block or, from a body of phase
BLOCKS, a PBUF index or PCOUNT. A block that reads back otherwise in phase BLOCKS, as `ws`, ends with the error that CB_DECODE or
RLE_DEC raises on it, ERRINFO its own (log 28): PAIR_FORM or UNKNOWN_CODE at the lowest PBUF index that fails; else CORRUPT_RUN_SUM
at the lowest PBUF index whose run is 0 or passes 64; else, for a total below 64, CORRUPT_RUN_SUM with PCOUNT. -/
def Obligations.DecompressAllOrNothing : Prop :=
  (∀ s t : State, s.Undisturbed → Memory.wf s.mem = true → s.status.err = false → exec .seqDecompress s = .next t →
    (t.status.err = true → t.mem = s.mem) ∧
    (t.status.err = false → legalStream s.cb (blkCount s.regs) (strmWords s s.regs.strmLen.toNat))) ∧
  (∀ (s : State) (bs : List (List Word)) (p r : List Word), s.Undisturbed → Memory.wf s.mem = true →
    1 ≤ s.regs.quality.toNat → s.regs.quality.toNat ≤ 100 → s.regs.width ≠ 0 → s.regs.height ≠ 0 →
    overlaps (imageRegion s.regs) (streamRegionLen s.regs) = false →
    bs.all (legalBlock s.cb) = true → blockPrefix s.cb p = true → strmWords s s.regs.strmLen.toNat = bs.flatten ++ p ++ r →
    let j := (bs.flatten ++ p).length
    let raises := fun (code : BitVec 4) (ptr reads : Nat) =>
      ∃ t : State, exec .seqDecompress s = .next t ∧
        t.status = { s.status with done := true, err := true, qv := true, errCode := code, errInfo := BitVec.ofNat 32 j } ∧
        t.regs = { s.regs with blkDone := 0, strmPtr := BitVec.ofNat 32 ptr } ∧ t.mem = s.mem ∧ t.cb = s.cb ∧
        t.qmat = matrixOf s.regs.quality.toNat ∧ t.busLog = (readRequests s.regs 0 reads).reverse ++ s.busLog
    (bs.length < blkCount s.regs → r = [] → raises 2 j j) ∧
    (∀ (w : Word) (ws : List Word), bs.length < blkCount s.regs → r = w :: ws →
      (lenField w = 0 → raises 10 j (j + 1)) ∧
      (lenField w ≠ 0 → lookupCode s.cb { len := lenField w, bits := symField w } = none → raises 4 j (j + 1)) ∧
      (decodable s.cb w = true → (runField w = 0 ∨ 64 < runSum p + (runField w).toNat) → raises 3 j (j + 1)) ∧
      (decodable s.cb w = true → runField w ≠ 0 → runSum p + (runField w).toNat < 64 → eobField w = true →
        raises 3 (j + 1) (j + 1))) ∧
    (bs.length = blkCount s.regs → p = [] → r ≠ [] → raises 2 j j)) ∧
  (∀ s t : State, s.Alone → s.status.err = false → exec .seqDecompress s = .next t → t.status.err = true →
    (t.status.errCode = 2 → t.status.errInfo = t.regs.strmPtr) ∧
    (t.status.errCode ∈ ([3, 4, 10] : List (BitVec 4)) →
      t.status.errInfo.toNat ≤ t.regs.strmPtr.toNat ∧ t.regs.strmPtr.toNat ≤ s.regs.strmLen.toNat ∧
      ((t.status.errInfo.toNat < s.regs.strmLen.toNat ∧ t.regs.strmPtr.toNat ≤ t.status.errInfo.toNat + 64) ∨
        t.status.errInfo.toNat ≤ 64))) ∧
  ∀ (b : Nat) (s : State) (ws : List Word) (rest : List MemResponse), s.Alone → readAsBlock ws = true →
    s.seq.j + ws.length ≤ s.regs.strmLen.toNat → s.memResp = ws.map .returns ++ rest →
    let raises := fun (c : ErrCode) (info : Nat) => ∃ t : State, decompressBlock b s = .raised c (pat32 info) t ∧ t.mem = s.mem ∧
      t.regs = { s.regs with strmPtr := pat32 (s.seq.j + ws.length) }
    (∀ (p q : List Word) (w : Word), ws = p ++ w :: q → p.all (decodable s.cb) = true →
      (lenField w = 0 → raises .pairForm p.length) ∧
      (lenField w ≠ 0 → lookupCode s.cb { len := lenField w, bits := symField w } = none → raises .unknownCode p.length)) ∧
    (ws.all (decodable s.cb) = true →
      (∀ (p q : List Word) (w : Word), ws = p ++ w :: q → runsPositive p = true → runSum p ≤ 64 →
        (runField w = 0 ∨ 64 < runSum p + (runField w).toNat) →
        raises .corruptRunSum p.length) ∧
      (runsPositive ws = true → runSum ws < 64 → raises .corruptRunSum ws.length))

/-- V-L1-4, R182: the all-zero image. Whatever the quality, the base table and the transform, compressing it gives BLK_COUNT
stream words 0x8801_0000, in memory the bytes 00 00 01 88 (program P2), and the one-entry codebook of value 0, weight BLK_COUNT and
code "0". The order of a word's bytes is R71's: the lowest address holds the least significant one, in reads and in writes. -/
def Obligations.AllZeroImageCompresses : Prop :=
  (∀ (m : List Host.Cell) (a : Addr), (memGet32 m a).toNat = (memGet m a.toNat).toNat + 2 ^ 8 * (memGet m (a + 1).toNat).toNat +
    2 ^ 16 * (memGet m (a + 2).toNat).toNat + 2 ^ 24 * (memGet m (a + 3).toNat).toNat) ∧
  (∀ (m : List Host.Cell) (a : Addr) (w : Word), Memory.wf m = true →
    (memGet (memSet32 m a w) a.toNat).toNat = w.toNat % 2 ^ 8 ∧
    (memGet (memSet32 m a w) (a + 1).toNat).toNat = w.toNat / 2 ^ 8 % 2 ^ 8 ∧
    (memGet (memSet32 m a w) (a + 2).toNat).toNat = w.toNat / 2 ^ 16 % 2 ^ 8 ∧
    (memGet (memSet32 m a w) (a + 3).toNat).toNat = w.toNat / 2 ^ 24) ∧
  ∀ s : State, s.Undisturbed → Memory.wf s.mem = true → 1 ≤ s.regs.quality.toNat → s.regs.quality.toNat ≤ 100 →
    s.regs.width ≠ 0 → s.regs.height ≠ 0 → overlaps (imageRegion s.regs) (streamRegionCap s.regs) = false →
    blkCount s.regs ≤ s.regs.strmCap.toNat →
    (∀ a : Addr, inRegion (imageRegion s.regs) a = true → s.byte a = 0) →
    ∃ t : State, exec .seqCompress s = .next t ∧ t.status = { s.status with done := true, qv := true } ∧
      t.regs.strmLen = BitVec.ofNat 32 (blkCount s.regs) ∧
      t.cb = [{ value := 0, weight := BitVec.ofNat 32 (blkCount s.regs), code := some { len := 1, bits := 0 } }] ∧
      (∀ j, j < blkCount s.regs → t.strmWord j = 0x88010000 ∧
        t.byte (strmAddr s.regs j) = 0x00 ∧ t.byte (strmAddr s.regs j + 1) = 0x00 ∧
        t.byte (strmAddr s.regs j + 2) = 0x01 ∧ t.byte (strmAddr s.regs j + 3) = 0x88)
end

