-- ==== Sys2Proof/Laws/Memory.lean ====
section
/-! SUPPORT. The laws of external memory: a read after a write, every other byte, the canonical form. -/

namespace Sys2Proof.Machine

/-- A memory whose addresses all lie at or above a bound reads as unlisted below it. -/
theorem memGet_of_lt_bound {m : List Host.Cell} {lo a : Nat} (h : memWfFrom lo m = true) (ha : a < lo) :
    memGet m a = unlistedByte := by
  induction m generalizing lo with
  | nil => rfl
  | cons c m ih =>
    obtain ⟨k, v⟩ := c
    simp only [memWfFrom, Bool.and_eq_true, decide_eq_true_eq] at h
    have hk : k ≠ a := by omega
    simp only [memGet, hk, if_false]
    exact ih h.2 (by omega)

theorem memWfFrom_mono {m : List Host.Cell} {lo lo' : Nat} (h : memWfFrom lo m = true) (hl : lo' ≤ lo) :
    memWfFrom lo' m = true := by
  cases m with
  | nil => rfl
  | cons c m =>
    obtain ⟨k, v⟩ := c
    simp only [memWfFrom, Bool.and_eq_true, decide_eq_true_eq] at h ⊢
    exact ⟨⟨⟨by omega, h.1.1.2⟩, h.1.2⟩, h.2⟩

theorem memCons_wf {m : List Host.Cell} {lo a : Nat} {b : Byte} (h : memWfFrom (a + 1) m = true) (hl : lo ≤ a)
    (ha : a < 2 ^ 32) : memWfFrom lo (memCons a b m) = true := by
  unfold memCons
  split
  · exact memWfFrom_mono h (by omega)
  · rename_i hb
    simp only [memWfFrom, Bool.and_eq_true, decide_eq_true_eq]
    exact ⟨⟨⟨hl, ha⟩, hb⟩, h⟩

theorem memSet_wfFrom {m : List Host.Cell} {lo a : Nat} (b : Byte) (h : memWfFrom lo m = true) (hl : lo ≤ a)
    (ha : a < 2 ^ 32) : memWfFrom lo (memSet m a b) = true := by
  induction m generalizing lo with
  | nil => exact memCons_wf rfl hl ha
  | cons c m ih =>
    obtain ⟨k, v⟩ := c
    simp only [memWfFrom, Bool.and_eq_true, decide_eq_true_eq] at h
    simp only [memSet]
    split
    · refine memCons_wf ?_ hl ha
      simp only [memWfFrom, Bool.and_eq_true, decide_eq_true_eq]
      exact ⟨⟨⟨by omega, h.1.1.2⟩, h.1.2⟩, h.2⟩
    · split
      · exact memCons_wf (by subst a; exact h.2) hl ha
      · simp only [memWfFrom, Bool.and_eq_true, decide_eq_true_eq]
        exact ⟨h.1, ih h.2 (by omega)⟩

/-- A store keeps the canonical form. -/
theorem memSet_wf {m : List Host.Cell} (h : Memory.wf m = true) (a : Addr) (b : Byte) :
    Memory.wf (memSet m a.toNat b) = true :=
  memSet_wfFrom b h (Nat.zero_le _) a.isLt

/-- A word store keeps the canonical form. -/
theorem memSet32_wf {m : List Host.Cell} (h : Memory.wf m = true) (a : Addr) (w : Word) :
    Memory.wf (memSet32 m a w) = true :=
  memSet_wf (memSet_wf (memSet_wf (memSet_wf h _ _) _ _) _ _) _ _

theorem memGet_memCons {m : List Host.Cell} {a c : Nat} {b : Byte} (h : memWfFrom (a + 1) m = true) :
    memGet (memCons a b m) c = if a = c then b else memGet m c := by
  unfold memCons
  split
  · rename_i hb
    split
    · rename_i hc
      rw [memGet_of_lt_bound h (by omega), hb]
    · rfl
  · simp only [memGet]

theorem memGet_memSet_from {m : List Host.Cell} {lo : Nat} (h : memWfFrom lo m = true) (a c : Nat) (b : Byte) :
    memGet (memSet m a b) c = if a = c then b else memGet m c := by
  induction m generalizing lo with
  | nil => exact memGet_memCons rfl
  | cons p m ih =>
    obtain ⟨k, v⟩ := p
    have h0 := h
    simp only [memWfFrom, Bool.and_eq_true, decide_eq_true_eq] at h
    simp only [memSet]
    split
    · refine memGet_memCons ?_
      simp only [memWfFrom, Bool.and_eq_true, decide_eq_true_eq]
      exact ⟨⟨⟨by omega, h.1.1.2⟩, h.1.2⟩, h.2⟩
    · split
      · rename_i hk
        subst hk
        rw [memGet_memCons h.2]
        simp only [memGet]
        split <;> rfl
      · rename_i hk
        simp only [memGet, ih h.2]
        split
        · rename_i hkc
          rw [if_neg (by omega)]
        · rfl

/-- A read after a store: the stored byte at its address, every other byte as before. -/
theorem memGet_memSet {m : List Host.Cell} (h : Memory.wf m = true) (a c : Nat) (b : Byte) :
    memGet (memSet m a b) c = if a = c then b else memGet m c :=
  memGet_memSet_from h a c b

theorem memGet_memSet_other {m : List Host.Cell} (h : Memory.wf m = true) {a c : Nat} (b : Byte) (hc : a ≠ c) :
    memGet (memSet m a b) c = memGet m c := by
  rw [memGet_memSet h, if_neg hc]

/-- A word store leaves every byte outside its four alone. -/
theorem memGet_memSet32_other {m : List Host.Cell} (h : Memory.wf m = true) {a : Addr} {c : Nat} (w : Word)
    (h0 : a.toNat ≠ c) (h1 : (a + 1).toNat ≠ c) (h2 : (a + 2).toNat ≠ c) (h3 : (a + 3).toNat ≠ c) :
    memGet (memSet32 m a w) c = memGet m c := by
  unfold memSet32
  rw [memGet_memSet_other (memSet_wf (memSet_wf (memSet_wf h _ _) _ _) _ _) _ h3,
    memGet_memSet_other (memSet_wf (memSet_wf h _ _) _ _) _ h2, memGet_memSet_other (memSet_wf h _ _) _ h1,
    memGet_memSet_other h _ h0]

/-- A word read after a word store at the same address gives the word. -/
theorem memGet32_memSet32 {m : List Host.Cell} (h : Memory.wf m = true) (a : Addr) (w : Word) :
    memGet32 (memSet32 m a w) a = w := by
  have w0 := memSet_wf h a (w.extractLsb' 0 8)
  have w1 := memSet_wf w0 (a + 1) (w.extractLsb' 8 8)
  have w2 := memSet_wf w1 (a + 2) (w.extractLsb' 16 8)
  have ne : ∀ i j : BitVec 32, i ≠ j → (a + i).toNat ≠ (a + j).toNat := by
    intro i j hij he
    exact hij (by simpa using BitVec.eq_of_toNat_eq he)
  have n1 : (a + 1).toNat ≠ a.toNat := by simpa using ne 1 0 (by decide)
  have n2 : (a + 2).toNat ≠ a.toNat := by simpa using ne 2 0 (by decide)
  have n3 : (a + 3).toNat ≠ a.toNat := by simpa using ne 3 0 (by decide)
  have n21 := ne 2 1 (by decide)
  have n31 := ne 3 1 (by decide)
  have n32 := ne 3 2 (by decide)
  have e0 : memGet (memSet32 m a w) a.toNat = w.extractLsb' 0 8 := by
    unfold memSet32
    rw [memGet_memSet_other w2 _ n3, memGet_memSet_other w1 _ n2, memGet_memSet_other w0 _ n1, memGet_memSet h, if_pos rfl]
  have e1 : memGet (memSet32 m a w) (a + 1).toNat = w.extractLsb' 8 8 := by
    unfold memSet32
    rw [memGet_memSet_other w2 _ n31, memGet_memSet_other w1 _ n21, memGet_memSet w0, if_pos rfl]
  have e2 : memGet (memSet32 m a w) (a + 2).toNat = w.extractLsb' 16 8 := by
    unfold memSet32
    rw [memGet_memSet_other w2 _ n32, memGet_memSet w1, if_pos rfl]
  have e3 : memGet (memSet32 m a w) (a + 3).toNat = w.extractLsb' 24 8 := by
    unfold memSet32
    rw [memGet_memSet w2, if_pos rfl]
  unfold memGet32
  rw [e0, e1, e2, e3]
  ext i hi
  simp only [BitVec.getElem_or, BitVec.getElem_setWidth, BitVec.getLsbD_extractLsb', BitVec.getElem_shiftLeft]
  rcases Nat.lt_or_ge i 8 with h8 | h8
  · simp [h8, show i < 16 by omega, show i < 24 by omega, BitVec.getLsbD_eq_getElem hi]
  rcases Nat.lt_or_ge i 16 with h16 | h16
  · simp [Nat.not_lt.mpr h8, show i - 8 < 8 by omega, show i < 16 by omega, show i < 24 by omega,
      show 8 + (i - 8) = i by omega, BitVec.getLsbD_eq_getElem hi]
  rcases Nat.lt_or_ge i 24 with h24 | h24
  · simp [Nat.not_lt.mpr h8, Nat.not_lt.mpr h16, show ¬ i - 8 < 8 by omega, show i - 16 < 8 by omega, show i < 24 by omega,
      show 16 + (i - 16) = i by omega, BitVec.getLsbD_eq_getElem hi]
  · simp [Nat.not_lt.mpr h8, Nat.not_lt.mpr h16, Nat.not_lt.mpr h24, show ¬ i - 8 < 8 by omega, show ¬ i - 16 < 8 by omega,
      show i - 24 < 8 by omega, show 24 + (i - 24) = i by omega, BitVec.getLsbD_eq_getElem hi]

/-- Memory after reset is canonical. -/
theorem reset_mem_wf : Memory.wf State.reset.mem = true := rfl

end Sys2Proof.Machine
end

