-- ==== Sys2Proof/Laws/State.lean ====
section
/-! SUPPORT. What each named update of State leaves in each field. -/

namespace Sys2Proof.Machine

/-! `State.issue` -/
@[simp] theorem State.issue_regs (w : Word) (s : State) : (s.issue w).regs = s.regs := rfl
@[simp] theorem State.issue_status (w : Word) (s : State) : (s.issue w).status = { s.status with done := false, err := false, errCode := 0, errInfo := 0 } := rfl
@[simp] theorem State.issue_cbuf (w : Word) (s : State) : (s.issue w).cbuf = s.cbuf := rfl
@[simp] theorem State.issue_qbuf (w : Word) (s : State) : (s.issue w).qbuf = s.qbuf := rfl
@[simp] theorem State.issue_zbuf (w : Word) (s : State) : (s.issue w).zbuf = s.zbuf := rfl
@[simp] theorem State.issue_pbuf (w : Word) (s : State) : (s.issue w).pbuf = s.pbuf := rfl
@[simp] theorem State.issue_pcount (w : Word) (s : State) : (s.issue w).pcount = s.pcount := rfl
@[simp] theorem State.issue_qmat (w : Word) (s : State) : (s.issue w).qmat = s.qmat := rfl
@[simp] theorem State.issue_cb (w : Word) (s : State) : (s.issue w).cb = s.cb := rfl
@[simp] theorem State.issue_seq (w : Word) (s : State) : (s.issue w).seq = { Sequencer.idle with cmd := some w } := rfl
@[simp] theorem State.issue_mem (w : Word) (s : State) : (s.issue w).mem = s.mem := rfl
@[simp] theorem State.issue_memResp (w : Word) (s : State) : (s.issue w).memResp = s.memResp := rfl
@[simp] theorem State.issue_busLog (w : Word) (s : State) : (s.issue w).busLog = s.busLog := rfl
@[simp] theorem State.issue_rst (w : Word) (s : State) : (s.issue w).rst = s.rst := rfl
@[simp] theorem State.issue_hostIn (w : Word) (s : State) : (s.issue w).hostIn = s.hostIn := rfl
@[simp] theorem State.issue_hostOut (w : Word) (s : State) : (s.issue w).hostOut = s.hostOut := rfl
@[simp] theorem State.issue_draws (w : Word) (s : State) : (s.issue w).draws = s.draws := rfl
@[simp] theorem State.issue_cbDepthLessOne (w : Word) (s : State) : (s.issue w).cbDepthLessOne = s.cbDepthLessOne := rfl

/-! `State.complete` -/
@[simp] theorem State.complete_regs (s : State) : s.complete.regs = s.regs := rfl
@[simp] theorem State.complete_status (s : State) : s.complete.status = { s.status with done := true } := rfl
@[simp] theorem State.complete_cbuf (s : State) : s.complete.cbuf = s.cbuf := rfl
@[simp] theorem State.complete_qbuf (s : State) : s.complete.qbuf = s.qbuf := rfl
@[simp] theorem State.complete_zbuf (s : State) : s.complete.zbuf = s.zbuf := rfl
@[simp] theorem State.complete_pbuf (s : State) : s.complete.pbuf = s.pbuf := rfl
@[simp] theorem State.complete_pcount (s : State) : s.complete.pcount = s.pcount := rfl
@[simp] theorem State.complete_qmat (s : State) : s.complete.qmat = s.qmat := rfl
@[simp] theorem State.complete_cb (s : State) : s.complete.cb = s.cb := rfl
@[simp] theorem State.complete_seq (s : State) : s.complete.seq = Sequencer.idle := rfl
@[simp] theorem State.complete_mem (s : State) : s.complete.mem = s.mem := rfl
@[simp] theorem State.complete_memResp (s : State) : s.complete.memResp = s.memResp := rfl
@[simp] theorem State.complete_busLog (s : State) : s.complete.busLog = s.busLog := rfl
@[simp] theorem State.complete_rst (s : State) : s.complete.rst = s.rst := rfl
@[simp] theorem State.complete_hostIn (s : State) : s.complete.hostIn = s.hostIn := rfl
@[simp] theorem State.complete_hostOut (s : State) : s.complete.hostOut = s.hostOut := rfl
@[simp] theorem State.complete_draws (s : State) : s.complete.draws = s.draws := rfl
@[simp] theorem State.complete_cbDepthLessOne (s : State) : s.complete.cbDepthLessOne = s.cbDepthLessOne := rfl

/-! `State.raise` -/
@[simp] theorem State.raise_regs (c : ErrCode) (info : Word) (s : State) : (s.raise c info).regs = s.regs := rfl
@[simp] theorem State.raise_status (c : ErrCode) (info : Word) (s : State) : (s.raise c info).status = { s.status with done := true, err := true, errCode := c.number, errInfo := info } := rfl
@[simp] theorem State.raise_cbuf (c : ErrCode) (info : Word) (s : State) : (s.raise c info).cbuf = s.cbuf := rfl
@[simp] theorem State.raise_qbuf (c : ErrCode) (info : Word) (s : State) : (s.raise c info).qbuf = s.qbuf := rfl
@[simp] theorem State.raise_zbuf (c : ErrCode) (info : Word) (s : State) : (s.raise c info).zbuf = s.zbuf := rfl
@[simp] theorem State.raise_pbuf (c : ErrCode) (info : Word) (s : State) : (s.raise c info).pbuf = s.pbuf := rfl
@[simp] theorem State.raise_pcount (c : ErrCode) (info : Word) (s : State) : (s.raise c info).pcount = s.pcount := rfl
@[simp] theorem State.raise_qmat (c : ErrCode) (info : Word) (s : State) : (s.raise c info).qmat = s.qmat := rfl
@[simp] theorem State.raise_cb (c : ErrCode) (info : Word) (s : State) : (s.raise c info).cb = s.cb := rfl
@[simp] theorem State.raise_seq (c : ErrCode) (info : Word) (s : State) : (s.raise c info).seq = Sequencer.idle := rfl
@[simp] theorem State.raise_mem (c : ErrCode) (info : Word) (s : State) : (s.raise c info).mem = s.mem := rfl
@[simp] theorem State.raise_memResp (c : ErrCode) (info : Word) (s : State) : (s.raise c info).memResp = s.memResp := rfl
@[simp] theorem State.raise_busLog (c : ErrCode) (info : Word) (s : State) : (s.raise c info).busLog = s.busLog := rfl
@[simp] theorem State.raise_rst (c : ErrCode) (info : Word) (s : State) : (s.raise c info).rst = s.rst := rfl
@[simp] theorem State.raise_hostIn (c : ErrCode) (info : Word) (s : State) : (s.raise c info).hostIn = s.hostIn := rfl
@[simp] theorem State.raise_hostOut (c : ErrCode) (info : Word) (s : State) : (s.raise c info).hostOut = s.hostOut := rfl
@[simp] theorem State.raise_draws (c : ErrCode) (info : Word) (s : State) : (s.raise c info).draws = s.draws := rfl
@[simp] theorem State.raise_cbDepthLessOne (c : ErrCode) (info : Word) (s : State) : (s.raise c info).cbDepthLessOne = s.cbDepthLessOne := rfl

/-! `State.freeCbuf` -/
@[simp] theorem State.freeCbuf_regs (s : State) : s.freeCbuf.regs = s.regs := by dsimp only [State.freeCbuf]
@[simp] theorem State.freeCbuf_status (s : State) : s.freeCbuf.status = s.status := by dsimp only [State.freeCbuf]
@[simp] theorem State.freeCbuf_cbuf (s : State) : s.freeCbuf.cbuf = freeBlock 32 s.draws 0 := by dsimp only [State.freeCbuf]
@[simp] theorem State.freeCbuf_qbuf (s : State) : s.freeCbuf.qbuf = s.qbuf := by dsimp only [State.freeCbuf]
@[simp] theorem State.freeCbuf_zbuf (s : State) : s.freeCbuf.zbuf = s.zbuf := by dsimp only [State.freeCbuf]
@[simp] theorem State.freeCbuf_pbuf (s : State) : s.freeCbuf.pbuf = s.pbuf := by dsimp only [State.freeCbuf]
@[simp] theorem State.freeCbuf_pcount (s : State) : s.freeCbuf.pcount = s.pcount := by dsimp only [State.freeCbuf]
@[simp] theorem State.freeCbuf_qmat (s : State) : s.freeCbuf.qmat = s.qmat := by dsimp only [State.freeCbuf]
@[simp] theorem State.freeCbuf_cb (s : State) : s.freeCbuf.cb = s.cb := by dsimp only [State.freeCbuf]
@[simp] theorem State.freeCbuf_seq (s : State) : s.freeCbuf.seq = s.seq := by dsimp only [State.freeCbuf]
@[simp] theorem State.freeCbuf_mem (s : State) : s.freeCbuf.mem = s.mem := by dsimp only [State.freeCbuf]
@[simp] theorem State.freeCbuf_memResp (s : State) : s.freeCbuf.memResp = s.memResp := by dsimp only [State.freeCbuf]
@[simp] theorem State.freeCbuf_busLog (s : State) : s.freeCbuf.busLog = s.busLog := by dsimp only [State.freeCbuf]
@[simp] theorem State.freeCbuf_rst (s : State) : s.freeCbuf.rst = s.rst := by dsimp only [State.freeCbuf]
@[simp] theorem State.freeCbuf_hostIn (s : State) : s.freeCbuf.hostIn = s.hostIn := by dsimp only [State.freeCbuf]
@[simp] theorem State.freeCbuf_hostOut (s : State) : s.freeCbuf.hostOut = s.hostOut := by dsimp only [State.freeCbuf]
@[simp] theorem State.freeCbuf_draws (s : State) : s.freeCbuf.draws = s.draws + 1 := by dsimp only [State.freeCbuf]
@[simp] theorem State.freeCbuf_cbDepthLessOne (s : State) : s.freeCbuf.cbDepthLessOne = s.cbDepthLessOne := by dsimp only [State.freeCbuf]

/-! `State.freeScratch` -/
@[simp] theorem State.freeScratch_regs (s : State) : s.freeScratch.regs = s.regs := by dsimp only [State.freeScratch]
@[simp] theorem State.freeScratch_status (s : State) : s.freeScratch.status = s.status := by dsimp only [State.freeScratch]
@[simp] theorem State.freeScratch_cbuf (s : State) : s.freeScratch.cbuf = freeBlock 32 s.draws 0 := by dsimp only [State.freeScratch]
@[simp] theorem State.freeScratch_qbuf (s : State) : s.freeScratch.qbuf = freeBlock 16 s.draws 64 := by dsimp only [State.freeScratch]
@[simp] theorem State.freeScratch_zbuf (s : State) : s.freeScratch.zbuf = freeBlock 16 s.draws 128 := by dsimp only [State.freeScratch]
@[simp] theorem State.freeScratch_pbuf (s : State) : s.freeScratch.pbuf = freeBlock 32 s.draws 192 := by dsimp only [State.freeScratch]
@[simp] theorem State.freeScratch_pcount (s : State) : s.freeScratch.pcount = freePcount s.draws := by dsimp only [State.freeScratch]
@[simp] theorem State.freeScratch_qmat (s : State) : s.freeScratch.qmat = s.qmat := by dsimp only [State.freeScratch]
@[simp] theorem State.freeScratch_cb (s : State) : s.freeScratch.cb = s.cb := by dsimp only [State.freeScratch]
@[simp] theorem State.freeScratch_seq (s : State) : s.freeScratch.seq = s.seq := by dsimp only [State.freeScratch]
@[simp] theorem State.freeScratch_mem (s : State) : s.freeScratch.mem = s.mem := by dsimp only [State.freeScratch]
@[simp] theorem State.freeScratch_memResp (s : State) : s.freeScratch.memResp = s.memResp := by dsimp only [State.freeScratch]
@[simp] theorem State.freeScratch_busLog (s : State) : s.freeScratch.busLog = s.busLog := by dsimp only [State.freeScratch]
@[simp] theorem State.freeScratch_rst (s : State) : s.freeScratch.rst = s.rst := by dsimp only [State.freeScratch]
@[simp] theorem State.freeScratch_hostIn (s : State) : s.freeScratch.hostIn = s.hostIn := by dsimp only [State.freeScratch]
@[simp] theorem State.freeScratch_hostOut (s : State) : s.freeScratch.hostOut = s.hostOut := by dsimp only [State.freeScratch]
@[simp] theorem State.freeScratch_draws (s : State) : s.freeScratch.draws = s.draws + 1 := by dsimp only [State.freeScratch]
@[simp] theorem State.freeScratch_cbDepthLessOne (s : State) : s.freeScratch.cbDepthLessOne = s.cbDepthLessOne := by dsimp only [State.freeScratch]

/-! `State.resetIctc` -/
@[simp] theorem State.resetIctc_regs (s : State) : s.resetIctc.regs = Regs.reset := by dsimp only [State.resetIctc, State.reset]
@[simp] theorem State.resetIctc_status (s : State) : s.resetIctc.status = Status.reset := by dsimp only [State.resetIctc, State.reset]
@[simp] theorem State.resetIctc_cbuf (s : State) : s.resetIctc.cbuf = freeBlock 32 s.draws 0 := by dsimp only [State.resetIctc, State.reset]
@[simp] theorem State.resetIctc_qbuf (s : State) : s.resetIctc.qbuf = freeBlock 16 s.draws 64 := by dsimp only [State.resetIctc, State.reset]
@[simp] theorem State.resetIctc_zbuf (s : State) : s.resetIctc.zbuf = freeBlock 16 s.draws 128 := by dsimp only [State.resetIctc, State.reset]
@[simp] theorem State.resetIctc_pbuf (s : State) : s.resetIctc.pbuf = freeBlock 32 s.draws 192 := by dsimp only [State.resetIctc, State.reset]
@[simp] theorem State.resetIctc_pcount (s : State) : s.resetIctc.pcount = 0 := by dsimp only [State.resetIctc, State.reset]
@[simp] theorem State.resetIctc_qmat (s : State) : s.resetIctc.qmat = freeBlock 16 s.draws 256 := by dsimp only [State.resetIctc, State.reset]
@[simp] theorem State.resetIctc_cb (s : State) : s.resetIctc.cb = [] := by dsimp only [State.resetIctc, State.reset]
@[simp] theorem State.resetIctc_seq (s : State) : s.resetIctc.seq = Sequencer.idle := by dsimp only [State.resetIctc, State.reset]
@[simp] theorem State.resetIctc_mem (s : State) : s.resetIctc.mem = memAfterAbandon s := by dsimp only [State.resetIctc, State.reset]
@[simp] theorem State.resetIctc_memResp (s : State) : s.resetIctc.memResp = memRespAfterAbandon s := by dsimp only [State.resetIctc, State.reset]
@[simp] theorem State.resetIctc_busLog (s : State) : s.resetIctc.busLog = s.busLog := by dsimp only [State.resetIctc, State.reset]
@[simp] theorem State.resetIctc_rst (s : State) : s.resetIctc.rst = s.rst := by dsimp only [State.resetIctc, State.reset]
@[simp] theorem State.resetIctc_hostIn (s : State) : s.resetIctc.hostIn = s.hostIn := by dsimp only [State.resetIctc, State.reset]
@[simp] theorem State.resetIctc_hostOut (s : State) : s.resetIctc.hostOut = s.hostOut := by dsimp only [State.resetIctc, State.reset]
@[simp] theorem State.resetIctc_draws (s : State) : s.resetIctc.draws = s.draws + 1 := by dsimp only [State.resetIctc, State.reset]
@[simp] theorem State.resetIctc_cbDepthLessOne (s : State) : s.resetIctc.cbDepthLessOne = s.cbDepthLessOne := by dsimp only [State.resetIctc, State.reset]

/-! `State.reply` -/
@[simp] theorem State.reply_regs (e : Bool) (d : Word) (s : State) : (s.reply e d).regs = s.regs := rfl
@[simp] theorem State.reply_status (e : Bool) (d : Word) (s : State) : (s.reply e d).status = s.status := rfl
@[simp] theorem State.reply_cbuf (e : Bool) (d : Word) (s : State) : (s.reply e d).cbuf = s.cbuf := rfl
@[simp] theorem State.reply_qbuf (e : Bool) (d : Word) (s : State) : (s.reply e d).qbuf = s.qbuf := rfl
@[simp] theorem State.reply_zbuf (e : Bool) (d : Word) (s : State) : (s.reply e d).zbuf = s.zbuf := rfl
@[simp] theorem State.reply_pbuf (e : Bool) (d : Word) (s : State) : (s.reply e d).pbuf = s.pbuf := rfl
@[simp] theorem State.reply_pcount (e : Bool) (d : Word) (s : State) : (s.reply e d).pcount = s.pcount := rfl
@[simp] theorem State.reply_qmat (e : Bool) (d : Word) (s : State) : (s.reply e d).qmat = s.qmat := rfl
@[simp] theorem State.reply_cb (e : Bool) (d : Word) (s : State) : (s.reply e d).cb = s.cb := rfl
@[simp] theorem State.reply_seq (e : Bool) (d : Word) (s : State) : (s.reply e d).seq = s.seq := rfl
@[simp] theorem State.reply_mem (e : Bool) (d : Word) (s : State) : (s.reply e d).mem = s.mem := rfl
@[simp] theorem State.reply_memResp (e : Bool) (d : Word) (s : State) : (s.reply e d).memResp = s.memResp := rfl
@[simp] theorem State.reply_busLog (e : Bool) (d : Word) (s : State) : (s.reply e d).busLog = s.busLog := rfl
@[simp] theorem State.reply_rst (e : Bool) (d : Word) (s : State) : (s.reply e d).rst = s.rst := rfl
@[simp] theorem State.reply_hostIn (e : Bool) (d : Word) (s : State) : (s.reply e d).hostIn = s.hostIn := rfl
@[simp] theorem State.reply_hostOut (e : Bool) (d : Word) (s : State) : (s.reply e d).hostOut = { error := e, data := d } :: s.hostOut := rfl
@[simp] theorem State.reply_draws (e : Bool) (d : Word) (s : State) : (s.reply e d).draws = s.draws := rfl
@[simp] theorem State.reply_cbDepthLessOne (e : Bool) (d : Word) (s : State) : (s.reply e d).cbDepthLessOne = s.cbDepthLessOne := rfl

/-! `State.answered` -/
@[simp] theorem State.answered_regs (s : State) : s.answered.regs = s.regs := rfl
@[simp] theorem State.answered_status (s : State) : s.answered.status = s.status := rfl
@[simp] theorem State.answered_cbuf (s : State) : s.answered.cbuf = s.cbuf := rfl
@[simp] theorem State.answered_qbuf (s : State) : s.answered.qbuf = s.qbuf := rfl
@[simp] theorem State.answered_zbuf (s : State) : s.answered.zbuf = s.zbuf := rfl
@[simp] theorem State.answered_pbuf (s : State) : s.answered.pbuf = s.pbuf := rfl
@[simp] theorem State.answered_pcount (s : State) : s.answered.pcount = s.pcount := rfl
@[simp] theorem State.answered_qmat (s : State) : s.answered.qmat = s.qmat := rfl
@[simp] theorem State.answered_cb (s : State) : s.answered.cb = s.cb := rfl
@[simp] theorem State.answered_seq (s : State) : s.answered.seq = { s.seq with inflight := none } := rfl
@[simp] theorem State.answered_mem (s : State) : s.answered.mem = s.mem := rfl
@[simp] theorem State.answered_memResp (s : State) : s.answered.memResp = s.memResp.tail := rfl
@[simp] theorem State.answered_busLog (s : State) : s.answered.busLog = s.busLog := rfl
@[simp] theorem State.answered_rst (s : State) : s.answered.rst = s.rst := rfl
@[simp] theorem State.answered_hostIn (s : State) : s.answered.hostIn = s.hostIn := rfl
@[simp] theorem State.answered_hostOut (s : State) : s.answered.hostOut = s.hostOut := rfl
@[simp] theorem State.answered_draws (s : State) : s.answered.draws = s.draws := rfl
@[simp] theorem State.answered_cbDepthLessOne (s : State) : s.answered.cbDepthLessOne = s.cbDepthLessOne := rfl

/-! `State.transformed` -/
@[simp] theorem State.transformed_regs (y : Block 32) (s : State) : (s.transformed y).regs = s.regs := rfl
@[simp] theorem State.transformed_status (y : Block 32) (s : State) : (s.transformed y).status = s.status := rfl
@[simp] theorem State.transformed_cbuf (y : Block 32) (s : State) : (s.transformed y).cbuf = y := rfl
@[simp] theorem State.transformed_qbuf (y : Block 32) (s : State) : (s.transformed y).qbuf = s.qbuf := rfl
@[simp] theorem State.transformed_zbuf (y : Block 32) (s : State) : (s.transformed y).zbuf = s.zbuf := rfl
@[simp] theorem State.transformed_pbuf (y : Block 32) (s : State) : (s.transformed y).pbuf = s.pbuf := rfl
@[simp] theorem State.transformed_pcount (y : Block 32) (s : State) : (s.transformed y).pcount = s.pcount := rfl
@[simp] theorem State.transformed_qmat (y : Block 32) (s : State) : (s.transformed y).qmat = s.qmat := rfl
@[simp] theorem State.transformed_cb (y : Block 32) (s : State) : (s.transformed y).cb = s.cb := rfl
@[simp] theorem State.transformed_seq (y : Block 32) (s : State) : (s.transformed y).seq = { s.seq with inflight := none } := rfl
@[simp] theorem State.transformed_mem (y : Block 32) (s : State) : (s.transformed y).mem = s.mem := rfl
@[simp] theorem State.transformed_memResp (y : Block 32) (s : State) : (s.transformed y).memResp = s.memResp := rfl
@[simp] theorem State.transformed_busLog (y : Block 32) (s : State) : (s.transformed y).busLog = s.busLog := rfl
@[simp] theorem State.transformed_rst (y : Block 32) (s : State) : (s.transformed y).rst = s.rst := rfl
@[simp] theorem State.transformed_hostIn (y : Block 32) (s : State) : (s.transformed y).hostIn = s.hostIn := rfl
@[simp] theorem State.transformed_hostOut (y : Block 32) (s : State) : (s.transformed y).hostOut = s.hostOut := rfl
@[simp] theorem State.transformed_draws (y : Block 32) (s : State) : (s.transformed y).draws = s.draws := rfl
@[simp] theorem State.transformed_cbDepthLessOne (y : Block 32) (s : State) : (s.transformed y).cbDepthLessOne = s.cbDepthLessOne := rfl

/-! `State.startPass` -/
@[simp] theorem State.startPass_regs (p : Phase) (s : State) : (s.startPass p).regs = { s.regs with strmPtr := 0 } := rfl
@[simp] theorem State.startPass_status (p : Phase) (s : State) : (s.startPass p).status = s.status := rfl
@[simp] theorem State.startPass_cbuf (p : Phase) (s : State) : (s.startPass p).cbuf = s.cbuf := rfl
@[simp] theorem State.startPass_qbuf (p : Phase) (s : State) : (s.startPass p).qbuf = s.qbuf := rfl
@[simp] theorem State.startPass_zbuf (p : Phase) (s : State) : (s.startPass p).zbuf = s.zbuf := rfl
@[simp] theorem State.startPass_pbuf (p : Phase) (s : State) : (s.startPass p).pbuf = s.pbuf := rfl
@[simp] theorem State.startPass_pcount (p : Phase) (s : State) : (s.startPass p).pcount = s.pcount := rfl
@[simp] theorem State.startPass_qmat (p : Phase) (s : State) : (s.startPass p).qmat = s.qmat := rfl
@[simp] theorem State.startPass_cb (p : Phase) (s : State) : (s.startPass p).cb = s.cb := rfl
@[simp] theorem State.startPass_seq (p : Phase) (s : State) : (s.startPass p).seq = { s.seq with phase := p, j := 0 } := rfl
@[simp] theorem State.startPass_mem (p : Phase) (s : State) : (s.startPass p).mem = s.mem := rfl
@[simp] theorem State.startPass_memResp (p : Phase) (s : State) : (s.startPass p).memResp = s.memResp := rfl
@[simp] theorem State.startPass_busLog (p : Phase) (s : State) : (s.startPass p).busLog = s.busLog := rfl
@[simp] theorem State.startPass_rst (p : Phase) (s : State) : (s.startPass p).rst = s.rst := rfl
@[simp] theorem State.startPass_hostIn (p : Phase) (s : State) : (s.startPass p).hostIn = s.hostIn := rfl
@[simp] theorem State.startPass_hostOut (p : Phase) (s : State) : (s.startPass p).hostOut = s.hostOut := rfl
@[simp] theorem State.startPass_draws (p : Phase) (s : State) : (s.startPass p).draws = s.draws := rfl
@[simp] theorem State.startPass_cbDepthLessOne (p : Phase) (s : State) : (s.startPass p).cbDepthLessOne = s.cbDepthLessOne := rfl

/-! `State.atBlock` -/
@[simp] theorem State.atBlock_regs (b : Nat) (s : State) : (s.atBlock b).regs = s.regs := rfl
@[simp] theorem State.atBlock_status (b : Nat) (s : State) : (s.atBlock b).status = s.status := rfl
@[simp] theorem State.atBlock_cbuf (b : Nat) (s : State) : (s.atBlock b).cbuf = s.cbuf := rfl
@[simp] theorem State.atBlock_qbuf (b : Nat) (s : State) : (s.atBlock b).qbuf = s.qbuf := rfl
@[simp] theorem State.atBlock_zbuf (b : Nat) (s : State) : (s.atBlock b).zbuf = s.zbuf := rfl
@[simp] theorem State.atBlock_pbuf (b : Nat) (s : State) : (s.atBlock b).pbuf = s.pbuf := rfl
@[simp] theorem State.atBlock_pcount (b : Nat) (s : State) : (s.atBlock b).pcount = s.pcount := rfl
@[simp] theorem State.atBlock_qmat (b : Nat) (s : State) : (s.atBlock b).qmat = s.qmat := rfl
@[simp] theorem State.atBlock_cb (b : Nat) (s : State) : (s.atBlock b).cb = s.cb := rfl
@[simp] theorem State.atBlock_seq (b : Nat) (s : State) : (s.atBlock b).seq = { s.seq with row := b / blkCols s.regs, col := b % blkCols s.regs } := rfl
@[simp] theorem State.atBlock_mem (b : Nat) (s : State) : (s.atBlock b).mem = s.mem := rfl
@[simp] theorem State.atBlock_memResp (b : Nat) (s : State) : (s.atBlock b).memResp = s.memResp := rfl
@[simp] theorem State.atBlock_busLog (b : Nat) (s : State) : (s.atBlock b).busLog = s.busLog := rfl
@[simp] theorem State.atBlock_rst (b : Nat) (s : State) : (s.atBlock b).rst = s.rst := rfl
@[simp] theorem State.atBlock_hostIn (b : Nat) (s : State) : (s.atBlock b).hostIn = s.hostIn := rfl
@[simp] theorem State.atBlock_hostOut (b : Nat) (s : State) : (s.atBlock b).hostOut = s.hostOut := rfl
@[simp] theorem State.atBlock_draws (b : Nat) (s : State) : (s.atBlock b).draws = s.draws := rfl
@[simp] theorem State.atBlock_cbDepthLessOne (b : Nat) (s : State) : (s.atBlock b).cbDepthLessOne = s.cbDepthLessOne := rfl

/-! `State.nextWord` -/
@[simp] theorem State.nextWord_regs (s : State) : s.nextWord.regs = { s.regs with strmPtr := pat32 (s.seq.j + 1) } := rfl
@[simp] theorem State.nextWord_status (s : State) : s.nextWord.status = s.status := rfl
@[simp] theorem State.nextWord_cbuf (s : State) : s.nextWord.cbuf = s.cbuf := rfl
@[simp] theorem State.nextWord_qbuf (s : State) : s.nextWord.qbuf = s.qbuf := rfl
@[simp] theorem State.nextWord_zbuf (s : State) : s.nextWord.zbuf = s.zbuf := rfl
@[simp] theorem State.nextWord_pbuf (s : State) : s.nextWord.pbuf = s.pbuf := rfl
@[simp] theorem State.nextWord_pcount (s : State) : s.nextWord.pcount = s.pcount := rfl
@[simp] theorem State.nextWord_qmat (s : State) : s.nextWord.qmat = s.qmat := rfl
@[simp] theorem State.nextWord_cb (s : State) : s.nextWord.cb = s.cb := rfl
@[simp] theorem State.nextWord_seq (s : State) : s.nextWord.seq = { s.seq with j := s.seq.j + 1 } := rfl
@[simp] theorem State.nextWord_mem (s : State) : s.nextWord.mem = s.mem := rfl
@[simp] theorem State.nextWord_memResp (s : State) : s.nextWord.memResp = s.memResp := rfl
@[simp] theorem State.nextWord_busLog (s : State) : s.nextWord.busLog = s.busLog := rfl
@[simp] theorem State.nextWord_rst (s : State) : s.nextWord.rst = s.rst := rfl
@[simp] theorem State.nextWord_hostIn (s : State) : s.nextWord.hostIn = s.hostIn := rfl
@[simp] theorem State.nextWord_hostOut (s : State) : s.nextWord.hostOut = s.hostOut := rfl
@[simp] theorem State.nextWord_draws (s : State) : s.nextWord.draws = s.draws := rfl
@[simp] theorem State.nextWord_cbDepthLessOne (s : State) : s.nextWord.cbDepthLessOne = s.cbDepthLessOne := rfl

/-! `State.blockDone` -/
@[simp] theorem State.blockDone_regs (s : State) : s.blockDone.regs = { s.regs with blkDone := s.regs.blkDone + 1 } := rfl
@[simp] theorem State.blockDone_status (s : State) : s.blockDone.status = s.status := rfl
@[simp] theorem State.blockDone_cbuf (s : State) : s.blockDone.cbuf = s.cbuf := rfl
@[simp] theorem State.blockDone_qbuf (s : State) : s.blockDone.qbuf = s.qbuf := rfl
@[simp] theorem State.blockDone_zbuf (s : State) : s.blockDone.zbuf = s.zbuf := rfl
@[simp] theorem State.blockDone_pbuf (s : State) : s.blockDone.pbuf = s.pbuf := rfl
@[simp] theorem State.blockDone_pcount (s : State) : s.blockDone.pcount = s.pcount := rfl
@[simp] theorem State.blockDone_qmat (s : State) : s.blockDone.qmat = s.qmat := rfl
@[simp] theorem State.blockDone_cb (s : State) : s.blockDone.cb = s.cb := rfl
@[simp] theorem State.blockDone_seq (s : State) : s.blockDone.seq = s.seq := rfl
@[simp] theorem State.blockDone_mem (s : State) : s.blockDone.mem = s.mem := rfl
@[simp] theorem State.blockDone_memResp (s : State) : s.blockDone.memResp = s.memResp := rfl
@[simp] theorem State.blockDone_busLog (s : State) : s.blockDone.busLog = s.busLog := rfl
@[simp] theorem State.blockDone_rst (s : State) : s.blockDone.rst = s.rst := rfl
@[simp] theorem State.blockDone_hostIn (s : State) : s.blockDone.hostIn = s.hostIn := rfl
@[simp] theorem State.blockDone_hostOut (s : State) : s.blockDone.hostOut = s.hostOut := rfl
@[simp] theorem State.blockDone_draws (s : State) : s.blockDone.draws = s.draws := rfl
@[simp] theorem State.blockDone_cbDepthLessOne (s : State) : s.blockDone.cbDepthLessOne = s.cbDepthLessOne := rfl

/-! `State.startCompress` -/
@[simp] theorem State.startCompress_regs (s : State) : s.startCompress.regs = { s.regs with strmPtr := 0, blkDone := 0 } := rfl
@[simp] theorem State.startCompress_status (s : State) : s.startCompress.status = s.status := rfl
@[simp] theorem State.startCompress_cbuf (s : State) : s.startCompress.cbuf = s.cbuf := rfl
@[simp] theorem State.startCompress_qbuf (s : State) : s.startCompress.qbuf = s.qbuf := rfl
@[simp] theorem State.startCompress_zbuf (s : State) : s.startCompress.zbuf = s.zbuf := rfl
@[simp] theorem State.startCompress_pbuf (s : State) : s.startCompress.pbuf = s.pbuf := rfl
@[simp] theorem State.startCompress_pcount (s : State) : s.startCompress.pcount = s.pcount := rfl
@[simp] theorem State.startCompress_qmat (s : State) : s.startCompress.qmat = s.qmat := rfl
@[simp] theorem State.startCompress_cb (s : State) : s.startCompress.cb = [] := rfl
@[simp] theorem State.startCompress_seq (s : State) : s.startCompress.seq = { s.seq with phase := .blocks, j := 0 } := rfl
@[simp] theorem State.startCompress_mem (s : State) : s.startCompress.mem = s.mem := rfl
@[simp] theorem State.startCompress_memResp (s : State) : s.startCompress.memResp = s.memResp := rfl
@[simp] theorem State.startCompress_busLog (s : State) : s.startCompress.busLog = s.busLog := rfl
@[simp] theorem State.startCompress_rst (s : State) : s.startCompress.rst = s.rst := rfl
@[simp] theorem State.startCompress_hostIn (s : State) : s.startCompress.hostIn = s.hostIn := rfl
@[simp] theorem State.startCompress_hostOut (s : State) : s.startCompress.hostOut = s.hostOut := rfl
@[simp] theorem State.startCompress_draws (s : State) : s.startCompress.draws = s.draws := rfl
@[simp] theorem State.startCompress_cbDepthLessOne (s : State) : s.startCompress.cbDepthLessOne = s.cbDepthLessOne := rfl

/-! `State.startSubst` -/
@[simp] theorem State.startSubst_regs (s : State) : s.startSubst.regs = { s.regs with strmPtr := 0 } := rfl
@[simp] theorem State.startSubst_status (s : State) : s.startSubst.status = s.status := rfl
@[simp] theorem State.startSubst_cbuf (s : State) : s.startSubst.cbuf = s.cbuf := rfl
@[simp] theorem State.startSubst_qbuf (s : State) : s.startSubst.qbuf = s.qbuf := rfl
@[simp] theorem State.startSubst_zbuf (s : State) : s.startSubst.zbuf = s.zbuf := rfl
@[simp] theorem State.startSubst_pbuf (s : State) : s.startSubst.pbuf = s.pbuf := rfl
@[simp] theorem State.startSubst_pcount (s : State) : s.startSubst.pcount = s.pcount := rfl
@[simp] theorem State.startSubst_qmat (s : State) : s.startSubst.qmat = s.qmat := rfl
@[simp] theorem State.startSubst_cb (s : State) : s.startSubst.cb = s.cb := rfl
@[simp] theorem State.startSubst_seq (s : State) : s.startSubst.seq = { s.seq with phase := .subst } := rfl
@[simp] theorem State.startSubst_mem (s : State) : s.startSubst.mem = s.mem := rfl
@[simp] theorem State.startSubst_memResp (s : State) : s.startSubst.memResp = s.memResp := rfl
@[simp] theorem State.startSubst_busLog (s : State) : s.startSubst.busLog = s.busLog := rfl
@[simp] theorem State.startSubst_rst (s : State) : s.startSubst.rst = s.rst := rfl
@[simp] theorem State.startSubst_hostIn (s : State) : s.startSubst.hostIn = s.hostIn := rfl
@[simp] theorem State.startSubst_hostOut (s : State) : s.startSubst.hostOut = s.hostOut := rfl
@[simp] theorem State.startSubst_draws (s : State) : s.startSubst.draws = s.draws := rfl
@[simp] theorem State.startSubst_cbDepthLessOne (s : State) : s.startSubst.cbDepthLessOne = s.cbDepthLessOne := rfl

/-! `State.setStrmLen` -/
@[simp] theorem State.setStrmLen_regs (s : State) : s.setStrmLen.regs = { s.regs with strmLen := pat32 s.seq.j } := rfl
@[simp] theorem State.setStrmLen_status (s : State) : s.setStrmLen.status = s.status := rfl
@[simp] theorem State.setStrmLen_cbuf (s : State) : s.setStrmLen.cbuf = s.cbuf := rfl
@[simp] theorem State.setStrmLen_qbuf (s : State) : s.setStrmLen.qbuf = s.qbuf := rfl
@[simp] theorem State.setStrmLen_zbuf (s : State) : s.setStrmLen.zbuf = s.zbuf := rfl
@[simp] theorem State.setStrmLen_pbuf (s : State) : s.setStrmLen.pbuf = s.pbuf := rfl
@[simp] theorem State.setStrmLen_pcount (s : State) : s.setStrmLen.pcount = s.pcount := rfl
@[simp] theorem State.setStrmLen_qmat (s : State) : s.setStrmLen.qmat = s.qmat := rfl
@[simp] theorem State.setStrmLen_cb (s : State) : s.setStrmLen.cb = s.cb := rfl
@[simp] theorem State.setStrmLen_seq (s : State) : s.setStrmLen.seq = s.seq := rfl
@[simp] theorem State.setStrmLen_mem (s : State) : s.setStrmLen.mem = s.mem := rfl
@[simp] theorem State.setStrmLen_memResp (s : State) : s.setStrmLen.memResp = s.memResp := rfl
@[simp] theorem State.setStrmLen_busLog (s : State) : s.setStrmLen.busLog = s.busLog := rfl
@[simp] theorem State.setStrmLen_rst (s : State) : s.setStrmLen.rst = s.rst := rfl
@[simp] theorem State.setStrmLen_hostIn (s : State) : s.setStrmLen.hostIn = s.hostIn := rfl
@[simp] theorem State.setStrmLen_hostOut (s : State) : s.setStrmLen.hostOut = s.hostOut := rfl
@[simp] theorem State.setStrmLen_draws (s : State) : s.setStrmLen.draws = s.draws := rfl
@[simp] theorem State.setStrmLen_cbDepthLessOne (s : State) : s.setStrmLen.cbDepthLessOne = s.cbDepthLessOne := rfl

/-! `State.setSum` -/
@[simp] theorem State.setSum_regs (v : Nat) (s : State) : (s.setSum v).regs = s.regs := rfl
@[simp] theorem State.setSum_status (v : Nat) (s : State) : (s.setSum v).status = s.status := rfl
@[simp] theorem State.setSum_cbuf (v : Nat) (s : State) : (s.setSum v).cbuf = s.cbuf := rfl
@[simp] theorem State.setSum_qbuf (v : Nat) (s : State) : (s.setSum v).qbuf = s.qbuf := rfl
@[simp] theorem State.setSum_zbuf (v : Nat) (s : State) : (s.setSum v).zbuf = s.zbuf := rfl
@[simp] theorem State.setSum_pbuf (v : Nat) (s : State) : (s.setSum v).pbuf = s.pbuf := rfl
@[simp] theorem State.setSum_pcount (v : Nat) (s : State) : (s.setSum v).pcount = s.pcount := rfl
@[simp] theorem State.setSum_qmat (v : Nat) (s : State) : (s.setSum v).qmat = s.qmat := rfl
@[simp] theorem State.setSum_cb (v : Nat) (s : State) : (s.setSum v).cb = s.cb := rfl
@[simp] theorem State.setSum_seq (v : Nat) (s : State) : (s.setSum v).seq = { s.seq with sum := v } := rfl
@[simp] theorem State.setSum_mem (v : Nat) (s : State) : (s.setSum v).mem = s.mem := rfl
@[simp] theorem State.setSum_memResp (v : Nat) (s : State) : (s.setSum v).memResp = s.memResp := rfl
@[simp] theorem State.setSum_busLog (v : Nat) (s : State) : (s.setSum v).busLog = s.busLog := rfl
@[simp] theorem State.setSum_rst (v : Nat) (s : State) : (s.setSum v).rst = s.rst := rfl
@[simp] theorem State.setSum_hostIn (v : Nat) (s : State) : (s.setSum v).hostIn = s.hostIn := rfl
@[simp] theorem State.setSum_hostOut (v : Nat) (s : State) : (s.setSum v).hostOut = s.hostOut := rfl
@[simp] theorem State.setSum_draws (v : Nat) (s : State) : (s.setSum v).draws = s.draws := rfl
@[simp] theorem State.setSum_cbDepthLessOne (v : Nat) (s : State) : (s.setSum v).cbDepthLessOne = s.cbDepthLessOne := rfl

/-! `State.clearBlkDone` -/
@[simp] theorem State.clearBlkDone_regs (s : State) : s.clearBlkDone.regs = { s.regs with blkDone := 0 } := rfl
@[simp] theorem State.clearBlkDone_status (s : State) : s.clearBlkDone.status = s.status := rfl
@[simp] theorem State.clearBlkDone_cbuf (s : State) : s.clearBlkDone.cbuf = s.cbuf := rfl
@[simp] theorem State.clearBlkDone_qbuf (s : State) : s.clearBlkDone.qbuf = s.qbuf := rfl
@[simp] theorem State.clearBlkDone_zbuf (s : State) : s.clearBlkDone.zbuf = s.zbuf := rfl
@[simp] theorem State.clearBlkDone_pbuf (s : State) : s.clearBlkDone.pbuf = s.pbuf := rfl
@[simp] theorem State.clearBlkDone_pcount (s : State) : s.clearBlkDone.pcount = s.pcount := rfl
@[simp] theorem State.clearBlkDone_qmat (s : State) : s.clearBlkDone.qmat = s.qmat := rfl
@[simp] theorem State.clearBlkDone_cb (s : State) : s.clearBlkDone.cb = s.cb := rfl
@[simp] theorem State.clearBlkDone_seq (s : State) : s.clearBlkDone.seq = s.seq := rfl
@[simp] theorem State.clearBlkDone_mem (s : State) : s.clearBlkDone.mem = s.mem := rfl
@[simp] theorem State.clearBlkDone_memResp (s : State) : s.clearBlkDone.memResp = s.memResp := rfl
@[simp] theorem State.clearBlkDone_busLog (s : State) : s.clearBlkDone.busLog = s.busLog := rfl
@[simp] theorem State.clearBlkDone_rst (s : State) : s.clearBlkDone.rst = s.rst := rfl
@[simp] theorem State.clearBlkDone_hostIn (s : State) : s.clearBlkDone.hostIn = s.hostIn := rfl
@[simp] theorem State.clearBlkDone_hostOut (s : State) : s.clearBlkDone.hostOut = s.hostOut := rfl
@[simp] theorem State.clearBlkDone_draws (s : State) : s.clearBlkDone.draws = s.draws := rfl
@[simp] theorem State.clearBlkDone_cbDepthLessOne (s : State) : s.clearBlkDone.cbDepthLessOne = s.cbDepthLessOne := rfl

end Sys2Proof.Machine
end

