-- ==== Sys2Proof/Laws/Run.lean ====
section
/-! SUPPORT. Reasoning about a running command: what each way of ending ensures, through sequencing and loops. -/

namespace Sys2Proof.Machine

variable {α β : Type}

/-- Every way a run can end, with a claim about each: going on, an error, an abandoned command. Stops are left free. -/
@[irreducible] def Run.Ensures (r : Run α) (onOk : α → State → Prop) (onRaise : ErrCode → Word → State → Prop) (onAbandon : State → Prop) : Prop :=
  match r with
  | .ok a s => onOk a s
  | .raised c info s => onRaise c info s
  | .abandoned s => onAbandon s
  | .fault _ => True
  | .refused _ => True

section
variable {a : α} {s : State} {c : ErrCode} {i : Word} {Q : α → State → Prop} {R : ErrCode → Word → State → Prop} {A : State → Prop}

@[simp] theorem ensures_ok : (Run.ok a s).Ensures Q R A ↔ Q a s := by unfold Run.Ensures; rfl
@[simp] theorem ensures_raised : (Run.raised c i s : Run α).Ensures Q R A ↔ R c i s := by unfold Run.Ensures; rfl
@[simp] theorem ensures_abandoned : (Run.abandoned s : Run α).Ensures Q R A ↔ A s := by unfold Run.Ensures; rfl
@[simp] theorem ensures_fault {x : Fault} : (Run.fault x : Run α).Ensures Q R A ↔ True := by unfold Run.Ensures; rfl
@[simp] theorem ensures_refused {x : Refusal} : (Run.refused x : Run α).Ensures Q R A ↔ True := by unfold Run.Ensures; rfl
end

@[simp] theorem bind_ok (a : α) (s : State) (f : α → State → Run β) : (Run.ok a s).bind f = f a s := rfl
@[simp] theorem bind_raised (c : ErrCode) (i : Word) (s : State) (f : α → State → Run β) :
    (Run.raised c i s).bind f = .raised c i s := rfl
@[simp] theorem bind_abandoned (s : State) (f : α → State → Run β) : (Run.abandoned s).bind f = .abandoned s := rfl
@[simp] theorem bind_fault (x : Fault) (f : α → State → Run β) : (Run.fault x).bind f = .fault x := rfl
@[simp] theorem bind_refused (x : Refusal) (f : α → State → Run β) : (Run.refused x).bind f = .refused x := rfl

@[simp] theorem atEnd_ok (a : α) (s : State) (f : State → State) (g : ErrCode → State → State) :
    (Run.ok a s).atEnd f g = .ok a (f s) := rfl
@[simp] theorem atEnd_raised (c : ErrCode) (i : Word) (s : State) (f : State → State) (g : ErrCode → State → State) :
    (Run.raised c i s : Run α).atEnd f g = .raised c i (g c s) := rfl
@[simp] theorem atEnd_abandoned (s : State) (f : State → State) (g : ErrCode → State → State) :
    (Run.abandoned s : Run α).atEnd f g = .abandoned s := rfl
@[simp] theorem atEnd_refused (x : Refusal) (f : State → State) (g : ErrCode → State → State) :
    (Run.refused x : Run α).atEnd f g = .refused x := rfl

@[simp] theorem finish_ok (u : Unit) (s : State) : finish (.ok u s) = .next s.complete := rfl
@[simp] theorem finish_raised (c : ErrCode) (i : Word) (s : State) : finish (.raised c i s) = .next (s.raise c i) := rfl
@[simp] theorem finish_abandoned (s : State) : finish (.abandoned s) = .next s := rfl
@[simp] theorem finish_refused (x : Refusal) : finish (.refused x) = .refused x := rfl

@[simp] theorem ofCheck_ok (a : α) (s : State) : ofCheck (.ok a) s = .ok a s := rfl
@[simp] theorem ofCheck_error (e : ErrCode × Word) (s : State) : (ofCheck (.error e) s : Run α) = .raised e.1 e.2 s := rfl

@[simp] theorem forCount_zero (body : Nat → State → Run Unit) (n : Nat) (s : State) : forCount body 0 n s = .ok () s := rfl
theorem forCount_succ (body : Nat → State → Run Unit) (k n : Nat) (s : State) :
    forCount body (k + 1) n s = (body n s).bind fun _ s => forCount body k (n + 1) s := rfl

theorem Run.Ensures.mono {r : Run α} {Q Q' : α → State → Prop} {R R' : ErrCode → Word → State → Prop} {A A' : State → Prop}
    (h : r.Ensures Q R A) (hq : ∀ a s, Q a s → Q' a s) (hr : ∀ c i s, R c i s → R' c i s) (ha : ∀ s, A s → A' s) :
    r.Ensures Q' R' A' := by
  cases r <;> simp only [ensures_ok, ensures_raised, ensures_abandoned, ensures_fault, ensures_refused] at h ⊢
  · exact hq _ _ h
  · exact hr _ _ _ h
  · exact ha _ h

theorem Run.Ensures.bind {r : Run α} {f : α → State → Run β} {Q : α → State → Prop} {Q' : β → State → Prop}
    {R : ErrCode → Word → State → Prop} {A : State → Prop} (h : r.Ensures Q R A)
    (hf : ∀ a s, Q a s → (f a s).Ensures Q' R A) : (r.bind f).Ensures Q' R A := by
  cases r with
  | ok a s => exact hf a s (ensures_ok.1 h)
  | raised c i s => exact ensures_raised.2 (ensures_raised.1 h)
  | abandoned s => exact ensures_abandoned.2 (ensures_abandoned.1 h)
  | fault _ => exact ensures_fault.2 trivial
  | refused _ => exact ensures_refused.2 trivial

/-- A change of the state at the end of a command. -/
theorem Run.Ensures.atEnd {r : Run α} {f : State → State} {g : ErrCode → State → State} {Q Q' : α → State → Prop}
    {R R' : ErrCode → Word → State → Prop} {A : State → Prop} (h : r.Ensures Q R A) (hf : ∀ a s, Q a s → Q' a (f s))
    (hg : ∀ c i s, R c i s → R' c i (g c s)) : (r.atEnd f g).Ensures Q' R' A := by
  cases r with
  | ok a s => exact ensures_ok.2 (hf _ _ (ensures_ok.1 h))
  | raised c i s => exact ensures_raised.2 (hg _ _ _ (ensures_raised.1 h))
  | abandoned s => exact ensures_abandoned.2 (ensures_abandoned.1 h)
  | fault _ => exact ensures_fault.2 trivial
  | refused _ => exact ensures_refused.2 trivial

/-- The rule of a counted loop, packaged once: an invariant indexed by the counter. -/
theorem forCount_ensures {body : Nat → State → Run Unit} {I : Nat → State → Prop} {R : ErrCode → Word → State → Prop}
    {A : State → Prop} (step : ∀ n s, I n s → (body n s).Ensures (fun _ t => I (n + 1) t) R A) (k n : Nat) (s : State)
    (h : I n s) : (forCount body k n s).Ensures (fun _ t => I (n + k) t) R A := by
  induction k generalizing n s with
  | zero => exact ensures_ok.2 h
  | succ k ih =>
    rw [forCount_succ]
    refine (step n s h).bind fun _ t ht => ?_
    have := ih (n + 1) t ht
    rwa [show n + 1 + k = n + (k + 1) by omega] at this

/-- The rule of a counted loop whose bodies all go on, with an invariant indexed by the counter below its bound. -/
theorem forCount_ok {body : Nat → State → Run Unit} {I : Nat → State → Prop} (k n : Nat)
    (step : ∀ m s, n ≤ m → m < n + k → I m s → ∃ t, body m s = .ok () t ∧ I (m + 1) t) (s : State) (h : I n s) :
    ∃ t, forCount body k n s = .ok () t ∧ I (n + k) t := by
  induction k generalizing n s with
  | zero => exact ⟨s, rfl, h⟩
  | succ k ih =>
    obtain ⟨t, ht, hI⟩ := step n s (Nat.le_refl n) (by omega) h
    obtain ⟨u, hu, hIu⟩ := ih (n + 1) (fun m s hm hk => step m s (by omega) (by omega)) t hI
    refine ⟨u, ?_, by rwa [show n + (k + 1) = n + 1 + k by omega]⟩
    rw [forCount_succ, ht, bind_ok, hu]

theorem ofCheck_ensures {r : Except (ErrCode × Word) α} {s : State} {Q : α → State → Prop} {R : ErrCode → Word → State → Prop}
    {A : State → Prop} (hok : ∀ a, r = .ok a → Q a s) (herr : ∀ e, r = .error e → R e.1 e.2 s) :
    (ofCheck r s).Ensures Q R A := by
  cases r with
  | ok a => exact ensures_ok.2 (hok a rfl)
  | error e => exact ensures_raised.2 (herr e rfl)

/-- The three ways a finished command can leave a next state. -/
theorem finish_next {r : Run Unit} {t : State} (h : finish r = .next t) :
    (∃ s, r = .ok () s ∧ t = s.complete) ∨ (∃ c i s, r = .raised c i s ∧ t = s.raise c i) ∨ r = .abandoned t := by
  cases r with
  | ok u s => exact .inl ⟨s, rfl, by simpa using h.symm⟩
  | raised c i s => exact .inr (.inl ⟨c, i, s, rfl, by simpa using h.symm⟩)
  | abandoned s => exact .inr (.inr (by simpa using h))
  | fault _ => exact nomatch h
  | refused _ => exact nomatch h

end Sys2Proof.Machine
end

