-- ==== Sys2Proof/Laws/Bus.lean ====
section
/-! SUPPORT. What a transaction does in an undisturbed run, and what it can do in any run. -/

namespace Sys2Proof.Machine

/-- The state while a transaction is outstanding and no host transaction lands. -/
def State.waiting (r : Request) (s : State) : State :=
  { s with seq := { s.seq with inflight := some r }, busLog := r :: s.busLog }

/-- The state after a transaction that was answered as ordinary memory answers. -/
def State.logged (r : Request) (s : State) : State :=
  { s with seq := { s.seq with inflight := none }, busLog := r :: s.busLog }

theorem countDown_alone {q : List HostEvent} (h : q.all (fun e => e.gap.isNone) = true) : countDown q = q := by
  cases q with
  | nil => rfl
  | cons e q =>
    obtain ⟨gap, op⟩ := e
    cases gap with
    | none => rfl
    | some k => simp at h

theorem landDue_alone {q : List HostEvent} (h : q.all (fun e => e.gap.isNone) = true) (s : State) : landDue q s = .ok () s := by
  cases q with
  | nil => rfl
  | cons e q =>
    obtain ⟨gap, op⟩ := e
    cases gap with
    | none => rfl
    | some k => simp at h

/-- In an undisturbed run a transaction is only issued and waited for. -/
theorem request_alone {s : State} (h : s.Alone) (r : Request) : request r s = .ok () (s.waiting r) := by
  unfold request
  rw [countDown_alone h, landDue_alone h]
  rfl

theorem answered_waiting {s : State} (h : s.OrdinaryMemory) (r : Request) : (s.waiting r).answered = s.logged r := by
  unfold State.answered State.waiting State.logged
  simp only [h, List.tail_nil]

theorem memRead8_undisturbed {s : State} (h : s.Undisturbed) (a : Addr) :
    memRead8 a s = .ok (s.byte a) (s.logged (.read8 a)) := by
  unfold memRead8
  rw [request_alone h.1, bind_ok]
  have : (s.waiting (.read8 a)).memResp.headD .ordinary = .ordinary := by
    show s.memResp.headD .ordinary = .ordinary
    rw [h.2]; rfl
  simp only [this, answered_waiting h.2]
  rfl

theorem memRead32_undisturbed {s : State} (h : s.Undisturbed) (a : Addr) :
    memRead32 a s = .ok (memGet32 s.mem a) (s.logged (.read32 a)) := by
  unfold memRead32
  rw [request_alone h.1, bind_ok]
  have : (s.waiting (.read32 a)).memResp.headD .ordinary = .ordinary := by
    show s.memResp.headD .ordinary = .ordinary
    rw [h.2]; rfl
  simp only [this, answered_waiting h.2]
  rfl

theorem answerWrite_ordinary {s : State} (h : s.OrdinaryMemory) (r : Request) (a : Addr) (m : List Host.Cell) :
    answerWrite a m (s.waiting r) = .ok () { s.logged r with mem := m } := by
  unfold answerWrite
  have : (s.waiting r).memResp.headD .ordinary = .ordinary := by
    show s.memResp.headD .ordinary = .ordinary
    rw [h]; rfl
  simp only [this, answered_waiting h]

theorem memWrite8_undisturbed {s : State} (h : s.Undisturbed) (a : Addr) (v : Byte) :
    memWrite8 a v s = .ok () { s.logged (.write8 a v) with mem := memSet s.mem a.toNat v } := by
  unfold memWrite8
  rw [request_alone h.1, bind_ok, answerWrite_ordinary h.2]
  rfl

theorem memWrite32_undisturbed {s : State} (h : s.Undisturbed) (a : Addr) (w : Word) :
    memWrite32 a w s = .ok () { s.logged (.write32 a w) with mem := memSet32 s.mem a w } := by
  unfold memWrite32
  rw [request_alone h.1, bind_ok, answerWrite_ordinary h.2]
  rfl

theorem bodyTxFwd_undisturbed {s : State} (h : s.Alone) :
    bodyTxFwd s = .ok () { s.logged (.txFwd s.cbuf) with cbuf := txFwd s.cbuf } := by
  unfold bodyTxFwd
  rw [request_alone h]
  rfl

theorem bodyTxInv_undisturbed {s : State} (h : s.Alone) :
    bodyTxInv s = .ok () { s.logged (.txInv s.cbuf) with cbuf := txInv s.cbuf } := by
  unfold bodyTxInv
  rw [request_alone h]
  rfl

/-- Whatever lands, a property kept by every host transaction holds at the end of a request's wait. -/
theorem landDue_ensures {I : State → Prop} (hop : ∀ op s t, I s → hostOp op s = .next t → I t)
    (hq : ∀ s q, I s → I { s with hostIn := q }) (q : List HostEvent) (s : State) (h : I s) :
    (landDue q s).Ensures (fun _ t => I t) (fun _ _ _ => False) I := by
  induction q generalizing s with
  | nil => exact ensures_ok.2 h
  | cons e q ih =>
    obtain ⟨gap, op⟩ := e
    match gap with
    | none => exact ensures_ok.2 h
    | some (k + 1) => exact ensures_ok.2 h
    | some 0 =>
      rw [landDue]
      split
      · rename_i t ht
        have hI := hop op _ t (hq s q h) ht
        split
        · exact ih t hI
        · exact ensures_abandoned.2 hI
      · exact ensures_fault.2 trivial
      · exact ensures_refused.2 trivial

end Sys2Proof.Machine
end

