-- ==== Sys2Proof/Laws/Codebook.lean ====
section
/-! SUPPORT. The laws of the codebook operations: what counting, building and loading do to values and codes, and that they
keep the codebook's invariants. -/

namespace Sys2Proof.Machine

theorem countValue_map (v : Value) (cb : List Entry) :
    (countValue v cb).map Entry.value = if v ∈ cb.map Entry.value then cb.map Entry.value else cb.map Entry.value ++ [v] := by
  induction cb with
  | nil => simp [countValue]
  | cons e es ih =>
    unfold countValue
    split
    · rename_i h; simp [h]
    · rename_i h
      simp only [List.map_cons, ih, List.mem_cons, Ne.symm h, false_or]
      split <;> simp

theorem countValue_codes (v : Value) (cb : List Entry) :
    (countValue v cb).filterMap (fun e => e.code) = cb.filterMap fun e => e.code := by
  induction cb with
  | nil => simp [countValue]
  | cons e es ih =>
    unfold countValue
    split
    · simp [List.filterMap_cons]
    · simp only [List.filterMap_cons, ih]

theorem countValues_map (vs : List Value) (cb : List Entry) :
    (countValues vs cb).map Entry.value = cb.map Entry.value ++ newValues (cb.map Entry.value) vs := by
  induction vs generalizing cb with
  | nil => simp [countValues, newValues]
  | cons v vs ih =>
    have : countValues (v :: vs) cb = countValues vs (countValue v cb) := rfl
    rw [this, ih, countValue_map]
    conv_rhs => rw [newValues]
    split
    · rfl
    · have hperm : ∀ (k k' : List Value), (∀ x, x ∈ k ↔ x ∈ k') → newValues k vs = newValues k' vs := by
        clear ih this
        induction vs with
        | nil => intros; rfl
        | cons x xs ih =>
          intro k k' hk
          unfold newValues
          simp only [hk x]
          split
          · exact ih k k' hk
          · rw [ih (x :: k) (x :: k') (by simp [hk])]
      rw [hperm (cb.map Entry.value ++ [v]) (v :: cb.map Entry.value) (by simp [or_comm])]
      simp

theorem countValues_codes (vs : List Value) (cb : List Entry) :
    (countValues vs cb).filterMap (fun e => e.code) = cb.filterMap fun e => e.code := by
  induction vs generalizing cb with
  | nil => rfl
  | cons v vs ih =>
    have : countValues (v :: vs) cb = countValues vs (countValue v cb) := rfl
    rw [this, ih, countValue_codes]

theorem newValues_spec (k vs : List Value) : (newValues k vs).Nodup ∧ ∀ x ∈ newValues k vs, x ∉ k ∧ x ∈ vs := by
  induction vs generalizing k with
  | nil => simp [newValues]
  | cons v vs ih =>
    unfold newValues
    split
    · refine ⟨(ih k).1, fun x hx => ⟨((ih k).2 x hx).1, List.mem_cons_of_mem _ ((ih k).2 x hx).2⟩⟩
    · rename_i hv
      have := ih (v :: k)
      refine ⟨List.nodup_cons.2 ⟨fun h => (this.2 v h).1 (by simp), this.1⟩, fun x hx => ?_⟩
      rcases List.mem_cons.1 hx with h | h
      · subst h; exact ⟨hv, by simp⟩
      · have := this.2 x h
        simp at this
        exact ⟨this.1.2, by simp [this.2]⟩

/-- The invariants of a codebook of capacity `depth`, as propositions. -/
structure CbWf (depth : Nat) (cb : List Entry) : Prop where
  len : cb.length ≤ depth
  values : (cb.map fun e => e.value).Nodup
  codes : (cb.filterMap fun e => e.code).Nodup
  legal : ∀ c ∈ cb.filterMap (fun e => e.code), c.legal = true

theorem codebook_wf_iff (depth : Nat) (cb : List Entry) : Codebook.wf depth cb = true ↔ CbWf depth cb := by
  unfold Codebook.wf
  simp only [Bool.and_eq_true, decide_eq_true_eq]
  constructor
  · rintro ⟨⟨⟨a, b⟩, c⟩, d⟩
    refine ⟨a, b, c, fun x hx => ?_⟩
    simp only [List.mem_filterMap] at hx
    obtain ⟨e, he, hx⟩ := hx
    have := List.all_eq_true.1 d e he
    rw [hx] at this
    exact this
  · rintro ⟨a, b, c, d⟩
    refine ⟨⟨⟨a, b⟩, c⟩, List.all_eq_true.2 fun e he => ?_⟩
    cases hx : e.code with
    | none => rfl
    | some c' => exact d c' (List.mem_filterMap.2 ⟨e, he, hx⟩)

theorem accumulate_wf {d : Nat} {ws : List Word} {cb cb' : List Entry} (h : CbWf d cb) (ha : accumulate d ws cb = .ok cb') :
    CbWf d cb' := by
  unfold accumulate at ha
  split at ha
  · cases ha
  · dsimp only at ha
    split at ha
    · cases ha
    · rename_i hl
      cases ha
      have hm := countValues_map (ws.map symField) cb
      have hn := newValues_spec (cb.map Entry.value) (ws.map symField)
      refine ⟨?_, ?_, ?_, ?_⟩
      · have := congrArg List.length hm
        simp at this
        rw [this]
        exact Nat.not_lt.1 hl
      · show ((countValues _ cb).map Entry.value).Nodup
        rw [hm, List.nodup_append]
        refine ⟨h.values, hn.1, fun a ha b hb hab => ?_⟩
        subst hab
        exact (hn.2 a hb).1 ha
      · rw [countValues_codes]; exact h.codes
      · rw [countValues_codes]; exact h.legal

theorem bitlen_le (r k : Nat) : bitlen r ≤ k ↔ r < 2 ^ k := by
  unfold bitlen
  split
  · subst r; simp
  · rw [← Nat.log2_lt (by omega)]; omega

theorem rankCode_legal (r : Nat) (h : r < 65536) : (rankCode r).legal = true ∧ (rankCode r).bits.toNat = r ∧ (rankCode r).len.toNat = max 1 (bitlen r) := by
  have h16 : bitlen r ≤ 16 := (bitlen_le r 16).2 h
  have hl : (rankCode r).len.toNat = max 1 (bitlen r) := by
    show (BitVec.ofNat 5 _).toNat = _
    rw [BitVec.toNat_ofNat, Nat.mod_eq_of_lt (by omega)]
  have hb : (rankCode r).bits.toNat = r := by
    show (BitVec.ofNat 16 _).toNat = _
    rw [BitVec.toNat_ofNat, Nat.mod_eq_of_lt (by omega)]
  refine ⟨?_, hb, hl⟩
  unfold Code.legal
  rw [hl, hb]
  simp only [Bool.and_eq_true, decide_eq_true_eq]
  refine ⟨⟨by omega, by omega⟩, ?_⟩
  rw [← bitlen_le]
  omega

theorem assignCodes_codes (r : Nat) (cb : List Entry) :
    (assignCodes r cb).filterMap (fun e => e.code) = (List.range' r cb.length).map rankCode := by
  induction cb generalizing r with
  | nil => rfl
  | cons e es ih => simp [assignCodes, ih, List.range'_succ]

theorem assignCodes_values (r : Nat) (cb : List Entry) : (assignCodes r cb).map (fun e => e.value) = cb.map fun e => e.value := by
  induction cb generalizing r with
  | nil => rfl
  | cons e es ih => simp [assignCodes, ih]

theorem State.cbDepth_le (s : State) : s.cbDepth ≤ 65536 := s.cbDepthLessOne.isLt

/-- The rank codes are distinct and legal because no capacity exceeds 65536 (R7, R95). -/
theorem buildCodebook_wf {d : Nat} {cb : List Entry} (hd : d ≤ 65536) (h : CbWf d cb) : CbWf d (buildCodebook cb) := by
  unfold buildCodebook
  have hp := List.perm_insertionSort (fun e f => ranksBefore e f = true) cb
  have hlen := hp.length_eq
  refine ⟨?_, ?_, ?_, ?_⟩
  · have := congrArg List.length (assignCodes_values 0 (cb.insertionSort fun e f => ranksBefore e f = true))
    simp only [List.length_map] at this
    rw [this, hlen]
    exact h.len
  · rw [assignCodes_values]
    exact (hp.map _).nodup_iff.2 h.values
  · rw [assignCodes_codes, List.nodup_map_iff_inj_on (List.nodup_range' ..)]
    intro a ha b hb hab
    have hl := h.len
    simp only [List.mem_range'_1, hlen] at ha hb
    rw [← (rankCode_legal a (by omega)).2.1, hab, (rankCode_legal b (by omega)).2.1]
  · rw [assignCodes_codes]
    intro c hc
    obtain ⟨r, hr, rfl⟩ := List.mem_map.1 hc
    have hl := h.len
    simp only [List.mem_range'_1, hlen] at hr
    exact (rankCode_legal r (by omega)).1

theorem lookupValue_none {cb : List Entry} {v : Value} : lookupValue cb v = none ↔ v ∉ cb.map (fun e => e.value) := by
  unfold lookupValue
  simp

theorem lookupCode_none {cb : List Entry} {c : Code} : lookupCode cb c = none ↔ c ∉ cb.filterMap (fun e => e.code) := by
  unfold lookupCode
  simp [List.mem_filterMap]

theorem loadEntry_wf {d : Nat} {cb cb' : List Entry} {v : Value} {c : Code} (h : CbWf d cb) (hl : loadEntry d v c cb = .ok cb') :
    CbWf d cb' := by
  unfold loadEntry at hl
  split at hl
  · cases hl
  · split at hl
    · cases hl
    · split at hl
      · cases hl
      · rename_i h1 h2 h3
        cases hl
        simp only [Bool.or_eq_true, not_or, Bool.not_eq_true, Option.isSome_eq_false_iff, Option.isNone_iff_eq_none] at h2
        have hlen := h.len
        rw [lookupValue_none, lookupCode_none] at h2
        refine ⟨by simp; omega, ?_, ?_, ?_⟩
        · rw [List.map_append, List.nodup_append]
          refine ⟨h.values, by simp, fun a ha b hb hab => ?_⟩
          subst hab
          simp at hb
          subst hb
          exact h2.1 ha
        · rw [List.filterMap_append, List.nodup_append]
          refine ⟨h.codes, by simp, fun a ha b hb hab => ?_⟩
          subst hab
          simp at hb
          subst hb
          exact h2.2 ha
        · intro x hx
          rw [List.filterMap_append, List.mem_append] at hx
          rcases hx with hx | hx
          · exact h.legal x hx
          · simp at hx; subst hx; simpa using h1

end Sys2Proof.Machine
end

