-- ==== Sys2Proof/Laws/Host.lean ====
section
/-! SUPPORT. What one host transaction can do, to the data the machine holds, to the Sequencer and to the reset input. -/

namespace Sys2Proof.Machine

/-- The part of the invariant that holds inside a command as well. -/
structure DataInv (s : State) : Prop where
  mem : Memory.wf s.mem = true
  pcount : s.pcount.toNat ≤ 64
  codebook : Codebook.wf s.cbDepth s.cb = true
  matrix : s.status.qv = true → ∀ n : Fin 64, 1 ≤ s.qmat[n].toNat ∧ s.qmat[n].toNat ≤ 12750
  aligned : s.busLog.all Request.aligned = true

theorem State.Inv.data {s : State} (h : s.Inv) : DataInv s := ⟨h.mem, h.pcount, h.codebook, h.matrix, h.aligned⟩

theorem emptyCodebook_wf (depth : Nat) : Codebook.wf depth [] = true := by simp [Codebook.wf]

theorem memAfterAbandon_wf {s : State} (h : Memory.wf s.mem = true) : Memory.wf (memAfterAbandon s) = true := by
  unfold memAfterAbandon
  split
  · split
    · exact memSet_wf h _ _
    · exact h
  · split
    · exact memSet32_wf h _ _
    · exact h
  · exact h

theorem resetIctc_inv {s : State} (hm : Memory.wf s.mem = true) (hl : s.busLog.all Request.aligned = true) : s.resetIctc.Inv where
  mem := memAfterAbandon_wf hm
  pcount := Nat.zero_le _
  codebook := emptyCodebook_wf _
  matrix := fun h => nomatch h
  hidden := rfl
  reset := fun _ => rfl
  aligned := hl

/-- What a register write does to the Sequencer: nothing, or it leaves it with no hidden state. -/
theorem regWrite_seq (r : HostReg) (w : Word) (s : State) :
    (regWrite r w s).seq = s.seq ∨ ∃ c, (regWrite r w s).seq = { Sequencer.idle with cmd := c } := by
  cases r
  case ctrl =>
    show (writeCtrl w s).seq = _ ∨ ∃ c, (writeCtrl w s).seq = _
    unfold writeCtrl
    split
    · exact .inr ⟨none, rfl⟩
    · exact .inl rfl
  case cmd => exact .inr ⟨some w, rfl⟩
  case pcount =>
    show (writePcount w s).seq = _ ∨ ∃ c, (writePcount w s).seq = _
    unfold writePcount
    dsimp only
    split <;> exact .inl rfl
  all_goals exact .inl rfl

theorem regWrite_rst (r : HostReg) (w : Word) (s : State) : (regWrite r w s).rst = s.rst := by
  cases r
  case ctrl =>
    show (writeCtrl w s).rst = _
    unfold writeCtrl
    split <;> rfl
  case pcount =>
    show (writePcount w s).rst = _
    unfold writePcount
    dsimp only
    split <;> rfl
  all_goals rfl

theorem regWrite_data {s : State} (r : HostReg) (w : Word) (h : DataInv s) : DataInv (regWrite r w s) := by
  obtain ⟨a, b, c, d, e⟩ := h
  cases r
  case ctrl =>
    show DataInv (writeCtrl w s)
    unfold writeCtrl
    split
    · exact (resetIctc_inv a e).data
    · exact ⟨a, b, c, d, e⟩
  case pcount =>
    show DataInv (writePcount w s)
    unfold writePcount
    dsimp only
    split
    · exact ⟨a, by assumption, c, d, e⟩
    · exact ⟨a, b, c, d, e⟩
  all_goals exact ⟨a, b, c, d, e⟩

/-- The ways a host read ends. -/
theorem hostRead_cases (off : BitVec 12) (s : State) :
    (∃ e d, hostRead off s = s.reply e d) ∨ ∃ d, hostRead off s = { s.reply false d with draws := s.draws + 1 } := by
  unfold hostRead
  split
  · exact .inl ⟨_, _, rfl⟩
  · split
    · exact .inr ⟨_, rfl⟩
    · exact .inl ⟨_, _, rfl⟩

/-- The ways a host write ends: an error response, a drop, or the register written, which while BUSY is CTRL or STATUS. -/
theorem hostWrite_cases (off : BitVec 12) (strb : BitVec 4) (w : Word) (s : State) :
    hostWrite off strb w s = s.reply true 0 ∨
    (s.busy = true ∧ hostWrite off strb w s = { s.reply false 0 with status := { s.status with ovf := true } }) ∨
    ∃ r, hostWrite off strb w s = (regWrite r w s).reply false 0 ∧ (s.busy = true → r = .ctrl ∨ r = .status) := by
  unfold hostWrite
  split
  · exact .inl rfl
  · split
    · rename_i h
      exact .inr (.inl ⟨by revert h; cases s.busy <;> simp, rfl⟩)
    · rename_i h
      refine .inr (.inr ⟨_, rfl, fun hb => ?_⟩)
      rw [hb] at h
      revert h
      cases decodeOffset off <;> simp [writableWhileBusy]

theorem reply_data {s : State} (e : Bool) (d : Word) (h : DataInv s) : DataInv (s.reply e d) :=
  ⟨h.mem, h.pcount, h.codebook, h.matrix, h.aligned⟩

/-- The data invariant holds after a host transaction. -/
theorem hostOp_data {op : HostOp} {s t : State} (h : DataInv s) (ht : hostOp op s = .next t) : DataInv t := by
  cases op with
  | read off =>
    simp only [hostOp] at ht
    split at ht <;> cases ht
    rcases hostRead_cases off s with ⟨e, d, he⟩ | ⟨d, he⟩ <;> rw [he]
    · exact reply_data _ _ h
    · exact ⟨h.mem, h.pcount, h.codebook, h.matrix, h.aligned⟩
  | write off strb w =>
    simp only [hostOp] at ht
    split at ht <;> cases ht
    rcases hostWrite_cases off strb w s with he | ⟨_, he⟩ | ⟨r, he, _⟩ <;> rw [he]
    · exact reply_data _ _ h
    · exact ⟨h.mem, h.pcount, h.codebook, h.matrix, h.aligned⟩
    · exact reply_data _ _ (regWrite_data _ _ h)
  | store a b =>
    simp only [hostOp] at ht
    split at ht <;> cases ht
    exact ⟨memSet_wf h.mem _ _, h.pcount, h.codebook, h.matrix, h.aligned⟩
  | assertReset =>
    cases ht
    have := resetIctc_inv h.mem h.aligned
    exact ⟨this.mem, this.pcount, this.codebook, this.matrix, this.aligned⟩
  | releaseReset =>
    simp only [hostOp] at ht
    split at ht <;> cases ht
    · have := resetIctc_inv h.mem h.aligned
      exact ⟨this.mem, this.pcount, this.codebook, this.matrix, this.aligned⟩
    · exact h

/-- What a host transaction does to the Sequencer. -/
theorem hostOp_seq {op : HostOp} {s t : State} (ht : hostOp op s = .next t) :
    t.seq = s.seq ∨ ∃ c, t.seq = { Sequencer.idle with cmd := c } := by
  cases op with
  | read off =>
    simp only [hostOp] at ht
    split at ht <;> cases ht
    rcases hostRead_cases off s with ⟨e, d, he⟩ | ⟨d, he⟩ <;> rw [he] <;> exact .inl rfl
  | write off strb w =>
    simp only [hostOp] at ht
    split at ht <;> cases ht
    rcases hostWrite_cases off strb w s with he | ⟨_, he⟩ | ⟨r, he, _⟩ <;> rw [he]
    · exact .inl rfl
    · exact .inl rfl
    · exact regWrite_seq _ _ _
  | store a b =>
    simp only [hostOp] at ht
    split at ht <;> cases ht
    exact .inl rfl
  | assertReset => cases ht; exact .inr ⟨none, rfl⟩
  | releaseReset =>
    simp only [hostOp] at ht
    split at ht <;> cases ht
    · exact .inr ⟨none, rfl⟩
    · exact .inl rfl

/-- After a host transaction nothing runs while the reset input is asserted, if that was so before. -/
theorem hostOp_rst {op : HostOp} {s t : State} (ht : hostOp op s = .next t) (h : s.rst = true → s.busy = false) :
    t.rst = true → t.busy = false := by
  cases op with
  | read off =>
    simp only [hostOp] at ht
    split at ht <;> cases ht
    rcases hostRead_cases off s with ⟨e, d, he⟩ | ⟨d, he⟩ <;> rw [he] <;> exact h
  | write off strb w =>
    simp only [hostOp] at ht
    split at ht <;> cases ht
    rename_i hr
    rcases hostWrite_cases off strb w s with he | ⟨_, he⟩ | ⟨r, he, _⟩ <;> rw [he]
    · exact h
    · exact h
    · intro h2
      exact absurd ((regWrite_rst r w s).symm.trans h2) hr
  | store a b =>
    simp only [hostOp] at ht
    split at ht <;> cases ht
    exact h
  | assertReset => cases ht; intro; rfl
  | releaseReset =>
    simp only [hostOp] at ht
    split at ht <;> cases ht
    · intro; rfl
    · exact h

/-- A host transaction that lands while a command runs either leaves it running or leaves the ICTC idle. -/
theorem hostOp_busy {op : HostOp} {s t : State} (hr : s.rst = false) (hb : s.busy = true) (ht : hostOp op s = .next t) :
    (t.rst = false ∧ t.seq = s.seq) ∨ t.seq = Sequencer.idle := by
  cases op with
  | read off =>
    simp only [hostOp] at ht
    split at ht <;> cases ht
    rcases hostRead_cases off s with ⟨e, d, he⟩ | ⟨d, he⟩ <;> rw [he] <;> exact .inl ⟨hr, rfl⟩
  | write off strb w =>
    simp only [hostOp] at ht
    split at ht <;> cases ht
    rcases hostWrite_cases off strb w s with he | ⟨_, he⟩ | ⟨r, he, hc⟩ <;> rw [he]
    · exact .inl ⟨hr, rfl⟩
    · exact .inl ⟨hr, rfl⟩
    · rcases hc hb with rfl | rfl
      · show (writeCtrl w s).rst = false ∧ (writeCtrl w s).seq = s.seq ∨ (writeCtrl w s).seq = _
        unfold writeCtrl
        split
        · exact .inr rfl
        · exact .inl ⟨hr, rfl⟩
      · exact .inl ⟨hr, rfl⟩
  | store a b =>
    simp only [hostOp] at ht
    split at ht <;> cases ht
    exact .inl ⟨hr, rfl⟩
  | assertReset => cases ht; exact .inr rfl
  | releaseReset =>
    simp only [hostOp] at ht
    split at ht <;> cases ht
    · exact .inr rfl
    · exact .inl ⟨hr, rfl⟩

theorem hidden_of_seq {s t : State} (hs : s.seq = { Sequencer.idle with cmd := s.seq.cmd })
    (h : t.seq = s.seq ∨ ∃ c, t.seq = { Sequencer.idle with cmd := c }) : t.seq = { Sequencer.idle with cmd := t.seq.cmd } := by
  rcases h with h | ⟨c, h⟩
  · rw [h]; exact hs
  · rw [h]

/-- A host transaction keeps the invariant. -/
theorem hostOp_inv {op : HostOp} {s t : State} (h : s.Inv) (ht : hostOp op s = .next t) : t.Inv := by
  have hc := hostOp_data h.data ht
  exact ⟨hc.mem, hc.pcount, hc.codebook, hc.matrix, hidden_of_seq h.hidden (hostOp_seq ht), hostOp_rst ht h.reset, hc.aligned⟩

end Sys2Proof.Machine
end

