-- ==== Sys2Proof/Laws/Rle.lean ====
section
/-! SUPPORT. The laws of the run-length codec: runs and their words. -/

namespace Sys2Proof.Machine

theorem runs_sum (l : List Value) : ((runs l).map Prod.snd).sum = l.length ∧ ∀ p ∈ runs l, 1 ≤ p.2 := by
  induction l with
  | nil => simp [runs]
  | cons v vs ih =>
    unfold runs
    split
    · rename_i u n rest he
      rw [he] at ih
      simp at ih
      split
      · simp; refine ⟨by omega, fun a b hb => ih.2.2 a b hb⟩
      · simp; refine ⟨by omega, ih.2.1, fun a b hb => ih.2.2 a b hb⟩
    · rename_i he
      rw [he] at ih
      simp at ih
      simp [← ih]

theorem runs_length (l : List Value) : (runs l).length ≤ l.length := by
  induction l with
  | nil => simp [runs]
  | cons v vs ih =>
    unfold runs
    split
    · rename_i he; rw [he] at ih; simp at ih
      split <;> simp <;> omega
    · simp

theorem runWords_length (l : List (Value × Nat)) : (runWords l).length = l.length := by
  induction l using runWords.induct <;> simp_all [runWords]

theorem rleWords_length (z : Block 16) : (rleWords z).length ≤ 64 := by
  unfold rleWords
  rw [runWords_length]
  simpa using runs_length z.toList

theorem rleWords_pos (z : Block 16) : 1 ≤ (rleWords z).length := by
  unfold rleWords
  rw [runWords_length]
  refine Nat.pos_of_ne_zero fun h => ?_
  have hs := (runs_sum z.toList).1
  rw [List.length_eq_zero_iff.1 h, Vector.length_toList] at hs
  simp at hs

end Sys2Proof.Machine
end

