-- ==== Sys2Proof/Laws/Command.lean ====
section
/-! SUPPORT. What every piece of a command keeps, whatever the memory answers and whatever host transactions land in it. -/

namespace Sys2Proof.Machine

/-- What holds inside a command: the data invariant, the reset input released, a command received. -/
structure InCommand (s : State) : Prop extends DataInv s where
  rst : s.rst = false
  cmd : s.seq.cmd.isSome = true

/-- A piece of a command keeps `InCommand`; if a reset abandons it, the machine's invariant holds. -/
abbrev Keeps {α : Type} (r : Run α) : Prop := r.Ensures (fun _ t => InCommand t) (fun _ _ t => InCommand t) State.Inv

theorem keeps_ok {α : Type} {a : α} {s : State} (h : InCommand s) : Keeps (.ok a s) := ensures_ok.2 h
theorem keeps_raised {α : Type} {c : ErrCode} {i : Word} {s : State} (h : InCommand s) : Keeps (.raised c i s : Run α) :=
  ensures_raised.2 h

theorem keeps_bind {α β : Type} {r : Run α} {f : α → State → Run β} (h : Keeps r) (hf : ∀ a s, InCommand s → Keeps (f a s)) :
    Keeps (r.bind f) := Run.Ensures.bind h hf


/-- Only these parts of a state matter to `InCommand`. -/
theorem InCommand.of {s t : State} (h : InCommand s) (hmem : t.mem = s.mem) (hp : t.pcount = s.pcount) (hcb : t.cb = s.cb)
    (hq : t.qmat = s.qmat) (hv : t.status.qv = s.status.qv) (hl : t.busLog = s.busLog) (hr : t.rst = s.rst)
    (hc : t.seq.cmd = s.seq.cmd) (hd : t.cbDepthLessOne = s.cbDepthLessOne) : InCommand t :=
  ⟨⟨hmem ▸ h.mem, hp ▸ h.pcount, by unfold State.cbDepth; rw [hcb, hd]; exact h.codebook, by rw [hq, hv]; exact h.matrix, hl ▸ h.aligned⟩, hr ▸ h.rst, hc ▸ h.cmd⟩

theorem landDue_keeps (q : List HostEvent) (s : State) (h : InCommand s) : Keeps (landDue q s) := by
  induction q generalizing s with
  | nil => exact keeps_ok h
  | cons e q ih =>
    obtain ⟨gap, op⟩ := e
    match gap with
    | none => exact keeps_ok h
    | some (k + 1) => exact keeps_ok h
    | some 0 =>
      rw [landDue]
      split
      · rename_i t ht
        have hd := hostOp_data (s := { s with hostIn := q }) ⟨h.mem, h.pcount, h.codebook, h.matrix, h.aligned⟩ ht
        rcases hostOp_busy (s := { s with hostIn := q }) h.rst h.cmd ht with ⟨hr, hs⟩ | hi
        · have hc : t.seq.cmd.isSome = true := by rw [hs]; exact h.cmd
          rw [if_pos (by exact hc)]
          exact ih t ⟨hd, hr, hc⟩
        · have hb : t.busy = false := by unfold State.busy; rw [hi]; rfl
          rw [if_neg (by simp [hb])]
          exact ensures_abandoned.2
            ⟨hd.mem, hd.pcount, hd.codebook, hd.matrix, by rw [hi], fun _ => hb, hd.aligned⟩
      · exact ensures_fault.2 trivial
      · exact ensures_refused.2 trivial

theorem request_keeps (r : Request) (s : State) (h : InCommand s) (hr : r.aligned = true) : Keeps (request r s) := by
  unfold request
  refine landDue_keeps _ _ ⟨⟨h.mem, h.pcount, h.codebook, h.matrix, ?_⟩, h.rst, h.cmd⟩
  simp only [List.all_cons, hr, Bool.true_and]
  exact h.aligned

theorem InCommand.answered {s : State} (h : InCommand s) : InCommand s.answered := h.of rfl rfl rfl rfl rfl rfl rfl rfl rfl

theorem InCommand.withMem {s : State} (h : InCommand s) {m : List Host.Cell} (hm : Memory.wf m = true) :
    InCommand { s with mem := m } := ⟨⟨hm, h.pcount, h.codebook, h.matrix, h.aligned⟩, h.rst, h.cmd⟩

theorem memRead8_keeps (a : Addr) (s : State) (h : InCommand s) : Keeps (memRead8 a s) := by
  unfold memRead8
  refine keeps_bind (request_keeps _ s h rfl) fun _ t ht => ?_
  split
  · exact keeps_ok ht.answered
  · exact keeps_ok ht.answered
  · exact keeps_raised ht.answered

theorem memRead32_keeps (a : Addr) (s : State) (h : InCommand s) (ha : a.toNat % 4 = 0) : Keeps (memRead32 a s) := by
  unfold memRead32
  refine keeps_bind (request_keeps _ s h (by simp [Request.aligned, ha])) fun _ t ht => ?_
  split
  · exact keeps_ok ht.answered
  · exact keeps_ok ht.answered
  · exact keeps_raised ht.answered

theorem answerWrite_keeps (a : Addr) (m : List Host.Cell) (s : State) (h : InCommand s) (hm : Memory.wf m = true) :
    Keeps (answerWrite a m s) := by
  unfold answerWrite
  split
  · exact keeps_ok (h.answered.withMem hm)
  · exact keeps_ok (h.answered.withMem hm)
  · refine keeps_raised (h.answered.withMem ?_)
    split
    · exact hm
    · exact h.mem

theorem memWrite8_keeps (a : Addr) (v : Byte) (s : State) (h : InCommand s) : Keeps (memWrite8 a v s) := by
  unfold memWrite8
  exact keeps_bind (request_keeps _ s h rfl) fun _ t ht => answerWrite_keeps _ _ _ ht (memSet_wf ht.mem _ _)

theorem memWrite32_keeps (a : Addr) (v : Word) (s : State) (h : InCommand s) (ha : a.toNat % 4 = 0) :
    Keeps (memWrite32 a v s) := by
  unfold memWrite32
  exact keeps_bind (request_keeps _ s h (by simp [Request.aligned, ha])) fun _ t ht =>
    answerWrite_keeps _ _ _ ht (memSet32_wf ht.mem _ _)

/-- Stream word addresses are multiples of 4. -/
theorem strmAddr_aligned (r : Regs) (j : Nat) : (strmAddr r j).toNat % 4 = 0 := by
  unfold strmAddr strmBaseByte
  simp [BitVec.toNat_add, BitVec.toNat_shiftLeft, Nat.shiftLeft_eq]

theorem qgenEntry_range {b q : Nat} (hb : b ≤ 255) (h1 : 1 ≤ q) (h2 : q ≤ 100) : 1 ≤ qgenEntry b q ∧ qgenEntry b q ≤ 12750 := by
  unfold qgenEntry
  refine ⟨Nat.le_max_left _ _, max_le (by omega) ?_⟩
  split
  · rw [Nat.div_le_iff_le_mul_add_pred (by omega)]
    omega
  · rw [Nat.div_le_iff_le_mul_add_pred (by omega)]
    have : b * (200 - 2 * q) ≤ 255 * 200 := Nat.mul_le_mul hb (by omega)
    omega

theorem qualityLegal_iff (r : Regs) : qualityLegal r = true ↔ 1 ≤ r.quality.toNat ∧ r.quality.toNat ≤ 100 := by
  unfold qualityLegal
  simp only [Bool.and_eq_true, decide_eq_true_eq]

theorem baseq_range (n : Fin 64) : 1 ≤ baseq n ∧ baseq n ≤ 255 := by unfold baseq; omega

theorem bodyQgen_keeps (s : State) (h : InCommand s) : Keeps (bodyQgen s) := by
  unfold bodyQgen
  cases hq : qualityLegal s.regs with
  | false => exact keeps_raised h
  | true =>
    have hq := (qualityLegal_iff s.regs).1 hq
    refine keeps_ok ⟨⟨h.mem, h.pcount, h.codebook, fun _ n => ?_, h.aligned⟩, h.rst, h.cmd⟩
    have hr := qgenEntry_range (baseq_range n).2 hq.1 hq.2
    simp only [Fin.getElem_fin, Vector.getElem_ofFn]
    rw [BitVec.toNat_ofNat, Nat.mod_eq_of_lt (by show qgenEntry (baseq n) _ < _; omega)]
    exact hr

theorem bodyQuant_keeps (s : State) (h : InCommand s) : Keeps (bodyQuant s) := by
  unfold bodyQuant
  split
  · exact keeps_raised h
  · exact keeps_ok (h.of rfl rfl rfl rfl rfl rfl rfl rfl rfl)

theorem bodyDequant_keeps (s : State) (h : InCommand s) : Keeps (bodyDequant s) := by
  unfold bodyDequant
  split
  · exact keeps_raised h
  · exact keeps_ok (h.of rfl rfl rfl rfl rfl rfl rfl rfl rfl)

theorem bodyTxFwd_keeps (s : State) (h : InCommand s) : Keeps (bodyTxFwd s) := by
  unfold bodyTxFwd
  exact keeps_bind (request_keeps _ s h rfl) fun _ t ht => keeps_ok (ht.of rfl rfl rfl rfl rfl rfl rfl rfl rfl)

theorem bodyTxInv_keeps (s : State) (h : InCommand s) : Keeps (bodyTxInv s) := by
  unfold bodyTxInv
  exact keeps_bind (request_keeps _ s h rfl) fun _ t ht => keeps_ok (ht.of rfl rfl rfl rfl rfl rfl rfl rfl rfl)

theorem bodyZzFlat_keeps (s : State) (h : InCommand s) : Keeps (bodyZzFlat s) :=
  keeps_ok (h.of rfl rfl rfl rfl rfl rfl rfl rfl rfl)

theorem bodyZzUnflat_keeps (s : State) (h : InCommand s) : Keeps (bodyZzUnflat s) :=
  keeps_ok (h.of rfl rfl rfl rfl rfl rfl rfl rfl rfl)

theorem InCommand.withPairs {s : State} (h : InCommand s) (p : Block 32) {m : BitVec 7} (hm : m.toNat ≤ 64) :
    InCommand { s with pbuf := p, pcount := m } := ⟨⟨h.mem, hm, h.codebook, h.matrix, h.aligned⟩, h.rst, h.cmd⟩

theorem bodyRleEnc_keeps (s : State) (h : InCommand s) : Keeps (bodyRleEnc s) := by
  have hl := rleWords_length s.zbuf
  have hp : (BitVec.ofNat 7 (rleWords s.zbuf).length).toNat ≤ 64 := by
    rw [BitVec.toNat_ofNat, Nat.mod_eq_of_lt (by omega)]
    exact hl
  exact keeps_ok (h.withPairs _ hp)

theorem ofCheck_keeps {α : Type} (r : Except (ErrCode × Word) α) (s : State) (h : InCommand s) : Keeps (ofCheck r s) :=
  ofCheck_ensures (fun _ _ => h) fun _ _ => h

theorem bodyRleDec_keeps (s : State) (h : InCommand s) : Keeps (bodyRleDec s) := by
  unfold bodyRleDec
  refine keeps_bind (ofCheck_keeps _ s h) fun a t ht => ?_
  split
  · exact keeps_raised ht
  · exact keeps_ok (ht.of rfl rfl rfl rfl rfl rfl rfl rfl rfl)

theorem InCommand.withCb {s : State} (h : InCommand s) {cb : List Entry} (hc : Codebook.wf s.cbDepth cb = true) :
    InCommand { s with cb := cb } := ⟨⟨h.mem, h.pcount, hc, h.matrix, h.aligned⟩, h.rst, h.cmd⟩

theorem bodyCbAccum_keeps (s : State) (h : InCommand s) : Keeps (bodyCbAccum s) := by
  unfold bodyCbAccum
  cases ha : accumulate s.cbDepth (validPairs s) s.cb with
  | error e => exact keeps_raised h
  | ok cb =>
    exact keeps_ok (h.withCb ((codebook_wf_iff _ _).2 (accumulate_wf ((codebook_wf_iff _ _).1 h.codebook) ha)))

theorem bodyCbBuild_keeps (s : State) (h : InCommand s) : Keeps (bodyCbBuild s) :=
  keeps_ok (h.withCb ((codebook_wf_iff _ _).2 (buildCodebook_wf s.cbDepth_le ((codebook_wf_iff _ _).1 h.codebook))))

theorem bodyCbLoad_keeps (s : State) (h : InCommand s) : Keeps (bodyCbLoad s) := by
  unfold bodyCbLoad
  cases ha : loadEntry s.cbDepth s.regs.cbValue s.regs.cbCode s.cb with
  | error e => exact keeps_raised h
  | ok cb => exact keeps_ok (h.withCb ((codebook_wf_iff _ _).2 (loadEntry_wf ((codebook_wf_iff _ _).1 h.codebook) ha)))

theorem bodyCbEncode_keeps (s : State) (h : InCommand s) : Keeps (bodyCbEncode s) := by
  unfold bodyCbEncode
  exact keeps_bind (ofCheck_keeps _ s h) fun _ t ht => keeps_ok (ht.of rfl rfl rfl rfl rfl rfl rfl rfl rfl)

theorem bodyCbDecode_keeps (s : State) (h : InCommand s) : Keeps (bodyCbDecode s) := by
  unfold bodyCbDecode
  exact keeps_bind (ofCheck_keeps _ s h) fun _ t ht => keeps_ok (ht.of rfl rfl rfl rfl rfl rfl rfl rfl rfl)

theorem bodyCbRead_keeps (s : State) (h : InCommand s) : Keeps (bodyCbRead s) := by
  unfold bodyCbRead
  split
  · exact keeps_raised h
  · exact keeps_ok (h.of rfl rfl rfl rfl rfl rfl rfl rfl rfl)

theorem forCount_keeps {body : Nat → State → Run Unit} (hb : ∀ n s, InCommand s → Keeps (body n s)) (k n : Nat) (s : State)
    (h : InCommand s) : Keeps (forCount body k n s) := forCount_ensures (I := fun _ s => InCommand s) hb k n s h

theorem fetchBlock_keeps (row col : Nat) (s : State) (h : InCommand s) : Keeps (fetchBlock row col s) := by
  refine forCount_keeps (fun n s h => ?_) 64 0 s h
  unfold fetchCell
  split
  · exact keeps_bind (memRead8_keeps _ s h) fun p t ht => keeps_ok (ht.of rfl rfl rfl rfl rfl rfl rfl rfl rfl)
  · exact keeps_ok (h.of rfl rfl rfl rfl rfl rfl rfl rfl rfl)

theorem storeBlock_keeps (row col : Nat) (s : State) (h : InCommand s) : Keeps (storeBlock row col s) := by
  refine forCount_keeps (fun n s h => ?_) 64 0 s h
  unfold storeCell
  split
  · exact memWrite8_keeps _ _ s h
  · exact keeps_ok h

theorem streamPairs_keeps (ws : List Word) (s : State) (h : InCommand s) : Keeps (streamPairs ws s) := by
  induction ws generalizing s with
  | nil => exact keeps_ok h
  | cons w ws ih =>
    unfold streamPairs
    split
    · exact keeps_raised h
    · exact keeps_bind (memWrite32_keeps _ _ s h (strmAddr_aligned _ _)) fun _ t ht =>
        ih _ (ht.of rfl rfl rfl rfl rfl rfl rfl rfl rfl)

theorem compressBlock_keeps (b : Nat) (s : State) (h : InCommand s) : Keeps (compressBlock b s) := by
  unfold compressBlock
  refine keeps_bind (fetchBlock_keeps _ _ (s.atBlock b) (h.of rfl rfl rfl rfl rfl rfl rfl rfl rfl)) fun _ s h => ?_
  refine keeps_bind (bodyTxFwd_keeps s h) fun _ s h => ?_
  refine keeps_bind (bodyQuant_keeps s h) fun _ s h => ?_
  refine keeps_bind (bodyZzFlat_keeps s h) fun _ s h => ?_
  refine keeps_bind (bodyRleEnc_keeps s h) fun _ s h => ?_
  refine keeps_bind (bodyCbAccum_keeps s h) fun _ s h => ?_
  exact keeps_bind (streamPairs_keeps _ s h) fun _ s h => keeps_ok (h.of rfl rfl rfl rfl rfl rfl rfl rfl rfl)

theorem substWord_keeps (t : Nat) (s : State) (h : InCommand s) : Keeps (substWord t s) := by
  unfold substWord
  refine keeps_bind (memRead32_keeps _ s h (strmAddr_aligned _ _)) fun w s h => ?_
  split
  · exact keeps_raised h
  · split
    · exact keeps_raised h
    · exact keeps_bind (memWrite32_keeps _ _ s h (strmAddr_aligned _ _)) fun _ s h =>
        keeps_ok (h.of rfl rfl rfl rfl rfl rfl rfl rfl rfl)

theorem checkRegions_keeps (g k : Region) (s : State) (h : InCommand s) : Keeps (checkRegions g k s) := by
  unfold checkRegions
  split
  · exact ensures_refused.2 trivial
  · exact keeps_ok h

theorem bodySeqCompress_keeps (s : State) (h : InCommand s) : Keeps (bodySeqCompress s) := by
  unfold bodySeqCompress
  refine keeps_bind (ofCheck_keeps _ s h) fun _ s h => ?_
  refine keeps_bind (checkRegions_keeps _ _ s h) fun _ s h => ?_
  refine keeps_bind (bodyQgen_keeps s h) fun _ s h => ?_
  refine keeps_bind (forCount_keeps compressBlock_keeps _ 0 _ ?_) fun _ s h => ?_
  · exact ⟨⟨h.mem, h.pcount, emptyCodebook_wf _, h.matrix, h.aligned⟩, h.rst, h.cmd⟩
  refine keeps_bind (bodyCbBuild_keeps _ (h.of rfl rfl rfl rfl rfl rfl rfl rfl rfl)) fun _ s h => ?_
  refine keeps_bind (forCount_keeps substWord_keeps _ 0 _ (h.of rfl rfl rfl rfl rfl rfl rfl rfl rfl)) fun _ s h => ?_
  exact keeps_ok (h.of rfl rfl rfl rfl rfl rfl rfl rfl rfl)

theorem validateWords_keeps (left : Nat) (s : State) (h : InCommand s) : Keeps (validateWords left s) := by
  induction left generalizing s with
  | zero => exact keeps_raised h
  | succ k ih =>
    unfold validateWords
    refine keeps_bind (memRead32_keeps _ s h (strmAddr_aligned _ _)) fun w s h => ?_
    have h' : ∀ v, InCommand (s.setSum v).nextWord := fun v => h.of rfl rfl rfl rfl rfl rfl rfl rfl rfl
    split
    · exact keeps_raised h
    split
    · exact keeps_raised h
    split
    · exact keeps_raised h
    dsimp only
    split
    · split
      · exact keeps_raised (h' _)
      · exact keeps_ok (h' _)
    · exact ih _ (h' _)

theorem validateBlock_keeps (b : Nat) (s : State) (h : InCommand s) : Keeps (validateBlock b s) :=
  validateWords_keeps _ (s.setSum 0) (h.of rfl rfl rfl rfl rfl rfl rfl rfl rfl)

theorem validatePhase_keeps (s : State) (h : InCommand s) : Keeps (validatePhase s) := by
  unfold validatePhase
  refine keeps_bind (forCount_keeps validateBlock_keeps _ 0 _
    (h.of rfl rfl rfl rfl rfl rfl rfl rfl rfl)) fun _ s h => ?_
  split
  · exact keeps_raised h
  · exact keeps_ok h

/-- The stream reads of one block also give at most 64 pairs. -/
theorem readPairs_keeps (left m : Nat) (hm : m ≤ 64) (s : State) (h : InCommand s) :
    (readPairs left m s).Ensures (fun k t => InCommand t ∧ k ≤ 64) (fun _ _ t => InCommand t) State.Inv := by
  induction left generalizing m s with
  | zero => exact ensures_raised.2 h
  | succ k ih =>
    unfold readPairs
    split
    · exact ensures_raised.2 h
    · refine (memRead32_keeps _ s h (strmAddr_aligned _ _)).bind fun w s h => ?_
      dsimp only
      split
      · exact ensures_ok.2 ⟨h.of rfl rfl rfl rfl rfl rfl rfl rfl rfl, by omega⟩
      · exact ih _ (by omega) _ (h.of rfl rfl rfl rfl rfl rfl rfl rfl rfl)

theorem decompressBlock_keeps (b : Nat) (s : State) (h : InCommand s) : Keeps (decompressBlock b s) := by
  unfold decompressBlock
  refine (readPairs_keeps _ 0 (by omega) (s.atBlock b) (h.of rfl rfl rfl rfl rfl rfl rfl rfl rfl)).bind fun m s h => ?_
  obtain ⟨h, hm⟩ := h
  have hp : (BitVec.ofNat 7 m).toNat ≤ 64 := by rw [BitVec.toNat_ofNat, Nat.mod_eq_of_lt (by omega)]; exact hm
  refine keeps_bind (bodyCbDecode_keeps _ ?_) fun _ s h => ?_
  · exact h.withPairs s.pbuf hp
  refine keeps_bind (bodyRleDec_keeps s h) fun _ s h => ?_
  refine keeps_bind (bodyZzUnflat_keeps s h) fun _ s h => ?_
  refine keeps_bind (bodyDequant_keeps s h) fun _ s h => ?_
  refine keeps_bind (bodyTxInv_keeps s h) fun _ s h => ?_
  exact keeps_bind (storeBlock_keeps _ _ s h) fun _ s h => keeps_ok (h.of rfl rfl rfl rfl rfl rfl rfl rfl rfl)

theorem bodySeqDecompress_keeps (s : State) (h : InCommand s) : Keeps (bodySeqDecompress s) := by
  unfold bodySeqDecompress
  refine keeps_bind (ofCheck_keeps _ s h) fun _ s h => ?_
  refine keeps_bind (checkRegions_keeps _ _ s h) fun _ s h => ?_
  refine keeps_bind (bodyQgen_keeps s h) fun _ s h => ?_
  refine keeps_bind (validatePhase_keeps _ (h.of rfl rfl rfl rfl rfl rfl rfl rfl rfl)) fun _ s h => ?_
  exact forCount_keeps decompressBlock_keeps _ 0 _ (h.of rfl rfl rfl rfl rfl rfl rfl rfl rfl)

theorem freePcount_le (draw : Nat) : (freePcount draw).toNat ≤ 64 := by
  unfold freePcount
  rw [BitVec.toNat_ofNat]
  have := Nat.mod_lt (Config.freeBits 32 draw 320).toNat (show 65 > 0 by omega)
  omega

theorem InCommand.freeScratch {s : State} (h : InCommand s) : InCommand s.freeScratch :=
  ⟨⟨h.mem, freePcount_le _, h.codebook, h.matrix, h.aligned⟩, h.rst, h.cmd⟩

/-- A command whose pieces keep `InCommand` leaves a state that meets the invariant. -/
theorem finish_inv {r : Run Unit} (h : Keeps r) {t : State} (ht : finish r = .next t) : t.Inv := by
  rcases finish_next ht with ⟨s, rfl, rfl⟩ | ⟨c, i, s, rfl, rfl⟩ | rfl
  · have h := ensures_ok.1 h
    exact ⟨h.mem, h.pcount, h.codebook, h.matrix, rfl, fun _ => rfl, h.aligned⟩
  · have h := ensures_raised.1 h
    exact ⟨h.mem, h.pcount, h.codebook, h.matrix, rfl, fun _ => rfl, h.aligned⟩
  · exact ensures_abandoned.1 h

end Sys2Proof.Machine
end

