-- ==== Sys2Proof/Laws/PerInstr.lean ====
section
/-! SUPPORT. One lemma per command: its word has no operand bits and its OP is listed for it (spec 30_encoding.md R90, R92, R93). -/

namespace Sys2Proof.Laws

/-- A command is well formed, its word's bits [31:8] are zero, and the opcode map gives its OP to it. -/
def Encoded.Statement (i : Instr) : Prop := i.wf = true ∧ mbzField (encode i) = 0 ∧ decodeOp (opField (encode i)) = some i

theorem Encoded.nop : Encoded.Statement .nop := by unfold Encoded.Statement; decide
theorem Encoded.qgen : Encoded.Statement .qgen := by unfold Encoded.Statement; decide
theorem Encoded.quant : Encoded.Statement .quant := by unfold Encoded.Statement; decide
theorem Encoded.dequant : Encoded.Statement .dequant := by unfold Encoded.Statement; decide
theorem Encoded.txFwd : Encoded.Statement .txFwd := by unfold Encoded.Statement; decide
theorem Encoded.txInv : Encoded.Statement .txInv := by unfold Encoded.Statement; decide
theorem Encoded.zzFlat : Encoded.Statement .zzFlat := by unfold Encoded.Statement; decide
theorem Encoded.zzUnflat : Encoded.Statement .zzUnflat := by unfold Encoded.Statement; decide
theorem Encoded.rleEnc : Encoded.Statement .rleEnc := by unfold Encoded.Statement; decide
theorem Encoded.rleDec : Encoded.Statement .rleDec := by unfold Encoded.Statement; decide
theorem Encoded.cbClear : Encoded.Statement .cbClear := by unfold Encoded.Statement; decide
theorem Encoded.cbAccum : Encoded.Statement .cbAccum := by unfold Encoded.Statement; decide
theorem Encoded.cbBuild : Encoded.Statement .cbBuild := by unfold Encoded.Statement; decide
theorem Encoded.cbEncode : Encoded.Statement .cbEncode := by unfold Encoded.Statement; decide
theorem Encoded.cbDecode : Encoded.Statement .cbDecode := by unfold Encoded.Statement; decide
theorem Encoded.cbLoad : Encoded.Statement .cbLoad := by unfold Encoded.Statement; decide
theorem Encoded.cbRead : Encoded.Statement .cbRead := by unfold Encoded.Statement; decide
theorem Encoded.padFetch : Encoded.Statement .padFetch := by unfold Encoded.Statement; decide
theorem Encoded.cropStore : Encoded.Statement .cropStore := by unfold Encoded.Statement; decide
theorem Encoded.seqCompress : Encoded.Statement .seqCompress := by unfold Encoded.Statement; decide
theorem Encoded.seqDecompress : Encoded.Statement .seqDecompress := by unfold Encoded.Statement; decide

end Sys2Proof.Laws
end

