-- ==== Sys2Proof/Laws/Quantization.lean ====
section
/-! SUPPORT. The laws of quantization on the zero block, which the all-zero image and its reconstruction rest on. -/

namespace Sys2Proof.Machine

/-- R111: `c = 0` gives 0 for every divisor. -/
theorem quantExact_zero {d : BitVec 16} (h : 1 ≤ d.toNat) : quantExact 0 d = 0 := by
  unfold quantExact floorDiv
  rw [show BitVec.toInt (0 : Word) = 0 from rfl, Int.zero_add]
  exact Int.ediv_eq_zero_of_lt (by positivity) (by omega)

/-- R112: zero stays zero. -/
theorem dequantExact_zero (d : BitVec 16) : dequantExact 0 d = 0 := by
  unfold dequantExact
  rw [show BitVec.toInt (0 : Value) = 0 from rfl, Int.zero_mul, Int.zero_mul]

/-- QUANT of the zero block with a generated matrix: QBUF becomes zero and SAT is as it was. -/
theorem bodyQuant_zero {s : State} (hv : s.status.qv = true) (hm : ∀ n : Fin 64, 1 ≤ s.qmat[n].toNat) (hz : s.cbuf = zeroBlock) :
    bodyQuant s = .ok () { s with qbuf := Vector.replicate 64 0 } := by
  have h0 : ∀ n : Fin 64, quantExact s.cbuf[n] s.qmat[n] = 0 := fun n => by
    rw [hz]; simp only [zeroBlock, Fin.getElem_fin, Vector.getElem_replicate]; exact quantExact_zero (hm n)
  have h1 : (Vector.ofFn fun n : Fin 64 => satPat 16 (quantExact s.cbuf[n] s.qmat[n])) = Vector.replicate 64 0 := by
    refine Vector.ext fun i hi => ?_
    rw [Vector.getElem_ofFn, Vector.getElem_replicate, h0 ⟨i, hi⟩]
    rfl
  have h2 : (anyCell fun n => overflowed 16 (quantExact s.cbuf[n] s.qmat[n])) = false := by
    unfold anyCell
    rw [List.any_eq_false]
    intro n _
    rw [h0 n]; decide
  unfold bodyQuant
  rw [hv, if_neg (by decide), h1, h2, Bool.or_false]

/-- DEQUANT of the zero block: CBUF becomes zero and SAT is as it was. -/
theorem bodyDequant_zero {s : State} (hv : s.status.qv = true) (hz : s.qbuf = Vector.replicate 64 0) :
    bodyDequant s = .ok () { s with cbuf := zeroBlock } := by
  have h0 : ∀ n : Fin 64, dequantExact s.qbuf[n] s.qmat[n] = 0 := fun n => by
    rw [hz]; simp only [Fin.getElem_fin, Vector.getElem_replicate]; exact dequantExact_zero _
  have h1 : (Vector.ofFn fun n : Fin 64 => satPat 32 (dequantExact s.qbuf[n] s.qmat[n])) = zeroBlock := by
    refine Vector.ext fun i hi => ?_
    rw [Vector.getElem_ofFn, h0 ⟨i, hi⟩, zeroBlock, Vector.getElem_replicate]
    rfl
  have h2 : (anyCell fun n => overflowed 32 (dequantExact s.qbuf[n] s.qmat[n])) = false := by
    unfold anyCell
    rw [List.any_eq_false]
    intro n _
    rw [h0 n]; decide
  unfold bodyDequant
  rw [hv, if_neg (by decide), h1, h2, Bool.or_false]

end Sys2Proof.Machine
end

