-- ==== Sys2Proof/Tests/Slice0.lean ====
section
/-! SUPPORT. Tests of the model, with expected results from spec 95_test_vectors.md or the rules' own examples, and a witness
for the hypotheses of every statement that has some. -/

namespace Sys2Proof.Tests

open Sys2Proof Sys2Proof.Machine

/-- The state a command leaves, if it leaves one. -/
def after (i : Instr) (s : State) : Option State :=
  match exec i s with
  | .next t => some t
  | .fault _ | .refused _ => none

/-- The state an event of the host leaves, if it leaves one. -/
def afterOp (op : HostOp) (s : State) : Option State :=
  match hostOp op s with
  | .next t => some t
  | .fault _ | .refused _ => none

/-- A block whose first elements are given and whose others are 0. -/
def blockOf {w : Nat} (xs : List (BitVec w)) : Block w := fromList xs

/-- A command word has been received. -/
def running (w : Word) : State := State.reset.issue w

/-- A generated matrix, all entries 16 (as TEST_BASE_16 at quality 50). -/
def withMatrix (s : State) : State := { s with qmat := Vector.replicate 64 16, status := { s.status with qv := true } }

/-- The codebook {0: "0", 5: "1"} with weights 3 and 2 (R154's example). -/
def twoEntries : List Entry :=
  [{ value := 0, weight := 3, code := some { len := 1, bits := 0 } }, { value := 5, weight := 2, code := some { len := 1, bits := 1 } }]

/-- PBUF as in R140's example: value 5 run 2, value 0 run 62 EOB. -/
def withPairs (ws : List Word) (s : State) : State := { s with pbuf := blockOf ws, pcount := BitVec.ofNat 7 ws.length }

/-- Registers of an image: quality, width, height, image at 0x1000, stream at 0x2000. -/
def image (q w h : Nat) (s : State) : State :=
  { s with regs := { s.regs with
      quality := BitVec.ofNat 8 q, width := BitVec.ofNat 16 w, height := BitVec.ofNat 16 h
      imgBase := 0x1000, strmBase := 0x800 } }

/-! ### Decoding, words written out from R90 and R93 -/

theorem test_decode_quantization : decode 0b00000000000000000000000000000001 = .ok .qgen ∧
    decode 0b00000000000000000000000000000010 = .ok .quant ∧ decode 0b00000000000000000000000000000011 = .ok .dequant := by decide
theorem test_decode_transform : decode 0b00000000000000000000000000000100 = .ok .txFwd ∧
    decode 0b00000000000000000000000000000101 = .ok .txInv := by decide
theorem test_decode_zigzag : decode 0b00000000000000000000000000000110 = .ok .zzFlat ∧
    decode 0b00000000000000000000000000000111 = .ok .zzUnflat := by decide
theorem test_decode_rle : decode 0b00000000000000000000000000001000 = .ok .rleEnc ∧
    decode 0b00000000000000000000000000001001 = .ok .rleDec := by decide
theorem test_decode_codebook : decode 0b00000000000000000000000000010000 = .ok .cbClear ∧
    decode 0b00000000000000000000000000010001 = .ok .cbAccum ∧ decode 0b00000000000000000000000000010010 = .ok .cbBuild ∧
    decode 0b00000000000000000000000000010011 = .ok .cbEncode ∧ decode 0b00000000000000000000000000010100 = .ok .cbDecode ∧
    decode 0b00000000000000000000000000010101 = .ok .cbLoad ∧ decode 0b00000000000000000000000000010110 = .ok .cbRead := by decide
theorem test_decode_geometry : decode 0b00000000000000000000000000011000 = .ok .padFetch ∧
    decode 0b00000000000000000000000000011001 = .ok .cropStore := by decide
theorem test_decode_sequencer : decode 0b00000000000000000000000000000000 = .ok .nop ∧
    decode 0b00000000000000000000000000100000 = .ok .seqCompress ∧
    decode 0b00000000000000000000000000100001 = .ok .seqDecompress := by decide
/-- V-EN-3 to V-EN-8. -/
theorem test_decode_illegal : decode 0x0000000A = .error .opNotListed ∧ decode 0x00000017 = .error .opNotListed ∧
    decode 0x00000022 = .error .opNotListed ∧ decode 0x000000FF = .error .opNotListed ∧ decode 0x00000101 = .error .mbzNotZero ∧
    decode 0x80000000 = .error .mbzNotZero := by decide
theorem test_decode_table_word : decodeTableWord 32 0x20 = some .seqCompress ∧ decodeTableWord 32 0x1F = none := by decide
/-- V-EN-7: ILLEGAL_COMMAND with the word. -/
theorem test_illegal_raises : (match step (running 0x101) with | .next t => (statusWord t, t.status.errCode, t.status.errInfo) | _ => (0, 0, 0)) =
    (6, 6, 0x101) := by decide

/-! ### Well-formedness: ill-formed terms that the checks refuse -/

theorem smoke_code_length_zero : Code.legal { len := 0, bits := 0 } = false := by decide
theorem smoke_code_length_high : Code.legal { len := 17, bits := 0 } = false := by decide
theorem smoke_code_bits_high : Code.legal { len := 2, bits := 4 } = false := by decide
theorem smoke_code_legal : Code.legal { len := 16, bits := 0xFFFF } = true := by decide
theorem smoke_offset_misaligned : alignedOffset 0x102 = false := by decide
theorem smoke_strobe_partial : fullStrobe 0b0111 = false := by decide
/-- A command has no operand, so no term of Instr is ill formed (R92). -/
theorem smoke_instr_wf : Instr.wf .seqDecompress = true := by decide

/-! ### Pair words, codes, the zig-zag table -/

/-- V-PW-1 to V-PW-5. -/
theorem test_pair_words_value : [pairWord false 2 0 5, pairWord true 62 0 0, pairWord true 64 0 0, pairWord true 64 0 0xFFFF,
    pairWord false 1 0 0x8000] = [0x00400005, 0x87C00000, 0x88000000, 0x8800FFFF, 0x00208000] := by decide
/-- V-PW-6 to V-PW-9. -/
theorem test_pair_words_code : [pairWord true 64 1 0, pairWord false 3 3 5, pairWord false 1 4 2, pairWord true 1 16 0xFFFF] =
    [0x88010000, 0x00630005, 0x00240002, 0x8030FFFF] := by decide
/-- R95's examples. -/
theorem test_rank_codes : [0, 1, 2, 5, 65535].map rankCode = [⟨1, 0⟩, ⟨1, 1⟩, ⟨2, 2⟩, ⟨3, 5⟩, ⟨16, 0xFFFF⟩] := by decide
theorem test_code_text : codeText ⟨2, 1⟩ = [false, true] ∧ textCode [true, false, true] = some ⟨3, 5⟩ := by decide

/-- The scan by anti-diagonals, from the words of R130. -/
def diagonalScan : List Nat :=
  (List.range 15).flatMap fun d =>
    let cells := (List.range 8).filter fun r => decide (r ≤ d) && decide (d - r < 8)
    (if d % 2 = 0 then cells else cells.reverse).map fun r => 8 * r + (d - r)

theorem test_zz_is_diagonal_scan : zzTable.toList.map Fin.val = diagonalScan := by decide
theorem test_zz_inverse : ∀ n : Fin 64, zz (zzInv n) = n ∧ zzInv (zz n) = n := by decide

/-! ### Quantization -/

/-- R110's example and corners. -/
theorem test_qgen_entries : [qgenEntry 16 10, qgenEntry 16 50, qgenEntry 16 90, qgenEntry 255 1, qgenEntry 7 100] =
    [80, 16, 3, 12750, 1] := by decide
/-- R110: quality 101 is rejected with the quality. -/
theorem test_qgen_invalid : (after .qgen (image 101 8 8 (running 1))).map (fun t => (t.status.errCode, t.status.errInfo, t.status.qv)) =
    some (1, 101, false) := by decide
/-- R111's halves, example and saturation. -/
theorem test_quant_rounding : [quantExact 640 1, quantExact (-640) 1, quantExact (-641) 1, quantExact 25600 16, quantExact 0 12750] =
    [3, -2, -3, 6, 0] ∧ satPat 16 (quantExact 0x7FFFFFFF 1) = 32767 ∧ overflowed 16 (quantExact 0x7FFFFFFF 1) = true := by decide
theorem test_quant : (after .quant (withMatrix { running 2 with cbuf := blockOf [25600, BitVec.ofInt 32 (-6144)] })).map
    (fun t => (t.qbuf[0], t.qbuf[1], t.qbuf[2], statusWord t)) = some (6, 0xFFFF, 0, 0x22) := by decide
/-- R112's example and its saturating corner. -/
theorem test_dequant_exact : satPat 32 (dequantExact (BitVec.ofInt 16 (-3)) 80) = 0xFFFF1000 ∧
    satPat 32 (dequantExact 32767 12750) = 0x7FFFFFFF := by decide
theorem test_dequant_needs_matrix : (after .dequant (running 3)).map (fun t => (statusWord t, t.status.errCode)) = some (6, 11) := by decide

/-! ### Transform and zig-zag -/

/-- R123's example: CBUF all zero stays all zero. -/
theorem test_tx_fwd_zero : (after .txFwd (running 4)).map (fun t => (t.cbuf == zeroBlock, t.busLog.length)) = some (true, 1) := by decide
theorem test_tx_inv_zero : (after .txInv (running 5)).map (fun t => (t.cbuf == zeroBlock, t.busLog.length)) = some (true, 1) := by decide
/-- R132's example. -/
theorem test_zz_flat : (after .zzFlat { running 6 with qbuf := Vector.ofFn fun n => BitVec.ofNat 16 n.val }).map
    (fun t => (t.zbuf.toList.take 10).map BitVec.toNat) = some [0, 8, 1, 2, 9, 16, 24, 17, 10, 3] := by decide
/-- R133's example. -/
theorem test_zz_unflat : (after .zzUnflat { running 7 with zbuf := Vector.ofFn fun n => BitVec.ofNat 16 n.val }).map
    (fun t => (t.qbuf[1].toNat, t.qbuf[8].toNat, t.qbuf[7].toNat)) = some (2, 1, 35) := by decide

/-! ### Run-length codec -/

/-- R140's example. -/
theorem test_rle_enc : (after .rleEnc { running 8 with zbuf := blockOf [5, 5] }).map (fun t => (t.pcount, t.pbuf[0], t.pbuf[1])) =
    some (2, 0x00400005, 0x87C00000) := by decide
/-- R140: a constant sequence is one pair; elements past it keep their contents. -/
theorem test_rle_enc_constant : (after .rleEnc { running 8 with pbuf := blockOf [1, 7] }).map (fun t => (t.pcount, t.pbuf[0], t.pbuf[1])) =
    some (1, 0x88000000, 7) := by decide
/-- R141's example. -/
theorem test_rle_dec : (after .rleDec (withPairs [0x00400005, 0x87C00000] (running 9))).map
    (fun t => (t.zbuf[0], t.zbuf[1], t.zbuf[2], t.zbuf[63])) = some (5, 5, 0, 0) := by decide
/-- R141: PCOUNT = 0 is CORRUPT_RUN_SUM with ERRINFO = 0; a code-form word comes before its run sum. -/
theorem test_rle_dec_errors : (after .rleDec (running 9)).map (fun t => (t.status.errCode, t.status.errInfo)) = some (3, 0) ∧
    (after .rleDec (withPairs [0x00400005, 0x00010000] (running 9))).map (fun t => (t.status.errCode, t.status.errInfo)) = some (10, 1) := by decide

/-! ### Codebook -/

theorem test_cb_clear : (after .cbClear { running 0x10 with cb := twoEntries }).map (fun t => regRead .cbCount t) = some 0 := by decide
/-- R152's example. -/
theorem test_cb_accum : (after .cbAccum (withPairs [0x00400005, 0x87C00000] (running 0x11))).map (fun t => t.cb) =
    some [{ value := 5, weight := 1, code := none }, { value := 0, weight := 1, code := none }] := by decide
/-- R7: a build of capacity 2, its codebook full (V-CB-18), with a pair of a third value. -/
def smallBuild (w : Word) : State := { withPairs [0x88000009] (running w) with cb := twoEntries, cbDepthLessOne := 1 }
/-- V-CB-18: CODEBOOK_FULL with the value that does not fit. -/
theorem test_cb_accum_full : (after .cbAccum (smallBuild 0x11)).map (fun t => (t.status.errCode, t.status.errInfo, t.cb == twoEntries)) =
    some (9, 9, true) := by decide
/-- R152: of three new values in a build of capacity 2 the third is the first that does not fit. -/
theorem test_cb_accum_full_first : (after .cbAccum { withPairs [0x00200001, 0x00200002, 0x00200003] (running 0x11) with cbDepthLessOne := 1 }).map
    (fun t => (t.status.errCode, t.status.errInfo, t.cb.length)) = some (9, 3, 0) := by decide
/-- R156 on a full codebook. -/
theorem test_cb_load_full : (after .cbLoad { smallBuild 0x15 with regs := { Regs.reset with cbValue := 9, cbCode := ⟨4, 2⟩ } }).map
    (fun t => (t.status.errCode, t.status.errInfo)) = some (9, 9) := by decide
/-- R7: the reference build. -/
theorem test_reset_depth : State.reset.cbDepth = 65536 := rfl
/-- R153's examples. -/
theorem test_cb_build : (after .cbBuild { running 0x12 with
      cb := [{ value := 5, weight := 2, code := none }, { value := 0, weight := 3, code := none }, { value := 0xFFFE, weight := 1, code := none }] }).map
    (fun t => t.cb) = some (twoEntries ++ [{ value := 0xFFFE, weight := 1, code := some ⟨2, 2⟩ }]) := by decide
theorem test_cb_build_ties : (buildCodebook [{ value := 7, weight := 1, code := none }, { value := 0xFFFF, weight := 1, code := none }]).map
    (fun e => (e.value, e.code)) = [(0xFFFF, some ⟨1, 0⟩), (7, some ⟨1, 1⟩)] := by decide
/-- R154's example. -/
theorem test_cb_encode : (after .cbEncode { withPairs [0x00400005, 0x87C00000] (running 0x13) with cb := twoEntries }).map
    (fun t => (t.pbuf[0], t.pbuf[1])) = some (0x00410001, 0x87C10000) := by decide
/-- R155's examples. -/
theorem test_cb_decode : (after .cbDecode { withPairs [0x00410001, 0x87C10000] (running 0x14) with cb := twoEntries }).map
    (fun t => (t.pbuf[0], t.pbuf[1])) = some (0x00400005, 0x87C00000) := by decide
theorem test_cb_decode_unknown : (after .cbDecode { withPairs [0x00420001] (running 0x14) with cb := twoEntries }).map
    (fun t => (t.status.errCode, t.status.errInfo)) = some (4, 0) := by decide
/-- R156's example: the code "1" twice. -/
theorem test_cb_load_duplicate : (after .cbLoad { running 0x15 with
      cb := twoEntries, regs := { Regs.reset with cbValue := 9, cbCode := ⟨1, 1⟩ } }).map
    (fun t => (t.status.errCode, t.status.errInfo, t.cb == twoEntries)) = some (5, 2, true) := by decide
theorem test_cb_load : (after .cbLoad { running 0x15 with regs := { Regs.reset with cbValue := 9, cbCode := ⟨4, 2⟩ } }).map (fun t => t.cb) =
    some [{ value := 9, weight := 0, code := some ⟨4, 2⟩ }] := by decide
/-- R157's example. -/
theorem test_cb_read : (after .cbRead { running 0x16 with cb := twoEntries, regs := { Regs.reset with cbIndex := 1 } }).map
    (fun t => (regRead .cbValue t, regRead .cbCode t, regRead .cbWeight t)) = some (5, 0x00010001, 2) := by decide

/-! ### Padding and cropping -/

/-- Bytes 10, 20, 30 / 40, 50, 60 at 0x1000 (R173's example). -/
def smallImage : State := { image 50 3 2 (running 0x18) with
  mem := [(0x1000, 10), (0x1001, 20), (0x1002, 30), (0x1003, 40), (0x1004, 50), (0x1005, 60)] }

theorem test_pad_fetch : (after .padFetch smallImage).map
    (fun t => (t.cbuf[0].toNat, t.cbuf[2].toNat, t.cbuf[3].toNat, t.cbuf[8].toNat, t.cbuf[10].toNat, t.cbuf[63].toNat)) =
    some (2560, 7680, 0, 10240, 15360, 0) := by decide +kernel
theorem test_pad_fetch_reads : (after .padFetch smallImage).map (fun t => t.busLog.reverse) =
    some [.read8 0x1000, .read8 0x1001, .read8 0x1002, .read8 0x1003, .read8 0x1004, .read8 0x1005] := by decide
/-- R174's corner cases. -/
theorem test_pixel : [pixel 32640, pixel (BitVec.ofInt 32 (-300)), pixel 70000, pixel (BitVec.ofInt 32 (-128))] = [128, 0, 255, 0] := by decide
/-- R174's example. -/
theorem test_crop_store : (after .cropStore { image 50 1 1 (running 0x19) with cbuf := blockOf [25728] }).map (fun t => (t.mem, t.busLog)) =
    some ([(0x1000, 101)], [.write8 0x1000 101]) := by decide
/-- V-L1-5: the geometry of a 10 by 10 image. -/
theorem test_geometry : (regRead .width8 (image 50 10 10 State.reset), regRead .blkCols (image 50 10 10 State.reset),
    regRead .blkCount (image 50 10 10 State.reset)) = (16, 2, 4) := by decide

/-! ### Host port, reset, sequences -/

/-- R181's example: STATUS = 6, then NOP leaves 2. -/
theorem test_nop : (after .nop ({ State.reset with status := { Status.reset with done := true, err := true, errCode := 3 } }.issue 0)).map
    (fun t => (statusWord t, t.status.errCode)) = some (2, 0) := by decide
/-- R50: a buffer write while BUSY is dropped and sets OVF. -/
theorem test_busy_write_dropped : (afterOp (.write 0x100 0xF 9) (running 0)).map (fun t => (t.cbuf[0], statusWord t)) = some (0, 0x11) := by decide
/-- R26: SRST leaves IRQ_EN 0. -/
theorem test_soft_reset : (afterOp (.write 0x004 0xF 3) (image 50 8 8 (running 0x20))).map
    (fun t => (ctrlWord t.regs, statusWord t, t.regs.width)) = some (0, 0, 0) := by decide
/-- R38: 65 is not stored, 64 is. -/
theorem test_pcount_write : (regWrite .pcount 65 State.reset).pcount = 0 ∧ (regWrite .pcount 64 State.reset).pcount = 64 := by decide
/-- V-SQ: STRM_LEN = 0 is CORRUPT_BLOCK_COUNT with ERRINFO = 0. -/
theorem test_seq_decompress_empty : (after .seqDecompress (image 50 8 8 (running 0x21))).map (fun t => (t.status.errCode, t.status.errInfo, t.status.qv)) =
    some (2, 0, true) := by decide
/-- R202: the quality before the size. -/
theorem test_seq_compress_quality : (after .seqCompress (image 0 0 0 (running 0x20))).map (fun t => (t.status.errCode, t.status.errInfo)) =
    some (1, 0) := by decide
/-- R71: little-endian. -/
theorem test_little_endian : memSet32 [] 0x2000 0x87C10000 = [(0x2002, 0xC1), (0x2003, 0x87)] ∧
    memGet32 [(0x2002, 0xC1), (0x2003, 0x87)] 0x2000 = 0x87C10000 := by decide
/-- R103: RUN is a write of the command word to 0x014 and a wait. -/
theorem test_script_run : expandStmt (.run .quant) =
    [{ gap := some 0, op := .write 0x014 0xF 2 }, { gap := none, op := .read 0x008 }] := by decide

/-- R98 and log 26: an artifact whose size or quality no register holds is rejected; R35: the stream's word address. -/
theorem test_artifact_holdable : ([(8, 50), (65535, 255), (65536, 50), (65544, 50), (8, 256), (8, 300)].map fun p : Nat × Nat =>
    Artifact.holdable 65536 { width := p.1, height := 1, width8 := (p.1 + 7) / 8 * 8, height8 := 8, quality := p.2, codebook := [], encoded := [] }) =
    [true, true, false, false, false, false] := by decide
theorem test_artifact_base : (loadScript 65536 { width := 1, height := 1, width8 := 8, height8 := 8, quality := 50, codebook := [], encoded := [] }
    0x1000 0x800).map (fun p => p.take 2) = some [.wr .imgBase 0x1000, .wr .strmBase 0x2000] := by decide

/-! ### Witnesses: states and operands that meet the hypotheses of the statements -/

/-- A property of every element of a list, checked element by element. -/
theorem forall_mem_of_all {α : Type} {p : α → Prop} [DecidablePred p] {l : List α} (h : (l.all fun x => decide (p x)) = true) :
    ∀ x ∈ l, p x := fun x hx => of_decide_eq_true (List.all_eq_true.1 h x hx)

/-- A running command, and a machine whose reset input is asserted. -/
def busyState : State := running 0x04
def inReset : State := { State.reset with rst := true }
/-- A 1 by 1 image at quality 50, a stream of one word in code form, and the codebook that decodes it. -/
def onePixel : State := { image 50 1 1 (running 0x21) with
  cb := [{ value := 0, weight := 0, code := some ⟨1, 0⟩ }]
  mem := [(0x1000, 0xAA), (0x2002, 0x01), (0x2003, 0x88)]
  regs := { (image 50 1 1 State.reset).regs with strmLen := 1, strmCap := 64 } }

theorem witness_TableWordsDecode : Instr.wf .cropStore = true := by decide
theorem witness_DecodedWordIsEncoding : decode 0x12 = .ok .cbBuild := by decide
theorem witness_IllegalWordRaises : ∀ w : Word, (running w).rst = false ∧ (running w).seq.cmd = some w ∧
    hostDueNow (running w) = false := fun _ => ⟨rfl, rfl, rfl⟩
theorem witness_IllegalWordRaises_words : ∀ w ∈ ([0x0A, 0x0F, 0x17, 0x1A, 0x1F, 0x22, 0xFF, 0x100, 0xFFFFFFFF] : List Word),
    (w.toNat / 256 ≠ 0 ∨ (0x0A ≤ w.toNat ∧ w.toNat ≤ 0x0F) ∨ w.toNat = 0x17 ∨ (0x1A ≤ w.toNat ∧ w.toNat ≤ 0x1F) ∨
      0x22 ≤ w.toNat) := by simp
theorem witness_StepRunsDecodedCommand : busyState.rst = false ∧ busyState.seq.cmd = some 0x04 ∧ hostDueNow busyState = false ∧
    decode 0x04 = .ok .txFwd := by decide
theorem witness_IdleStepServesHost_empty : State.reset.seq.cmd = none ∧ State.reset.hostIn = [] := by decide
theorem witness_IdleStepServesHost_write : ∃ s : State, s.rst = false ∧ s.seq.cmd = none ∧
    s.hostIn = [{ gap := none, op := .write 0x014 0xF 0x20 }] :=
  ⟨{ State.reset with hostIn := [{ gap := none, op := .write 0x014 0xF 0x20 }] }, rfl, rfl, rfl⟩
theorem test_withFetchWord_runs : step (State.reset.withFetchWord 32 0x10) = exec .cbClear (State.reset.withFetchWord 32 0x10) := rfl
theorem witness_CommandIssue : State.reset.busy = false ∧ busyState.busy = true := by decide
theorem witness_AccessWhileBusy : busyState.busy = true ∧
    (∀ off ∈ ([0x000, 0x00C, 0x014, 0x050, 0x100, 0xFFC] : List (BitVec 12)), off.toNat % 4 = 0 ∧ off ≠ 0x004 ∧ off ≠ 0x008) ∧
    (∀ off ∈ ([0x00C, 0x014, 0x048, 0x054, 0xFFC] : List (BitVec 12)),
      off.toNat % 4 = 0 ∧ off ∉ ([0x000, 0x004, 0x008, 0x04C, 0x050] : List (BitVec 12))) :=
  ⟨rfl, forall_mem_of_all (by decide), forall_mem_of_all (by decide)⟩
theorem witness_HostAccessForms : (0x001 : BitVec 12).toNat % 4 ≠ 0 ∧ (0xE : BitVec 4) ≠ 0xF ∧ State.reset.busy = false ∧
    (∀ off ∈ ([0x000, 0x068, 0x06C, 0x0FC, 0x500, 0xFFC] : List (BitVec 12)), off.toNat % 4 = 0 ∧
      (off ∈ ([0x000, 0x00C, 0x010, 0x024, 0x028, 0x02C, 0x030, 0x034, 0x04C, 0x050, 0x058, 0x068] : List (BitVec 12)) ∨
        0x06C ≤ off.toNat ∧ off.toNat < 0x100 ∨ 0x500 ≤ off.toNat)) :=
  ⟨by decide, by decide, rfl, forall_mem_of_all (by decide)⟩
theorem witness_RegisterMapAgrees : State.reset.busy = false ∧
    ∀ off ∈ ([0x06C, 0x0FC, 0x800, 0xFFC] : List (BitVec 12)), off.toNat % 4 = 0 ∧
      (0x06C ≤ off.toNat ∧ off.toNat < 0x100 ∨ 0x800 ≤ off.toNat) := ⟨rfl, forall_mem_of_all (by decide)⟩
theorem witness_RegisterMapAgrees_count : Codebook.wf State.reset.cbDepth State.reset.cb = true := emptyCodebook_wf _
theorem witness_RegisterReadBack : State.reset.busy = false ∧ (0x100 : BitVec 12).toNat % 4 = 0 ∧ (2 : Word).getLsbD 0 = false ∧
    (63 : Fin 64) ≠ 0 := by decide
theorem witness_StatusWriteOneToClear : (6 : Nat) ≤ 6 ∧ (6 : Nat) ≤ 31 := by decide
theorem witness_DerivedGeometry : HostReg.blkCount ∈ ([.width8, .height8, .blkCols, .blkRows, .blkCount] : List HostReg) := by decide
theorem witness_ResetValues : ∃ s t : State, t = s.resetIctc := ⟨busyState, _, rfl⟩
theorem witness_SoftReset : (0x1 : Word).getLsbD 0 = true := by decide
theorem witness_ResetInput : inReset.rst = true ∧ inReset.hostIn = [] ∧ inReset.busy = false ∧ inReset.seq.inflight = none ∧
    step inReset = .next inReset := ⟨rfl, rfl, rfl, rfl, rfl⟩
theorem witness_ResetAbandonsCommand : ∃ s : State, s.rst = false ∧ s.busy = true ∧
    s.hostIn = [{ gap := some 1, op := .write 0x004 0xF 1 }] :=
  ⟨{ busyState with hostIn := [{ gap := some 1, op := .write 0x004 0xF 1 }] }, rfl, rfl, rfl⟩
/-- A reset lands while the third write of CROP_STORE is outstanding. -/
theorem witness_ResetAbandonsCommand_any : ∃ s : State, s.rst = false ∧ HostOp.assertReset.abandons = true ∧
    s.hostIn = [{ gap := some (2 + 1), op := .assertReset }] ∧ ∃ (u : State) (log : List Request),
      exec .cropStore { s with hostIn := [] } = .next u ∧ u.busLog = log.reverse ++ s.busLog ∧ 2 < log.length :=
  ⟨{ smallImage with hostIn := [{ gap := some 3, op := .assertReset }] }, rfl, rfl, rfl,
    _, (List.range 6).map fun n => .write8 (0x1000 + BitVec.ofNat 32 n) 0, rfl, rfl, by decide⟩
theorem witness_CompletionRaisesInterrupt : busyState.Alone ∧ ∃ t, exec .txFwd busyState = .next t := ⟨rfl, _, rfl⟩
/-- DEQUANT without a matrix, with the interrupt enabled. -/
def failing : State := { running 3 with regs := { Regs.reset with irqEn := true } }
theorem witness_CompletionRaisesInterrupt_error : failing.Alone ∧ failing.regs.irqEn = true ∧
    ∃ t, exec .dequant failing = .next t ∧ t.status.err = true := ⟨rfl, rfl, _, rfl, rfl⟩
/-- V-RG-7: DONE alone cleared, then CLRST; and IRQ_EN cleared. -/
theorem test_irq_after_error : ([(0x008, 0x2), (0x008, 0x1E), (0x004, 0x0)] : List (BitVec 12 × Word)).map (fun p =>
      ((after .dequant failing).bind (afterOp (.write p.1 0xF p.2))).map State.irq) = [some true, some false, some false] := by decide
theorem witness_SingleBlockErrorsWriteNothing : (running 0x16).Alone ∧ isSequence .cbRead = false ∧
    (running 0x16).status.err = false ∧ ∃ t, exec .cbRead (running 0x16) = .next t ∧ t.status.err = true ∧ t.status.errCode ≠ 12 :=
  ⟨rfl, rfl, rfl, _, rfl, rfl, by decide⟩
theorem witness_CommandsKeepConfiguration : (running 0x06).Alone ∧ (∃ t, exec .zzFlat (running 0x06) = .next t) ∧
    Instr.zzFlat ≠ .seqCompress ∧ isSequence .zzFlat = false ∧ Instr.zzFlat ≠ .cbRead ∧
    Instr.zzFlat ∉ ([.qgen, .seqCompress, .seqDecompress] : List Instr) ∧
    Instr.zzFlat ∉ ([.cbClear, .cbAccum, .cbBuild, .cbLoad, .seqCompress] : List Instr) :=
  ⟨rfl, ⟨_, rfl⟩, by decide, rfl, by decide, by decide, by decide⟩
theorem witness_OnlyMemoryCommandsReachMemory : smallImage.Alone ∧ reachesMemory .txFwd = false ∧
    (∃ t, exec .txFwd smallImage = .next t) ∧ ∃ t, exec .padFetch smallImage = .next t := ⟨rfl, rfl, ⟨_, rfl⟩, _, rfl⟩
theorem witness_StickyFlags : (withMatrix (running 0x06)).Alone ∧ (withMatrix (running 0x06)).status.qv = true ∧
    (∃ t, exec .zzFlat (withMatrix (running 0x06)) = .next t) ∧
    Instr.zzFlat ∉ ([.quant, .dequant, .seqCompress, .seqDecompress] : List Instr) := ⟨rfl, rfl, ⟨_, rfl⟩, by decide⟩
theorem witness_StickyFlags_sat : ∃ s t : State, s.Alone ∧ s.status.sat = true ∧ exec .nop s = .next t :=
  ⟨{ State.reset with status := { Status.reset with sat := true } }, _, rfl, rfl, rfl⟩
theorem busyState_inv : busyState.Inv where
  mem := rfl
  pcount := by decide
  codebook := emptyCodebook_wf _
  matrix := fun h => nomatch h
  hidden := rfl
  reset := fun h => nomatch h
  aligned := rfl
theorem witness_StepKeepsInvariant : ∃ s t : State, s.Inv ∧ step s = .next t := ⟨busyState, _, busyState_inv, rfl⟩
theorem witness_QgenMatrix : ∀ q ∈ [1, 49, 50, 100], 1 ≤ (image q 8 8 State.reset).regs.quality.toNat ∧
    (image q 8 8 State.reset).regs.quality.toNat ≤ 100 := forall_mem_of_all (by decide)
theorem witness_QgenMatrix_illegal : (image 0 8 8 State.reset).regs.quality.toNat < 1 ∧
    100 < (image 101 8 8 State.reset).regs.quality.toNat := by decide
theorem witness_MatrixEntryOrder : (1 : Nat) ≤ 255 ∧ (255 : Nat) ≤ 255 ∧ (1 : Nat) ≤ 1 ∧ (1 : Nat) ≤ 100 ∧ (100 : Nat) ≤ 100 := by decide
theorem witness_QuantRounds : (withMatrix (running 2)).status.qv = true ∧ (∀ n : Fin 64, 1 ≤ (withMatrix (running 2)).qmat[n].toNat) ∧
    (running 2).status.qv = false := by decide
theorem witness_DequantScales : (withMatrix (running 3)).status.qv = true ∧ (running 3).status.qv = false := by decide
theorem witness_TransformInPlace : (running 4).Alone ∧ (running 5).Alone := by decide
theorem witness_ZigzagTableOrder : (0 : Fin 64) < 63 := by decide
theorem witness_ZigzagRoundTrip : (∃ t u, exec .zzFlat (running 6) = .next t ∧ exec .zzUnflat (t.issue 7) = .next u) ∧
    ∃ t u, exec .zzUnflat (running 7) = .next t ∧ exec .zzFlat (t.issue 6) = .next u := ⟨⟨_, _, rfl, rfl⟩, _, _, rfl, rfl⟩
/-- A code-form word fails; so does a run of 0; so does a run that passes 64. -/
theorem witness_RleDecodeResult_fails : ∀ ws ∈ ([[0x00210001], [0x00000005], [0x00200001, 0x08000000]] : List (List Word)),
    ∃ i < ws.length, (lenField (ws.getD i 0) ≠ 0 ∨ (runField (ws.getD i 0)).toNat = 0 ∨
      64 < ((ws.take i).map fun w => (runField w).toNat).sum + (runField (ws.getD i 0)).toNat) ∧
      validPairs (withPairs ws (running 9)) = ws := by
  intro ws h
  simp only [List.mem_cons, List.not_mem_nil, or_false] at h
  rcases h with rfl | rfl | rfl
  · exact ⟨0, by decide⟩
  · exact ⟨0, by decide⟩
  · exact ⟨1, by decide⟩
/-- Totals below 64 (also of no pair) and of 64, with no failing pair. -/
theorem witness_RleDecodeResult_passes : ∀ ws ∈ ([[], [0x00400005], [0x00400005, 0x87C00000]] : List (List Word)),
    (∀ i < ws.length, ¬ (lenField (ws.getD i 0) ≠ 0 ∨ (runField (ws.getD i 0)).toNat = 0 ∨
      64 < ((ws.take i).map fun w => (runField w).toNat).sum + (runField (ws.getD i 0)).toNat)) ∧
      ((ws.map fun w => (runField w).toNat).sum < 64 ∨ (ws.map fun w => (runField w).toNat).sum = 64) := by decide
theorem witness_RleRoundTrip : ∃ t, exec .rleEnc (running 8) = .next t := ⟨_, rfl⟩
theorem witness_RankCodes : (0 : Nat) < 65536 ∧ (65535 : Nat) < 65536 ∧ (1 : Nat) ≤ 16 := by decide
theorem witness_CodeTextBijection : Code.legal ⟨1, 0⟩ = true ∧ Code.legal ⟨16, 0xFFFF⟩ = true ∧ 1 ≤ [true].length ∧
    (List.replicate 16 true).length ≤ 16 := by decide
theorem witness_CbAccumResult_form : 0 < (validPairs (withPairs [0x00210001] (running 0x11))).length ∧
    lenField ((validPairs (withPairs [0x00210001] (running 0x11))).getD 0 0) ≠ 0 := by decide
theorem witness_CbAccumResult : Codebook.wf 65536 (withPairs [0x00400005, 0x87C00000] (running 0x11)).cb = true ∧
    (withPairs [0x00400005, 0x87C00000] (running 0x11)).cbDepth = 65536 ∧
    (∀ w ∈ validPairs (withPairs [0x00400005, 0x87C00000] (running 0x11)), lenField w = 0) ∧
    0 + ([5, 0] : List Value).eraseDups.length ≤ 65536 :=
  ⟨rfl, rfl, forall_mem_of_all (by decide), by decide⟩
theorem witness_CbAccumResult_full : (∀ w ∈ validPairs (smallBuild 0x11), lenField w = 0) ∧ (smallBuild 0x11).cbDepth <
    (smallBuild 0x11).cb.length + (((validPairs (smallBuild 0x11)).map symField).filter fun v =>
      (lookupValue (smallBuild 0x11).cb v).isNone).eraseDups.length := ⟨forall_mem_of_all (by decide), by decide⟩
theorem witness_CbEncodeResult_fails : ∀ w ∈ ([0x00210001, 0x00200007] : List Word),
    validPairs (withPairs [w] (running 0x13)) = [w] ∧ (lenField w ≠ 0 ∨ codeOf twoEntries (symField w) = none) := forall_mem_of_all (by decide)
theorem witness_CbEncodeResult : ∀ w ∈ validPairs (withPairs [0x00400005, 0x87C00000] (running 0x13)),
    ¬ (lenField w ≠ 0 ∨ codeOf twoEntries (symField w) = none) := forall_mem_of_all (by decide)
theorem witness_CbDecodeResult_fails : ∀ w ∈ ([0x00200001, 0x00220001, 0x00310001] : List Word),
    validPairs (withPairs [w] (running 0x14)) = [w] ∧
    (lenField w = 0 ∨ lookupCode twoEntries { len := lenField w, bits := symField w } = none) := forall_mem_of_all (by decide)
theorem witness_CbDecodeResult : ∀ w ∈ validPairs (withPairs [0x00410001, 0x87C10000] (running 0x14)),
    ¬ (lenField w = 0 ∨ lookupCode twoEntries { len := lenField w, bits := symField w } = none) := forall_mem_of_all (by decide)
theorem witness_CodebookRoundTrip : ∃ s t : State, Codebook.wf s.cbDepth s.cb = true ∧
    (∀ p ∈ validPairs s, lenField p = 0 ∧ (codeOf s.cb (symField p)).isSome = true) ∧ exec .cbEncode s = .next t :=
  ⟨{ withPairs [0x00400005, 0x87C00000] (running 0x13) with cb := twoEntries }, _, (by decide : Codebook.wf 65536 twoEntries = true), forall_mem_of_all (by decide), rfl⟩
/-- The illegal codes of CB_LOAD, and both kinds of duplicate. -/
theorem witness_CbLoadResult_rejects : (∀ c ∈ ([⟨0, 0⟩, ⟨17, 0⟩, ⟨2, 4⟩] : List Code),
      c.len.toNat = 0 ∨ 16 < c.len.toNat ∨ 2 ^ c.len.toNat ≤ c.bits.toNat) ∧
    (∃ e ∈ twoEntries, e.value = 5) ∧ ∃ e ∈ twoEntries, e.code = some ⟨1, 1⟩ := by decide
theorem witness_CbLoadResult_full : (smallBuild 0x15).cb.length = (smallBuild 0x15).cbDepth ∧
    ¬ ((∃ e ∈ (smallBuild 0x15).cb, e.value = 9) ∨ ∃ e ∈ (smallBuild 0x15).cb, e.code = some ⟨4, 2⟩) := by decide
theorem witness_CbLoadResult : ¬ ((4 : BitVec 5).toNat = 0 ∨ 16 < (4 : BitVec 5).toNat ∨ 2 ^ (4 : BitVec 5).toNat ≤ (2 : BitVec 16).toNat) ∧
    ¬ ((∃ e ∈ twoEntries, e.value = 9) ∨ ∃ e ∈ twoEntries, e.code = some ⟨4, 2⟩) ∧ twoEntries.length ≠ State.reset.cbDepth := by decide
theorem witness_CbReadResult : twoEntries[1]? = some { value := 5, weight := 2, code := some ⟨1, 1⟩ } ∧
    State.reset.cb.length ≤ State.reset.regs.cbIndex.toNat := by decide
theorem witness_GeometryErrors : (image 50 0 8 State.reset).regs.width = 0 ∧ (image 50 8 0 State.reset).regs.height = 0 ∧
    (image 50 8 8 State.reset).regs.width ≠ 0 ∧ (image 50 8 8 State.reset).regs.height ≠ 0 ∧
    blkCols { (image 50 8 8 State.reset).regs with blkCol := 1 } ≤ 1 ∧ blkRows { (image 50 8 8 State.reset).regs with blkRow := 1 } ≤ 1 := by
  decide
theorem witness_PadFetchResult : smallImage.Undisturbed ∧ smallImage.regs.width ≠ 0 ∧ smallImage.regs.height ≠ 0 ∧
    smallImage.regs.blkCol.toNat < blkCols smallImage.regs ∧ smallImage.regs.blkRow.toNat < blkRows smallImage.regs := by decide
theorem witness_CropStoreResult : smallImage.Undisturbed ∧ Memory.wf smallImage.mem = true ∧ smallImage.regs.width ≠ 0 ∧
    smallImage.regs.height ≠ 0 ∧ smallImage.regs.blkCol.toNat < blkCols smallImage.regs ∧
    smallImage.regs.blkRow.toNat < blkRows smallImage.regs := by decide
/-- The second and the last of the six accesses of the 3 by 2 image. -/
theorem witness_BusErrorAtAnyAccess : ∀ p ∈ ([(0, 0), (1, 1), (5, 10)] : List (Nat × Fin 64)),
    ((List.finRange 64).filter fun n : Fin 64 =>
      decide (8 * smallImage.regs.blkRow.toNat + n.val / 8 < smallImage.regs.height.toNat) &&
        decide (8 * smallImage.regs.blkCol.toNat + n.val % 8 < smallImage.regs.width.toNat))[p.1]? = some p.2 ∧
    State.Alone { smallImage with memResp := List.replicate p.1 .ordinary ++ [.error true] } := by decide
theorem witness_SequenceRegisterChecks : (image 0 8 8 State.reset).regs.quality.toNat < 1 ∧
    100 < (image 101 8 8 State.reset).regs.quality.toNat ∧ (1 ≤ (image 50 0 8 State.reset).regs.quality.toNat ∧
      (image 50 0 8 State.reset).regs.quality.toNat ≤ 100 ∧ (image 50 0 8 State.reset).regs.width = 0) := by decide
/-- The stream placed over the image, a store into the image of a running command, the reset input asserted. -/
theorem witness_NamedStops : overlaps (imageRegion { (image 50 8 8 State.reset).regs with strmBase := 0x400, strmCap := 1 })
      (streamRegionCap { (image 50 8 8 State.reset).regs with strmBase := 0x400, strmCap := 1 }) = true ∧
    overlaps (imageRegion { (image 50 8 8 State.reset).regs with strmBase := 0x40F, strmLen := 1 })
      (streamRegionLen { (image 50 8 8 State.reset).regs with strmBase := 0x40F, strmLen := 1 }) = true ∧
    (∀ w ∈ ([0x18, 0x19, 0x20, 0x21] : List Word), (image 50 8 8 (running w)).seq.cmd = some w) ∧ inRegion (imageRegion (image 50 8 8 (running 0x19)).regs) 0x103F = true ∧
    inReset.rst = true := ⟨by decide, by decide, fun _ _ => rfl, by decide, rfl⟩
/-- The first byte and the last of the stream region of each sequence. -/
theorem witness_NamedStops_stream : ∀ a ∈ ([0x2000, 0x2003] : List Addr),
    inRegion (streamRegionCap onePixel.regs) a = true ∧ inRegion (streamRegionLen onePixel.regs) a = true := forall_mem_of_all (by decide)
theorem witness_CompressFrame : ∃ s t : State, s.Alone ∧ Memory.wf s.mem = true ∧ s.status.err = false ∧
    exec .seqCompress s = .next t ∧ t.status.err = true :=
  ⟨image 0 1 1 (running 0x20), _, by decide, by decide, rfl, rfl, rfl⟩
theorem valueStream_one (s : State) : valueStream s 1 = blockStream s 0 := by simp [valueStream]
/-- STRM_CAP = 0: the first block does not fit. That some image fills a small codebook rests on the transform, which is open. -/
theorem witness_CompressFrame_stops : ∃ s : State, s.Undisturbed ∧ Memory.wf s.mem = true ∧ 1 ≤ s.regs.quality.toNat ∧
    s.regs.quality.toNat ≤ 100 ∧ s.regs.width ≠ 0 ∧ s.regs.height ≠ 0 ∧
    overlaps (imageRegion s.regs) (streamRegionCap s.regs) = false ∧ 0 < blkCount s.regs ∧ blocksFit s 0 ∧ ¬ blocksFit s (0 + 1) := by
  refine ⟨image 50 1 1 (running 0x20), by decide, by decide, by decide, by decide, by decide, by decide, by decide, by decide,
    ⟨Nat.le_refl 0, Nat.zero_le _⟩, fun h => ?_⟩
  have hl : (valueStream (image 50 1 1 (running 0x20)) 1).length ≤ 0 := h.1
  rw [valueStream_one] at hl
  exact absurd (rleWords_pos _) (Nat.not_lt.2 hl)
theorem witness_DecompressFrame : ∃ s t : State, s.Alone ∧ Memory.wf s.mem = true ∧ exec .seqDecompress s = .next t :=
  ⟨image 50 1 1 (running 0x21), _, by decide, by decide, rfl⟩
theorem eraseDups_length_le (n : Nat) : ∀ vs : List Value, vs.length ≤ n → vs.eraseDups.length ≤ n := by
  induction n with
  | zero => intro vs h; rw [List.length_eq_zero_iff.1 (Nat.le_zero.1 h)]; exact Nat.le_refl 0
  | succ n ih =>
    intro vs h
    cases vs with
    | nil => simp
    | cons v vs =>
      rw [List.eraseDups_cons, List.length_cons]
      exact Nat.succ_le_succ (ih _ (Nat.le_trans (List.length_filter_le _ _) (Nat.le_of_succ_le_succ h)))
theorem onePixel_fits : blocksFit onePixel (blkCount onePixel.regs) := by
  have h : (valueStream onePixel 1).length ≤ 64 := by rw [valueStream_one]; exact rleWords_length _
  refine ⟨h, ?_⟩
  show ((valueStream onePixel 1).map symField).eraseDups.length ≤ 65536
  exact Nat.le_trans (eraseDups_length_le 64 _ (by rw [List.length_map]; exact h)) (by decide)
theorem witness_CompressCompletes : onePixel.Undisturbed ∧ Memory.wf onePixel.mem = true ∧
    1 ≤ onePixel.regs.quality.toNat ∧ onePixel.regs.quality.toNat ≤ 100 ∧ onePixel.regs.width ≠ 0 ∧ onePixel.regs.height ≠ 0 ∧
    overlaps (imageRegion onePixel.regs) (streamRegionCap onePixel.regs) = false ∧ blocksFit onePixel (blkCount onePixel.regs) :=
  ⟨by decide, by decide, by decide, by decide, by decide, by decide, by decide, onePixel_fits⟩
theorem onePixel_stream : legalStream onePixel.cb (blkCount onePixel.regs) (strmWords onePixel onePixel.regs.strmLen.toNat) :=
  ⟨[[0x88010000]], by decide, by decide, by decide⟩
theorem witness_DecompressCompletes : onePixel.Undisturbed ∧ Memory.wf onePixel.mem = true ∧
    1 ≤ onePixel.regs.quality.toNat ∧ onePixel.regs.quality.toNat ≤ 100 ∧ onePixel.regs.width ≠ 0 ∧ onePixel.regs.height ≠ 0 ∧
    overlaps (imageRegion onePixel.regs) (streamRegionLen onePixel.regs) = false ∧
    ∃ bs : List (List Word), bs.length = blkCount onePixel.regs ∧ bs.all (legalBlock onePixel.cb) = true ∧
      bs.flatten = strmWords onePixel onePixel.regs.strmLen.toNat :=
  ⟨by decide, by decide, by decide, by decide, by decide, by decide, by decide, onePixel_stream⟩
theorem witness_DecompressAllOrNothing : ∃ s t : State, s.Undisturbed ∧ Memory.wf s.mem = true ∧ s.status.err = false ∧
    exec .seqDecompress s = .next t ∧ t.status.err = true :=
  ⟨image 50 1 1 (running 0x21), _, by decide, by decide, rfl, rfl, rfl⟩
/-- `onePixel` with another stream, of words from 0x2000 on. -/
def withStream (ws : List Word) : State := { onePixel with
  mem := (ws.zipIdx).foldl (fun m p => memSet32 m (0x2000 + BitVec.ofNat 32 (4 * p.2)) p.1) [(0x1000, 0xAA)]
  regs := { onePixel.regs with strmLen := BitVec.ofNat 32 ws.length } }
theorem witness_DecompressAllOrNothing_legal : ∃ t : State, onePixel.status.err = false ∧ exec .seqDecompress (withStream []) = .next t ∧
    Memory.wf (withStream []).mem = true ∧ (withStream []).Undisturbed := ⟨_, rfl, rfl, by decide, by decide⟩
/-- What the clauses on a failing word ask of the stream: whole blocks, the beginning of one, and the rest, here with a block whose
runs are 1 and 63, and one more word than the 63 of a long beginning. -/
theorem witness_DecompressAllOrNothing_fails :
    ∀ q ∈ ([([], [], []), ([], [0x00210000], []), ([], [0x00210000], [0x00200000]), ([], [], [0x00210001]), ([], [0x00210000], [0x00010000]),
      ([], [0x07E10000], [0x00410000]), ([], [0x00210000], [0x87A10000]), ([[0x00210000, 0x87E10000]], [], [0x00210000])] :
        List (List (List Word) × List Word × List Word)),
    let s := withStream (q.1.flatten ++ q.2.1 ++ q.2.2)
    s.Undisturbed ∧ Memory.wf s.mem = true ∧ s.regs.width ≠ 0 ∧ s.regs.height ≠ 0 ∧
    overlaps (imageRegion s.regs) (streamRegionLen s.regs) = false ∧ q.1.all (legalBlock s.cb) = true ∧
    blockPrefix s.cb q.2.1 = true ∧ strmWords s s.regs.strmLen.toNat = q.1.flatten ++ q.2.1 ++ q.2.2 ∧
    (q.1.length < blkCount s.regs ∨ q.1.length = blkCount s.regs) := forall_mem_of_all (by decide)
/-- The failing words themselves, each under its own clause. -/
theorem witness_DecompressAllOrNothing_words : lenField 0x00200000 = 0 ∧
    (lenField 0x00210001 ≠ 0 ∧ lookupCode onePixel.cb { len := lenField 0x00210001, bits := symField 0x00210001 } = none) ∧
    (decodable onePixel.cb 0x00010000 = true ∧ runField 0x00010000 = 0) ∧
    (decodable onePixel.cb 0x00410000 = true ∧ 64 < runSum [0x07E10000] + (runField 0x00410000).toNat) ∧
    (decodable onePixel.cb 0x87A10000 = true ∧ runField 0x87A10000 ≠ 0 ∧ runSum [0x00210000] + (runField 0x87A10000).toNat < 64 ∧
      eobField 0x87A10000 = true) := by decide
/-- One test of each error against R183 and R201: code, ERRINFO, STRM_PTR. -/
theorem test_seq_decompress_errors : ([[0x00210000], [0x00200000], [0x00210001], [0x00210000, 0x00010000], [0x87A10000],
      [0x88010000, 0x88010000]].map fun ws => (after .seqDecompress (withStream ws)).map fun t =>
        (t.status.errCode.toNat, t.status.errInfo.toNat, t.regs.strmPtr.toNat)) =
    [some (2, 1, 1), some (10, 0, 0), some (4, 0, 0), some (3, 1, 1), some (3, 0, 1), some (2, 1, 1)] := by decide
/-- A bus error at the first access of SEQ_DECOMPRESS (a read of the stream) and at the second of PAD_FETCH. -/
theorem witness_BusErrorAtAnyAccess_any : ∀ p ∈ ([(.seqDecompress, { withStream [0x00200000] with memResp := [.error true] }, 0),
      (.padFetch, { smallImage with memResp := [.ordinary, .error false] }, 1)] : List (Instr × State × Nat)),
    reachesMemory p.1 = true ∧ p.2.1.Alone ∧ Memory.wf p.2.1.mem = true ∧
    (∃ landed, p.2.1.memResp = List.replicate p.2.2 .ordinary ++ [.error landed]) ∧
    ∃ (u : State) (log : List Request) (r : Request), exec p.1 { p.2.1 with memResp := [] } = .next u ∧ u.busLog = log.reverse ++ p.2.1.busLog ∧
      (log.filter Request.isMaster)[p.2.2]? = some r := by
  intro p hp
  simp only [List.mem_cons, List.not_mem_nil, or_false] at hp
  rcases hp with rfl | rfl
  · exact ⟨rfl, rfl, rfl, ⟨true, rfl⟩, _, [.read32 0x2000], .read32 0x2000, rfl, rfl, rfl⟩
  · exact ⟨rfl, rfl, by decide, ⟨false, rfl⟩, _, (List.range 6).map fun n => .read8 (0x1000 + BitVec.ofNat 32 n), .read8 0x1001, rfl, rfl, rfl⟩
/-- R183, C3: the progress left when the second stream read fails in phase VALIDATE, and when the first of phase BLOCKS does. -/
theorem test_seq_decompress_bus_progress : ((after .seqDecompress { withStream [0x00210000, 0x87E10000] with memResp := [.ordinary, .error false] }).map
      (fun t => (t.status.errCode, t.status.errInfo, t.regs.strmPtr, t.regs.blkDone)) = some (12, 0x2004, 1, 0)) ∧
    (after .seqDecompress { onePixel with memResp := [.ordinary, .error false] }).map
      (fun t => (t.status.errCode, t.status.errInfo, t.regs.strmPtr, t.regs.blkDone)) = some (12, 0x2000, 0, 0) := ⟨rfl, rfl⟩
/-- Phase BLOCKS at stream word 5, where memory answers the reads with these words. -/
def atWordFive (ws : List Word) : State := { onePixel with
  seq := { onePixel.seq with j := 5 }, regs := { onePixel.regs with strmLen := 7 }, memResp := ws.map .returns }
/-- R183, R141, R155, U4: a second word in value form, a second word with the run 0, and a total of 63: the ERRINFO of the bodies. -/
theorem test_seq_decompress_changed_memory :
    (∃ t, decompressBlock 0 (atWordFive [0x00210000, 0x87E00000]) = .raised .pairForm 1 t) ∧
    (∃ t, decompressBlock 0 (atWordFive [0x00210000, 0x80010000]) = .raised .corruptRunSum 1 t) ∧
    ∃ t, decompressBlock 0 (atWordFive [0x87E10000]) = .raised .corruptRunSum 1 t := ⟨⟨_, rfl⟩, ⟨_, rfl⟩, ⟨_, rfl⟩⟩
/-- Blocks that read back otherwise: value form, an unknown code, a run of 0, a run past 64, and a short total. -/
theorem witness_DecompressAllOrNothing_changed :
    ∀ ws ∈ ([[0x00210000, 0x87E00000], [0x00210000, 0x87E10001], [0x00210000, 0x80010000], [0x00210000, 0x88010000], [0x87E10000]] :
      List (List Word)), readAsBlock ws = true ∧ (atWordFive ws).Alone ∧
        (atWordFive ws).seq.j + ws.length ≤ (atWordFive ws).regs.strmLen.toNat ∧ (atWordFive ws).memResp = ws.map .returns ++ [] :=
  forall_mem_of_all (by decide)
/-- Each under its own clause. -/
theorem witness_DecompressAllOrNothing_clauses : ([0x00210000].all (decodable onePixel.cb) = true ∧ lenField 0x87E00000 = 0) ∧
    (lenField 0x87E10001 ≠ 0 ∧ lookupCode onePixel.cb { len := lenField 0x87E10001, bits := symField 0x87E10001 } = none) ∧
    ([0x00210000, 0x80010000, 0x88010000, 0x87E10000].all (decodable onePixel.cb) = true ∧ runsPositive [0x00210000] = true) ∧
    runSum [0x00210000] ≤ 64 ∧ runField 0x80010000 = 0 ∧ 64 < runSum [0x00210000] + (runField 0x88010000).toNat ∧
    runsPositive [0x87E10000] = true ∧ runSum [0x87E10000] < 64 := by decide
/-- Both reads of phase VALIDATE are ordinary, and the second of phase BLOCKS gives a run of 62: the total is 63, and ERRINFO is
PCOUNT (R183, R141). -/
theorem witness_DecompressAllOrNothing_index : ∃ s t : State, s.Alone ∧ s.status.err = false ∧ exec .seqDecompress s = .next t ∧
    t.status.err = true ∧ t.status.errCode = 3 ∧ t.status.errInfo = 2 ∧ t.regs.strmPtr = 2 :=
  ⟨{ withStream [0x00210000, 0x87E10000] with memResp := [.ordinary, .ordinary, .ordinary, .returns 0x87C10000] }, _,
    rfl, rfl, rfl, rfl, rfl, rfl, rfl⟩
/-- R71, and P2's end state: the bytes of a stream word, least significant first, here past the top of the address space (R75). -/
theorem witness_AllZeroImageCompresses_bytes : memSet32 [] 0x2000 0x88010000 = [(0x2002, 0x01), (0x2003, 0x88)] ∧
    memGet32 [(0, 0x88), (0xFFFFFFFF, 0x01)] 0xFFFFFFFD = 0x88010000 ∧ Memory.wf [] = true := by decide
theorem witness_AllZeroImageCompresses : ∃ s : State, s.Undisturbed ∧ Memory.wf s.mem = true ∧ 1 ≤ s.regs.quality.toNat ∧
    s.regs.quality.toNat ≤ 100 ∧ s.regs.width ≠ 0 ∧ s.regs.height ≠ 0 ∧
    overlaps (imageRegion s.regs) (streamRegionCap s.regs) = false ∧ blkCount s.regs ≤ s.regs.strmCap.toNat ∧
    (∀ a : Addr, inRegion (imageRegion s.regs) a = true → s.byte a = 0) :=
  ⟨{ image 50 16 16 (running 0x20) with regs := { (image 50 16 16 State.reset).regs with strmCap := 4 } },
    by decide, by decide, by decide, by decide, by decide, by decide, by decide, by decide, fun _ _ => rfl⟩

/-! ### Two runs to their ends, past the open parameters: the zero block is a fixed point of QUANT, DEQUANT and the transform -/

/-- The state a piece of a command goes on with. -/
def okState {α : Type} (r : Run α) : State :=
  match r with
  | .ok _ s => s
  | .raised _ _ s | .abandoned s => s
  | .fault _ | .refused _ => State.reset

/-- After phase VALIDATE of `onePixel`. -/
def validated : State := okState (validatePhase (okState (bodyQgen onePixel)).clearBlkDone)
/-- Before DEQUANT of its only block. -/
def undone : State := okState (((readPairs 1 0 ((validated.startPass .blocks).atBlock 0)).bind fun m s =>
  (bodyCbDecode { s with pcount := BitVec.ofNat 7 m }).bind fun _ s => (bodyRleDec s).bind fun _ s => bodyZzUnflat s))

theorem onePixel_validated : bodySeqDecompress onePixel = forCount decompressBlock 1 0 (validated.startPass .blocks) := by rfl
set_option maxRecDepth 20000 in
theorem onePixel_undone : decompressBlock 0 (validated.startPass .blocks) = (bodyDequant undone).bind fun _ s =>
  (bodyTxInv s).bind fun _ s => (storeBlock s.seq.row s.seq.col s).bind fun _ s => .ok () s.blockDone := by rfl

/-- After its TX_INV. -/
def reconstructed : State := { { undone with cbuf := zeroBlock }.logged (.txInv zeroBlock) with cbuf := zeroBlock }

theorem onePixel_reconstructed : decompressBlock 0 (validated.startPass .blocks) =
    (storeBlock reconstructed.seq.row reconstructed.seq.col reconstructed).bind fun _ s => .ok () s.blockDone := by
  rw [onePixel_undone, bodyDequant_zero rfl (by rfl), bind_ok, bodyTxInv_undisturbed (by rfl), bind_ok]
  rfl

theorem witness_DecompressImage : ∃ t, exec .seqDecompress onePixel = .next t ∧ t.status.errCode = 0 := by
  have h : exec .seqDecompress onePixel = finish (sequenceEnd (((storeBlock reconstructed.seq.row reconstructed.seq.col
      reconstructed).bind fun _ s => .ok () s.blockDone).bind fun _ s => .ok () s)) := by
    show finish (sequenceEnd (bodySeqDecompress onePixel)) = _
    rw [onePixel_validated, forCount_succ, onePixel_reconstructed]
    rfl
  rw [h]
  exact ⟨_, rfl, rfl⟩

/-- A 1 by 1 black image, and a stream of one word. -/
def blank : State := { image 50 1 1 (running 0x20) with regs := { (image 50 1 1 State.reset).regs with strmCap := 1 } }
/-- The host's coming transactions: none, or a soft reset during the fourth transaction of the command. -/
def resetLater : Bool → List HostEvent
  | false => []
  | true => [{ gap := some 4, op := .write 0x004 0xF 0x3 }]
/-- After its QGEN step. -/
def withQuality (b : Bool) : State := okState (bodyQgen { blank with hostIn := resetLater b })
/-- Before QUANT of its only block. -/
def fetched (b : Bool) : State := okState ((fetchBlock 0 0 ((withQuality b).startCompress.atBlock 0)).bind fun _ s => bodyTxFwd s)

set_option maxRecDepth 20000 in
theorem blank_started (b : Bool) : bodySeqCompress { blank with hostIn := resetLater b } =
    (forCount compressBlock 1 0 (withQuality b).startCompress).bind fun _ s =>
    (buildPhase s).bind fun _ s => (forCount substWord s.seq.j 0 s.startSubst).bind fun _ s => .ok () s.setStrmLen := by cases b <;> rfl
set_option maxRecDepth 20000 in
theorem blank_fetched (b : Bool) : compressBlock 0 (withQuality b).startCompress = (bodyQuant (fetched b)).bind fun _ s =>
    (bodyZzFlat s).bind fun _ s => (bodyRleEnc s).bind fun _ s => (bodyCbAccum s).bind fun _ s =>
      (streamPairs (validPairs s) s).bind fun _ s => .ok () s.blockDone := by cases b <;> rfl

set_option maxRecDepth 20000 in
theorem blank_matrix (b : Bool) (n : Fin 64) : 1 ≤ (fetched b).qmat[n].toNat := by
  have hi : InCommand { blank with hostIn := resetLater b } :=
    ⟨⟨rfl, Nat.zero_le _, emptyCodebook_wf _, (fun h => nomatch h), rfl⟩, rfl, rfl⟩
  have hk : Keeps (.ok () (withQuality b)) := bodyQgen_keeps _ hi
  have hm : (fetched b).qmat = (withQuality b).qmat := by cases b <;> rfl
  rw [hm]
  exact ((ensures_ok.1 hk).matrix rfl n).1

set_option maxRecDepth 20000 in
theorem blank_run (b : Bool) : exec .seqCompress { blank with hostIn := resetLater b } = finish (sequenceEnd
    ((((Run.ok () { fetched b with qbuf := Vector.replicate 64 0 }).bind fun _ s =>
      (bodyZzFlat s).bind fun _ s => (bodyRleEnc s).bind fun _ s => (bodyCbAccum s).bind fun _ s =>
      (streamPairs (validPairs s) s).bind fun _ s => .ok () s.blockDone).bind fun _ s => .ok () s).bind fun _ s =>
    (buildPhase s).bind fun _ s => (forCount substWord s.seq.j 0 s.startSubst).bind fun _ s => .ok () s.setStrmLen)) := by
  show finish (sequenceEnd (bodySeqCompress { blank with hostIn := resetLater b })) = _
  rw [blank_started, forCount_succ, blank_fetched, bodyQuant_zero (by cases b <;> rfl) (blank_matrix b) (by cases b <;> rfl)]
  rfl
theorem witness_CompressStream : ∃ s t : State, s.Undisturbed ∧ Memory.wf s.mem = true ∧ s.regs.width ≠ 0 ∧ s.regs.height ≠ 0 ∧
    exec .seqCompress s = .next t ∧ t.status.errCode = 0 ∧ s.status.errCode = 0 := by
  refine ⟨{ blank with hostIn := resetLater false }, ?_⟩
  rw [blank_run]
  exact ⟨_, by decide, by decide, by decide, by decide, rfl, rfl, rfl⟩
set_option maxRecDepth 20000 in
/-- The read that begins phase SUBST fails, after the read of the pixel and the write of the word. -/
theorem witness_BusErrorAtAnyAccess_compress : ∃ s : State, s.Alone ∧ Memory.wf s.mem = true ∧
    s.memResp = List.replicate 2 .ordinary ++ [.error true] ∧
    ∃ (u : State) (log : List Request), exec .seqCompress { s with memResp := [] } = .next u ∧ u.busLog = log.reverse ++ s.busLog ∧
      (log.filter Request.isMaster)[2]? = some (.read32 0x2000) := by
  refine ⟨{ blank with memResp := [.ordinary, .ordinary, .error true] }, by decide, by decide, rfl, ?_⟩
  show ∃ (u : State) (log : List Request), exec .seqCompress { blank with hostIn := resetLater false } = .next u ∧ u.busLog = log.reverse ++ blank.busLog ∧
      (log.filter Request.isMaster)[2]? = some (.read32 0x2000)
  rw [blank_run]
  exact ⟨_, [.read8 0x1000, .txFwd zeroBlock, .write32 0x2000 0x88000000, .read32 0x2000, .write32 0x2000 0x88010000],
    rfl, rfl, rfl⟩
set_option maxRecDepth 20000 in
/-- V-RG-9: the soft reset lands during the read that begins phase SUBST; the words already written stay in memory. -/
theorem test_reset_during_compress : ∃ t, exec .seqCompress { blank with hostIn := resetLater true } = .next t ∧ t.regs = Regs.reset ∧
    t.irq = false ∧ t.mem = [(0x2003, 0x88)] ∧ t.busLog.length = 4 := by
  rw [blank_run]
  exact ⟨_, rfl, rfl, rfl, rfl, rfl⟩

end Sys2Proof.Tests
end

section
/-! SUPPORT. The step: what each command keeps, and so what every step keeps (10_state.md). -/

namespace Sys2Proof.Machine

/-- The memory commands and the sequences change the state once more when they end. -/
theorem keeps_atEnd {α : Type} {r : Run α} {f : State → State} {g : ErrCode → State → State} (h : Keeps r)
    (hf : ∀ s, InCommand s → InCommand (f s)) (hg : ∀ c s, InCommand s → InCommand (g c s)) : Keeps (r.atEnd f g) :=
  Run.Ensures.atEnd h (fun _ s => hf s) fun c _ s => hg c s

theorem fetchFailed_inCommand (c : ErrCode) {s : State} (h : InCommand s) : InCommand (fetchFailed c s) := by
  unfold fetchFailed
  split
  · exact h.of rfl rfl rfl rfl rfl rfl rfl rfl rfl
  · exact h

theorem sequenceEnd_keeps {r : Run Unit} (h : Keeps r) : Keeps (sequenceEnd r) :=
  keeps_atEnd h (fun _ => InCommand.freeScratch) fun _ _ => InCommand.freeScratch

/-- Every command is a body that keeps `InCommand`, and its end. -/
theorem exec_eq_finish_keeps (i : Instr) {s : State} (h : InCommand s) : ∃ r, exec i s = finish r ∧ Keeps r := by
  cases i with
  | nop => exact ⟨.ok () s, rfl, keeps_ok h⟩
  | qgen => exact ⟨_, rfl, bodyQgen_keeps s h⟩
  | quant => exact ⟨_, rfl, bodyQuant_keeps s h⟩
  | dequant => exact ⟨_, rfl, bodyDequant_keeps s h⟩
  | txFwd => exact ⟨_, rfl, bodyTxFwd_keeps s h⟩
  | txInv => exact ⟨_, rfl, bodyTxInv_keeps s h⟩
  | zzFlat => exact ⟨_, rfl, bodyZzFlat_keeps s h⟩
  | zzUnflat => exact ⟨_, rfl, bodyZzUnflat_keeps s h⟩
  | rleEnc => exact ⟨_, rfl, bodyRleEnc_keeps s h⟩
  | rleDec => exact ⟨_, rfl, bodyRleDec_keeps s h⟩
  | cbClear => exact ⟨bodyCbClear s, rfl, keeps_ok (h.withCb (emptyCodebook_wf _))⟩
  | cbAccum => exact ⟨_, rfl, bodyCbAccum_keeps s h⟩
  | cbBuild => exact ⟨_, rfl, bodyCbBuild_keeps s h⟩
  | cbEncode => exact ⟨_, rfl, bodyCbEncode_keeps s h⟩
  | cbDecode => exact ⟨_, rfl, bodyCbDecode_keeps s h⟩
  | cbLoad => exact ⟨_, rfl, bodyCbLoad_keeps s h⟩
  | cbRead => exact ⟨_, rfl, bodyCbRead_keeps s h⟩
  | padFetch =>
    exact ⟨_, rfl, keeps_atEnd (keeps_bind (ofCheck_keeps _ s h) fun _ s h => fetchBlock_keeps _ _ s h)
      (fun _ h => h) fun c _ => fetchFailed_inCommand c⟩
  | cropStore => exact ⟨_, rfl, keeps_bind (ofCheck_keeps _ s h) fun _ s h => storeBlock_keeps _ _ s h⟩
  | seqCompress => exact ⟨_, rfl, sequenceEnd_keeps (bodySeqCompress_keeps s h)⟩
  | seqDecompress => exact ⟨_, rfl, sequenceEnd_keeps (bodySeqDecompress_keeps s h)⟩

/-- Running a received word, legal or not, leaves a state that meets the invariant. -/
theorem runCommand_inv {w : Word} {s t : State} (h : InCommand s) (ht : runCommand w s = .next t) : t.Inv := by
  unfold runCommand at ht
  split at ht
  · rename_i i _
    obtain ⟨r, hr, hk⟩ := exec_eq_finish_keeps i h
    exact finish_inv hk (hr ▸ ht)
  · exact finish_inv (r := .raised .illegalCommand w s) (keeps_raised h) ht

theorem State.Inv.withHostIn {s : State} (h : s.Inv) (q : List HostEvent) : State.Inv { s with hostIn := q } :=
  ⟨h.mem, h.pcount, h.codebook, h.matrix, h.hidden, h.reset, h.aligned⟩

theorem hostStep_inv {s t : State} (h : s.Inv) (ht : hostStep s = .next t) : t.Inv := by
  unfold hostStep at ht
  split at ht
  · cases ht; exact h
  · exact hostOp_inv (h.withHostIn _) ht

/-- A step is a host transaction, or runs the received command with the reset input released. -/
theorem step_cases (s : State) :
    step s = hostStep s ∨ ∃ w, s.rst = false ∧ s.seq.cmd = some w ∧ step s = runCommand w s := by
  unfold step
  split
  · exact .inl rfl
  · rename_i hr
    split
    · rename_i w hw
      split
      · exact .inl rfl
      · exact .inr ⟨w, by simpa using hr, hw, rfl⟩
    · exact .inl rfl

/-- Settles O22: nothing is stored, generated or logged yet. -/
theorem resetMeetsInvariant : Obligations.ResetMeetsInvariant where
  mem := reset_mem_wf
  pcount := Nat.zero_le _
  codebook := emptyCodebook_wf _
  matrix := fun h => nomatch h
  hidden := rfl
  reset := fun _ => rfl
  aligned := rfl

/-- Settles O23: a step is a host transaction or a whole command, and each of the two keeps the invariant. -/
theorem stepKeepsInvariant : Obligations.StepKeepsInvariant := by
  intro s t h ht
  rcases step_cases s with hs | ⟨w, hr, hw, hs⟩
  · exact hostStep_inv h (hs ▸ ht)
  · exact runCommand_inv ⟨h.data, hr, by rw [hw]; rfl⟩ (hs ▸ ht)

end Sys2Proof.Machine
end

section
/-! SUPPORT. The host port: how an access is answered, idle and while BUSY (10_state.md R24, R49, R50), and what each register
reads back (R25 to R47). -/

namespace Sys2Proof.Machine

/-! ### How an access is answered -/

theorem alignedOffset_iff (off : BitVec 12) : alignedOffset off = true ↔ off.toNat % 4 = 0 := by simp [alignedOffset]

/-- R49: a malformed write. -/
theorem hostWrite_malformed {off : BitVec 12} {strb : BitVec 4} (h : off.toNat % 4 ≠ 0 ∨ strb ≠ 0xF) (w : Word) (s : State) :
    hostWrite off strb w s = s.reply true 0 := by
  unfold hostWrite
  rw [if_pos (by simpa [alignedOffset, fullStrobe] using h)]

/-- R49: a misaligned read. -/
theorem hostRead_misaligned {off : BitVec 12} (h : off.toNat % 4 ≠ 0) (s : State) : hostRead off s = s.reply true 0 := by
  unfold hostRead
  rw [if_pos (by simpa [alignedOffset] using h)]

section WellFormed
variable {off : BitVec 12} (ha : off.toNat % 4 = 0)
include ha

/-- R50: a well-formed write reaches its register, if that is writable now. -/
theorem hostWrite_reaches (w : Word) {s : State} (h : s.busy = false ∨ writableWhileBusy (decodeOffset off) = true) :
    hostWrite off 0xF w s = (regWrite (decodeOffset off) w s).reply false 0 := by
  unfold hostWrite
  rw [(alignedOffset_iff off).2 ha, if_neg (by decide), if_neg (by rcases h with h | h <;> simp [h])]

/-- R50: any other well-formed write while BUSY is dropped and sets OVF. -/
theorem hostWrite_dropped (w : Word) {s : State} (hb : s.busy = true) (h : writableWhileBusy (decodeOffset off) = false) :
    hostWrite off 0xF w s = { s.reply false 0 with status := { s.status with ovf := true } } := by
  unfold hostWrite
  rw [(alignedOffset_iff off).2 ha, if_neg (by decide), if_pos (by simp [hb, h])]

/-- R50: an aligned read answers the register's value, if that is live now. -/
theorem hostRead_reads {s : State} (h : s.busy = false ∨ liveWhileBusy (decodeOffset off) = true) :
    hostRead off s = s.reply false (regRead (decodeOffset off) s) := by
  unfold hostRead
  rw [(alignedOffset_iff off).2 ha, if_neg (by decide), if_neg (by rcases h with h | h <;> simp [h])]

/-- R50: any other aligned read while BUSY answers a free value. -/
theorem hostRead_free {s : State} (hb : s.busy = true) (h : liveWhileBusy (decodeOffset off) = false) :
    hostRead off s = { s.reply false (freeRead s.draws) with draws := s.draws + 1 } := by
  unfold hostRead
  rw [(alignedOffset_iff off).2 ha, if_neg (by decide), if_pos (by simp [hb, h])]

end WellFormed

/-! ### The register map (R24) -/

theorem eq_ofNat_of_aligned {off : BitVec 12} (ha : off.toNat % 4 = 0) : off = BitVec.ofNat 12 (4 * (off.toNat / 4)) :=
  BitVec.eq_of_toNat_eq (by rw [BitVec.toNat_ofNat]; omega)

/-- Below 0x100 no register is listed past 0x068. -/
theorem decodeOffset_reserved_low {off : BitVec 12} (ha : off.toNat % 4 = 0) (h1 : 0x06C ≤ off.toNat) (h2 : off.toNat < 0x100) :
    decodeOffset off = .reserved := by
  rw [eq_ofNat_of_aligned ha]
  have l : 27 ≤ off.toNat / 4 := by omega
  have u : off.toNat / 4 < 64 := by omega
  generalize off.toNat / 4 = w at l u
  interval_cases w <;> rfl

/-- From 0x500 on the map has the read-only windows, and from 0x800 on nothing. -/
theorem decodeOffset_high {off : BitVec 12} (h : 0x500 ≤ off.toNat) :
    (off.toNat < 0x800 ∧ ∃ n, decodeOffset off = .qmat n ∨ decodeOffset off = .zz n ∨ decodeOffset off = .baseq n) ∨
    decodeOffset off = .reserved := by
  unfold decodeOffset
  dsimp only
  split
  case h_6 => exact .inl ⟨by omega, _, .inl rfl⟩
  case h_7 => exact .inl ⟨by omega, _, .inr (.inl rfl)⟩
  case h_8 => exact .inl ⟨by omega, _, .inr (.inr rfl)⟩
  case h_9 => exact .inr rfl
  all_goals omega

theorem decodeOffset_reserved {off : BitVec 12} (ha : off.toNat % 4 = 0)
    (h : 0x06C ≤ off.toNat ∧ off.toNat < 0x100 ∨ 0x800 ≤ off.toNat) : decodeOffset off = .reserved := by
  rcases h with ⟨h1, h2⟩ | h
  · exact decodeOffset_reserved_low ha h1 h2
  · rcases decodeOffset_high (show 0x500 ≤ off.toNat by omega) with ⟨h', _⟩ | h'
    · omega
    · exact h'

/-- A register or window element stands at one aligned offset only. -/
theorem offset_decodeOffset {off : BitVec 12} (ha : off.toNat % 4 = 0) (h : decodeOffset off ≠ .reserved) :
    (decodeOffset off).offset = off := by
  rcases Nat.lt_or_ge off.toNat 0x100 with hl | hl
  · have hw : off.toNat / 4 < 27 := by
      by_contra hc
      exact h (decodeOffset_reserved_low ha (by omega) hl)
    rw [eq_ofNat_of_aligned ha]
    generalize off.toNat / 4 = w at hw
    interval_cases w <;> rfl
  · revert h
    unfold decodeOffset
    dsimp only
    split
    case h_1 => omega
    case h_9 => exact fun h => absurd rfl h
    all_goals exact fun _ => BitVec.eq_of_toNat_eq (by simp only [HostReg.offset, BitVec.toNat_ofNat]; omega)

theorem writableWhileBusy_iff (r : HostReg) : writableWhileBusy r = true ↔ r = .ctrl ∨ r = .status := by
  cases r <;> simp [writableWhileBusy]

theorem liveWhileBusy_iff (r : HostReg) :
    liveWhileBusy r = true ↔ r = .id ∨ r = .ctrl ∨ r = .status ∨ r = .blkDone ∨ r = .strmPtr := by
  cases r <;> simp [liveWhileBusy]

/-- CTRL and STATUS stand at 0x004 and 0x008. -/
theorem not_writableWhileBusy {off : BitVec 12} (ha : off.toNat % 4 = 0) (h4 : off ≠ 0x004) (h8 : off ≠ 0x008) :
    writableWhileBusy (decodeOffset off) = false := by
  rw [Bool.eq_false_iff, Ne, writableWhileBusy_iff]
  rintro (h | h) <;> have := offset_decodeOffset ha (by rw [h]; nofun) <;> rw [h] at this
  · exact h4 this.symm
  · exact h8 this.symm

theorem not_liveWhileBusy {off : BitVec 12} (ha : off.toNat % 4 = 0)
    (hl : off ∉ ([0x000, 0x004, 0x008, 0x04C, 0x050] : List (BitVec 12))) : liveWhileBusy (decodeOffset off) = false := by
  rw [Bool.eq_false_iff, Ne, liveWhileBusy_iff]
  rintro (h | h | h | h | h) <;> have := offset_decodeOffset ha (by rw [h]; nofun) <;> rw [h] at this <;>
    exact hl (by simp [← this, HostReg.offset])

/-! ### Obligations on accesses -/

/-- Settles O6. -/
theorem commandIssue : Obligations.CommandIssue :=
  ⟨fun _ w h => hostWrite_reaches (off := 0x014) rfl w (.inl h), fun _ w h => hostWrite_dropped (off := 0x014) rfl w h rfl,
    fun _ h => hostRead_reads (off := 0x014) rfl (.inl h)⟩

/-- Settles O7: CTRL and STATUS are the writable registers, and the five live ones answer their values. -/
theorem accessWhileBusy : Obligations.AccessWhileBusy := fun _ hb =>
  ⟨fun w => hostWrite_reaches (off := 0x004) rfl w (.inr rfl), fun w => hostWrite_reaches (off := 0x008) rfl w (.inr rfl),
    fun _ w ha h4 h8 => hostWrite_dropped ha w hb (not_writableWhileBusy ha h4 h8),
    hostRead_reads (off := 0x000) rfl (.inr rfl), hostRead_reads (off := 0x004) rfl (.inr rfl),
    hostRead_reads (off := 0x008) rfl (.inr rfl), hostRead_reads (off := 0x04C) rfl (.inr rfl),
    hostRead_reads (off := 0x050) rfl (.inr rfl), fun _ ha hl => ⟨_, hostRead_free ha hb (not_liveWhileBusy ha hl)⟩⟩

/-- The registers, tables and reserved offsets that a write leaves as they are. -/
def readOnly : HostReg → Bool
  | .id | .errCode | .errInfo | .width8 | .height8 | .blkCols | .blkRows | .blkCount | .blkDone | .strmPtr
  | .cbCount | .cbWeight | .qmat _ | .zz _ | .baseq _ | .reserved => true
  | _ => false

theorem regWrite_readOnly {r : HostReg} (h : readOnly r = true) (w : Word) (s : State) : regWrite r w s = s := by
  cases r
  case id | errCode | errInfo | width8 | height8 | blkCols | blkRows | blkCount | blkDone | strmPtr | cbCount | cbWeight
    | qmat | zz | baseq | reserved => rfl
  all_goals exact nomatch h

theorem decodeOffset_readOnly {off : BitVec 12} (ha : off.toNat % 4 = 0)
    (h : off ∈ ([0x000, 0x00C, 0x010, 0x024, 0x028, 0x02C, 0x030, 0x034, 0x04C, 0x050, 0x058, 0x068] : List (BitVec 12)) ∨
      0x06C ≤ off.toNat ∧ off.toNat < 0x100 ∨ 0x500 ≤ off.toNat) : readOnly (decodeOffset off) = true := by
  rcases h with h | ⟨h1, h2⟩ | h
  · simp only [List.mem_cons, List.not_mem_nil, or_false] at h
    rcases h with rfl | rfl | rfl | rfl | rfl | rfl | rfl | rfl | rfl | rfl | rfl | rfl <;> rfl
  · rw [decodeOffset_reserved_low ha h1 h2]; rfl
  · rcases decodeOffset_high h with ⟨_, n, h | h | h⟩ | h <;> rw [h] <;> rfl

theorem hostWrite_readOnly {off : BitVec 12} (ha : off.toNat % 4 = 0) (h : readOnly (decodeOffset off) = true) (w : Word) {s : State}
    (hb : s.busy = false) : hostWrite off 0xF w s = s.reply false 0 := by
  rw [hostWrite_reaches ha w (.inl hb), regWrite_readOnly h]

theorem strmBase_write_mask (w : Word) : (w &&& 0xFFFFFFFC : Word).extractLsb' 2 30 = w.extractLsb' 2 30 := by
  ext i hi
  interval_cases i <;> simp

/-- Settles O8. -/
theorem hostAccessForms : Obligations.HostAccessForms := by
  refine ⟨fun _ _ w s h => hostWrite_malformed h w s, fun _ s h => hostRead_misaligned h s,
    fun _ w _ ha hb h => hostWrite_readOnly ha (decodeOffset_readOnly ha h) w hb, fun w s => ⟨rfl, rfl, ?_⟩,
    fun _ h => hostRead_reads (off := 0x014) rfl (.inl h)⟩
  simp only [regWrite, strmBase_write_mask]

end Sys2Proof.Machine
end

section
/-! SUPPORT. What the registers read, after a host write and after a reset (10_state.md R25 to R47, R52). -/

namespace Sys2Proof.Machine

/-! ### What the read-only registers and the windows read -/

theorem regRead_cbCount {s : State} (h : Codebook.wf s.cbDepth s.cb = true) : (regRead .cbCount s).toNat = s.cb.length := by
  have hl := ((codebook_wf_iff _ _).1 h).len
  have hd := s.cbDepth_le
  simp only [regRead, BitVec.toNat_ofNat]
  omega

/-- Settles O9: the listed offsets by evaluation, the reserved ones by their decoding. -/
theorem registerMapAgrees : Obligations.RegisterMapAgrees := by
  refine ⟨by decide, by decide, by decide, fun off w s hb ha h => ?_, fun s n => ?_⟩
  · have hr := decodeOffset_reserved ha h
    exact ⟨by rw [hostRead_reads ha (.inl hb), hr]; rfl, hostWrite_readOnly ha (by rw [hr]; rfl) w hb⟩
  · have hz := (zz n).isLt
    have hq := baseq_range n
    refine ⟨rfl, ?_, rfl, rfl, rfl, rfl, regRead_cbCount, ?_, ?_, ?_⟩ <;>
      simp only [regRead, BitVec.toNat_setWidth, BitVec.toNat_ofNat] <;> omega

/-! ### The bits a register keeps of a written word -/

section Bits
variable (w : Word)

theorem low8_mask : (w.extractLsb' 0 8).setWidth 32 = w &&& 0x000000FF := by
  ext i hi; interval_cases i <;> simp

theorem low16_mask : (w.extractLsb' 0 16).setWidth 32 = w &&& 0x0000FFFF := by
  ext i hi; interval_cases i <;> simp

theorem low7_mask : (w.extractLsb' 0 7).setWidth 32 = w &&& 0x7F := by
  ext i hi; interval_cases i <;> simp

theorem bit1_mask : bit (w.getLsbD 1) 1 = w &&& 0x00000002 := by
  ext i hi; interval_cases i <;> simp [bit]

theorem strmBase_mask : ((w.extractLsb' 2 30).setWidth 32 <<< 2 : Word) = w &&& 0xFFFFFFFC := by
  ext i hi; interval_cases i <;> simp

theorem blkSel_mask :
    ((w.extractLsb' 16 14).setWidth 32 <<< 16 ||| (w.extractLsb' 0 14).setWidth 32 : Word) = w &&& 0x3FFF3FFF := by
  ext i hi; interval_cases i <;> simp

theorem cbCode_mask :
    ((w.extractLsb' 16 5).setWidth 32 <<< 16 ||| (w.extractLsb' 0 16).setWidth 32 : Word) = w &&& 0x001FFFFF := by
  ext i hi; interval_cases i <;> simp

theorem extractLsb'_zero_eq_setWidth (k : Nat) : w.extractLsb' 0 k = w.setWidth k := by
  ext i hi; simp

end Bits

theorem writePcount_eq (w : Word) (s : State) :
    writePcount w s = { s with pcount := if (w &&& 0x7F).toNat ≤ 64 then w.extractLsb' 0 7 else s.pcount } := by
  have h : (w.extractLsb' 0 7).toNat = (w &&& 0x7F).toNat := by
    rw [← low7_mask, BitVec.toNat_setWidth, Nat.mod_eq_of_lt (by omega)]
  unfold writePcount
  dsimp only
  rw [h]
  split <;> rfl

theorem writeCtrl_enable {w : Word} (h : w.getLsbD 0 = false) (s : State) :
    writeCtrl w s = { s with regs := { s.regs with irqEn := w.getLsbD 1 } } := by
  unfold writeCtrl
  rw [h, if_neg (by decide)]

/-- A write to one element of a window leaves the others alone. -/
theorem set_other {k : Nat} (b : Block k) (n : Fin 64) (v : BitVec k) (m : Fin 64) (h : m ≠ n) : (b.set n v)[m] = b[m] :=
  Vector.getElem_set_ne _ _ fun he => h (Fin.ext he.symm)

/-- Settles O10: each register by the mask of its bits. -/
theorem registerReadBack : Obligations.RegisterReadBack := by
  refine ⟨fun off w s hb ha => ⟨hostWrite_reaches ha w (.inl hb), hostRead_reads ha (.inl hb)⟩, fun s w h => ?_,
    fun s w n => ?_, fun s w => ?_, fun s w n => ?_⟩
  · have hw : regWrite .ctrl w s = _ := writeCtrl_enable h s
    exact ⟨by rw [hw]; exact bit1_mask w, _, hw⟩
  · refine ⟨low8_mask w, low16_mask w, low16_mask w, rfl, strmBase_mask w, rfl, rfl, blkSel_mask w, low16_mask w, low16_mask w,
      cbCode_mask w, ?_, ?_, ?_, ?_, ?_⟩
    · simp only [regRead, regWrite, writePcount_eq]
      split
      · exact low7_mask w
      · rfl
    · simp [regRead, regWrite]
    · simp [regRead, regWrite, extractLsb'_zero_eq_setWidth]
    · simp [regRead, regWrite, extractLsb'_zero_eq_setWidth]
    · simp [regRead, regWrite, maskPair]
  · exact ⟨⟨_, rfl⟩, ⟨_, rfl⟩, ⟨_, rfl⟩, ⟨_, rfl⟩, ⟨_, rfl⟩, ⟨_, rfl⟩, ⟨_, rfl⟩, ⟨_, _, rfl⟩, ⟨_, rfl⟩, ⟨_, rfl⟩, ⟨_, rfl⟩,
      ⟨_, writePcount_eq w s⟩⟩
  · exact ⟨⟨_, rfl, set_other _ n _⟩, ⟨_, rfl, set_other _ n _⟩, ⟨_, rfl, set_other _ n _⟩, ⟨_, rfl, set_other _ n _⟩⟩

/-! ### Derived geometry (R33) -/

theorem natCeil_div_eight (n : Nat) : ⌈(n : ℚ) / 8⌉₊ = (n + 7) / 8 :=
  eq_of_forall_ge_iff fun k => by
    rw [Nat.ceil_le, div_le_iff₀ (by norm_num)]
    norm_cast
    omega

theorem width8_le (r : Regs) : width8 r ≤ 65536 := by unfold width8; omega

theorem height8_le (r : Regs) : height8 r ≤ 65536 := by unfold height8; omega

theorem blkCols_eq (r : Regs) : blkCols r = (r.width.toNat + 7) / 8 := by unfold blkCols width8; omega

theorem blkRows_eq (r : Regs) : blkRows r = (r.height.toNat + 7) / 8 := by unfold blkRows height8; omega

theorem blkCols_le (r : Regs) : blkCols r ≤ 8192 := by rw [blkCols_eq]; omega

theorem blkRows_le (r : Regs) : blkRows r ≤ 8192 := by rw [blkRows_eq]; omega

theorem blkCount_le (r : Regs) : blkCount r ≤ 2 ^ 26 :=
  (Nat.mul_le_mul (blkCols_le r) (blkRows_le r)).trans (by decide)

/-- Settles O11: none of the five values is truncated by its register. -/
theorem derivedGeometry : Obligations.DerivedGeometry := by
  intro s
  have hw := width8_le s.regs
  have hh := height8_le s.regs
  have hc := blkCols_le s.regs
  have hr := blkRows_le s.regs
  have hn := blkCount_le s.regs
  have e {k : Nat} (h : k ≤ 2 ^ 26) : (BitVec.ofNat 32 k).toNat = k := by rw [BitVec.toNat_ofNat]; omega
  simp only [regRead]
  rw [e (k := width8 s.regs) (by omega), e (k := height8 s.regs) (by omega), e (k := blkCols s.regs) (by omega),
    e (k := blkRows s.regs) (by omega), e hn]
  refine ⟨?_, ?_, rfl, rfl, rfl, hw, hc, hn, fun r w hr => ?_⟩
  · rw [natCeil_div_eight, width8, Nat.mul_comm]
  · rw [natCeil_div_eight, height8, Nat.mul_comm]
  · exact regWrite_readOnly ((show ∀ r ∈ _, readOnly r = true by decide) r hr) w s

/-! ### STATUS (R27) -/

theorem bit_getLsbD (b : Bool) {k : Nat} (hk : k < 32) (i : Nat) : (bit b k).getLsbD i = (b && decide (i = k)) := by
  unfold bit
  simp only [BitVec.getLsbD_shiftLeft, BitVec.getLsbD_setWidth, BitVec.getLsbD_ofBool]
  rcases Nat.lt_trichotomy i k with h | rfl | h
  · simp [h, h.ne]
  · simp [hk]
  · simp [h.ne', Nat.sub_ne_zero_of_lt h]

theorem statusWord_getLsbD (s : State) (i : Nat) : (statusWord s).getLsbD i =
    (s.busy && decide (i = 0) || s.status.done && decide (i = 1) || s.status.err && decide (i = 2) ||
      s.status.sat && decide (i = 3) || s.status.ovf && decide (i = 4) || s.status.qv && decide (i = 5)) := by
  simp only [statusWord, BitVec.getLsbD_or, bit_getLsbD _ (show 0 < 32 by decide), bit_getLsbD _ (show 1 < 32 by decide),
    bit_getLsbD _ (show 2 < 32 by decide), bit_getLsbD _ (show 3 < 32 by decide), bit_getLsbD _ (show 4 < 32 by decide),
    bit_getLsbD _ (show 5 < 32 by decide)]

/-- The write-1-to-clear bits of STATUS are bits 1 to 4. -/
theorem clearBits_getLsbD (i : Nat) : (0x1E : Word).getLsbD i = decide (1 ≤ i ∧ i ≤ 4) := by
  rcases Nat.lt_or_ge i 32 with h | h
  · interval_cases i <;> rfl
  · rw [BitVec.getLsbD_of_ge _ _ h, eq_comm, decide_eq_false_iff_not]
    omega

/-- Settles O12: by the bits of the STATUS word. -/
theorem statusWriteOneToClear : Obligations.StatusWriteOneToClear := by
  refine ⟨fun s => ?_, fun s w => rfl, fun s w => ?_⟩
  · simp only [regRead, statusWord_getLsbD]
    refine ⟨by simp, by simp, by simp, by simp, by simp, by simp, fun i hi => ?_⟩
    simp [show i ≠ 0 by omega, show i ≠ 1 by omega, show i ≠ 2 by omega, show i ≠ 3 by omega, show i ≠ 4 by omega,
      show i ≠ 5 by omega]
  · refine BitVec.eq_of_getLsbD_eq fun i hi => ?_
    simp only [regRead, BitVec.getLsbD_and, BitVec.getLsbD_not, statusWord_getLsbD, clearBits_getLsbD, hi, decide_true,
      Bool.true_and]
    rcases Nat.lt_or_ge i 6 with h6 | h6
    · interval_cases i <;> simp [regWrite, Status.writeOneToClear, State.busy]
    · simp [show i ≠ 0 by omega, show i ≠ 1 by omega, show i ≠ 2 by omega, show i ≠ 3 by omega, show i ≠ 4 by omega,
        show i ≠ 5 by omega]

/-! ### Reset (R52) -/

/-- What R52 gives a value is the same at power-up and at a reset event. -/
theorem reset_values {s t : State} (h : t = State.reset ∨ t = s.resetIctc) :
    t.regs = Regs.reset ∧ t.status = Status.reset ∧ t.pcount = 0 ∧ t.cb = [] ∧ t.seq = Sequencer.idle := by
  rcases h with rfl | rfl <;> exact ⟨rfl, rfl, rfl, rfl, rfl⟩

/-- Settles O13. -/
theorem resetValues : Obligations.ResetValues := by
  refine ⟨fun _ => rfl, fun s t h => ?_⟩
  obtain ⟨hr, hs, hp, hc, hq⟩ := reset_values h
  simp only [regRead, State.busy, State.irq, hr, hs, hp, hc, hq]
  decide

end Sys2Proof.Machine
end

section
/-! SUPPORT. What a command that no host transaction disturbs does to the flags of STATUS (10_state.md R27). -/

namespace Sys2Proof.Machine

/-- No host transaction is to land in the running command, and its flags meet `P`. -/
structure FlagsMeet (P : Status → Prop) (s : State) : Prop where
  alone : s.Alone
  flags : P s.status

/-- A piece of a command keeps `FlagsMeet P`, however it ends, and no reset abandons it. -/
abbrev KeepsFlags (P : Status → Prop) {α : Type} (r : Run α) : Prop :=
  r.Ensures (fun _ t => FlagsMeet P t) (fun _ _ t => FlagsMeet P t) fun _ => False

section AnyFlags
variable {P : Status → Prop}

/-- Only these parts of a state matter to `FlagsMeet`. -/
theorem FlagsMeet.of {s t : State} (h : FlagsMeet P s) (hq : t.hostIn = s.hostIn) (hs : t.status = s.status) : FlagsMeet P t :=
  ⟨by unfold State.Alone; rw [hq]; exact h.alone, hs ▸ h.flags⟩

theorem keepsFlags_ok {α : Type} {a : α} {s : State} (h : FlagsMeet P s) : KeepsFlags P (.ok a s) := ensures_ok.2 h

theorem keepsFlags_raised {α : Type} {c : ErrCode} {i : Word} {s : State} (h : FlagsMeet P s) :
    KeepsFlags P (.raised c i s : Run α) := ensures_raised.2 h

theorem keepsFlags_bind {α β : Type} {r : Run α} {f : α → State → Run β} (h : KeepsFlags P r)
    (hf : ∀ a s, FlagsMeet P s → KeepsFlags P (f a s)) : KeepsFlags P (r.bind f) := Run.Ensures.bind h hf

theorem keepsFlags_atEnd {r : Run Unit} {f : State → State} {g : ErrCode → State → State} (h : KeepsFlags P r)
    (hf : ∀ s, FlagsMeet P s → FlagsMeet P (f s)) (hg : ∀ c s, FlagsMeet P s → FlagsMeet P (g c s)) :
    KeepsFlags P (r.atEnd f g) := Run.Ensures.atEnd h (fun _ s => hf s) fun c _ s => hg c s

theorem ofCheck_keepsFlags {α : Type} (r : Except (ErrCode × Word) α) (s : State) (h : FlagsMeet P s) : KeepsFlags P (ofCheck r s) :=
  ofCheck_ensures (fun _ _ => h) fun _ _ => h

theorem forCount_keepsFlags {body : Nat → State → Run Unit} (hb : ∀ n s, FlagsMeet P s → KeepsFlags P (body n s)) (k n : Nat)
    (s : State) (h : FlagsMeet P s) : KeepsFlags P (forCount body k n s) :=
  forCount_ensures (I := fun _ s => FlagsMeet P s) hb k n s h

theorem request_keepsFlags (r : Request) (s : State) (h : FlagsMeet P s) : KeepsFlags P (request r s) := by
  rw [request_alone h.alone]
  exact keepsFlags_ok (h.of rfl rfl)

theorem memRead8_keepsFlags (a : Addr) (s : State) (h : FlagsMeet P s) : KeepsFlags P (memRead8 a s) := by
  unfold memRead8
  refine keepsFlags_bind (request_keepsFlags _ s h) fun _ t ht => ?_
  split
  · exact keepsFlags_ok (ht.of rfl rfl)
  · exact keepsFlags_ok (ht.of rfl rfl)
  · exact keepsFlags_raised (ht.of rfl rfl)

theorem memRead32_keepsFlags (a : Addr) (s : State) (h : FlagsMeet P s) : KeepsFlags P (memRead32 a s) := by
  unfold memRead32
  refine keepsFlags_bind (request_keepsFlags _ s h) fun _ t ht => ?_
  split
  · exact keepsFlags_ok (ht.of rfl rfl)
  · exact keepsFlags_ok (ht.of rfl rfl)
  · exact keepsFlags_raised (ht.of rfl rfl)

theorem answerWrite_keepsFlags (a : Addr) (m : List Host.Cell) (s : State) (h : FlagsMeet P s) :
    KeepsFlags P (answerWrite a m s) := by
  unfold answerWrite
  split
  · exact keepsFlags_ok (h.of rfl rfl)
  · exact keepsFlags_ok (h.of rfl rfl)
  · exact keepsFlags_raised (h.of rfl rfl)

theorem memWrite8_keepsFlags (a : Addr) (v : Byte) (s : State) (h : FlagsMeet P s) : KeepsFlags P (memWrite8 a v s) :=
  keepsFlags_bind (request_keepsFlags _ s h) fun _ _ => answerWrite_keepsFlags _ _ _

theorem memWrite32_keepsFlags (a : Addr) (v : Word) (s : State) (h : FlagsMeet P s) : KeepsFlags P (memWrite32 a v s) :=
  keepsFlags_bind (request_keepsFlags _ s h) fun _ _ => answerWrite_keepsFlags _ _ _

theorem bodyTxFwd_keepsFlags (s : State) (h : FlagsMeet P s) : KeepsFlags P (bodyTxFwd s) :=
  keepsFlags_bind (request_keepsFlags _ s h) fun _ _ ht => keepsFlags_ok (ht.of rfl rfl)

theorem bodyTxInv_keepsFlags (s : State) (h : FlagsMeet P s) : KeepsFlags P (bodyTxInv s) :=
  keepsFlags_bind (request_keepsFlags _ s h) fun _ _ ht => keepsFlags_ok (ht.of rfl rfl)

theorem bodyZzFlat_keepsFlags (s : State) (h : FlagsMeet P s) : KeepsFlags P (bodyZzFlat s) := keepsFlags_ok (h.of rfl rfl)

theorem bodyZzUnflat_keepsFlags (s : State) (h : FlagsMeet P s) : KeepsFlags P (bodyZzUnflat s) := keepsFlags_ok (h.of rfl rfl)

theorem bodyRleEnc_keepsFlags (s : State) (h : FlagsMeet P s) : KeepsFlags P (bodyRleEnc s) := keepsFlags_ok (h.of rfl rfl)

theorem bodyRleDec_keepsFlags (s : State) (h : FlagsMeet P s) : KeepsFlags P (bodyRleDec s) := by
  refine keepsFlags_bind (ofCheck_keepsFlags _ s h) fun _ t ht => ?_
  split
  · exact keepsFlags_raised ht
  · exact keepsFlags_ok (ht.of rfl rfl)

theorem bodyCbAccum_keepsFlags (s : State) (h : FlagsMeet P s) : KeepsFlags P (bodyCbAccum s) :=
  keepsFlags_bind (ofCheck_keepsFlags _ s h) fun _ _ ht => keepsFlags_ok (ht.of rfl rfl)

theorem bodyCbBuild_keepsFlags (s : State) (h : FlagsMeet P s) : KeepsFlags P (bodyCbBuild s) := keepsFlags_ok (h.of rfl rfl)

theorem bodyCbEncode_keepsFlags (s : State) (h : FlagsMeet P s) : KeepsFlags P (bodyCbEncode s) :=
  keepsFlags_bind (ofCheck_keepsFlags _ s h) fun _ _ ht => keepsFlags_ok (ht.of rfl rfl)

theorem bodyCbDecode_keepsFlags (s : State) (h : FlagsMeet P s) : KeepsFlags P (bodyCbDecode s) :=
  keepsFlags_bind (ofCheck_keepsFlags _ s h) fun _ _ ht => keepsFlags_ok (ht.of rfl rfl)

theorem bodyCbLoad_keepsFlags (s : State) (h : FlagsMeet P s) : KeepsFlags P (bodyCbLoad s) :=
  keepsFlags_bind (ofCheck_keepsFlags _ s h) fun _ _ ht => keepsFlags_ok (ht.of rfl rfl)

theorem bodyCbRead_keepsFlags (s : State) (h : FlagsMeet P s) : KeepsFlags P (bodyCbRead s) := by
  unfold bodyCbRead
  split
  · exact keepsFlags_raised h
  · exact keepsFlags_ok (h.of rfl rfl)

theorem fetchBlock_keepsFlags (row col : Nat) (s : State) (h : FlagsMeet P s) : KeepsFlags P (fetchBlock row col s) := by
  refine forCount_keepsFlags (fun n s h => ?_) 64 0 s h
  unfold fetchCell
  split
  · exact keepsFlags_bind (memRead8_keepsFlags _ s h) fun _ _ ht => keepsFlags_ok (ht.of rfl rfl)
  · exact keepsFlags_ok (h.of rfl rfl)

theorem storeBlock_keepsFlags (row col : Nat) (s : State) (h : FlagsMeet P s) : KeepsFlags P (storeBlock row col s) := by
  refine forCount_keepsFlags (fun n s h => ?_) 64 0 s h
  unfold storeCell
  split
  · exact memWrite8_keepsFlags _ _ s h
  · exact keepsFlags_ok h

theorem streamPairs_keepsFlags (ws : List Word) (s : State) (h : FlagsMeet P s) : KeepsFlags P (streamPairs ws s) := by
  induction ws generalizing s with
  | nil => exact keepsFlags_ok h
  | cons w ws ih =>
    unfold streamPairs
    split
    · exact keepsFlags_raised h
    · exact keepsFlags_bind (memWrite32_keepsFlags _ _ s h) fun _ t ht => ih _ (ht.of rfl rfl)

theorem substWord_keepsFlags (t : Nat) (s : State) (h : FlagsMeet P s) : KeepsFlags P (substWord t s) := by
  refine keepsFlags_bind (memRead32_keepsFlags _ s h) fun w s h => ?_
  split
  · exact keepsFlags_raised h
  · split
    · exact keepsFlags_raised h
    · exact keepsFlags_bind (memWrite32_keepsFlags _ _ s h) fun _ _ ht => keepsFlags_ok (ht.of rfl rfl)

theorem checkRegions_keepsFlags (g k : Region) (s : State) (h : FlagsMeet P s) : KeepsFlags P (checkRegions g k s) := by
  unfold checkRegions
  split
  · exact ensures_refused.2 trivial
  · exact keepsFlags_ok h

theorem validateWords_keepsFlags (left : Nat) (s : State) (h : FlagsMeet P s) : KeepsFlags P (validateWords left s) := by
  induction left generalizing s with
  | zero => exact keepsFlags_raised h
  | succ k ih =>
    unfold validateWords
    refine keepsFlags_bind (memRead32_keepsFlags _ s h) fun w s h => ?_
    split
    · exact keepsFlags_raised h
    split
    · exact keepsFlags_raised h
    split
    · exact keepsFlags_raised h
    dsimp only
    split
    · split
      · exact keepsFlags_raised (h.of rfl rfl)
      · exact keepsFlags_ok (h.of rfl rfl)
    · exact ih _ (h.of rfl rfl)

theorem validatePhase_keepsFlags (s : State) (h : FlagsMeet P s) : KeepsFlags P (validatePhase s) := by
  refine keepsFlags_bind (forCount_keepsFlags (fun _ s h => validateWords_keepsFlags _ (s.setSum 0) (h.of rfl rfl)) _ 0 _
    (h.of rfl rfl)) fun _ s h => ?_
  split
  · exact keepsFlags_raised h
  · exact keepsFlags_ok h

theorem readPairs_keepsFlags (left m : Nat) (s : State) (h : FlagsMeet P s) : KeepsFlags P (readPairs left m s) := by
  induction left generalizing m s with
  | zero => exact keepsFlags_raised h
  | succ k ih =>
    unfold readPairs
    split
    · exact keepsFlags_raised h
    · refine keepsFlags_bind (memRead32_keepsFlags _ s h) fun w s h => ?_
      dsimp only
      split
      · exact keepsFlags_ok (h.of rfl rfl)
      · exact ih _ _ (h.of rfl rfl)

end AnyFlags

/-- A claim about the flags that setting SAT cannot make false. -/
def GrowsSat (P : Status → Prop) : Prop := ∀ st b, P st → P { st with sat := st.sat || b }

/-- A claim about the flags that setting QV cannot make false. -/
def GrowsQv (P : Status → Prop) : Prop := ∀ st, P st → P { st with qv := true }

section GrowingFlags
variable {P : Status → Prop}

theorem bodyQgen_keepsFlags (hq : GrowsQv P) (s : State) (h : FlagsMeet P s) : KeepsFlags P (bodyQgen s) := by
  unfold bodyQgen
  split
  · exact keepsFlags_raised h
  · exact keepsFlags_ok ⟨h.alone, hq _ h.flags⟩

theorem bodyQuant_keepsFlags (hs : GrowsSat P) (s : State) (h : FlagsMeet P s) : KeepsFlags P (bodyQuant s) := by
  unfold bodyQuant
  split
  · exact keepsFlags_raised h
  · exact keepsFlags_ok ⟨h.alone, hs _ _ h.flags⟩

theorem bodyDequant_keepsFlags (hs : GrowsSat P) (s : State) (h : FlagsMeet P s) : KeepsFlags P (bodyDequant s) := by
  unfold bodyDequant
  split
  · exact keepsFlags_raised h
  · exact keepsFlags_ok ⟨h.alone, hs _ _ h.flags⟩

theorem compressBlock_keepsFlags (hs : GrowsSat P) (b : Nat) (s : State) (h : FlagsMeet P s) : KeepsFlags P (compressBlock b s) := by
  refine keepsFlags_bind (fetchBlock_keepsFlags _ _ (s.atBlock b) (h.of rfl rfl)) fun _ s h => ?_
  refine keepsFlags_bind (bodyTxFwd_keepsFlags s h) fun _ s h => ?_
  refine keepsFlags_bind (bodyQuant_keepsFlags hs s h) fun _ s h => ?_
  refine keepsFlags_bind (bodyZzFlat_keepsFlags s h) fun _ s h => ?_
  refine keepsFlags_bind (bodyRleEnc_keepsFlags s h) fun _ s h => ?_
  refine keepsFlags_bind (bodyCbAccum_keepsFlags s h) fun _ s h => ?_
  exact keepsFlags_bind (streamPairs_keepsFlags _ s h) fun _ s h => keepsFlags_ok (h.of rfl rfl)

theorem bodySeqCompress_keepsFlags (hs : GrowsSat P) (hq : GrowsQv P) (s : State) (h : FlagsMeet P s) : KeepsFlags P (bodySeqCompress s) := by
  refine keepsFlags_bind (ofCheck_keepsFlags _ s h) fun _ s h => ?_
  refine keepsFlags_bind (checkRegions_keepsFlags _ _ s h) fun _ s h => ?_
  refine keepsFlags_bind (bodyQgen_keepsFlags hq s h) fun _ s h => ?_
  refine keepsFlags_bind (forCount_keepsFlags (compressBlock_keepsFlags hs) _ 0 _ (h.of rfl rfl)) fun _ s h => ?_
  refine keepsFlags_bind (bodyCbBuild_keepsFlags _ (h.of rfl rfl)) fun _ s h => ?_
  refine keepsFlags_bind (forCount_keepsFlags substWord_keepsFlags _ 0 _ (h.of rfl rfl)) fun _ s h => ?_
  exact keepsFlags_ok (h.of rfl rfl)

theorem decompressBlock_keepsFlags (hs : GrowsSat P) (b : Nat) (s : State) (h : FlagsMeet P s) : KeepsFlags P (decompressBlock b s) := by
  refine keepsFlags_bind (readPairs_keepsFlags _ 0 (s.atBlock b) (h.of rfl rfl)) fun m s h => ?_
  refine keepsFlags_bind (bodyCbDecode_keepsFlags _ (h.of rfl rfl)) fun _ s h => ?_
  refine keepsFlags_bind (bodyRleDec_keepsFlags s h) fun _ s h => ?_
  refine keepsFlags_bind (bodyZzUnflat_keepsFlags s h) fun _ s h => ?_
  refine keepsFlags_bind (bodyDequant_keepsFlags hs s h) fun _ s h => ?_
  refine keepsFlags_bind (bodyTxInv_keepsFlags s h) fun _ s h => ?_
  exact keepsFlags_bind (storeBlock_keepsFlags _ _ s h) fun _ s h => keepsFlags_ok (h.of rfl rfl)

theorem bodySeqDecompress_keepsFlags (hs : GrowsSat P) (hq : GrowsQv P) (s : State) (h : FlagsMeet P s) : KeepsFlags P (bodySeqDecompress s) := by
  refine keepsFlags_bind (ofCheck_keepsFlags _ s h) fun _ s h => ?_
  refine keepsFlags_bind (checkRegions_keepsFlags _ _ s h) fun _ s h => ?_
  refine keepsFlags_bind (bodyQgen_keepsFlags hq s h) fun _ s h => ?_
  refine keepsFlags_bind (validatePhase_keepsFlags _ (h.of rfl rfl)) fun _ s h => ?_
  exact forCount_keepsFlags (decompressBlock_keepsFlags hs) _ 0 _ (h.of rfl rfl)

end GrowingFlags

theorem sequenceEnd_keepsFlags {P : Status → Prop} {r : Run Unit} (h : KeepsFlags P r) : KeepsFlags P (sequenceEnd r) :=
  keepsFlags_atEnd h (fun _ h => h.of rfl rfl) fun _ _ h => h.of rfl rfl

/-- Every command that no host transaction disturbs is a body that keeps a claim about the flags, and its end; the claim must
survive the setting of QV, and of SAT if the command may set it. -/
theorem exec_eq_finish_keepsFlags {P : Status → Prop} (hq : GrowsQv P) (i : Instr)
    (hs : i ∈ ([.quant, .dequant, .seqCompress, .seqDecompress] : List Instr) → GrowsSat P) {s : State} (h : FlagsMeet P s) :
    ∃ r, exec i s = finish r ∧ KeepsFlags P r := by
  cases i with
  | nop => exact ⟨.ok () s, rfl, keepsFlags_ok h⟩
  | qgen => exact ⟨_, rfl, bodyQgen_keepsFlags hq s h⟩
  | quant => exact ⟨_, rfl, bodyQuant_keepsFlags (hs (by decide)) s h⟩
  | dequant => exact ⟨_, rfl, bodyDequant_keepsFlags (hs (by decide)) s h⟩
  | txFwd => exact ⟨_, rfl, bodyTxFwd_keepsFlags s h⟩
  | txInv => exact ⟨_, rfl, bodyTxInv_keepsFlags s h⟩
  | zzFlat => exact ⟨_, rfl, bodyZzFlat_keepsFlags s h⟩
  | zzUnflat => exact ⟨_, rfl, bodyZzUnflat_keepsFlags s h⟩
  | rleEnc => exact ⟨_, rfl, bodyRleEnc_keepsFlags s h⟩
  | rleDec => exact ⟨_, rfl, bodyRleDec_keepsFlags s h⟩
  | cbClear => exact ⟨bodyCbClear s, rfl, keepsFlags_ok (h.of rfl rfl)⟩
  | cbAccum => exact ⟨_, rfl, bodyCbAccum_keepsFlags s h⟩
  | cbBuild => exact ⟨_, rfl, bodyCbBuild_keepsFlags s h⟩
  | cbEncode => exact ⟨_, rfl, bodyCbEncode_keepsFlags s h⟩
  | cbDecode => exact ⟨_, rfl, bodyCbDecode_keepsFlags s h⟩
  | cbLoad => exact ⟨_, rfl, bodyCbLoad_keepsFlags s h⟩
  | cbRead => exact ⟨_, rfl, bodyCbRead_keepsFlags s h⟩
  | padFetch =>
    refine ⟨_, rfl, keepsFlags_atEnd
      (keepsFlags_bind (ofCheck_keepsFlags _ s h) fun _ s h => fetchBlock_keepsFlags _ _ s h) (fun _ h => h) fun c t ht => ?_⟩
    unfold fetchFailed
    split
    · exact ht.of rfl rfl
    · exact ht
  | cropStore => exact ⟨_, rfl, keepsFlags_bind (ofCheck_keepsFlags _ s h) fun _ s h => storeBlock_keepsFlags _ _ s h⟩
  | seqCompress => exact ⟨_, rfl, sequenceEnd_keepsFlags (bodySeqCompress_keepsFlags (hs (by decide)) hq s h)⟩
  | seqDecompress => exact ⟨_, rfl, sequenceEnd_keepsFlags (bodySeqDecompress_keepsFlags (hs (by decide)) hq s h)⟩

/-- The end of a command leaves SAT and QV as its body left them. -/
theorem finish_flags {r : Run Unit} {t : State} {P : Status → Prop} (hP : ∀ st st', st'.sat = st.sat → st'.qv = st.qv → P st → P st')
    (h : KeepsFlags P r) (ht : finish r = .next t) : P t.status := by
  rcases finish_next ht with ⟨s, rfl, rfl⟩ | ⟨c, i, s, rfl, rfl⟩ | rfl
  · exact hP s.status _ rfl rfl (ensures_ok.1 h).flags
  · exact hP s.status _ rfl rfl (ensures_raised.1 h).flags
  · exact (ensures_abandoned.1 h).elim

/-- A claim about SAT and QV alone that every piece of the command keeps holds after the command. -/
theorem exec_flags {P : Status → Prop} (hP : ∀ st st', st'.sat = st.sat → st'.qv = st.qv → P st → P st') (hq : GrowsQv P)
    {i : Instr} (hs : i ∈ ([.quant, .dequant, .seqCompress, .seqDecompress] : List Instr) → GrowsSat P) {s t : State}
    (ha : s.Alone) (h : P s.status) (ht : exec i s = .next t) : P t.status := by
  obtain ⟨r, hr, hk⟩ := exec_eq_finish_keepsFlags hq i hs ⟨ha, h⟩
  exact finish_flags hP hk (hr ▸ ht)

/-- Settles O21: no piece of a command clears SAT or QV, and only QUANT and DEQUANT write SAT. -/
theorem stickyFlags : Obligations.StickyFlags := by
  intro i s t ha ht
  refine ⟨fun h => ?_, fun h => ?_, fun hi => ?_⟩
  · exact exec_flags (P := fun st => st.sat = true) (fun _ _ e _ h => e.trans h) (fun _ h => h)
      (fun _ st b h => by simp [h]) ha h ht
  · exact exec_flags (P := fun st => st.qv = true) (fun _ _ _ e h => e.trans h) (fun _ _ => rfl) (fun _ _ _ h => h) ha h ht
  · exact exec_flags (P := fun st => st.sat = s.status.sat) (fun _ _ e _ h => e.trans h) (fun _ h => h)
      (fun h => absurd h hi) ha rfl ht

end Sys2Proof.Machine
end

section
/-! SUPPORT. The transactions of an undisturbed command, and what memory holds after them (20_memory.md R71, R74, R75). -/

namespace Sys2Proof.Machine

/-! ### Transactions done -/

/-- The state after the transactions `l` have been answered as ordinary memory answers: memory has performed them. -/
def State.did (l : List Request) (s : State) : State :=
  { s with
    seq := { s.seq with inflight := if l.isEmpty then s.seq.inflight else none }
    mem := l.foldl Request.perform s.mem
    busLog := l.reverse ++ s.busLog }

section Did
variable (l : List Request) (s : State)

@[simp] theorem State.did_regs : (s.did l).regs = s.regs := rfl
@[simp] theorem State.did_status : (s.did l).status = s.status := rfl
@[simp] theorem State.did_cbuf : (s.did l).cbuf = s.cbuf := rfl
@[simp] theorem State.did_qbuf : (s.did l).qbuf = s.qbuf := rfl
@[simp] theorem State.did_zbuf : (s.did l).zbuf = s.zbuf := rfl
@[simp] theorem State.did_pbuf : (s.did l).pbuf = s.pbuf := rfl
@[simp] theorem State.did_pcount : (s.did l).pcount = s.pcount := rfl
@[simp] theorem State.did_qmat : (s.did l).qmat = s.qmat := rfl
@[simp] theorem State.did_cb : (s.did l).cb = s.cb := rfl
@[simp] theorem State.did_mem : (s.did l).mem = l.foldl Request.perform s.mem := rfl
@[simp] theorem State.did_memResp : (s.did l).memResp = s.memResp := rfl
@[simp] theorem State.did_busLog : (s.did l).busLog = l.reverse ++ s.busLog := rfl
@[simp] theorem State.did_rst : (s.did l).rst = s.rst := rfl
@[simp] theorem State.did_hostIn : (s.did l).hostIn = s.hostIn := rfl
@[simp] theorem State.did_hostOut : (s.did l).hostOut = s.hostOut := rfl
@[simp] theorem State.did_draws : (s.did l).draws = s.draws := rfl
@[simp] theorem State.did_cbDepthLessOne : (s.did l).cbDepthLessOne = s.cbDepthLessOne := rfl
@[simp] theorem State.did_cmd : (s.did l).seq.cmd = s.seq.cmd := rfl
@[simp] theorem State.did_row : (s.did l).seq.row = s.seq.row := rfl
@[simp] theorem State.did_col : (s.did l).seq.col = s.seq.col := rfl
@[simp] theorem State.did_j : (s.did l).seq.j = s.seq.j := rfl
@[simp] theorem State.did_sum : (s.did l).seq.sum = s.seq.sum := rfl

theorem State.did_nil : s.did [] = s := rfl

theorem State.did_append (l' : List Request) : s.did (l ++ l') = (s.did l).did l' := by
  unfold State.did
  simp only [List.foldl_append, List.reverse_append, List.append_assoc]
  cases l <;> cases l' <;> rfl

/-- Only the host's queue and the Memory agent's answers decide whether a command is disturbed. -/
theorem State.Undisturbed.of {s t : State} (h : s.Undisturbed) (hq : t.hostIn = s.hostIn) (hr : t.memResp = s.memResp) :
    t.Undisturbed := ⟨by unfold State.Alone; rw [hq]; exact h.1, hr.trans h.2⟩

theorem did_undisturbed {s : State} (h : s.Undisturbed) (l : List Request) : (s.did l).Undisturbed := h.of rfl rfl

end Did

/-- CBUF replaced. -/
def State.withCbuf (x : Block 32) (s : State) : State := { s with cbuf := x }

section
variable (x : Block 32) (s : State)

@[simp] theorem State.withCbuf_cbuf : (s.withCbuf x).cbuf = x := rfl
@[simp] theorem State.withCbuf_regs : (s.withCbuf x).regs = s.regs := rfl
@[simp] theorem State.withCbuf_status : (s.withCbuf x).status = s.status := rfl
@[simp] theorem State.withCbuf_qbuf : (s.withCbuf x).qbuf = s.qbuf := rfl
@[simp] theorem State.withCbuf_zbuf : (s.withCbuf x).zbuf = s.zbuf := rfl
@[simp] theorem State.withCbuf_pbuf : (s.withCbuf x).pbuf = s.pbuf := rfl
@[simp] theorem State.withCbuf_pcount : (s.withCbuf x).pcount = s.pcount := rfl
@[simp] theorem State.withCbuf_qmat : (s.withCbuf x).qmat = s.qmat := rfl
@[simp] theorem State.withCbuf_cb : (s.withCbuf x).cb = s.cb := rfl
@[simp] theorem State.withCbuf_seq : (s.withCbuf x).seq = s.seq := rfl
@[simp] theorem State.withCbuf_mem : (s.withCbuf x).mem = s.mem := rfl
@[simp] theorem State.withCbuf_memResp : (s.withCbuf x).memResp = s.memResp := rfl
@[simp] theorem State.withCbuf_busLog : (s.withCbuf x).busLog = s.busLog := rfl
@[simp] theorem State.withCbuf_rst : (s.withCbuf x).rst = s.rst := rfl
@[simp] theorem State.withCbuf_hostIn : (s.withCbuf x).hostIn = s.hostIn := rfl
@[simp] theorem State.withCbuf_hostOut : (s.withCbuf x).hostOut = s.hostOut := rfl
@[simp] theorem State.withCbuf_draws : (s.withCbuf x).draws = s.draws := rfl
@[simp] theorem State.withCbuf_cbDepthLessOne : (s.withCbuf x).cbDepthLessOne = s.cbDepthLessOne := rfl

end

theorem State.did_withCbuf (l : List Request) (x : Block 32) (s : State) : (s.withCbuf x).did l = (s.did l).withCbuf x := rfl

theorem State.withCbuf_withCbuf (x y : Block 32) (s : State) : (s.withCbuf x).withCbuf y = s.withCbuf y := rfl

theorem State.Undisturbed.withCbuf {s : State} (h : s.Undisturbed) (x : Block 32) : (s.withCbuf x).Undisturbed := h.of rfl rfl

section Undisturbed
variable {s : State} (h : s.Undisturbed)
include h

theorem memRead8_did (a : Addr) : memRead8 a s = .ok (s.byte a) (s.did [.read8 a]) := memRead8_undisturbed h a

theorem memRead32_did (a : Addr) : memRead32 a s = .ok (memGet32 s.mem a) (s.did [.read32 a]) := memRead32_undisturbed h a

theorem memWrite8_did (a : Addr) (v : Byte) : memWrite8 a v s = .ok () (s.did [.write8 a v]) := memWrite8_undisturbed h a v

theorem memWrite32_did (a : Addr) (w : Word) : memWrite32 a w s = .ok () (s.did [.write32 a w]) := memWrite32_undisturbed h a w

theorem bodyTxFwd_did : bodyTxFwd s = .ok () ((s.did [.txFwd s.cbuf]).withCbuf (txFwd s.cbuf)) := bodyTxFwd_undisturbed h.1

theorem bodyTxInv_did : bodyTxInv s = .ok () ((s.did [.txInv s.cbuf]).withCbuf (txInv s.cbuf)) := bodyTxInv_undisturbed h.1

end Undisturbed

/-! ### What memory holds after transactions -/

/-- Whether a transaction stores to a byte. -/
def Request.stores : Request → Addr → Bool
  | .write8 b _, a => a == b
  | .write32 b _, a => decide ((a - b).toNat < 4)
  | .read8 _, _ | .read32 _, _ | .txFwd _, _ | .txInv _, _ => false

theorem write8_stores_eq_false (b : Addr) (v : Byte) (a : Addr) : (Request.write8 b v).stores a = false ↔ a ≠ b := by
  simp [Request.stores]

theorem write32_stores_eq_false (b : Addr) (w : Word) (a : Addr) :
    (Request.write32 b w).stores a = false ↔ 4 ≤ (a - b).toNat := by
  simp [Request.stores]

theorem perform_wf {m : List Host.Cell} (h : Memory.wf m = true) (r : Request) : Memory.wf (r.perform m) = true := by
  cases r with
  | write8 a v => exact memSet_wf h a v
  | write32 a w => exact memSet32_wf h a w
  | read8 _ | read32 _ | txFwd _ | txInv _ => exact h

theorem foldl_perform_wf {m : List Host.Cell} (h : Memory.wf m = true) (l : List Request) :
    Memory.wf (l.foldl Request.perform m) = true :=
  List.foldlRecOn (motive := fun m => Memory.wf m = true) l Request.perform h fun _ hm r _ => perform_wf hm r

/-- A byte that a transaction does not store to keeps its value. -/
theorem memGet_perform {m : List Host.Cell} (h : Memory.wf m = true) {r : Request} {a : Addr} (hr : r.stores a = false) :
    memGet (r.perform m) a.toNat = memGet m a.toNat := by
  cases r with
  | write8 b v =>
    exact memGet_memSet_other h v fun he => (write8_stores_eq_false b v a).1 hr (BitVec.eq_of_toNat_eq he).symm
  | write32 b w =>
    have hn := (write32_stores_eq_false b w a).1 hr
    have ne (i : Addr) (hi : i.toNat < 4) : (b + i).toNat ≠ a.toNat := fun he => by
      rw [← BitVec.eq_of_toNat_eq he, add_sub_cancel_left] at hn
      omega
    exact memGet_memSet32_other h w (by simpa using ne 0 (by decide)) (ne 1 (by decide)) (ne 2 (by decide)) (ne 3 (by decide))
  | read8 _ | read32 _ | txFwd _ | txInv _ => rfl

theorem memGet_foldl_perform {m : List Host.Cell} (h : Memory.wf m = true) {l : List Request} {a : Addr}
    (hl : ∀ r ∈ l, r.stores a = false) : memGet (l.foldl Request.perform m) a.toNat = memGet m a.toNat := by
  induction l generalizing m with
  | nil => rfl
  | cons r l ih =>
    rw [List.foldl_cons, ih (perform_wf h r) fun q hq => hl q (List.mem_cons_of_mem _ hq), memGet_perform h (hl r List.mem_cons_self)]

/-- The transactions that store nothing. -/
def Request.pure : Request → Bool
  | .write8 _ _ | .write32 _ _ => false
  | .read8 _ | .read32 _ | .txFwd _ | .txInv _ => true

theorem foldl_perform_pure {l : List Request} (hl : ∀ r ∈ l, r.pure = true) (m : List Host.Cell) :
    l.foldl Request.perform m = m := by
  induction l with
  | nil => rfl
  | cons r l ih =>
    have hr : r.perform m = m := by
      cases r with
      | write8 _ _ | write32 _ _ => exact nomatch hl _ List.mem_cons_self
      | read8 _ | read32 _ | txFwd _ | txInv _ => rfl
    rw [List.foldl_cons, hr, ih fun q hq => hl q (List.mem_cons_of_mem _ hq)]

end Sys2Proof.Machine
end

section
/-! SUPPORT. The pieces of a sequence that issue transactions, run undisturbed: a block's pixels and a block's stream words
(45_geometry.md R170 to R174; 46_sequencer.md R182, R183). -/

namespace Sys2Proof.Machine

/-! ### The cells of a block, in order -/

theorem take_finRange_succ (n : Fin 64) : (List.finRange 64).take (n.val + 1) = (List.finRange 64).take n.val ++ [n] := by
  rw [← List.take_append_getElem (by simp), List.getElem_finRange]
  rfl

/-- The rule of a loop over the cells, with an invariant indexed by the cells done. -/
theorem forCount_cells {body : Nat → State → Run Unit} {I : List (Fin 64) → State → Prop}
    (step : ∀ (n : Fin 64) s, I ((List.finRange 64).take n.val) s →
      ∃ t, body n.val s = .ok () t ∧ I ((List.finRange 64).take n.val ++ [n]) t) {s : State} (h : I [] s) :
    ∃ t, forCount body 64 0 s = .ok () t ∧ I (List.finRange 64) t := by
  obtain ⟨t, ht, hI⟩ := forCount_ok (I := fun m s => I ((List.finRange 64).take m) s) 64 0
    (fun m s _ hm hs => by
      obtain ⟨t, ht, hI⟩ := step ⟨m, by omega⟩ s hs
      exact ⟨t, ht, by rwa [← take_finRange_succ] at hI⟩) s h
  exact ⟨t, ht, by rwa [List.take_of_length_le (by simp)] at hI⟩

/-- A cell lies in the image. -/
abbrev cellInside (r : Regs) (row col : Nat) (n : Fin 64) : Bool := inBounds r (cellY row n) (cellX col n)

/-- PAD_FETCH's reads of some cells. -/
def cellReads (r : Regs) (row col : Nat) (p : List (Fin 64)) : List Request :=
  (p.filter (cellInside r row col)).map fun n : Fin 64 => .read8 (pixAddr r (cellY row n) (cellX col n))

/-- CROP_STORE's writes of some cells. -/
def cellWrites (r : Regs) (row col : Nat) (x : Block 32) (p : List (Fin 64)) : List Request :=
  (p.filter (cellInside r row col)).map fun n : Fin 64 => .write8 (pixAddr r (cellY row n) (cellX col n)) (pixel x[n])

theorem fetchRequests_eq (r : Regs) (row col : Nat) : fetchRequests r row col = cellReads r row col (List.finRange 64) := rfl

theorem cellReads_append (r : Regs) (row col : Nat) (p q : List (Fin 64)) :
    cellReads r row col (p ++ q) = cellReads r row col p ++ cellReads r row col q := by
  unfold cellReads
  rw [List.filter_append, List.map_append]

theorem cellWrites_append (r : Regs) (row col : Nat) (x : Block 32) (p q : List (Fin 64)) :
    cellWrites r row col x (p ++ q) = cellWrites r row col x p ++ cellWrites r row col x q := by
  unfold cellWrites
  rw [List.filter_append, List.map_append]

theorem pure_of_mem_cellReads {r : Regs} {row col : Nat} {p : List (Fin 64)} : ∀ q ∈ cellReads r row col p, q.pure = true := by
  intro q hq
  obtain ⟨n, _, rfl⟩ := List.mem_map.1 hq
  rfl

theorem inBounds_iff (r : Regs) (y x : Nat) : inBounds r y x = true ↔ y < r.height.toNat ∧ x < r.width.toNat := by
  simp [inBounds]

/-- Cell `n` of the padded block (R170). -/
theorem imageBlock_getElem (s : State) (row col : Nat) (n : Fin 64) : (imageBlock s row col)[n] =
    if cellInside s.regs row col n then sample (s.byte (pixAddr s.regs (cellY row n) (cellX col n))) else sample 0 := by
  simp only [imageBlock, Fin.getElem_fin, Vector.getElem_ofFn]
  exact if_congr (inBounds_iff _ _ _).symm rfl rfl

/-- CBUF while the cells `p` of a block have been fetched. -/
def fetchedCells (s : State) (row col : Nat) (p : List (Fin 64)) : Block 32 :=
  Vector.ofFn fun n => if n ∈ p then (imageBlock s row col)[n] else s.cbuf[n]

theorem fetchedCells_nil (s : State) (row col : Nat) : fetchedCells s row col [] = s.cbuf :=
  Vector.ext fun i hi => by simp [fetchedCells]

theorem fetchedCells_all (s : State) (row col : Nat) : fetchedCells s row col (List.finRange 64) = imageBlock s row col :=
  Vector.ext fun i hi => by simp [fetchedCells]

theorem fetchedCells_append (s : State) (row col : Nat) (n : Fin 64) (p : List (Fin 64)) :
    (fetchedCells s row col p).setIfInBounds n.val (imageBlock s row col)[n] = fetchedCells s row col (p ++ [n]) := by
  refine Vector.ext fun i hi => ?_
  simp only [fetchedCells, Vector.getElem_setIfInBounds, Vector.getElem_ofFn, List.mem_append, List.mem_singleton]
  by_cases h : n.val = i
  · subst h; simp
  · simp [h, show ¬ (⟨i, hi⟩ : Fin 64) = n from fun e => h (by rw [← e])]

/-- One cell of PAD_FETCH on ordinary memory (R173). -/
theorem fetchCell_did {u : State} (h : u.Undisturbed) (row col : Nat) (n : Fin 64) : fetchCell row col n.val u = .ok ()
    ((u.did (cellReads u.regs row col [n])).withCbuf (u.cbuf.setIfInBounds n.val (imageBlock u row col)[n])) := by
  unfold fetchCell cellReads
  rw [imageBlock_getElem]
  cases hc : cellInside u.regs row col n with
  | true =>
    rw [if_pos hc, memRead8_did h, bind_ok, List.filter_cons_of_pos hc]
    rfl
  | false =>
    rw [if_neg (Bool.eq_false_iff.1 hc), List.filter_cons_of_neg (by simp [hc])]
    rfl

/-- One cell of CROP_STORE on ordinary memory (R174). -/
theorem storeCell_did {u : State} (h : u.Undisturbed) (row col : Nat) (n : Fin 64) :
    storeCell row col n.val u = .ok () (u.did (cellWrites u.regs row col u.cbuf [n])) := by
  unfold storeCell cellWrites
  cases hc : cellInside u.regs row col n with
  | true =>
    rw [if_pos hc, memWrite8_did h, List.filter_cons_of_pos hc]
    simp
  | false =>
    rw [if_neg (Bool.eq_false_iff.1 hc), List.filter_cons_of_neg (by simp [hc])]
    rfl

/-- A padded block depends on the image alone. -/
theorem imageBlock_congr {s u : State} (hr : u.regs = s.regs) (hm : u.mem = s.mem) (row col : Nat) :
    imageBlock u row col = imageBlock s row col := by
  unfold imageBlock
  simp only [State.byte, hr, hm]

theorem imageBlock_reads {s : State} {l : List Request} (hl : ∀ q ∈ l, q.pure = true) (x : Block 32) (row col : Nat) :
    imageBlock ((s.did l).withCbuf x) row col = imageBlock s row col :=
  imageBlock_congr (s := s) (u := (s.did l).withCbuf x) rfl (foldl_perform_pure hl s.mem) row col

/-- R173, on ordinary memory: PAD_FETCH of a block reads the in-bounds cells and fills CBUF with the padded block. -/
theorem fetchBlock_did {s : State} (h : s.Undisturbed) (row col : Nat) :
    fetchBlock row col s = .ok () ((s.did (fetchRequests s.regs row col)).withCbuf (imageBlock s row col)) := by
  have loop := forCount_cells (body := fetchCell row col) (s := s)
    (I := fun p u => u = (s.did (cellReads s.regs row col p)).withCbuf (fetchedCells s row col p))
    (by
      rintro n u rfl
      generalize (List.finRange 64).take n.val = p
      rw [fetchCell_did ((did_undisturbed h _).withCbuf _), imageBlock_reads pure_of_mem_cellReads, cellReads_append,
        State.did_append, ← fetchedCells_append, State.did_withCbuf, State.withCbuf_withCbuf, State.withCbuf_cbuf, State.withCbuf_regs,
        State.did_regs]
      exact ⟨_, rfl, rfl⟩)
    (by rw [fetchedCells_nil]; rfl)
  obtain ⟨t, ht, rfl⟩ := loop
  unfold fetchBlock
  rw [ht, fetchRequests_eq, fetchedCells_all]

/-- R174, on ordinary memory: CROP_STORE of a block writes the pixels of its in-bounds cells. -/
theorem storeBlock_did {s : State} (h : s.Undisturbed) (row col : Nat) :
    storeBlock row col s = .ok () (s.did (storeRequests s.regs row col s.cbuf)) := by
  have loop := forCount_cells (body := storeCell row col) (s := s) (I := fun p u => u = s.did (cellWrites s.regs row col s.cbuf p))
    (by
      rintro n u rfl
      rw [cellWrites_append, State.did_append, storeCell_did (did_undisturbed h _)]
      exact ⟨_, rfl, rfl⟩)
    rfl
  obtain ⟨t, ht, rfl⟩ := loop
  exact ht

end Sys2Proof.Machine
end

section
/-! SUPPORT. The stream: its addresses, what memory holds after its words have been written, and the pieces of a sequence that
write and read it, run undisturbed (20_memory.md R75; 46_sequencer.md R182, R183). -/

namespace Sys2Proof.Machine

/-! ### Addresses of stream words -/

theorem strmAddr_congr {r r' : Regs} (h : r'.strmBase = r.strmBase) (j : Nat) : strmAddr r' j = strmAddr r j := by
  unfold strmAddr strmBaseByte
  rw [h]

/-- Byte `d` of stream word `i` lies at distance `4·(i - k) + d` from stream word `k`. -/
theorem strmAddr_sub (r : Regs) {i k d : Nat} (hi : 4 * i + d < 2 ^ 32) (hk : 4 * k < 2 ^ 32) :
    (strmAddr r i + BitVec.ofNat 32 d - strmAddr r k).toNat = (2 ^ 32 - 4 * k + (4 * i + d)) % 2 ^ 32 := by
  unfold strmAddr
  rw [BitVec.add_assoc, ← BitVec.ofNat_add, add_sub_add_left_eq_sub, BitVec.toNat_sub, BitVec.toNat_ofNat, BitVec.toNat_ofNat,
    Nat.mod_eq_of_lt hi, Nat.mod_eq_of_lt hk]

/-- A store to one stream word reaches no byte of another. -/
theorem write32_stores_other (r : Regs) (w : Word) {i k d : Nat} (hi : 4 * (i + 1) ≤ 2 ^ 32) (hk : 4 * (k + 1) ≤ 2 ^ 32)
    (hd : d < 4) (hik : i ≠ k) : (Request.write32 (strmAddr r k) w).stores (strmAddr r i + BitVec.ofNat 32 d) = false := by
  rw [write32_stores_eq_false, strmAddr_sub r (by omega) (by omega)]
  omega

/-- A store to a stream word reaches no byte outside the words up to it. -/
theorem write32_stores_outside (r : Regs) (w : Word) {n k : Nat} (hn : 4 * n ≤ 2 ^ 32) (hk : k < n) {a : Addr}
    (ha : inStream r n a = false) : (Request.write32 (strmAddr r k) w).stores a = false := by
  have hx : 4 * n ≤ (a - strmBaseByte r).toNat := by simpa [inStream, inRegion] using ha
  have hl := (a - strmBaseByte r).isLt
  rw [write32_stores_eq_false, strmAddr, ← sub_sub, BitVec.toNat_sub, BitVec.toNat_ofNat,
    Nat.mod_eq_of_lt (show 4 * k < 2 ^ 32 by omega)]
  omega

/-- The four bytes of a word decide what it reads as. -/
theorem memGet32_congr {m m' : List Host.Cell} {a : Addr}
    (h : ∀ d, d < 4 → memGet m' (a + BitVec.ofNat 32 d).toNat = memGet m (a + BitVec.ofNat 32 d).toNat) :
    memGet32 m' a = memGet32 m a := by
  have h0 : memGet m' a.toNat = memGet m a.toNat := by simpa using h 0 (by decide)
  unfold memGet32
  rw [h0, show memGet m' (a + 1).toNat = memGet m (a + 1).toNat from h 1 (by decide),
    show memGet m' (a + 2).toNat = memGet m (a + 2).toNat from h 2 (by decide),
    show memGet m' (a + 3).toNat = memGet m (a + 3).toNat from h 3 (by decide)]

/-! ### Memory with a stream written -/

/-- Memory after the words `ws` have been written as stream words 0, 1, 2, and so on. -/
def streamed (r : Regs) (ws : List Word) (m : List Host.Cell) : List Host.Cell := (writeRequests r 0 ws).foldl Request.perform m

theorem writeRequests_nil (r : Regs) (j : Nat) : writeRequests r j [] = [] := rfl

theorem writeRequests_cons (r : Regs) (j : Nat) (w : Word) (ws : List Word) :
    writeRequests r j (w :: ws) = .write32 (strmAddr r j) w :: writeRequests r (j + 1) ws := rfl

theorem writeRequests_append (r : Regs) (j : Nat) (xs ys : List Word) :
    writeRequests r j (xs ++ ys) = writeRequests r j xs ++ writeRequests r (j + xs.length) ys := by
  unfold writeRequests
  rw [List.zipIdx_append, List.map_append]

/-! The progress registers play no part in the geometry and the addresses. -/

section Progress
variable (r : Regs) (d p : BitVec 32)

@[simp] theorem blkCols_progress : blkCols { r with blkDone := d, strmPtr := p } = blkCols r := rfl
@[simp] theorem blkCount_progress : blkCount { r with blkDone := d, strmPtr := p } = blkCount r := rfl
@[simp] theorem strmAddr_progress (j : Nat) : strmAddr { r with blkDone := d, strmPtr := p } j = strmAddr r j := rfl
@[simp] theorem fetchRequests_progress (row col : Nat) :
    fetchRequests { r with blkDone := d, strmPtr := p } row col = fetchRequests r row col := rfl
@[simp] theorem storeRequests_progress (row col : Nat) (x : Block 32) :
    storeRequests { r with blkDone := d, strmPtr := p } row col x = storeRequests r row col x := rfl

end Progress

@[simp] theorem writeRequests_progress (r : Regs) (d p : BitVec 32) (j : Nat) (ws : List Word) :
    writeRequests { r with blkDone := d, strmPtr := p } j ws = writeRequests r j ws := rfl

@[simp] theorem readRequests_progress (r : Regs) (d p : BitVec 32) (j k : Nat) :
    readRequests { r with blkDone := d, strmPtr := p } j k = readRequests r j k := rfl

theorem mem_writeRequests {r : Regs} {j : Nat} {ws : List Word} {q : Request} (h : q ∈ writeRequests r j ws) :
    ∃ k w, j ≤ k ∧ k < j + ws.length ∧ q = .write32 (strmAddr r k) w := by
  obtain ⟨⟨w, k⟩, hp, rfl⟩ := List.mem_map.1 h
  obtain ⟨h1, h2, _⟩ := List.mem_zipIdx hp
  exact ⟨k, w, h1, h2, rfl⟩

section Streamed
variable {r : Regs} {m : List Host.Cell} (hm : Memory.wf m = true)
include hm

theorem streamed_wf (ws : List Word) : Memory.wf (streamed r ws m) = true := foldl_perform_wf hm _

/-- The bytes outside the words written are as they were. -/
theorem memGet_streamed {ws : List Word} (hl : 4 * ws.length ≤ 2 ^ 32) {a : Addr} (ha : inStream r ws.length a = false) :
    memGet (streamed r ws m) a.toNat = memGet m a.toNat := by
  refine memGet_foldl_perform hm fun q hq => ?_
  obtain ⟨k, w, _, hk, rfl⟩ := mem_writeRequests hq
  exact write32_stores_outside r w hl (by omega) ha

/-- Word `i` of the stream is the one written there, or else as it was. -/
theorem memGet32_streamed {ws : List Word} {i : Nat} (hl : 4 * ws.length ≤ 2 ^ 32) (hi : 4 * (i + 1) ≤ 2 ^ 32) :
    memGet32 (streamed r ws m) (strmAddr r i) = (ws[i]?).getD (memGet32 m (strmAddr r i)) := by
  induction ws using List.reverseRecOn with
  | nil => rfl
  | append_singleton ws w ih =>
    simp only [List.length_append, List.length_singleton] at hl
    have ih := ih (by omega)
    have hw := streamed_wf (r := r) hm ws
    have e : streamed r (ws ++ [w]) m = (Request.write32 (strmAddr r ws.length) w).perform (streamed r ws m) := by
      unfold streamed
      rw [writeRequests_append, List.foldl_append, Nat.zero_add]
      rfl
    rw [e]
    by_cases hk : i = ws.length
    · subst hk
      rw [List.getElem?_concat_length]
      exact memGet32_memSet32 hw _ w
    · rw [memGet32_congr fun d hd => memGet_perform hw (write32_stores_other r w hi (by omega) hd hk), ih]
      rcases Nat.lt_or_ge i ws.length with h | h
      · rw [List.getElem?_append_left h]
      · rw [List.getElem?_eq_none h, List.getElem?_eq_none (by simp; omega)]

end Streamed

theorem streamed_append (r : Regs) (xs ys : List Word) (m : List Host.Cell) :
    streamed r (xs ++ ys) m = (writeRequests r xs.length ys).foldl Request.perform (streamed r xs m) := by
  unfold streamed
  rw [writeRequests_append, List.foldl_append, Nat.zero_add]

/-! ### The position in the stream -/

/-- `j <- k; STRM_PTR <- j`. -/
def State.atWord (k : Nat) (s : State) : State :=
  { s with seq := { s.seq with j := k }, regs := { s.regs with strmPtr := pat32 k } }

section AtWord
variable (k : Nat) (s : State)

@[simp] theorem State.atWord_regs : (s.atWord k).regs = { s.regs with strmPtr := pat32 k } := rfl
@[simp] theorem State.atWord_status : (s.atWord k).status = s.status := rfl
@[simp] theorem State.atWord_cbuf : (s.atWord k).cbuf = s.cbuf := rfl
@[simp] theorem State.atWord_qbuf : (s.atWord k).qbuf = s.qbuf := rfl
@[simp] theorem State.atWord_zbuf : (s.atWord k).zbuf = s.zbuf := rfl
@[simp] theorem State.atWord_pbuf : (s.atWord k).pbuf = s.pbuf := rfl
@[simp] theorem State.atWord_pcount : (s.atWord k).pcount = s.pcount := rfl
@[simp] theorem State.atWord_qmat : (s.atWord k).qmat = s.qmat := rfl
@[simp] theorem State.atWord_cb : (s.atWord k).cb = s.cb := rfl
@[simp] theorem State.atWord_j : (s.atWord k).seq.j = k := rfl
@[simp] theorem State.atWord_sum : (s.atWord k).seq.sum = s.seq.sum := rfl
@[simp] theorem State.atWord_row : (s.atWord k).seq.row = s.seq.row := rfl
@[simp] theorem State.atWord_col : (s.atWord k).seq.col = s.seq.col := rfl
@[simp] theorem State.atWord_mem : (s.atWord k).mem = s.mem := rfl
@[simp] theorem State.atWord_memResp : (s.atWord k).memResp = s.memResp := rfl
@[simp] theorem State.atWord_busLog : (s.atWord k).busLog = s.busLog := rfl
@[simp] theorem State.atWord_rst : (s.atWord k).rst = s.rst := rfl
@[simp] theorem State.atWord_hostIn : (s.atWord k).hostIn = s.hostIn := rfl
@[simp] theorem State.atWord_hostOut : (s.atWord k).hostOut = s.hostOut := rfl
@[simp] theorem State.atWord_draws : (s.atWord k).draws = s.draws := rfl
@[simp] theorem State.atWord_cbDepthLessOne : (s.atWord k).cbDepthLessOne = s.cbDepthLessOne := rfl

theorem State.nextWord_eq_atWord : s.nextWord = s.atWord (s.seq.j + 1) := rfl

theorem State.atWord_atWord (i : Nat) : (s.atWord i).atWord k = s.atWord k := rfl

theorem State.did_atWord (l : List Request) : (s.atWord k).did l = (s.did l).atWord k := rfl

/-- STRM_PTR is `j` (R37). -/
theorem State.atWord_self {s : State} (hp : s.regs.strmPtr = pat32 s.seq.j) : s.atWord s.seq.j = s := by
  unfold State.atWord
  rw [← hp]

theorem State.Undisturbed.atWord {s : State} (h : s.Undisturbed) (k : Nat) : (s.atWord k).Undisturbed := h.of rfl rfl

end AtWord

/-! ### Writing and reading stream words -/

/-- R182, on ordinary memory: the words of a block that fit the stream's capacity are written, one after the other. -/
theorem streamPairs_did {ws : List Word} {s : State} (h : s.Undisturbed) (hp : s.regs.strmPtr = pat32 s.seq.j)
    (hc : s.seq.j + ws.length ≤ s.regs.strmCap.toNat) :
    streamPairs ws s = .ok () ((s.did (writeRequests s.regs s.seq.j ws)).atWord (s.seq.j + ws.length)) := by
  induction ws generalizing s with
  | nil =>
    rw [writeRequests_nil, State.did_nil, List.length_nil, Nat.add_zero, State.atWord_self hp]
    rfl
  | cons w ws ih =>
    rw [List.length_cons] at hc
    unfold streamPairs
    rw [if_neg (by omega), memWrite32_did h, bind_ok, State.nextWord_eq_atWord,
      ih (((did_undisturbed h _).atWord _)) rfl (by simp only [State.atWord_j, State.did_j, State.atWord_regs, State.did_regs]; omega),
      State.did_atWord, State.atWord_atWord, ← State.did_append, writeRequests_cons, List.length_cons]
    simp only [State.atWord_j, State.did_j, State.atWord_regs, State.did_regs, writeRequests_progress, List.singleton_append, Nat.add_assoc, Nat.add_comm 1]

/-- R182, on ordinary memory: the words of a block that do not all fit are written up to the capacity, and STREAM_OVERFLOW raised. -/
theorem streamPairs_overflow {ws : List Word} {s : State} (h : s.Undisturbed) (hp : s.regs.strmPtr = pat32 s.seq.j)
    (hj : s.seq.j ≤ s.regs.strmCap.toNat) (hc : s.regs.strmCap.toNat < s.seq.j + ws.length) :
    streamPairs ws s = .raised .streamOverflow s.regs.strmCap
      ((s.did (writeRequests s.regs s.seq.j (ws.take (s.regs.strmCap.toNat - s.seq.j)))).atWord s.regs.strmCap.toNat) := by
  induction ws generalizing s with
  | nil => simp at hc; omega
  | cons w ws ih =>
    rw [List.length_cons] at hc
    unfold streamPairs
    split
    · have e : s.regs.strmCap.toNat = s.seq.j := by omega
      rw [e, Nat.sub_self, List.take_zero, writeRequests_nil, State.did_nil, State.atWord_self hp]
    · rw [memWrite32_did h, bind_ok, State.nextWord_eq_atWord,
        ih (((did_undisturbed h _).atWord _)) rfl (by simp only [State.atWord_j, State.did_j, State.atWord_regs, State.did_regs]; omega)
          (by simp only [State.atWord_j, State.did_j, State.atWord_regs, State.did_regs]; omega),
        State.did_atWord, State.atWord_atWord, ← State.did_append]
      simp only [State.atWord_j, State.did_j, State.atWord_regs, State.did_regs, writeRequests_progress]
      rw [show s.regs.strmCap.toNat - s.seq.j = s.regs.strmCap.toNat - (s.seq.j + 1) + 1 by omega, List.take_succ_cons,
        writeRequests_cons]
      rfl

/-- PBUF after words have been put in it from index `m` on, as SEQ_DECOMPRESS puts them (R183). -/
def putPairs (p : Block 32) (m : Nat) : List Word → Block 32
  | [] => p
  | w :: ws => putPairs (p.setIfInBounds m (maskPair w)) (m + 1) ws

theorem putPairs_getElem (p : Block 32) (m : Nat) (ws : List Word) (i : Nat) (hi : i < 64) : (putPairs p m ws)[i] =
    if m ≤ i then ((ws[i - m]?).map maskPair).getD p[i] else p[i] := by
  induction ws generalizing p m with
  | nil => simp [putPairs]
  | cons w ws ih =>
    rw [putPairs, ih, Vector.getElem_setIfInBounds]
    rcases Nat.lt_trichotomy i m with h | rfl | h
    · simp [show ¬ m ≤ i by omega, show ¬ m + 1 ≤ i by omega, show m ≠ i by omega]
    · simp
    · rw [if_pos (show m + 1 ≤ i by omega), if_pos (show m ≤ i by omega), if_neg (show m ≠ i by omega), show i - m = i - (m + 1) + 1 by omega, List.getElem?_cons_succ]

/-- PBUF replaced. -/
def State.withPbuf (p : Block 32) (s : State) : State := { s with pbuf := p }

section WithPbuf
variable (p : Block 32) (s : State)

@[simp] theorem State.withPbuf_regs : (s.withPbuf p).regs = s.regs := rfl
@[simp] theorem State.withPbuf_status : (s.withPbuf p).status = s.status := rfl
@[simp] theorem State.withPbuf_cbuf : (s.withPbuf p).cbuf = s.cbuf := rfl
@[simp] theorem State.withPbuf_qbuf : (s.withPbuf p).qbuf = s.qbuf := rfl
@[simp] theorem State.withPbuf_zbuf : (s.withPbuf p).zbuf = s.zbuf := rfl
@[simp] theorem State.withPbuf_pbuf : (s.withPbuf p).pbuf = p := rfl
@[simp] theorem State.withPbuf_pcount : (s.withPbuf p).pcount = s.pcount := rfl
@[simp] theorem State.withPbuf_qmat : (s.withPbuf p).qmat = s.qmat := rfl
@[simp] theorem State.withPbuf_cb : (s.withPbuf p).cb = s.cb := rfl
@[simp] theorem State.withPbuf_seq : (s.withPbuf p).seq = s.seq := rfl
@[simp] theorem State.withPbuf_mem : (s.withPbuf p).mem = s.mem := rfl
@[simp] theorem State.withPbuf_memResp : (s.withPbuf p).memResp = s.memResp := rfl
@[simp] theorem State.withPbuf_busLog : (s.withPbuf p).busLog = s.busLog := rfl
@[simp] theorem State.withPbuf_rst : (s.withPbuf p).rst = s.rst := rfl
@[simp] theorem State.withPbuf_hostIn : (s.withPbuf p).hostIn = s.hostIn := rfl
@[simp] theorem State.withPbuf_hostOut : (s.withPbuf p).hostOut = s.hostOut := rfl
@[simp] theorem State.withPbuf_draws : (s.withPbuf p).draws = s.draws := rfl
@[simp] theorem State.withPbuf_cbDepthLessOne : (s.withPbuf p).cbDepthLessOne = s.cbDepthLessOne := rfl

theorem State.did_withPbuf (l : List Request) : (s.withPbuf p).did l = (s.did l).withPbuf p := rfl

theorem State.atWord_withPbuf (k : Nat) : (s.withPbuf p).atWord k = (s.atWord k).withPbuf p := rfl

theorem State.withPbuf_withPbuf (q : Block 32) : (s.withPbuf p).withPbuf q = s.withPbuf q := rfl

theorem State.Undisturbed.withPbuf {s : State} (h : s.Undisturbed) (p : Block 32) : (s.withPbuf p).Undisturbed := h.of rfl rfl

end WithPbuf

theorem readRequests_succ (r : Regs) (j k : Nat) :
    readRequests r j (k + 1) = .read32 (strmAddr r j) :: readRequests r (j + 1) k := by
  unfold readRequests
  rw [List.range'_succ, List.map_cons]

theorem pure_of_mem_readRequests {r : Regs} {j k : Nat} : ∀ q ∈ readRequests r j k, q.pure = true := by
  intro q hq
  obtain ⟨i, _, rfl⟩ := List.mem_map.1 hq
  rfl

/-- The words `ws` stand in memory as stream words from `j` on. -/
def streamHas (r : Regs) (m : List Host.Cell) (j : Nat) (ws : List Word) : Prop :=
  ∀ i (h : i < ws.length), memGet32 m (strmAddr r (j + i)) = ws[i]

theorem streamHas_cons {r : Regs} {m : List Host.Cell} {j : Nat} {w : Word} {ws : List Word} :
    streamHas r m j (w :: ws) ↔ memGet32 m (strmAddr r j) = w ∧ streamHas r m (j + 1) ws := by
  constructor
  · intro h
    refine ⟨h 0 (by simp), fun i hi => ?_⟩
    have := h (i + 1) (by simpa using hi)
    rwa [show j + (i + 1) = j + 1 + i by omega] at this
  · rintro ⟨h0, h⟩ i hi
    cases i with
    | zero => exact h0
    | succ i =>
      have := h i (by simpa using hi)
      rwa [show j + 1 + i = j + (i + 1) by omega] at this

theorem streamHas_append {r : Regs} {m : List Host.Cell} {j : Nat} {xs ys : List Word} :
    streamHas r m j (xs ++ ys) ↔ streamHas r m j xs ∧ streamHas r m (j + xs.length) ys := by
  induction xs generalizing j with
  | nil => simp [streamHas]
  | cons x xs ih =>
    rw [List.cons_append, streamHas_cons, streamHas_cons, ih, and_assoc, List.length_cons,
      show j + 1 + xs.length = j + (xs.length + 1) by omega]

theorem streamHas_congr {r r' : Regs} {m : List Host.Cell} {j : Nat} {ws : List Word} (hr : r'.strmBase = r.strmBase) :
    streamHas r' m j ws ↔ streamHas r m j ws := by
  unfold streamHas
  simp only [strmAddr_congr hr]

/-- EOB is set in the last word of a block and in no other. -/
def eobLast (ws : List Word) : Bool := ws.map eobField == List.replicate (ws.length - 1) false ++ [true]

theorem eobLast_cons (w : Word) (ws : List Word) :
    eobLast (w :: ws) = true ↔ (eobField w = true ∧ ws = []) ∨ (eobField w = false ∧ eobLast ws = true) := by
  cases ws with
  | nil => simp [eobLast]
  | cons v vs =>
    simp [eobLast, List.replicate_succ]

theorem readPairs_succ {m : Nat} (hm : m ≠ 64) (left : Nat) (s : State) :
    readPairs (left + 1) m s = (memRead32 (strmAddr s.regs s.seq.j) s).bind fun w t =>
      if eobField w then .ok (m + 1) ((t.withPbuf (t.pbuf.setIfInBounds m (maskPair w))).atWord (t.seq.j + 1))
      else readPairs left (m + 1) ((t.withPbuf (t.pbuf.setIfInBounds m (maskPair w))).atWord (t.seq.j + 1)) := by
  rw [readPairs, if_neg hm]
  rfl

/-- R183, on ordinary memory: the words up to the next one with EOB are read into PBUF. -/
theorem readPairs_did {ws : List Word} {left m : Nat} {s : State} (h : s.Undisturbed) (hs : streamHas s.regs s.mem s.seq.j ws)
    (he : eobLast ws = true) (hl : ws.length ≤ left) (hm : m + ws.length ≤ 64) :
    readPairs left m s = .ok (m + ws.length)
      (((s.did (readRequests s.regs s.seq.j ws.length)).withPbuf (putPairs s.pbuf m ws)).atWord (s.seq.j + ws.length)) := by
  induction ws generalizing left m s with
  | nil => exact nomatch he
  | cons w ws ih =>
    rw [List.length_cons] at hl hm
    obtain ⟨hw, hs⟩ := streamHas_cons.1 hs
    obtain ⟨left, rfl⟩ : ∃ k, left = k + 1 := ⟨left - 1, by omega⟩
    rw [readPairs_succ (by omega), memRead32_did h, bind_ok, hw, List.length_cons, readRequests_succ, putPairs]
    simp only [State.did_pbuf, State.did_j]
    rcases (eobLast_cons w ws).1 he with ⟨hf, rfl⟩ | ⟨hf, he⟩
    · rw [if_pos hf]
      rfl
    · have hu := ((did_undisturbed h [.read32 (strmAddr s.regs s.seq.j)]).withPbuf (s.pbuf.setIfInBounds m (maskPair w))).atWord
        (s.seq.j + 1)
      rw [if_neg (by rw [hf]; decide), ih hu ((streamHas_congr rfl).2 hs) he (by omega) (by omega)]
      simp only [State.withPbuf_seq, State.atWord_j, State.withPbuf_pbuf, State.atWord_regs, State.withPbuf_regs, State.did_regs,
        readRequests_progress, State.did_atWord, State.did_withPbuf, State.atWord_withPbuf, State.atWord_atWord,
        State.withPbuf_withPbuf, ← State.did_append, List.singleton_append, Nat.add_assoc, Nat.add_comm 1]

end Sys2Proof.Machine
end

section
/-! SUPPORT. Pair words and the run-length codec (30_encoding.md R94; 43_rle.md R140, R141). -/

namespace Sys2Proof.Machine

/-! ### The fields of a pair word -/

section Fields
variable (e : Bool) (r : BitVec 7) (l : BitVec 5) (v : BitVec 16)

@[simp] theorem eobField_pairWord : eobField (pairWord e r l v) = e := by
  cases e <;> simp [eobField, pairWord]

@[simp] theorem runField_pairWord : runField (pairWord e r l v) = r := by
  unfold runField pairWord
  ext i hi
  interval_cases i <;> simp

@[simp] theorem lenField_pairWord : lenField (pairWord e r l v) = l := by
  unfold lenField pairWord
  ext i hi
  interval_cases i <;> simp

@[simp] theorem symField_pairWord : symField (pairWord e r l v) = v := by
  unfold symField pairWord
  ext i hi
  interval_cases i <;> simp

end Fields

section Mask
variable (w : Word)

@[simp] theorem eobField_maskPair : eobField (maskPair w) = eobField w := by simp [eobField, maskPair]

@[simp] theorem runField_maskPair : runField (maskPair w) = runField w := by
  unfold runField maskPair
  ext i hi
  interval_cases i <;> simp

@[simp] theorem lenField_maskPair : lenField (maskPair w) = lenField w := by
  unfold lenField maskPair
  ext i hi
  interval_cases i <;> simp

@[simp] theorem symField_maskPair : symField (maskPair w) = symField w := by
  unfold symField maskPair
  ext i hi
  interval_cases i <;> simp

end Mask

/-! ### Runs -/

/-- The runs of a sequence expand to it. -/
theorem runs_expand (l : List Value) : ((runs l).flatMap fun p => List.replicate p.2 p.1) = l := by
  induction l with
  | nil => rfl
  | cons v vs ih =>
    rw [runs]
    split
    · rename_i u n rest he
      rw [he] at ih
      split
      · rename_i h
        rw [h, List.flatMap_cons, List.replicate_succ, List.cons_append, ← ih, List.flatMap_cons]
      · rw [List.flatMap_cons, ih]; rfl
    · rename_i he
      rw [he] at ih
      rw [← ih]; rfl

/-- Runs are maximal: neighbours have different values. -/
theorem runs_isChain (l : List Value) : ((runs l).map Prod.fst).IsChain (· ≠ ·) := by
  induction l with
  | nil => exact .nil
  | cons v vs ih =>
    rw [runs]
    split
    · rename_i u n rest he
      rw [he] at ih
      split
      · exact ih
      · rename_i h
        exact .cons_cons h ih
    · exact .singleton _

theorem le_of_mem_runs {l : List Value} {p : Value × Nat} (h : p ∈ runs l) : 1 ≤ p.2 ∧ p.2 ≤ l.length :=
  ⟨(runs_sum l).2 p h, (runs_sum l).1 ▸ List.le_sum_of_mem (List.mem_map_of_mem h)⟩

/-! ### The words of runs -/

/-- The word of one run, EOB or not. -/
abbrev runWord (e : Bool) (p : Value × Nat) : Word := pairWord e (BitVec.ofNat 7 p.2) 0 p.1

theorem runWords_singleton (p : Value × Nat) : runWords [p] = [runWord true p] := rfl

theorem runWords_cons_cons (p q : Value × Nat) (l : List (Value × Nat)) :
    runWords (p :: q :: l) = runWord false p :: runWords (q :: l) := rfl

/-- A word of a list of runs is the word of one of them. -/
theorem mem_runWords {l : List (Value × Nat)} {w : Word} (h : w ∈ runWords l) : ∃ e, ∃ p ∈ l, w = runWord e p := by
  induction l with
  | nil => exact nomatch h
  | cons p l ih =>
    cases l with
    | nil => exact ⟨true, p, by simp, List.mem_singleton.1 (runWords_singleton p ▸ h)⟩
    | cons q l =>
      rcases List.mem_cons.1 (runWords_cons_cons p q l ▸ h) with h | h
      · exact ⟨false, p, by simp, h⟩
      · obtain ⟨e, p', hp, hw⟩ := ih h
        exact ⟨e, p', List.mem_cons_of_mem _ hp, hw⟩

/-- What a list of runs has its words have too, where EOB plays no part. -/
theorem map_runWords {α : Type} (f : Word → α) (g : Value × Nat → α) (l : List (Value × Nat))
    (h : ∀ e, ∀ p ∈ l, f (runWord e p) = g p) : (runWords l).map f = l.map g := by
  induction l with
  | nil => rfl
  | cons p l ih =>
    cases l with
    | nil => rw [runWords_singleton, List.map_singleton, h true p (by simp), List.map_singleton]
    | cons q l =>
      rw [runWords_cons_cons, List.map_cons, h false p (by simp), ih fun e p' hp => h e p' (List.mem_cons_of_mem _ hp)]
      rfl

theorem eobLast_runWords {l : List (Value × Nat)} (h : l ≠ []) : eobLast (runWords l) = true := by
  induction l with
  | nil => exact absurd rfl h
  | cons p l ih =>
    cases l with
    | nil => rw [runWords_singleton, eobLast_cons]; exact .inl ⟨eobField_pairWord .., rfl⟩
    | cons q l =>
      rw [runWords_cons_cons, eobLast_cons]
      exact .inr ⟨eobField_pairWord .., ih (by simp)⟩

theorem expand_eq_flatMap (ws : List Word) : expand ws = ws.flatMap fun w => List.replicate (runField w).toNat (symField w) := by
  induction ws with
  | nil => rfl
  | cons w ws ih => rw [expand, ih, List.flatMap_cons]

/-! ### The words of a block's sequence -/

section RleWords
variable (z : Block 16)

theorem runs_toList_ne_nil : runs z.toList ≠ [] := fun h => by
  have := rleWords_pos z
  unfold rleWords at this
  rw [h] at this
  exact absurd this (by decide)

theorem run_toNat {p : Value × Nat} (h : p ∈ runs z.toList) (e : Bool) : (runField (runWord e p)).toNat = p.2 := by
  have := le_of_mem_runs h
  rw [Vector.length_toList] at this
  rw [runField_pairWord, BitVec.toNat_ofNat]
  omega

theorem lenField_of_mem_rleWords {z : Block 16} {w : Word} (h : w ∈ rleWords z) : lenField w = 0 := by
  obtain ⟨e, p, _, rfl⟩ := mem_runWords h
  exact lenField_pairWord ..

theorem run_pos_of_mem_rleWords {z : Block 16} {w : Word} (h : w ∈ rleWords z) : 1 ≤ (runField w).toNat := by
  obtain ⟨e, p, hp, rfl⟩ := mem_runWords h
  rw [run_toNat z hp]
  exact (le_of_mem_runs hp).1

theorem runSum_rleWords : runSum (rleWords z) = 64 := by
  unfold runSum rleWords
  rw [map_runWords _ Prod.snd _ fun e p hp => run_toNat z hp e, (runs_sum _).1, Vector.length_toList]

theorem eobLast_rleWords : eobLast (rleWords z) = true := eobLast_runWords (runs_toList_ne_nil z)

theorem map_symField_rleWords : (rleWords z).map symField = (runs z.toList).map Prod.fst :=
  map_runWords _ _ _ fun _ _ _ => symField_pairWord ..

theorem rleWords_isChain : ((rleWords z).map symField).IsChain (· ≠ ·) := by
  rw [map_symField_rleWords]
  exact runs_isChain _

/-- R141 after R140: the words of a sequence expand to it. -/
theorem expand_rleWords : expand (rleWords z) = z.toList := by
  have h : (rleWords z).map (fun w => List.replicate (runField w).toNat (symField w)) =
      (runs z.toList).map fun p => List.replicate p.2 p.1 :=
    map_runWords _ _ _ fun e p hp => by rw [run_toNat z hp, symField_pairWord]
  rw [expand_eq_flatMap, List.flatMap_def, h, ← List.flatMap_def, runs_expand]

end RleWords

end Sys2Proof.Machine
end

section
/-! SUPPORT. The codebook that counts a stream, the codes it is given, and what it makes of a stream's words
(44_codebook.md R152 to R155). -/

namespace Sys2Proof.Machine

/-! ### Counting -/

theorem eraseDups_concat (vs : List Value) (v : Value) :
    (vs ++ [v]).eraseDups = if v ∈ vs then vs.eraseDups else vs.eraseDups ++ [v] := by
  rw [List.eraseDups_append]
  split
  · simp [List.removeAll, *]
  · simp [List.removeAll, List.eraseDups_cons, *]

theorem nodup_eraseDups (vs : List Value) : vs.eraseDups.Nodup := by
  induction vs using List.reverseRecOn with
  | nil => simp
  | append_singleton vs v ih =>
    rw [eraseDups_concat]
    split
    · exact ih
    · rename_i h
      exact List.nodup_append.2 ⟨ih, by simp, fun a ha b hb => by
        rw [List.mem_singleton.1 hb]
        rintro rfl
        exact h (List.mem_eraseDups.1 ha)⟩

/-- The entry that counts `n` pairs with value `v` (R152). -/
def countEntry (v : Value) (n : Nat) : Entry := { value := v, weight := BitVec.ofNat 32 (min (2 ^ 32 - 1) n), code := none }

theorem countedCodebook_eq (ws : List Word) :
    countedCodebook ws = (ws.map symField).eraseDups.map fun v => countEntry v ((ws.map symField).count v) := rfl

theorem bumpWeight_countEntry (v : Value) (n : Nat) : bumpWeight (countEntry v n).weight = (countEntry v (n + 1)).weight := by
  unfold bumpWeight countEntry
  dsimp only
  rcases Nat.lt_or_ge n (2 ^ 32 - 1) with h | h
  · rw [if_neg, Nat.min_eq_right h.le, Nat.min_eq_right h]
    · exact (BitVec.ofNat_add n 1).symm
    · rw [Nat.min_eq_right h.le, ← BitVec.toNat_inj, BitVec.toNat_ofNat, BitVec.toNat_allOnes]
      omega
  · rw [Nat.min_eq_left h, Nat.min_eq_left (by omega), if_pos (by decide)]

theorem countValue_cons_same (v : Value) (n : Nat) (es : List Entry) :
    countValue v (countEntry v n :: es) = countEntry v (n + 1) :: es := by
  rw [countValue, if_pos (show (countEntry v n).value = v from rfl), bumpWeight_countEntry]
  rfl

theorem countValue_cons_other {u v : Value} (h : u ≠ v) (n : Nat) (es : List Entry) :
    countValue v (countEntry u n :: es) = countEntry u n :: countValue v es := by
  rw [countValue, if_neg (show ¬ (countEntry u n).value = v from h)]

/-- One more pair with value `v`, in a codebook of distinct values. -/
theorem countValue_map_countEntry {us : List Value} (hn : us.Nodup) (v : Value) {c c' : Value → Nat}
    (hc : ∀ u, u ≠ v → c' u = c u) (hv : c' v = c v + 1) (h0 : v ∉ us → c v = 0) :
    countValue v (us.map fun u => countEntry u (c u)) =
      (if v ∈ us then us else us ++ [v]).map fun u => countEntry u (c' u) := by
  induction us with
  | nil =>
    simp only [List.map_nil, List.not_mem_nil, if_false, List.nil_append, List.map_singleton, hv, h0 (by simp)]
    rfl
  | cons u us ih =>
    obtain ⟨hu, hn⟩ := List.nodup_cons.1 hn
    rw [List.map_cons]
    by_cases h : u = v
    · subst h
      rw [countValue_cons_same, if_pos List.mem_cons_self, List.map_cons, hv]
      congr 1
      exact List.map_congr_left fun x hx => by rw [hc x fun e => hu (e ▸ hx)]
    · rw [countValue_cons_other h, ih hn fun hv => h0 fun hm => (List.mem_cons.1 hm).elim (fun e => h e.symm) hv]
      simp only [List.mem_cons, Ne.symm h, false_or]
      split <;> simp [hc u h]

theorem countValue_countedCodebook (ws : List Word) (w : Word) :
    countValue (symField w) (countedCodebook ws) = countedCodebook (ws ++ [w]) := by
  rw [countedCodebook_eq, countedCodebook_eq, List.map_append, List.map_singleton, eraseDups_concat,
    countValue_map_countEntry (c := fun v => (ws.map symField).count v) (c' := fun v => (ws.map symField ++ [symField w]).count v) (nodup_eraseDups _)]
  · simp only [List.mem_eraseDups]
  · exact fun u hu => by simp [List.count_append, Ne.symm hu]
  · simp [List.count_append]
  · exact fun h => List.count_eq_zero.2 fun hm => h (List.mem_eraseDups.2 hm)

/-- R152: counting the words of one more block. -/
theorem countValues_countedCodebook (vs ws : List Word) :
    countValues (ws.map symField) (countedCodebook vs) = countedCodebook (vs ++ ws) := by
  induction ws generalizing vs with
  | nil => rw [List.append_nil]; rfl
  | cons w ws ih =>
    change countValues (ws.map symField) (countValue (symField w) (countedCodebook vs)) = _
    rw [countValue_countedCodebook, ih, List.append_assoc, List.singleton_append]

theorem valueFormCheck_ok {ws : List Word} (h : ∀ w ∈ ws, lenField w = 0) (i : Nat) : valueFormCheck i ws = .ok () := by
  induction ws generalizing i with
  | nil => rfl
  | cons w ws ih =>
    rw [valueFormCheck, if_neg (by simp [h w List.mem_cons_self]), ih fun x hx => h x (List.mem_cons_of_mem _ hx)]

/-- The number of distinct values. -/
theorem length_countedCodebook (ws : List Word) : (countedCodebook ws).length = (ws.map symField).eraseDups.length := by
  rw [countedCodebook_eq, List.length_map]

theorem map_value_countedCodebook (ws : List Word) :
    (countedCodebook ws).map (fun e => e.value) = (ws.map symField).eraseDups := by
  rw [countedCodebook_eq, List.map_map]
  exact List.map_id _

theorem countedCodebook_codes (ws : List Word) : (countedCodebook ws).filterMap (fun e => e.code) = [] := by
  rw [countedCodebook_eq, List.filterMap_map]
  exact List.filterMap_eq_nil_iff.2 fun _ _ => rfl

theorem countedCodebook_wf {d : Nat} {ws : List Word} (h : (countedCodebook ws).length ≤ d) : CbWf d (countedCodebook ws) where
  len := h
  values := by rw [map_value_countedCodebook]; exact nodup_eraseDups _
  codes := by rw [countedCodebook_codes]; exact List.nodup_nil
  legal := by rw [countedCodebook_codes]; exact fun _ h => nomatch h

/-- R152: a block's words are counted, unless there is no room for their new values. -/
theorem accumulate_countedCodebook {vs ws : List Word} (h : ∀ w ∈ ws, lenField w = 0) {depth : Nat}
    (hd : (countedCodebook vs).length ≤ depth) :
    accumulate depth ws (countedCodebook vs) =
      if (countedCodebook (vs ++ ws)).length ≤ depth then .ok (countedCodebook (vs ++ ws))
      else .error (.codebookFull, (((vs ++ ws).map symField).eraseDups.getD depth 0).setWidth 32) := by
  have hm : (countedCodebook (vs ++ ws)).map (fun e => e.value) = (countedCodebook vs).map (fun e => e.value) ++
      newValues ((countedCodebook vs).map fun e => e.value) (ws.map symField) := by
    rw [← countValues_countedCodebook]
    exact countValues_map _ _
  have hl := congrArg List.length hm
  rw [List.length_map, List.length_append, List.length_map] at hl
  have hg : ((vs ++ ws).map symField).eraseDups.getD depth 0 =
      ((newValues ((countedCodebook vs).map fun e => e.value) (ws.map symField))[depth - (countedCodebook vs).length]?).getD 0 := by
    rw [← map_value_countedCodebook, hm, List.getD_eq_getElem?_getD, List.getElem?_append_right (by simpa using hd), List.length_map]
  unfold accumulate
  rw [valueFormCheck_ok h]
  dsimp only
  rw [countValues_countedCodebook, hl, hg]
  split
  · rw [if_neg (by omega)]
  · rw [if_pos (by omega)]

/-! ### Building -/

theorem mem_assignCodes {l : List Entry} {r : Nat} {e : Entry} (h : e ∈ assignCodes r l) :
    ∃ e₀ ∈ l, ∃ r, e = { e₀ with code := some (rankCode r) } := by
  induction l generalizing r with
  | nil => exact nomatch h
  | cons a l ih =>
    rcases List.mem_cons.1 h with h | h
    · exact ⟨a, List.mem_cons_self, r, h⟩
    · obtain ⟨e₀, h₀, hr⟩ := ih h
      exact ⟨e₀, List.mem_cons_of_mem _ h₀, hr⟩

theorem mem_buildCodebook {cb : List Entry} {e : Entry} (h : e ∈ buildCodebook cb) :
    ∃ e₀ ∈ cb, ∃ r, e = { e₀ with code := some (rankCode r) } := by
  obtain ⟨e₀, h₀, hr⟩ := mem_assignCodes h
  exact ⟨e₀, (List.mem_insertionSort _).1 h₀, hr⟩

theorem mem_map_value_buildCodebook (cb : List Entry) (v : Value) :
    v ∈ (buildCodebook cb).map (fun e => e.value) ↔ v ∈ cb.map fun e => e.value := by
  unfold buildCodebook
  rw [assignCodes_values]
  exact ((List.perm_insertionSort _ cb).map _).mem_iff

/-- R153: the entry of rank `r` has the rank code of `r`. -/
theorem assignCodes_getElem? (r : Nat) (l : List Entry) (i : Nat) :
    (assignCodes r l)[i]? = l[i]?.map fun e => { e with code := some (rankCode (r + i)) } := by
  induction l generalizing r i with
  | nil => rfl
  | cons e l ih =>
    cases i with
    | zero => rfl
    | succ i => rw [assignCodes, List.getElem?_cons_succ, ih, List.getElem?_cons_succ, Nat.add_right_comm, Nat.add_assoc]

theorem buildCodebook_code {cb : List Entry} {r : Nat} {e : Entry} (h : (buildCodebook cb)[r]? = some e) :
    e.code = some (rankCode r) := by
  unfold buildCodebook at h
  rw [assignCodes_getElem?, Option.map_eq_some_iff] at h
  obtain ⟨e₀, _, rfl⟩ := h
  rw [Nat.zero_add]

/-- R153's rank order on entries. -/
abbrev RankLe (e f : Entry) : Prop := ranksBefore e f = true

theorem rankLe_iff (e f : Entry) : RankLe e f ↔
    f.weight.toNat < e.weight.toNat ∨ (e.weight = f.weight ∧ e.value.toInt ≤ f.value.toInt) := by
  simp [RankLe, ranksBefore]

theorem rankLe_total (e f : Entry) : RankLe e f ∨ RankLe f e := by
  simp only [rankLe_iff, ← BitVec.toNat_inj]
  omega

theorem rankLe_trans {e f g : Entry} (h : RankLe e f) (h' : RankLe f g) : RankLe e g := by
  simp only [rankLe_iff, ← BitVec.toNat_inj] at h h' ⊢
  omega

theorem assignCodes_pairwise {l : List Entry} (h : l.Pairwise RankLe) (r : Nat) : (assignCodes r l).Pairwise RankLe := by
  induction l generalizing r with
  | nil => exact .nil
  | cons e l ih =>
    obtain ⟨he, hl⟩ := List.pairwise_cons.1 h
    refine .cons (fun f hf => ?_) (ih hl _)
    obtain ⟨f₀, h₀, _, rfl⟩ := mem_assignCodes hf
    exact he f₀ h₀

/-- R153: the built codebook is in rank order. -/
theorem buildCodebook_pairwise (cb : List Entry) : (buildCodebook cb).Pairwise RankLe := by
  have : Std.Total RankLe := ⟨rankLe_total⟩
  have : IsTrans Entry RankLe := ⟨fun _ _ _ => rankLe_trans⟩
  exact assignCodes_pairwise (List.pairwise_insertionSort RankLe cb) 0

/-! ### Looking up -/

section Lookup
variable {d : Nat} {cb : List Entry} (h : CbWf d cb) {e : Entry} (he : e ∈ cb)
include h he

theorem lookupValue_mem : lookupValue cb e.value = some e := by
  obtain ⟨f, hf⟩ := Option.isSome_iff_exists.1 (List.find?_isSome.2 ⟨e, he, by simp⟩ : (lookupValue cb e.value).isSome)
  have hv : f.value = e.value := by simpa using List.find?_some hf
  exact hf.trans (congrArg some (List.inj_on_of_nodup_map h.values (List.mem_of_find?_eq_some hf) he hv))

theorem lookupCode_mem {c : Code} (hc : e.code = some c) : lookupCode cb c = some e := by
  obtain ⟨f, hf⟩ := Option.isSome_iff_exists.1 (List.find?_isSome.2 ⟨e, he, by simp [hc]⟩ : (lookupCode cb c).isSome)
  have hv : f.code = some c := by simpa using List.find?_some hf
  refine hf.trans (congrArg some (by_contra fun hne => ?_))
  have : Std.Symm fun a b : Entry => ∀ x, a.code = some x → ∀ y, b.code = some y → x ≠ y :=
    ⟨fun _ _ hr x hx y hy => (hr y hy x hx).symm⟩
  exact (List.pairwise_filterMap.1 h.codes).forall (List.mem_of_find?_eq_some hf) he hne c hv c hc rfl

theorem codeOf_mem : codeOf cb e.value = e.code := by
  unfold codeOf
  rw [lookupValue_mem h he]
  rfl

theorem code_legal_of_mem {c : Code} (hc : e.code = some c) : c.legal = true := h.legal c (List.mem_filterMap.2 ⟨e, he, hc⟩)

/-- R154 then R155: the code of an entry stands for its value. -/
theorem pairValue_encodedWord {c : Code} (hc : e.code = some c) (w : Word) : pairValue cb (encodedWord c w) = e.value := by
  unfold pairValue encodedWord
  rw [lenField_pairWord, symField_pairWord, lookupCode_mem h he hc]
  rfl

theorem decodable_encodedWord {c : Code} (hc : e.code = some c) (w : Word) : decodable cb (encodedWord c w) = true := by
  have hl := code_legal_of_mem h he hc
  simp only [Code.legal, Bool.and_eq_true, decide_eq_true_eq] at hl
  unfold decodable encodedWord
  rw [lenField_pairWord, symField_pairWord, lookupCode_mem h he hc, Bool.and_eq_true, decide_eq_true_eq]
  refine ⟨fun h0 => ?_, rfl⟩
  rw [h0] at hl
  exact absurd hl.1.1 (by decide)

end Lookup

/-! ### The stream's codebook and its codes -/

/-- The codebook that SEQ_COMPRESS leaves for a stream of the value-form words `ws` (R182): counted, then built. -/
def streamCodebook (ws : List Word) : List Entry := buildCodebook (countedCodebook ws)

/-- The code-form word of a value-form word of the stream `ws`. -/
def encWord (ws : List Word) (w : Word) : Word :=
  encodedWord ((codeOf (streamCodebook ws) (symField w)).getD { len := 0, bits := 0 }) w

section StreamCodebook
variable {d : Nat} {ws : List Word}

theorem streamCodebook_wf (hd : d ≤ 65536) (h : (countedCodebook ws).length ≤ d) : CbWf d (streamCodebook ws) :=
  buildCodebook_wf hd (countedCodebook_wf h)

theorem mem_streamCodebook {e : Entry} (h : e ∈ streamCodebook ws) :
    ∃ v ∈ ws.map symField, ∃ r, e = { countEntry v ((ws.map symField).count v) with code := some (rankCode r) } := by
  obtain ⟨e₀, h₀, r, rfl⟩ := mem_buildCodebook h
  rw [countedCodebook_eq] at h₀
  obtain ⟨v, hv, rfl⟩ := List.mem_map.1 h₀
  exact ⟨v, List.mem_eraseDups.1 hv, r, rfl⟩

/-- Every word of the stream has an entry with a code. -/
theorem exists_entry {w : Word} (h : w ∈ ws) : ∃ e ∈ streamCodebook ws, e.value = symField w ∧ ∃ c, e.code = some c := by
  have hm : symField w ∈ (streamCodebook ws).map fun e => e.value := by
    unfold streamCodebook
    rw [mem_map_value_buildCodebook, map_value_countedCodebook]
    exact List.mem_eraseDups.2 (List.mem_map_of_mem h)
  obtain ⟨e, he, hv⟩ := List.mem_map.1 hm
  obtain ⟨v, _, r, rfl⟩ := mem_streamCodebook he
  exact ⟨_, he, hv, _, rfl⟩

section Words
variable (hc : CbWf d (streamCodebook ws)) {w : Word} (h : w ∈ ws)
include hc h

/-- What phase SUBST makes of a word of the stream. -/
theorem codeOf_streamCodebook : ∃ c, codeOf (streamCodebook ws) (symField w) = some c ∧ encWord ws w = encodedWord c w := by
  obtain ⟨e, he, hv, c, hec⟩ := exists_entry h
  have hcode : codeOf (streamCodebook ws) (symField w) = some c := by rw [← hv, codeOf_mem hc he, hec]
  exact ⟨c, hcode, by rw [encWord, hcode]; rfl⟩

theorem pairValue_encWord : pairValue (streamCodebook ws) (encWord ws w) = symField w := by
  obtain ⟨e, he, hv, c, hec⟩ := exists_entry h
  rw [encWord, ← hv, codeOf_mem hc he, hec]
  exact pairValue_encodedWord hc he hec w

theorem decodable_encWord : decodable (streamCodebook ws) (encWord ws w) = true := by
  obtain ⟨e, he, hv, c, hec⟩ := exists_entry h
  rw [encWord, ← hv, codeOf_mem hc he, hec]
  exact decodable_encodedWord hc he hec w

end Words

@[simp] theorem runField_encWord (w : Word) : runField (encWord ws w) = runField w := runField_pairWord ..

@[simp] theorem eobField_encWord (w : Word) : eobField (encWord ws w) = eobField w := eobField_pairWord ..

/-- R152, R153: the number of pairs of each value, when none reaches the greatest weight. -/
theorem weight_streamCodebook (hl : ws.length < 2 ^ 32) {e : Entry} (he : e ∈ streamCodebook ws) :
    1 ≤ e.weight.toNat ∧ e.weight.toNat = (ws.map symField).count e.value := by
  obtain ⟨v, hv, r, rfl⟩ := mem_streamCodebook he
  have h1 := List.one_le_count_iff.2 hv
  have h2 := List.count_le_length (a := v) (l := ws.map symField)
  rw [List.length_map] at h2
  have hw : (BitVec.ofNat 32 (min (2 ^ 32 - 1) ((ws.map symField).count v))).toNat = (ws.map symField).count v := by
    rw [BitVec.toNat_ofNat]
    omega
  exact ⟨h1.trans_eq hw.symm, hw⟩

end StreamCodebook

end Sys2Proof.Machine
end

section
/-! SUPPORT. Regions of external memory, and phase BLOCKS of SEQ_COMPRESS run undisturbed (20_memory.md R75, R76; 46_sequencer.md
R182, R184). -/

namespace Sys2Proof.Machine

/-! ### Regions -/

theorem inRegion_iff (g : Region) (a : Addr) : inRegion g a = true ↔ (a - g.base).toNat < g.len := by simp [inRegion]

/-- Regions that do not overlap have no byte in common. -/
theorem not_inRegion_of_disjoint {g h : Region} (ho : overlaps g h = false) {a : Addr} (ha : inRegion g a = true) :
    inRegion h a = false := by
  rw [Bool.eq_false_iff, Ne, inRegion_iff]
  intro hb
  rw [inRegion_iff] at ha
  have hd : ¬ (inRegion g h.base = true ∨ inRegion h g.base = true) := by
    simpa [overlaps, show 0 < g.len by omega, show 0 < h.len by omega] using ho
  simp only [inRegion_iff, not_or, not_lt] at hd
  rw [← sub_sub_sub_cancel_left h.base g.base a, ← sub_sub_sub_cancel_left g.base h.base a] at hd
  generalize a - g.base = x at *
  generalize a - h.base = y at *
  rw [BitVec.toNat_sub, BitVec.toNat_sub] at hd
  omega

theorem pixAddr_sub (r : Regs) {y x : Nat} (h : inBounds r y x = true) :
    (pixAddr r y x - r.imgBase).toNat = y * r.width.toNat + x ∧ y * r.width.toNat + x < r.width.toNat * r.height.toNat := by
  rw [inBounds_iff] at h
  have hw := r.width.isLt
  have hh := r.height.isLt
  have h1 : y * r.width.toNat + x < r.width.toNat * r.height.toNat := by
    calc y * r.width.toNat + x < (y + 1) * r.width.toNat := by rw [Nat.add_mul]; omega
      _ ≤ r.height.toNat * r.width.toNat := Nat.mul_le_mul_right _ h.1
      _ = r.width.toNat * r.height.toNat := Nat.mul_comm _ _
  have h2 : r.width.toNat * r.height.toNat ≤ 2 ^ 16 * 2 ^ 16 := Nat.mul_le_mul hw.le hh.le
  refine ⟨?_, h1⟩
  rw [pixAddr, add_sub_cancel_left, BitVec.toNat_ofNat]
  omega

/-- The pixels lie in the image region (R76). -/
theorem pixAddr_inRegion {r : Regs} {y x : Nat} (h : inBounds r y x = true) : inRegion (imageRegion r) (pixAddr r y x) = true := by
  obtain ⟨h1, h2⟩ := pixAddr_sub r h
  rw [inRegion_iff]
  exact h1.trans_lt h2

/-- A stream region that leaves room for an image does not wrap onto itself. -/
theorem stream_lt_of_disjoint {r : Regs} (hw : r.width ≠ 0) (hh : r.height ≠ 0) {n : Nat}
    (ho : overlaps (imageRegion r) { base := strmBaseByte r, len := 4 * n } = false) : 4 * n ≤ 2 ^ 32 := by
  by_contra hn
  have h0 : inBounds r 0 0 = true := (inBounds_iff r 0 0).2
    ⟨Nat.pos_of_ne_zero fun h => hh (BitVec.eq_of_toNat_eq h), Nat.pos_of_ne_zero fun h => hw (BitVec.eq_of_toNat_eq h)⟩
  have hout := not_inRegion_of_disjoint ho (pixAddr_inRegion h0)
  rw [Bool.eq_false_iff, Ne, inRegion_iff] at hout
  have := (pixAddr r 0 0 - strmBaseByte r).isLt
  exact hout (by dsimp only; omega)

/-- A block of the image is what it was when no byte of the image has changed. -/
theorem imageBlock_unchanged {s u : State} {d p : BitVec 32} (hr : u.regs = { s.regs with blkDone := d, strmPtr := p })
    (hm : ∀ a : Addr, inRegion (imageRegion s.regs) a = true → u.byte a = s.byte a) (row col : Nat) :
    imageBlock u row col = imageBlock s row col := by
  refine Vector.ext fun i hi => ?_
  have hu := imageBlock_getElem u row col ⟨i, hi⟩
  have hs := imageBlock_getElem s row col ⟨i, hi⟩
  simp only [Fin.getElem_fin] at hu hs
  rw [hu, hs, hr]
  refine ite_congr rfl (fun hc => ?_) fun _ => rfl
  rw [show pixAddr { s.regs with blkDone := d, strmPtr := p } = pixAddr s.regs from rfl]
  rw [hm _ (pixAddr_inRegion hc)]

/-! ### The stages of one block -/

/-- After QUANT with QV = 1 (R111). -/
def State.quantized (s : State) : State :=
  { s with
    qbuf := Vector.ofFn fun n => satPat 16 (quantExact s.cbuf[n] s.qmat[n])
    status := { s.status with sat := s.status.sat || anyCell fun n => overflowed 16 (quantExact s.cbuf[n] s.qmat[n]) } }

theorem bodyQuant_quantized {s : State} (h : s.status.qv = true) : bodyQuant s = .ok () s.quantized := by
  unfold bodyQuant
  rw [h, if_neg (by decide)]
  rfl

@[simp] theorem State.quantized_qbuf (s : State) :
    s.quantized.qbuf = Vector.ofFn fun n => satPat 16 (quantExact s.cbuf[n] s.qmat[n]) := by dsimp only [State.quantized]

@[simp] theorem State.quantized_status (s : State) : s.quantized.status =
    { s.status with sat := s.status.sat || anyCell fun n => overflowed 16 (quantExact s.cbuf[n] s.qmat[n]) } := by
  dsimp only [State.quantized]

/-- After ZZ_FLAT (R132). -/
def State.flattened (s : State) : State := { s with zbuf := Vector.ofFn fun k => s.qbuf[zz k] }

@[simp] theorem State.flattened_status (s : State) : s.flattened.status = s.status := by dsimp only [State.flattened]
@[simp] theorem State.flattened_zbuf (s : State) : s.flattened.zbuf = Vector.ofFn fun k => s.qbuf[zz k] := by
  dsimp only [State.flattened]

theorem bodyZzFlat_flattened (s : State) : bodyZzFlat s = .ok () s.flattened := rfl

/-- After RLE_ENC (R140). -/
def State.encoded (s : State) : State :=
  { s with pbuf := overwrite s.pbuf (rleWords s.zbuf), pcount := BitVec.ofNat 7 (rleWords s.zbuf).length }

@[simp] theorem State.encoded_status (s : State) : s.encoded.status = s.status := by dsimp only [State.encoded]

theorem bodyRleEnc_encoded (s : State) : bodyRleEnc s = .ok () s.encoded := rfl

theorem validPairs_encoded (s : State) : validPairs s.encoded = rleWords s.zbuf := by
  have hl := rleWords_length s.zbuf
  have hp : (BitVec.ofNat 7 (rleWords s.zbuf).length).toNat = (rleWords s.zbuf).length := by rw [BitVec.toNat_ofNat]; omega
  unfold validPairs State.encoded
  dsimp only
  rw [hp]
  refine List.ext_getElem (by simp [hl]) fun i h1 h2 => ?_
  simp [overwrite, h2]

/-- CB replaced. -/
def State.withCb (c : List Entry) (s : State) : State := { s with cb := c }

section WithCb
variable (c : List Entry) (s : State)

@[simp] theorem State.withCb_cb : (s.withCb c).cb = c := rfl
@[simp] theorem State.withCb_regs : (s.withCb c).regs = s.regs := rfl
@[simp] theorem State.withCb_status : (s.withCb c).status = s.status := rfl
@[simp] theorem State.withCb_cbuf : (s.withCb c).cbuf = s.cbuf := rfl
@[simp] theorem State.withCb_qbuf : (s.withCb c).qbuf = s.qbuf := rfl
@[simp] theorem State.withCb_zbuf : (s.withCb c).zbuf = s.zbuf := rfl
@[simp] theorem State.withCb_pbuf : (s.withCb c).pbuf = s.pbuf := rfl
@[simp] theorem State.withCb_pcount : (s.withCb c).pcount = s.pcount := rfl
@[simp] theorem State.withCb_qmat : (s.withCb c).qmat = s.qmat := rfl
@[simp] theorem State.withCb_seq : (s.withCb c).seq = s.seq := rfl
@[simp] theorem State.withCb_mem : (s.withCb c).mem = s.mem := rfl
@[simp] theorem State.withCb_memResp : (s.withCb c).memResp = s.memResp := rfl
@[simp] theorem State.withCb_busLog : (s.withCb c).busLog = s.busLog := rfl
@[simp] theorem State.withCb_rst : (s.withCb c).rst = s.rst := rfl
@[simp] theorem State.withCb_hostIn : (s.withCb c).hostIn = s.hostIn := rfl
@[simp] theorem State.withCb_hostOut : (s.withCb c).hostOut = s.hostOut := rfl
@[simp] theorem State.withCb_draws : (s.withCb c).draws = s.draws := rfl
@[simp] theorem State.withCb_cbDepthLessOne : (s.withCb c).cbDepthLessOne = s.cbDepthLessOne := rfl

theorem validPairs_withCb : validPairs (s.withCb c) = validPairs s := rfl

theorem State.Undisturbed.withCb {s : State} (h : s.Undisturbed) (c : List Entry) : (s.withCb c).Undisturbed := h.of rfl rfl

/-- CB_ACCUM that finds room (R152). -/
theorem bodyCbAccum_ok {s : State} {c : List Entry} (h : accumulate s.cbDepth (validPairs s) s.cb = .ok c) :
    bodyCbAccum s = .ok () (s.withCb c) := by
  unfold bodyCbAccum
  rw [h]
  rfl

theorem bodyCbAccum_error {s : State} {e : ErrCode × Word} (h : accumulate s.cbDepth (validPairs s) s.cb = .error e) :
    bodyCbAccum s = .raised e.1 e.2 s := by
  unfold bodyCbAccum
  rw [h]
  rfl

end WithCb

/-- Before the words of block `b` are counted and written: the block of the image `x` has been read and transformed, quantized,
flattened and run-length encoded. -/
@[irreducible] def State.coded (b : Nat) (x : Block 32) (s : State) : State :=
  ((((s.atBlock b).did (fetchRequests s.regs (b / blkCols s.regs) (b % blkCols s.regs) ++ [.txFwd x])).withCbuf
    (txFwd x)).quantized.flattened).encoded

section Coded
variable (b : Nat) (x : Block 32) (s : State)

theorem fetchRequests_pure (r : Regs) (row col : Nat) : ∀ q ∈ fetchRequests r row col ++ [Request.txFwd x], q.pure = true := by
  intro q hq
  rcases List.mem_append.1 hq with hq | hq
  · exact pure_of_mem_cellReads q hq
  · rw [List.mem_singleton.1 hq]; rfl

@[simp] theorem State.coded_regs : (s.coded b x).regs = s.regs := by unfold State.coded; rfl
@[simp] theorem State.coded_cb : (s.coded b x).cb = s.cb := by unfold State.coded; rfl
@[simp] theorem State.coded_qmat : (s.coded b x).qmat = s.qmat := by unfold State.coded; rfl
@[simp] theorem State.coded_j : (s.coded b x).seq.j = s.seq.j := by unfold State.coded; rfl
@[simp] theorem State.coded_memResp : (s.coded b x).memResp = s.memResp := by unfold State.coded; rfl
@[simp] theorem State.coded_hostIn : (s.coded b x).hostIn = s.hostIn := by unfold State.coded; rfl
@[simp] theorem State.coded_hostOut : (s.coded b x).hostOut = s.hostOut := by unfold State.coded; rfl
@[simp] theorem State.coded_rst : (s.coded b x).rst = s.rst := by unfold State.coded; rfl
@[simp] theorem State.coded_draws : (s.coded b x).draws = s.draws := by unfold State.coded; rfl
@[simp] theorem State.coded_cbDepthLessOne : (s.coded b x).cbDepthLessOne = s.cbDepthLessOne := by unfold State.coded; rfl
@[simp] theorem State.coded_mem : (s.coded b x).mem = s.mem := by
  unfold State.coded
  change (fetchRequests s.regs (b / blkCols s.regs) (b % blkCols s.regs) ++ [Request.txFwd x]).foldl Request.perform s.mem = s.mem
  exact foldl_perform_pure (fetchRequests_pure x _ _ _) s.mem
@[simp] theorem State.coded_busLog : (s.coded b x).busLog =
    (fetchRequests s.regs (b / blkCols s.regs) (b % blkCols s.regs) ++ [Request.txFwd x]).reverse ++ s.busLog := by
  unfold State.coded
  rfl
@[simp] theorem State.coded_status : (s.coded b x).status = { s.status with sat := s.status.sat || quantSaturates s.qmat x } := by
  simp only [State.coded, State.encoded_status, State.flattened_status, State.quantized_status, State.withCbuf_cbuf,
    State.withCbuf_qmat, State.withCbuf_status, State.did_qmat, State.did_status, State.atBlock_status, State.atBlock_qmat, anyCell,
    quantSaturates]

theorem State.Undisturbed.coded {s : State} (h : s.Undisturbed) (b : Nat) (x : Block 32) : (s.coded b x).Undisturbed :=
  h.of (State.coded_hostIn b x s) (State.coded_memResp b x s)

theorem State.coded_cbDepth : (s.coded b x).cbDepth = s.cbDepth := by
  unfold State.cbDepth
  rw [State.coded_cbDepthLessOne]

theorem validPairs_coded : validPairs (s.coded b x) = wordsOfBlock s.qmat x := by
  unfold State.coded wordsOfBlock
  rw [validPairs_encoded]
  refine congrArg rleWords (Vector.ext fun i hi => ?_)
  simp only [State.flattened_zbuf, State.quantized_qbuf, State.withCbuf_cbuf, State.withCbuf_qmat, State.did_qmat,
    State.atBlock_qmat, Vector.getElem_ofFn, Fin.getElem_fin]

end Coded

/-- The stages of one block up to its words (R182). -/
theorem compressBlock_coded {s : State} (h : s.Undisturbed) (hq : s.status.qv = true) (b : Nat) :
    compressBlock b s = (bodyCbAccum (s.coded b (imageBlock s (b / blkCols s.regs) (b % blkCols s.regs)))).bind fun _ t =>
      (streamPairs (validPairs t) t).bind fun _ t => .ok () t.blockDone := by
  unfold compressBlock
  dsimp only
  have ha : (s.atBlock b).Undisturbed := h.of rfl rfl
  rw [fetchBlock_did ha, bind_ok, bodyTxFwd_did ((did_undisturbed ha _).withCbuf _), bind_ok, bodyQuant_quantized (by exact hq), bind_ok,
    bodyZzFlat_flattened, bind_ok, bodyRleEnc_encoded, bind_ok, State.withCbuf_cbuf, State.did_withCbuf, State.withCbuf_withCbuf,
    ← State.did_append, imageBlock_congr (State.atBlock_regs b s) (State.atBlock_mem b s)]
  unfold State.coded
  rfl

end Sys2Proof.Machine
end

section
/-! SUPPORT. SEQ_COMPRESS run undisturbed (46_sequencer.md R182, R184, R185). -/

namespace Sys2Proof.Machine

/-- What SEQ_COMPRESS needs to get past its register checks, on ordinary memory. -/
structure CompressStart (s : State) : Prop where
  undisturbed : s.Undisturbed
  mem : Memory.wf s.mem = true
  width : s.regs.width ≠ 0
  height : s.regs.height ≠ 0
  disjoint : overlaps (imageRegion s.regs) (streamRegionCap s.regs) = false

/-- The state of SEQ_COMPRESS, begun in `s`, after `b` blocks of phase BLOCKS. -/
structure CompressInv (s : State) (b : Nat) (u : State) : Prop where
  regs : u.regs = { s.regs with blkDone := BitVec.ofNat 32 b, strmPtr := pat32 (valueStream s b).length }
  status : u.status = { s.status with qv := true, sat := s.status.sat || streamSaturates s b }
  qmat : u.qmat = matrixOf s.regs.quality.toNat
  cb : u.cb = countedCodebook (valueStream s b)
  j : u.seq.j = (valueStream s b).length
  mem : u.mem = streamed s.regs (valueStream s b) s.mem
  memResp : u.memResp = s.memResp
  busLog : u.busLog = ((List.range b).flatMap (compressBlockRequests s)).reverse ++ s.busLog
  rst : u.rst = s.rst
  hostIn : u.hostIn = s.hostIn
  hostOut : u.hostOut = s.hostOut
  depth : u.cbDepthLessOne = s.cbDepthLessOne

theorem valueStream_succ (s : State) (b : Nat) : valueStream s (b + 1) = valueStream s b ++ blockStream s b := by
  simp [valueStream, List.range_succ]

theorem streamSaturates_succ (s : State) (b : Nat) : streamSaturates s (b + 1) =
    (streamSaturates s b || quantSaturates (matrixOf s.regs.quality.toNat) (nthBlock s b)) := by
  simp [streamSaturates, List.range_succ]

/-- The values of the first blocks are as many as the entries that count them. -/
theorem blocksFit_iff (s : State) (k : Nat) : blocksFit s k ↔
    (valueStream s k).length ≤ s.regs.strmCap.toNat ∧ (countedCodebook (valueStream s k)).length ≤ s.cbDepth := by
  unfold blocksFit streamValues
  rw [length_countedCodebook]

theorem blocksFit_of_succ {s : State} {k : Nat} (h : blocksFit s (k + 1)) : blocksFit s k := by
  unfold blocksFit streamValues at *
  rw [valueStream_succ, List.length_append, List.map_append, List.eraseDups_append, List.length_append] at h
  omega

theorem blocksFit_mono {s : State} {k n : Nat} (hk : k ≤ n) (h : blocksFit s n) : blocksFit s k :=
  Nat.decreasingInduction (motive := fun m _ => blocksFit s m) (fun _ _ => blocksFit_of_succ) h hk

theorem lenField_of_mem_blockStream {s : State} {b : Nat} {w : Word} (h : w ∈ blockStream s b) : lenField w = 0 :=
  lenField_of_mem_rleWords h

section Blocks
variable {s : State} (hs : CompressStart s)
include hs

/-- The stream's capacity in bytes is no more than the memory's. -/
theorem CompressStart.cap_le : 4 * s.regs.strmCap.toNat ≤ 2 ^ 32 := stream_lt_of_disjoint hs.width hs.height hs.disjoint

/-- No word that fits the stream's capacity reaches the image. -/
theorem CompressStart.image_outside {n : Nat} (hn : n ≤ s.regs.strmCap.toNat) {a : Addr}
    (ha : inRegion (imageRegion s.regs) a = true) : inStream s.regs n a = false := by
  have h := not_inRegion_of_disjoint hs.disjoint ha
  rw [Bool.eq_false_iff, Ne, inRegion_iff] at h
  unfold inStream
  rw [Bool.eq_false_iff, Ne, inRegion_iff]
  simp only [streamRegionCap] at h
  dsimp only
  omega

section Step
variable {b : Nat} {u : State} (hI : CompressInv s b u) (hf : blocksFit s b)
include hI

theorem CompressInv.undisturbed : u.Undisturbed := hs.undisturbed.of hI.hostIn hI.memResp

omit hs in
theorem CompressInv.cbDepth : u.cbDepth = s.cbDepth := by unfold State.cbDepth; rw [hI.depth]

include hf

/-- The image's blocks are what they were before the stream was written. -/
theorem CompressInv.imageBlock (row col : Nat) : imageBlock u row col = Machine.imageBlock s row col := by
  refine imageBlock_unchanged hI.regs (fun a ha => ?_) row col
  simp only [State.byte, hI.mem]
  have hl := hs.cap_le
  exact memGet_streamed hs.mem (by have := hf.1; omega) (hs.image_outside hf.1 ha)

/-- Block `b`, up to the counting of its words. -/
theorem CompressInv.compressBlock : compressBlock b u = (bodyCbAccum (u.coded b (nthBlock s b))).bind fun _ t =>
    (streamPairs (validPairs t) t).bind fun _ t => .ok () t.blockDone := by
  rw [compressBlock_coded (hI.undisturbed hs) (by rw [hI.status]), hI.imageBlock hs hf]
  have hc : blkCols u.regs = blkCols s.regs := by rw [hI.regs]; rfl
  rw [hc]
  rfl

omit hs hf in
theorem CompressInv.validPairs_coded : validPairs (u.coded b (nthBlock s b)) = blockStream s b := by
  rw [Machine.validPairs_coded, hI.qmat]
  rfl

omit hs in
/-- The counting of block `b`'s words. -/
theorem CompressInv.accumulate : accumulate (u.coded b (nthBlock s b)).cbDepth (validPairs (u.coded b (nthBlock s b)))
      (u.coded b (nthBlock s b)).cb =
    if (countedCodebook (valueStream s (b + 1))).length ≤ s.cbDepth then .ok (countedCodebook (valueStream s (b + 1)))
    else .error (.codebookFull, ((streamValues s (b + 1)).getD s.cbDepth 0).setWidth 32) := by
  rw [State.coded_cbDepth, hI.cbDepth, hI.validPairs_coded, State.coded_cb, hI.cb, valueStream_succ,
    accumulate_countedCodebook (fun _ => lenField_of_mem_blockStream) ((blocksFit_iff s b).1 hf).2]
  unfold streamValues
  rw [valueStream_succ]

/-- R182: the new values of block `b` do not fit the codebook. -/
theorem CompressInv.codebookFull (h : ¬ (countedCodebook (valueStream s (b + 1))).length ≤ s.cbDepth) :
    Machine.compressBlock b u = .raised .codebookFull (((streamValues s (b + 1)).getD s.cbDepth 0).setWidth 32)
      (u.coded b (nthBlock s b)) := by
  rw [hI.compressBlock hs hf, bodyCbAccum_error ((hI.accumulate hf).trans (if_neg h)), bind_raised]

/-- R182: the new values of block `b` fit the codebook. -/
theorem CompressInv.compressBlock_counted (h : (countedCodebook (valueStream s (b + 1))).length ≤ s.cbDepth) :
    Machine.compressBlock b u = (streamPairs (blockStream s b)
      ((u.coded b (nthBlock s b)).withCb (countedCodebook (valueStream s (b + 1))))).bind fun _ t => .ok () t.blockDone := by
  rw [hI.compressBlock hs hf, bodyCbAccum_ok ((hI.accumulate hf).trans (if_pos h)), bind_ok, validPairs_withCb,
    hI.validPairs_coded]

/-- R182: the values of block `b` fit the codebook, and its words do not fit the stream. -/
theorem CompressInv.streamOverflow (h : (countedCodebook (valueStream s (b + 1))).length ≤ s.cbDepth)
    (hc : s.regs.strmCap.toNat < (valueStream s (b + 1)).length) : Machine.compressBlock b u = .raised .streamOverflow s.regs.strmCap
      ((((u.coded b (nthBlock s b)).withCb (countedCodebook (valueStream s (b + 1)))).did (writeRequests s.regs
        (valueStream s b).length ((blockStream s b).take (s.regs.strmCap.toNat - (valueStream s b).length)))).atWord
          s.regs.strmCap.toNat) := by
  rw [valueStream_succ, List.length_append] at hc
  have hv : ((u.coded b (nthBlock s b)).withCb (countedCodebook (valueStream s (b + 1)))).Undisturbed :=
    ((hI.undisturbed hs).coded _ _).withCb _
  rw [hI.compressBlock_counted hs hf h, streamPairs_overflow hv, bind_raised]
  all_goals simp only [State.withCb_regs, State.withCb_seq, State.coded_regs, State.coded_j, hI.regs, hI.j, writeRequests_progress]
  · exact hf.1
  · exact hc

/-- A block whose words fit (R182). -/
theorem CompressInv.step (hn : blocksFit s (b + 1)) : ∃ t, Machine.compressBlock b u = .ok () t ∧ CompressInv s (b + 1) t := by
  obtain ⟨hl, hd⟩ := (blocksFit_iff s (b + 1)).1 hn
  have hv : ((u.coded b (nthBlock s b)).withCb (countedCodebook (valueStream s (b + 1)))).Undisturbed :=
    ((hI.undisturbed hs).coded _ _).withCb _
  have hp : (valueStream s b).length + (blockStream s b).length = (valueStream s (b + 1)).length := by
    rw [valueStream_succ, List.length_append]
  rw [hI.compressBlock_counted hs hf hd, streamPairs_did hv, bind_ok]
  · exact ⟨_, rfl, {
      regs := by simp [hI.regs, hI.j, hp, BitVec.ofNat_add]
      status := by simp [hI.status, hI.qmat, streamSaturates_succ, Bool.or_assoc]
      qmat := by simpa using hI.qmat
      cb := by simp
      j := by simp [hI.j, hp]
      mem := by simp [hI.regs, hI.j, hI.mem, valueStream_succ, streamed_append]
      memResp := by simpa using hI.memResp
      busLog := by simp [hI.regs, hI.j, hI.busLog, List.range_succ, compressBlockRequests, codingRequests]
      rst := by simpa using hI.rst
      hostIn := by simpa using hI.hostIn
      hostOut := by simpa using hI.hostOut
      depth := by simpa using hI.depth }⟩
  all_goals simp only [State.withCb_regs, State.withCb_seq, State.coded_regs, State.coded_j, hI.regs, hI.j, hp]
  exact hl

end Step

/-- Phase BLOCKS with blocks that fit (R182). -/
theorem compressBlocks_ok {u : State} (h0 : CompressInv s 0 u) {n : Nat} (hn : blocksFit s n) :
    ∃ t, forCount compressBlock n 0 u = .ok () t ∧ CompressInv s n t := by
  obtain ⟨t, ht, hI⟩ := forCount_ok n 0 (fun b u _ hb hI => CompressInv.step hs hI (blocksFit_mono (by omega) hn) (blocksFit_mono (by omega) hn)) u h0
  exact ⟨t, ht, by rwa [Nat.zero_add] at hI⟩

/-- Phase BLOCKS goes on only past blocks that fit (R182). -/
theorem compressBlocks_ensures {u : State} (h0 : CompressInv s 0 u) (n : Nat) : (forCount compressBlock n 0 u).Ensures
    (fun _ t => CompressInv s n t ∧ blocksFit s n) (fun _ _ _ => True) fun _ => False := by
  have loop := forCount_ensures (body := compressBlock) (I := fun b u => CompressInv s b u ∧ blocksFit s b)
    (R := fun _ _ _ => True) (A := fun _ => False) (fun b u ⟨hI, hf⟩ => by
      by_cases hd : (countedCodebook (valueStream s (b + 1))).length ≤ s.cbDepth
      · by_cases hl : (valueStream s (b + 1)).length ≤ s.regs.strmCap.toNat
        · have hn := (blocksFit_iff s (b + 1)).2 ⟨hl, hd⟩
          obtain ⟨t, ht, hI'⟩ := hI.step hs hf hn
          rw [ht]
          exact ensures_ok.2 ⟨hI', hn⟩
        · rw [hI.streamOverflow hs hf hd (by omega)]
          exact ensures_raised.2 trivial
      · rw [hI.codebookFull hs hf hd]
        exact ensures_raised.2 trivial) n 0 u ⟨h0, by simp [blocksFit, streamValues, valueStream]⟩
  rwa [Nat.zero_add] at loop

end Blocks

/-! ### Phase SUBST -/

/-- The code-form words of SEQ_COMPRESS begun in `s`. -/
def codeStream (s : State) : List Word :=
  (valueStream s (blkCount s.regs)).map (encWord (valueStream s (blkCount s.regs)))

/-- The transactions that put code-form words in the place of the value-form ones. -/
def substRequests (r : Regs) (ws : List Word) : List Request :=
  ws.zipIdx.flatMap fun p => [.read32 (strmAddr r p.2), .write32 (strmAddr r p.2) p.1]

theorem substRequests_append (r : Regs) (ws : List Word) (w : Word) : substRequests r (ws ++ [w]) =
    substRequests r ws ++ [.read32 (strmAddr r ws.length), .write32 (strmAddr r ws.length) w] := by
  simp [substRequests, List.zipIdx_append]

/-- The state of SEQ_COMPRESS, begun in `s`, after `k` words of phase SUBST. -/
structure SubstInv (s : State) (k : Nat) (u : State) : Prop where
  regs : u.regs = { s.regs with blkDone := BitVec.ofNat 32 (blkCount s.regs), strmPtr := pat32 k }
  status : u.status = { s.status with qv := true, sat := s.status.sat || streamSaturates s (blkCount s.regs) }
  qmat : u.qmat = matrixOf s.regs.quality.toNat
  cb : u.cb = streamCodebook (valueStream s (blkCount s.regs))
  j : u.seq.j = (valueStream s (blkCount s.regs)).length
  mem : u.mem = streamed s.regs ((codeStream s).take k) (streamed s.regs (valueStream s (blkCount s.regs)) s.mem)
  memResp : u.memResp = s.memResp
  busLog : u.busLog = (substRequests s.regs ((codeStream s).take k)).reverse ++
    (((List.range (blkCount s.regs)).flatMap (compressBlockRequests s)).reverse ++ s.busLog)
  rst : u.rst = s.rst
  hostIn : u.hostIn = s.hostIn
  hostOut : u.hostOut = s.hostOut
  depth : u.cbDepthLessOne = s.cbDepthLessOne

theorem length_codeStream (s : State) : (codeStream s).length = (valueStream s (blkCount s.regs)).length := List.length_map ..

theorem lenField_of_mem_valueStream {s : State} {n : Nat} {w : Word} (h : w ∈ valueStream s n) : lenField w = 0 := by
  obtain ⟨b, _, hw⟩ := List.mem_flatMap.1 h
  exact lenField_of_mem_rleWords hw

section Subst
variable {s : State} (hs : CompressStart s) (hf : blocksFit s (blkCount s.regs))
include hf

theorem valueCodebook_wf : CbWf s.cbDepth (streamCodebook (valueStream s (blkCount s.regs))) :=
  streamCodebook_wf s.cbDepth_le ((blocksFit_iff s _).1 hf).2

include hs

/-- The stream at the beginning of word `k` of phase SUBST has that word in value form. -/
theorem SubstInv.word {k : Nat} {u : State} (hI : SubstInv s k u) (hk : k < (valueStream s (blkCount s.regs)).length) :
    memGet32 u.mem (strmAddr u.regs k) = (valueStream s (blkCount s.regs))[k] := by
  have hc := hs.cap_le
  have hl := hf.1
  rw [hI.mem, hI.regs, strmAddr_progress, memGet32_streamed (streamed_wf hs.mem _) (by rw [List.length_take]; omega) (by omega),
    List.getElem?_eq_none (by rw [List.length_take]; omega), Option.getD_none, memGet32_streamed hs.mem (by omega) (by omega),
    List.getElem?_eq_getElem hk, Option.getD_some]

/-- One word of phase SUBST (R182). -/
theorem SubstInv.step {k : Nat} {u : State} (hI : SubstInv s k u) (hk : k < (valueStream s (blkCount s.regs)).length) :
    ∃ t, substWord k u = .ok () t ∧ SubstInv s (k + 1) t := by
  have hu : u.Undisturbed := hs.undisturbed.of hI.hostIn hI.memResp
  have hm := List.getElem_mem hk
  obtain ⟨c, hc, he⟩ := codeOf_streamCodebook (valueCodebook_wf hf) hm
  have ht : (codeStream s).take (k + 1) =
      (codeStream s).take k ++ [encWord (valueStream s (blkCount s.regs)) (valueStream s (blkCount s.regs))[k]] := by
    rw [← List.take_append_getElem (by rwa [length_codeStream])]
    simp only [codeStream, List.getElem_map]
  unfold substWord
  rw [memRead32_did hu, bind_ok, hI.word hs hf hk, if_neg (by simp [lenField_of_mem_valueStream hm]), State.did_cb, hI.cb, hc]
  dsimp only
  have hl : ((codeStream s).take k).length = k := by rw [List.length_take, length_codeStream]; omega
  rw [← he, memWrite32_did (did_undisturbed hu _), bind_ok, ← State.did_append]
  exact ⟨_, rfl, {
    regs := by simp [hI.regs]
    status := by simp [hI.status]
    qmat := by simpa using hI.qmat
    cb := by simpa using hI.cb
    j := by simpa using hI.j
    mem := by simp [hI.regs, hI.mem, ht, streamed_append, hl, Request.perform, writeRequests_cons, writeRequests_nil]
    memResp := by simpa using hI.memResp
    busLog := by simp [hI.regs, hI.busLog, ht, substRequests_append, hl]
    rst := by simpa using hI.rst
    hostIn := by simpa using hI.hostIn
    hostOut := by simpa using hI.hostOut
    depth := by simpa using hI.depth }⟩

omit hs hf in
/-- The end of phase BLOCKS, the aggregation barrier, and the beginning of phase SUBST (R185). -/
theorem CompressInv.subst {u : State} (hI : CompressInv s (blkCount s.regs) u) :
    ∃ t, buildPhase u = .ok () t ∧ t.seq.j = (valueStream s (blkCount s.regs)).length ∧ SubstInv s 0 t.startSubst := by
  refine ⟨_, rfl, hI.j, {
    regs := by simp [hI.regs, pat32]
    status := by simp [hI.status]
    qmat := by simpa using hI.qmat
    cb := by simp [hI.cb, streamCodebook]
    j := by simpa using hI.j
    mem := by simpa [streamed, writeRequests_nil] using hI.mem
    memResp := by simpa using hI.memResp
    busLog := by simp [hI.busLog, substRequests]
    rst := by simpa using hI.rst
    hostIn := by simpa using hI.hostIn
    hostOut := by simpa using hI.hostOut
    depth := by simpa using hI.depth }⟩

/-- Phase SUBST puts the code-form word in the place of every word (R182). -/
theorem substWords_ok {u : State} (h0 : SubstInv s 0 u) :
    ∃ t, forCount substWord (valueStream s (blkCount s.regs)).length 0 u = .ok () t ∧
      SubstInv s (valueStream s (blkCount s.regs)).length t := by
  obtain ⟨t, ht, hI⟩ := forCount_ok (valueStream s (blkCount s.regs)).length 0 (fun k u _ hk hI => SubstInv.step hs hf hI (by omega)) u h0
  exact ⟨t, ht, by rwa [Nat.zero_add] at hI⟩

end Subst

/-! ### The whole command -/

theorem checkGeometry_size {r : Regs} (hw : r.width ≠ 0) (hh : r.height ≠ 0) : checkGeometry false r = .ok () := by
  unfold checkGeometry
  rw [if_neg (not_or.2 ⟨hw, hh⟩)]
  rfl

theorem checkSequence_eq {r : Regs} (hw : r.width ≠ 0) (hh : r.height ≠ 0) : checkSequence r =
    if qualityLegal r then .ok () else .error (.invalidQuality, pat32 r.quality.toNat) := by
  unfold checkSequence
  rw [checkGeometry_size hw hh]
  cases qualityLegal r <;> rfl

/-- QMAT generated from QUALITY (R110). -/
def State.generated (s : State) : State :=
  { s with qmat := matrixOf s.regs.quality.toNat, status := { s.status with qv := true } }

theorem bodyQgen_generated {s : State} (h : qualityLegal s.regs = true) : bodyQgen s = .ok () s.generated := by
  unfold bodyQgen
  rw [h]
  rfl

theorem compressInv_start (s : State) : CompressInv s 0 s.generated.startCompress where
  regs := rfl
  status := by simp [State.generated, streamSaturates]
  qmat := rfl
  cb := rfl
  j := rfl
  mem := rfl
  memResp := rfl
  busLog := rfl
  rst := rfl
  hostIn := rfl
  hostOut := rfl
  depth := rfl

section Whole
variable {s : State} (hs : CompressStart s)
include hs

/-- SEQ_COMPRESS past its register checks. -/
theorem bodySeqCompress_started (hq : qualityLegal s.regs = true) : bodySeqCompress s =
    (forCount compressBlock (blkCount s.regs) 0 s.generated.startCompress).bind fun _ s =>
      (buildPhase s).bind fun _ s => (forCount substWord s.seq.j 0 s.startSubst).bind fun _ s => .ok () s.setStrmLen := by
  unfold bodySeqCompress checkRegions
  rw [checkSequence_eq hs.width hs.height, if_pos hq, ofCheck_ok, bind_ok, if_neg (by simp [hs.disjoint]), bind_ok,
    bodyQgen_generated hq, bind_ok]
  rfl

/-- R182: blocks that fit are all coded. -/
theorem bodySeqCompress_ok (hq : qualityLegal s.regs = true) (hf : blocksFit s (blkCount s.regs)) :
    ∃ u, bodySeqCompress s = .ok () u.setStrmLen ∧ SubstInv s (valueStream s (blkCount s.regs)).length u := by
  obtain ⟨u, hu, hI⟩ := compressBlocks_ok hs (compressInv_start s) hf
  obtain ⟨v, hv, hj, hI⟩ := hI.subst
  obtain ⟨t, ht, hI⟩ := substWords_ok hs hf hI
  refine ⟨t, ?_, hI⟩
  rw [bodySeqCompress_started hs hq, hu, bind_ok, hv, bind_ok, hj, ht, bind_ok]

/-- R182: SEQ_COMPRESS goes on to its end only if all blocks fit. -/
theorem blocksFit_of_bodySeqCompress_ok (hq : qualityLegal s.regs = true) {t : State} (ht : bodySeqCompress s = .ok () t) :
    blocksFit s (blkCount s.regs) := by
  have he := compressBlocks_ensures hs (compressInv_start s) (blkCount s.regs)
  rw [bodySeqCompress_started hs hq] at ht
  cases hr : forCount compressBlock (blkCount s.regs) 0 s.generated.startCompress with
  | ok _ u => rw [hr] at he; exact (ensures_ok.1 he).2
  | raised c i u => rw [hr] at ht; exact nomatch ht
  | abandoned u => rw [hr] at ht; exact nomatch ht
  | fault x => rw [hr] at ht; exact nomatch ht
  | refused x => rw [hr] at ht; exact nomatch ht

end Whole

end Sys2Proof.Machine
end

section
/-! SUPPORT. What SEQ_COMPRESS leaves: the stream, the codebook, the flags (46_sequencer.md R182). -/

namespace Sys2Proof.Machine

/-- An error's number is not 0 (R201). -/
theorem ErrCode.number_ne_zero (c : ErrCode) : c.number ≠ 0 := by cases c <;> decide

/-- A sequence that leaves ERRCODE at 0 went on to its end, if no host transaction disturbed it. -/
theorem sequence_ok_of_errCode {r : Run Unit} {t : State} (ha : KeepsFlags (fun _ => True) r)
    (h : finish (sequenceEnd r) = .next t) (he : t.status.errCode = 0) : ∃ u, r = .ok () u ∧ t = u.freeScratch.complete := by
  cases r with
  | ok _ u => exact ⟨u, rfl, by simpa [sequenceEnd] using h.symm⟩
  | raised c i u =>
    obtain rfl : t = u.freeScratch.raise c i := by simpa [sequenceEnd] using h.symm
    exact absurd he c.number_ne_zero
  | abandoned u => exact (ensures_abandoned.1 ha).elim
  | fault x => exact nomatch h
  | refused x => exact nomatch h

theorem noFlagClaim_grows : GrowsSat (fun _ => True) ∧ GrowsQv (fun _ => True) := ⟨fun _ _ _ => trivial, fun _ _ => trivial⟩

section
variable {s : State} (hw : s.regs.width ≠ 0) (hh : s.regs.height ≠ 0)
include hw hh

/-- The register checks that SEQ_COMPRESS has passed when it ends without error. -/
theorem bodySeqCompress_checks {u : State} (h : bodySeqCompress s = .ok () u) :
    qualityLegal s.regs = true ∧ overlaps (imageRegion s.regs) (streamRegionCap s.regs) = false := by
  unfold bodySeqCompress checkRegions at h
  rw [checkSequence_eq hw hh] at h
  cases hq : qualityLegal s.regs with
  | false => rw [hq] at h; exact nomatch h
  | true =>
    refine ⟨rfl, Bool.eq_false_iff.2 fun ho => ?_⟩
    rw [if_pos hq, ofCheck_ok, bind_ok, if_pos ho] at h
    exact nomatch h

theorem bodySeqDecompress_checks {u : State} (h : bodySeqDecompress s = .ok () u) :
    qualityLegal s.regs = true ∧ overlaps (imageRegion s.regs) (streamRegionLen s.regs) = false := by
  unfold bodySeqDecompress checkRegions at h
  rw [checkSequence_eq hw hh] at h
  cases hq : qualityLegal s.regs with
  | false => rw [hq] at h; exact nomatch h
  | true =>
    refine ⟨rfl, Bool.eq_false_iff.2 fun ho => ?_⟩
    rw [if_pos hq, ofCheck_ok, bind_ok, if_pos ho] at h
    exact nomatch h

end

/-- R182: a SEQ_COMPRESS that leaves ERRCODE at 0 has coded every block. -/
theorem seqCompress_ok_of_errCode {s t : State} (hu : s.Undisturbed) (hm : Memory.wf s.mem = true) (hw : s.regs.width ≠ 0)
    (hh : s.regs.height ≠ 0) (h : exec .seqCompress s = .next t) (he : t.status.errCode = 0) :
    CompressStart s ∧ qualityLegal s.regs = true ∧ blocksFit s (blkCount s.regs) ∧
      ∃ u, SubstInv s (valueStream s (blkCount s.regs)).length u ∧ t = u.setStrmLen.freeScratch.complete := by
  obtain ⟨v, hv, rfl⟩ := sequence_ok_of_errCode
    (bodySeqCompress_keepsFlags noFlagClaim_grows.1 noFlagClaim_grows.2 s ⟨hu.1, trivial⟩) h he
  obtain ⟨hq, ho⟩ := bodySeqCompress_checks hw hh hv
  have hs : CompressStart s := ⟨hu, hm, hw, hh, ho⟩
  have hf := blocksFit_of_bodySeqCompress_ok hs hq hv
  obtain ⟨u, hu, hI⟩ := bodySeqCompress_ok hs hq hf
  obtain rfl : v = u.setStrmLen := by rw [hv] at hu; exact (Run.ok.inj hu).2
  exact ⟨hs, hq, hf, u, hI, rfl⟩

/-! ### The stream -/

theorem legalBlock_iff (cb : List Entry) (ws : List Word) : legalBlock cb ws = true ↔
    (∀ w ∈ ws, decodable cb w = true ∧ 1 ≤ (runField w).toNat) ∧ runSum ws = 64 ∧ eobLast ws = true := by
  have h : eobLast ws = true → ws ≠ [] := by rintro h rfl; exact nomatch h
  unfold legalBlock
  simp only [Bool.and_eq_true, decide_eq_true_eq, List.all_eq_true, Bool.not_eq_true', List.isEmpty_eq_false_iff]
  constructor
  · rintro ⟨⟨⟨_, ha⟩, hr⟩, he⟩
    exact ⟨ha, hr, he⟩
  · rintro ⟨ha, hr, he⟩
    exact ⟨⟨⟨h he, ha⟩, hr⟩, he⟩

/-- The zig-zag sequence of block `b` of the image (R132). -/
def blockValues (s : State) (b : Nat) : Block 16 :=
  Vector.ofFn fun k : Fin 64 => satPat 16 (quantExact (txFwd (nthBlock s b))[zz k] (matrixOf s.regs.quality.toNat)[zz k])

theorem blockStream_eq (s : State) (b : Nat) : blockStream s b = rleWords (blockValues s b) := rfl

/-- The code-form words of block `b`. -/
def codeBlock (s : State) (b : Nat) : List Word := (blockStream s b).map (encWord (valueStream s (blkCount s.regs)))

/-- The stream's blocks. -/
def codeBlocks (s : State) : List (List Word) := (List.range (blkCount s.regs)).map (codeBlock s)

theorem codeBlocks_flatten (s : State) : (codeBlocks s).flatten = codeStream s := by
  unfold codeBlocks codeStream codeBlock
  rw [← List.flatMap_def, ← List.map_flatMap]
  rfl

theorem codeBlocks_getD {s : State} {b : Nat} (h : b < blkCount s.regs) : (codeBlocks s).getD b [] = codeBlock s b := by
  simp [codeBlocks, List.getD_eq_getElem?_getD, List.getElem?_range h]

theorem mem_valueStream {s : State} {b n : Nat} (h : b < n) {w : Word} (hw : w ∈ blockStream s b) : w ∈ valueStream s n :=
  List.mem_flatMap.2 ⟨b, List.mem_range.2 h, hw⟩

/-- R182: the stream in memory. -/
theorem SubstInv.strmWords {s u t : State} (hs : CompressStart s) (hf : blocksFit s (blkCount s.regs))
    (hI : SubstInv s (valueStream s (blkCount s.regs)).length u) (hm : t.mem = u.mem) (hb : t.regs.strmBase = s.regs.strmBase) :
    strmWords t (valueStream s (blkCount s.regs)).length = codeStream s := by
  have hc := hs.cap_le
  have hl := hf.1
  have hn := length_codeStream s
  refine List.ext_getElem (by simp [Machine.strmWords, hn]) fun i h1 h2 => ?_
  simp only [Machine.strmWords, List.getElem_map, List.getElem_range, State.strmWord]
  rw [hm, hI.mem, strmAddr_congr hb, memGet32_streamed (streamed_wf hs.mem _) (by rw [List.length_take]; omega) (by omega),
    List.take_of_length_le hn.le, List.getElem?_eq_getElem h2, Option.getD_some]

theorem map_pairValue_codeStream {s : State} (hf : blocksFit s (blkCount s.regs)) :
    (codeStream s).map (pairValue (streamCodebook (valueStream s (blkCount s.regs)))) =
      (valueStream s (blkCount s.regs)).map symField := by
  unfold codeStream
  rw [List.map_map]
  exact List.map_congr_left fun w hw => pairValue_encWord (valueCodebook_wf hf) hw

section Blocks
variable {s : State} (hf : blocksFit s (blkCount s.regs)) {b : Nat} (hb : b < blkCount s.regs)
include hf hb

theorem map_pairValue_codeBlock :
    (codeBlock s b).map (pairValue (streamCodebook (valueStream s (blkCount s.regs)))) = (blockStream s b).map symField := by
  unfold codeBlock
  rw [List.map_map]
  exact List.map_congr_left fun w hw => pairValue_encWord (valueCodebook_wf hf) (mem_valueStream hb hw)

theorem legalBlock_codeBlock : legalBlock (streamCodebook (valueStream s (blkCount s.regs))) (codeBlock s b) = true := by
  refine (legalBlock_iff _ _).2 ⟨fun w hw => ?_, ?_, ?_⟩
  · obtain ⟨v, hv, rfl⟩ := List.mem_map.1 hw
    rw [runField_encWord]
    exact ⟨decodable_encWord (valueCodebook_wf hf) (mem_valueStream hb hv), run_pos_of_mem_rleWords hv⟩
  · have hr := runSum_rleWords (blockValues s b)
    simpa [runSum, codeBlock, blockStream_eq, Function.comp_def] using hr
  · have he := eobLast_rleWords (blockValues s b)
    simpa [eobLast, codeBlock, blockStream_eq, Function.comp_def] using he

/-- The words of a block stand for its zig-zag sequence. -/
theorem expand_codeBlock : ((codeBlock s b).flatMap fun w =>
    List.replicate (runField w).toNat (pairValue (streamCodebook (valueStream s (blkCount s.regs))) w)) =
      (blockValues s b).toList := by
  unfold codeBlock
  rw [← expand_rleWords, expand_eq_flatMap, List.flatMap_map]
  refine List.flatMap_congr fun w hw => ?_
  rw [runField_encWord, pairValue_encWord (valueCodebook_wf hf) (mem_valueStream hb hw)]

end Blocks

theorem matrixOf_toNat {r : Regs} (h : qualityLegal r = true) (n : Fin 64) :
    (matrixOf r.quality.toNat)[n].toNat = qgenEntry (baseq n) r.quality.toNat := by
  obtain ⟨h1, h2⟩ := (qualityLegal_iff r).1 h
  have := (qgenEntry_range (baseq_range n).2 h1 h2).2
  simp only [matrixOf, Fin.getElem_fin, Vector.getElem_ofFn, BitVec.toNat_ofNat]
  exact Nat.mod_eq_of_lt (show qgenEntry (baseq n) r.quality.toNat < _ by omega)

theorem block_div {c row col : Nat} (h : col < c) : (row * c + col) / c = row := by
  rw [Nat.mul_comm, Nat.mul_add_div (by omega), Nat.div_eq_of_lt h, Nat.add_zero]

theorem block_mod {c row col : Nat} (h : col < c) : (row * c + col) % c = col := by
  rw [Nat.mul_comm, Nat.mul_add_mod, Nat.mod_eq_of_lt h]

/-- The block at a row and a column, in row-major order (R14). -/
theorem nthBlock_at {s : State} {row col : Nat} (hc : col < blkCols s.regs) :
    nthBlock s (row * blkCols s.regs + col) = imageBlock s row col := by
  unfold nthBlock
  rw [block_div hc, block_mod hc]

theorem block_lt {r : Regs} {row col : Nat} (hr : row < blkRows r) (hc : col < blkCols r) : row * blkCols r + col < blkCount r := by
  calc row * blkCols r + col < (row + 1) * blkCols r := by rw [Nat.add_mul]; omega
    _ ≤ blkRows r * blkCols r := Nat.mul_le_mul_right _ hr
    _ = blkCount r := Nat.mul_comm _ _

theorem row_lt {r : Regs} {b : Nat} (h : b < blkCount r) : b / blkCols r < blkRows r :=
  Nat.div_lt_of_lt_mul h

theorem col_lt {r : Regs} {b : Nat} (h : b < blkCount r) : b % blkCols r < blkCols r :=
  Nat.mod_lt _ (Nat.pos_of_ne_zero fun e => by simp [blkCount, e] at h)

/-- SAT of a compression, by rows, columns and cells. -/
theorem streamSaturates_iff (s : State) : streamSaturates s (blkCount s.regs) = true ↔
    ∃ (row col : Nat) (n : Fin 64), row < blkRows s.regs ∧ col < blkCols s.regs ∧
      overflowed 16 (quantExact (txFwd (imageBlock s row col))[n] (matrixOf s.regs.quality.toNat)[n]) = true := by
  simp only [streamSaturates, quantSaturates, List.any_eq_true, List.mem_range, List.mem_finRange, true_and]
  constructor
  · rintro ⟨b, hb, n, hn⟩
    exact ⟨_, _, n, row_lt hb, col_lt hb, hn⟩
  · rintro ⟨row, col, n, hr, hc, hn⟩
    exact ⟨_, block_lt hr hc, n, by rwa [nthBlock_at hc]⟩

/-- Settles O56: an error-free run went through every block and every word, so that it leaves the coded blocks. -/
theorem compressStream : Obligations.CompressStream := by
  intro s t hu hm hw hh h he _
  obtain ⟨hs, hq, hf, u, hI, rfl⟩ := seqCompress_ok_of_errCode hu hm hw hh h he
  have hcb : u.setStrmLen.freeScratch.complete.cb = streamCodebook (valueStream s (blkCount s.regs)) := by simpa using hI.cb
  have hqm : u.setStrmLen.freeScratch.complete.qmat = matrixOf s.regs.quality.toNat := by simpa using hI.qmat
  have hn : u.setStrmLen.freeScratch.complete.regs.strmLen.toNat = (valueStream s (blkCount s.regs)).length := by
    have := hf.1
    have := s.regs.strmCap.isLt
    simp only [State.complete_regs, State.freeScratch_regs, State.setStrmLen_regs, hI.j, pat32, BitVec.toNat_ofNat]
    exact Nat.mod_eq_of_lt (by omega)
  have hst := hI.strmWords hs hf (t := u.setStrmLen.freeScratch.complete) (by simp) (by simp [hI.regs])
  rw [hcb, hqm, hn, hst]
  refine ⟨matrixOf_toNat hq, ?_, codeBlocks s, ?_, codeBlocks_flatten s, ?_, ?_, ?_, ?_⟩
  · simp [hI.status, streamSaturates_iff]
  · simp [codeBlocks]
  · intro b hb
    obtain ⟨k, hk, rfl⟩ := List.mem_map.1 hb
    rw [map_pairValue_codeBlock hf (List.mem_range.1 hk)]
    exact ⟨legalBlock_codeBlock hf (List.mem_range.1 hk), rleWords_isChain _⟩
  · intro row col k hr hc
    rw [codeBlocks_getD (block_lt hr hc), expand_codeBlock hf (block_lt hr hc)]
    simp [blockValues, nthBlock_at hc]
  · intro e he
    have hl : (valueStream s (blkCount s.regs)).length < 2 ^ 32 := by
      have := hf.1
      have := s.regs.strmCap.isLt
      omega
    rw [codeBlocks_flatten, map_pairValue_codeStream hf]
    exact weight_streamCodebook hl he
  · exact (buildCodebook_pairwise _).imp fun h => (rankLe_iff _ _).1 h

end Sys2Proof.Machine
end

section
/-! SUPPORT. Phase VALIDATE of SEQ_DECOMPRESS on legal blocks, and the stages of one block of phase BLOCKS, run undisturbed
(46_sequencer.md R183, R184). -/

namespace Sys2Proof.Machine

/-! ### Phase VALIDATE -/

theorem runSum_cons (w : Word) (ws : List Word) : runSum (w :: ws) = (runField w).toNat + runSum ws := by
  simp [runSum]

theorem decodable_iff (cb : List Entry) (w : Word) : decodable cb w = true ↔
    lenField w ≠ 0 ∧ ∃ e, lookupCode cb { len := lenField w, bits := symField w } = some e := by
  simp [decodable, Option.isSome_iff_exists]

theorem State.setSum_nextWord (v : Nat) (s : State) : (s.setSum v).nextWord = (s.atWord (s.seq.j + 1)).setSum v := rfl

theorem State.setSum_atWord (v k : Nat) (s : State) : (s.setSum v).atWord k = (s.atWord k).setSum v := rfl

theorem State.setSum_setSum (u v : Nat) (s : State) : (s.setSum u).setSum v = s.setSum v := rfl

theorem State.did_setSum (l : List Request) (v : Nat) (s : State) : (s.setSum v).did l = (s.did l).setSum v := rfl

/-- R183, on ordinary memory: what is left of a legal block is validated. -/
theorem validateWords_did {ws : List Word} {left : Nat} {s : State} (h : s.Undisturbed) (hs : streamHas s.regs s.mem s.seq.j ws)
    (hd : ∀ w ∈ ws, decodable s.cb w = true ∧ 1 ≤ (runField w).toNat) (he : eobLast ws = true) (hr : s.seq.sum + runSum ws = 64)
    (hl : ws.length ≤ left) : validateWords left s =
      .ok () (((s.did (readRequests s.regs s.seq.j ws.length)).atWord (s.seq.j + ws.length)).setSum 64) := by
  induction ws generalizing left s with
  | nil => exact nomatch he
  | cons w ws ih =>
    rw [List.length_cons] at hl
    obtain ⟨left, rfl⟩ : ∃ k, left = k + 1 := ⟨left - 1, by omega⟩
    obtain ⟨hw, hs⟩ := streamHas_cons.1 hs
    obtain ⟨hdw, hp⟩ := hd w List.mem_cons_self
    obtain ⟨hlen, e, hc⟩ := (decodable_iff s.cb w).1 hdw
    rw [runSum_cons] at hr
    unfold validateWords
    rw [memRead32_did h, bind_ok, hw, State.did_cb, State.did_sum, if_neg hlen, hc, if_neg (by simp), if_neg (by omega),
      List.length_cons, readRequests_succ]
    rcases (eobLast_cons w ws).1 he with ⟨hf, rfl⟩ | ⟨hf, he⟩
    · have hr : s.seq.sum + (runField w).toNat = 64 := by simpa [runSum] using hr
      rw [if_pos hf, hr, if_neg (not_not.2 (by rfl))]
      rfl
    · have hu : ((s.did [.read32 (strmAddr s.regs s.seq.j)]).setSum (s.seq.sum + (runField w).toNat)).nextWord.Undisturbed :=
        h.of rfl rfl
      rw [if_neg (by rw [hf]; decide), ih hu ((streamHas_congr rfl).2 hs) (fun v hv => hd v (List.mem_cons_of_mem _ hv)) he
        ((Nat.add_assoc ..).trans hr) (by omega), State.setSum_nextWord, State.did_setSum, State.setSum_atWord, State.setSum_setSum,
        State.did_atWord, State.atWord_atWord, ← State.did_append]
      simp only [State.setSum_regs, State.setSum_seq, State.atWord_j, State.atWord_regs, State.did_regs, State.did_j,
        readRequests_progress, List.singleton_append, Nat.add_assoc, Nat.add_comm 1]

/-! ### The stages of one block -/

theorem decodePairs_ok {cb : List Entry} {ws : List Word} (h : ∀ w ∈ ws, decodable cb w = true) (i : Nat) :
    decodePairs cb i ws = .ok (ws.map fun w => decodedWord (pairValue cb w) w) := by
  induction ws generalizing i with
  | nil => rfl
  | cons w ws ih =>
    obtain ⟨hl, e, he⟩ := (decodable_iff cb w).1 (h w List.mem_cons_self)
    have hv : pairValue cb w = e.value := by simp [pairValue, he]
    unfold decodePairs
    rw [if_neg hl, he, ih fun v hv => h v (List.mem_cons_of_mem _ hv), List.map_cons, hv]

theorem rleCheck_ok {ws : List Word} (h : ∀ w ∈ ws, lenField w = 0 ∧ 1 ≤ (runField w).toNat) {i sum : Nat}
    (hs : sum + runSum ws ≤ 64) : rleCheck i sum ws = .ok (sum + runSum ws) := by
  induction ws generalizing i sum with
  | nil => rfl
  | cons w ws ih =>
    obtain ⟨hl, hr⟩ := h w List.mem_cons_self
    rw [runSum_cons] at hs ⊢
    unfold rleCheck
    rw [if_neg (not_not.2 hl), if_neg (by omega), ih (fun v hv => h v (List.mem_cons_of_mem _ hv)) (by omega), Nat.add_assoc]

/-- The words of a block after their codes have been replaced by values (R155). -/
def valueWords (cb : List Entry) (ws : List Word) : List Word := ws.map fun w => decodedWord (pairValue cb w) w

@[simp] theorem length_valueWords (cb : List Entry) (ws : List Word) : (valueWords cb ws).length = ws.length := List.length_map ..

/-- The four fields of a pair word as PBUF holds it are those of the word read (R93). -/
theorem valueWords_maskPair (cb : List Entry) (ws : List Word) : valueWords cb (ws.map maskPair) = valueWords cb ws := by
  unfold valueWords decodedWord pairValue
  rw [List.map_map]
  exact List.map_congr_left fun w _ => by simp

theorem decodable_maskPair (cb : List Entry) (w : Word) : decodable cb (maskPair w) = decodable cb w := by simp [decodable]

section Legal
variable {cb : List Entry} {ws : List Word} (h : legalBlock cb ws = true)
include h

theorem legalBlock_length : ws.length ≤ 64 := by
  obtain ⟨hd, hr, _⟩ := (legalBlock_iff cb ws).1 h
  have := List.length_le_sum_of_one_le (ws.map fun w => (runField w).toNat) (by simpa using fun w hw => (hd w hw).2)
  rw [List.length_map] at this
  exact this.trans hr.le

theorem decodePairs_legalBlock : decodePairs cb 0 (ws.map maskPair) = .ok (valueWords cb ws) := by
  obtain ⟨hd, _, _⟩ := (legalBlock_iff cb ws).1 h
  rw [decodePairs_ok, ← valueWords_maskPair]
  · rfl
  · intro w hw
    obtain ⟨v, hv, rfl⟩ := List.mem_map.1 hw
    rw [decodable_maskPair]
    exact (hd v hv).1

theorem rleCheck_legalBlock : rleCheck 0 0 (valueWords cb ws) = .ok 64 := by
  obtain ⟨hd, hr, _⟩ := (legalBlock_iff cb ws).1 h
  have hs : runSum (valueWords cb ws) = 64 := by simpa [runSum, valueWords, decodedWord, Function.comp_def] using hr
  rw [rleCheck_ok (fun w hw => ?_) (by omega), hs]
  obtain ⟨v, hv, rfl⟩ := List.mem_map.1 hw
  exact ⟨lenField_pairWord .., by rw [decodedWord, runField_pairWord]; exact (hd v hv).2⟩

end Legal

/-- The pairs in PBUF, element for element. -/
theorem validPairs_eq {s : State} {ws : List Word} (hl : ws.length ≤ 64) (hp : s.pcount = BitVec.ofNat 7 ws.length)
    (he : ∀ i (h : i < ws.length), s.pbuf[i] = ws[i]) : validPairs s = ws := by
  have hn : s.pcount.toNat = ws.length := by rw [hp, BitVec.toNat_ofNat]; omega
  unfold validPairs
  rw [hn]
  exact List.ext_getElem (by simp [hl]) fun i h1 h2 => by simp [he i h2]

/-- PCOUNT after the words of a block have been read (R183). -/
def State.counted (n : Nat) (s : State) : State := { s with pcount := BitVec.ofNat 7 n }

/-- ZBUF replaced. -/
def State.withZbuf (z : Block 16) (s : State) : State := { s with zbuf := z }

/-- After ZZ_UNFLAT (R133). -/
def State.unflattened (s : State) : State := { s with qbuf := Vector.ofFn fun n => s.zbuf[zzInv n] }

/-- After DEQUANT with QV = 1 (R112). -/
def State.scaled (s : State) : State :=
  { s with
    cbuf := Vector.ofFn fun n => satPat 32 (dequantExact s.qbuf[n] s.qmat[n])
    status := { s.status with sat := s.status.sat || anyCell fun n => overflowed 32 (dequantExact s.qbuf[n] s.qmat[n]) } }

section Stages
variable (s : State)

theorem validPairs_decoded {ws : List Word} (hl : ws.length ≤ 64) (hp : s.pcount = BitVec.ofNat 7 ws.length) :
    validPairs (s.withPbuf (overwrite s.pbuf ws)) = ws :=
  validPairs_eq hl ((State.withPbuf_pcount _ s).trans hp) fun i h => by simp [overwrite, h]

theorem bodyCbDecode_ok {s : State} {ws : List Word} (h : decodePairs s.cb 0 (validPairs s) = .ok ws) :
    bodyCbDecode s = .ok () (s.withPbuf (overwrite s.pbuf ws)) := by
  unfold bodyCbDecode State.withPbuf
  rw [h, ofCheck_ok, bind_ok]

theorem bodyRleDec_ok {s : State} {ws : List Word} (hp : validPairs s = ws) (h : rleCheck 0 0 ws = .ok 64) :
    bodyRleDec s = .ok () (s.withZbuf (fromList (expand ws))) := by
  unfold bodyRleDec State.withZbuf
  rw [hp, h, ofCheck_ok, bind_ok, if_neg (by decide), hp]

theorem bodyZzUnflat_unflattened : bodyZzUnflat s = .ok () s.unflattened := rfl

theorem bodyDequant_scaled {s : State} (h : s.status.qv = true) : bodyDequant s = .ok () s.scaled := by
  unfold bodyDequant
  rw [h, if_neg (by decide)]
  rfl

@[simp] theorem State.unflattened_qbuf : s.unflattened.qbuf = Vector.ofFn fun n => s.zbuf[zzInv n] := by dsimp only [State.unflattened]
@[simp] theorem State.unflattened_regs : s.unflattened.regs = s.regs := by dsimp only [State.unflattened]
@[simp] theorem State.scaled_regs : s.scaled.regs = s.regs := by dsimp only [State.scaled]
@[simp] theorem State.unflattened_qmat : s.unflattened.qmat = s.qmat := by dsimp only [State.unflattened]
@[simp] theorem State.unflattened_status : s.unflattened.status = s.status := by dsimp only [State.unflattened]
@[simp] theorem State.withZbuf_zbuf (z : Block 16) : (s.withZbuf z).zbuf = z := rfl
@[simp] theorem State.withZbuf_qmat (z : Block 16) : (s.withZbuf z).qmat = s.qmat := rfl
@[simp] theorem State.withZbuf_status (z : Block 16) : (s.withZbuf z).status = s.status := rfl
@[simp] theorem State.scaled_cbuf : s.scaled.cbuf = Vector.ofFn fun n => satPat 32 (dequantExact s.qbuf[n] s.qmat[n]) := by
  dsimp only [State.scaled]
@[simp] theorem State.scaled_status : s.scaled.status =
    { s.status with sat := s.status.sat || anyCell fun n => overflowed 32 (dequantExact s.qbuf[n] s.qmat[n]) } := by
  dsimp only [State.scaled]

/-- The words `ws` of block `b` have been read into PBUF (R183). -/
def State.pairsRead (b : Nat) (ws : List Word) : State :=
  ((((s.atBlock b).did (readRequests s.regs s.seq.j ws.length)).withPbuf (putPairs s.pbuf 0 ws)).atWord
    (s.seq.j + ws.length)).counted ws.length

/-- The codes of block `b` have been replaced by values, and the values expanded (R141, R155). -/
def State.expanded (b : Nat) (ws : List Word) : State :=
  ((s.pairsRead b ws).withPbuf (overwrite (s.pairsRead b ws).pbuf (valueWords s.cb ws))).withZbuf (codedSequence s.cb ws)

/-- Before the pixels of block `b`, of the words `ws`, are stored. -/
@[irreducible] def State.rebuilt (b : Nat) (ws : List Word) : State :=
  ((s.expanded b ws).unflattened.scaled.did [.txInv (dequantized s.cb s.qmat ws)]).withCbuf (reconstruct s.cb s.qmat ws)

@[simp] theorem State.pairsRead_cb (b : Nat) (ws : List Word) : (s.pairsRead b ws).cb = s.cb := rfl

@[simp] theorem State.expanded_regs (b : Nat) (ws : List Word) :
    (s.expanded b ws).regs = { s.regs with strmPtr := pat32 (s.seq.j + ws.length) } := rfl

theorem validPairs_pairsRead (b : Nat) {ws : List Word} (hl : ws.length ≤ 64) : validPairs (s.pairsRead b ws) = ws.map maskPair := by
  refine validPairs_eq (by simpa using hl) (by rw [List.length_map]; rfl) fun i h => ?_
  have hi : i < ws.length := by simpa using h
  change (putPairs s.pbuf 0 ws)[i] = _
  rw [putPairs_getElem s.pbuf 0 ws i (by omega), if_pos (Nat.zero_le i)]
  simp [hi]

theorem scaled_expanded_cbuf (b : Nat) (ws : List Word) :
    (s.expanded b ws).unflattened.scaled.cbuf = dequantized s.cb s.qmat ws := by
  rw [State.scaled_cbuf, State.unflattened_qbuf, State.unflattened_qmat]
  unfold dequantized State.expanded
  rw [State.withZbuf_zbuf]
  exact Vector.ext fun i hi => by simp [State.pairsRead, State.counted]

section Rebuilt
variable (b : Nat) (ws : List Word)

@[simp] theorem State.rebuilt_regs : (s.rebuilt b ws).regs = { s.regs with strmPtr := pat32 (s.seq.j + ws.length) } := by
  unfold State.rebuilt
  rw [State.withCbuf_regs, State.did_regs, State.scaled_regs, State.unflattened_regs, State.expanded_regs]
@[simp] theorem State.rebuilt_cbuf : (s.rebuilt b ws).cbuf = reconstruct s.cb s.qmat ws := by
  unfold State.rebuilt
  rw [State.withCbuf_cbuf]
@[simp] theorem State.rebuilt_cb : (s.rebuilt b ws).cb = s.cb := by unfold State.rebuilt; rfl
@[simp] theorem State.rebuilt_qmat : (s.rebuilt b ws).qmat = s.qmat := by unfold State.rebuilt; rfl
@[simp] theorem State.rebuilt_j : (s.rebuilt b ws).seq.j = s.seq.j + ws.length := by unfold State.rebuilt; rfl
@[simp] theorem State.rebuilt_row : (s.rebuilt b ws).seq.row = b / blkCols s.regs := by unfold State.rebuilt; rfl
@[simp] theorem State.rebuilt_col : (s.rebuilt b ws).seq.col = b % blkCols s.regs := by unfold State.rebuilt; rfl
@[simp] theorem State.rebuilt_memResp : (s.rebuilt b ws).memResp = s.memResp := by unfold State.rebuilt; rfl
@[simp] theorem State.rebuilt_hostIn : (s.rebuilt b ws).hostIn = s.hostIn := by unfold State.rebuilt; rfl
@[simp] theorem State.rebuilt_hostOut : (s.rebuilt b ws).hostOut = s.hostOut := by unfold State.rebuilt; rfl
@[simp] theorem State.rebuilt_rst : (s.rebuilt b ws).rst = s.rst := by unfold State.rebuilt; rfl
@[simp] theorem State.rebuilt_mem : (s.rebuilt b ws).mem = s.mem := by
  unfold State.rebuilt
  change (readRequests s.regs s.seq.j ws.length).foldl Request.perform s.mem = s.mem
  exact foldl_perform_pure pure_of_mem_readRequests s.mem
@[simp] theorem State.rebuilt_busLog : (s.rebuilt b ws).busLog =
    (readRequests s.regs s.seq.j ws.length ++ [Request.txInv (dequantized s.cb s.qmat ws)]).reverse ++ s.busLog := by
  rw [List.reverse_append, List.append_assoc]
  unfold State.rebuilt
  rfl
@[simp] theorem State.rebuilt_status : (s.rebuilt b ws).status =
    { s.status with sat := s.status.sat || dequantSaturates s.cb s.qmat ws } := by
  unfold State.rebuilt
  simp only [State.expanded, State.withCbuf_status, State.did_status, State.scaled_status, State.unflattened_status, State.unflattened_qbuf,
    State.unflattened_qmat, State.withZbuf_status, State.withZbuf_zbuf, State.withZbuf_qmat, State.withPbuf_status, State.withPbuf_qmat,
    anyCell, dequantSaturates]
  simp [State.pairsRead, State.counted]

theorem State.Undisturbed.rebuilt {s : State} (h : s.Undisturbed) (b : Nat) (ws : List Word) : (s.rebuilt b ws).Undisturbed :=
  h.of (State.rebuilt_hostIn s b ws) (State.rebuilt_memResp s b ws)

end Rebuilt
end Stages

/-- The stages of one block up to its pixels (R183). -/
theorem decompressBlock_rebuilt {s : State} (h : s.Undisturbed) (hq : s.status.qv = true) {ws : List Word}
    (hs : streamHas s.regs s.mem s.seq.j ws) (hb : legalBlock s.cb ws = true) (hl : s.seq.j + ws.length ≤ s.regs.strmLen.toNat)
    (b : Nat) : decompressBlock b s =
      (storeBlock (b / blkCols s.regs) (b % blkCols s.regs) (s.rebuilt b ws)).bind fun _ t => .ok () t.blockDone := by
  have hn := legalBlock_length hb
  obtain ⟨_, _, he⟩ := (legalBlock_iff s.cb ws).1 hb
  have ha : (s.atBlock b).Undisturbed := h.of rfl rfl
  have hx : (s.expanded b ws).unflattened.scaled.Undisturbed := h.of rfl rfl
  unfold decompressBlock
  rw [readPairs_did (m := 0) (ws := ws) ha hs he (show ws.length ≤ s.regs.strmLen.toNat - s.seq.j by omega) (by omega), bind_ok, Nat.zero_add]
  change (bodyCbDecode (s.pairsRead b ws)).bind _ = _
  rw [bodyCbDecode_ok (s := s.pairsRead b ws) ((congrArg _ (validPairs_pairsRead s b hn)).trans (decodePairs_legalBlock hb)), bind_ok,
    State.pairsRead_cb,
    bodyRleDec_ok (validPairs_decoded (s.pairsRead b ws) (by simpa using hn) (by rw [length_valueWords]; rfl)) (rleCheck_legalBlock hb), bind_ok]
  change (bodyZzUnflat (s.expanded b ws)).bind _ = _
  rw [bodyZzUnflat_unflattened, bind_ok, bodyDequant_scaled (by exact hq), bind_ok, bodyTxInv_did hx, bind_ok, scaled_expanded_cbuf]
  unfold State.rebuilt
  rfl

end Sys2Proof.Machine
end

section
/-! SUPPORT. SEQ_DECOMPRESS run undisturbed on a stream of legal blocks (46_sequencer.md R183, R184). -/

namespace Sys2Proof.Machine

/-- The stream words before block `b`. -/
def wordsBefore (bs : List (List Word)) (b : Nat) : Nat := (bs.take b).flatten.length

theorem wordsBefore_succ {bs : List (List Word)} {b : Nat} (hb : b < bs.length) :
    wordsBefore bs (b + 1) = wordsBefore bs b + bs[b].length := by
  unfold wordsBefore
  rw [← List.take_append_getElem hb, List.flatten_append, List.length_append, List.flatten_singleton]

theorem wordsBefore_le (bs : List (List Word)) (b : Nat) : wordsBefore bs b ≤ bs.flatten.length :=
  ((List.take_sublist b bs).flatten).length_le

theorem wordsBefore_length (bs : List (List Word)) : wordsBefore bs bs.length = bs.flatten.length := by
  unfold wordsBefore
  rw [List.take_length]

/-- The words of block `b` in a stream of blocks. -/
theorem streamHas_block {r : Regs} {m : List Host.Cell} {bs : List (List Word)} (h : streamHas r m 0 bs.flatten) {b : Nat}
    (hb : b < bs.length) : streamHas r m (wordsBefore bs b) bs[b] := by
  have hs : bs.flatten = (bs.take b).flatten ++ (bs[b] ++ (bs.drop (b + 1)).flatten) := by
    rw [← List.flatten_cons, ← List.drop_eq_getElem_cons hb, ← List.flatten_append, List.take_append_drop]
  rw [hs, streamHas_append, streamHas_append, Nat.zero_add] at h
  exact h.2.1

theorem readRequests_append (r : Regs) (j k : Nat) : readRequests r 0 j ++ readRequests r j k = readRequests r 0 (j + k) := by
  unfold readRequests
  rw [← List.map_append, ← List.range'_append]
  simp

/-- What SEQ_DECOMPRESS needs of its stream, in memory, of the blocks `bs` (R183). -/
structure StreamReady (s : State) (bs : List (List Word)) : Prop where
  undisturbed : s.Undisturbed
  count : bs.length = blkCount s.regs
  legal : ∀ ws ∈ bs, legalBlock s.cb ws = true
  length : bs.flatten.length = s.regs.strmLen.toNat
  words : streamHas s.regs s.mem 0 bs.flatten

/-! ### Phase VALIDATE -/

/-- R183: a legal block passes phase VALIDATE. -/
theorem validateBlock_did {u : State} (h : u.Undisturbed) {ws : List Word} (hs : streamHas u.regs u.mem u.seq.j ws)
    (hb : legalBlock u.cb ws = true) (hl : u.seq.j + ws.length ≤ u.regs.strmLen.toNat) (b : Nat) : validateBlock b u =
      .ok () (((u.did (readRequests u.regs u.seq.j ws.length)).atWord (u.seq.j + ws.length)).setSum 64) := by
  obtain ⟨hd, hr, he⟩ := (legalBlock_iff u.cb ws).1 hb
  have hv : (u.setSum 0).Undisturbed := h.of rfl rfl
  unfold validateBlock
  rw [validateWords_did hv hs hd he ((Nat.zero_add _).trans hr) (by omega)]
  rfl

/-- After `k` words of phase VALIDATE have been read. -/
def State.validated (k v : Nat) (s : State) : State :=
  (((s.startPass .validate).did (readRequests s.regs 0 k)).atWord k).setSum v

theorem State.validated_mem (k v : Nat) (s : State) : (s.validated k v).mem = s.mem :=
  foldl_perform_pure pure_of_mem_readRequests s.mem

theorem State.validated_succ (k n v : Nat) (s : State) :
    ((((s.validated k v).did (readRequests s.regs k n)).atWord (k + n)).setSum 64) = s.validated (k + n) 64 := by
  unfold State.validated
  rw [State.did_setSum, State.setSum_atWord, State.setSum_setSum, State.did_atWord, State.atWord_atWord, ← State.did_append,
    readRequests_append]

section Validate
variable {s : State} {bs : List (List Word)} (hr : StreamReady s bs)
include hr

theorem validateBlock_validated {b : Nat} (hb : b < bs.length) (v : Nat) :
    validateBlock b (s.validated (wordsBefore bs b) v) = .ok () (s.validated (wordsBefore bs (b + 1)) 64) := by
  have hs : streamHas (s.validated (wordsBefore bs b) v).regs (s.validated (wordsBefore bs b) v).mem (wordsBefore bs b) bs[b] := by
    rw [State.validated_mem]
    exact (streamHas_congr rfl).2 (streamHas_block hr.words hb)
  have hl : wordsBefore bs b + bs[b].length ≤ s.regs.strmLen.toNat := by
    rw [← wordsBefore_succ hb, ← hr.length]
    exact wordsBefore_le bs _
  have hu : (s.validated (wordsBefore bs b) v).Undisturbed := hr.undisturbed.of rfl rfl
  rw [validateBlock_did hu (ws := bs[b]) hs (hr.legal _ (List.getElem_mem hb)) hl, wordsBefore_succ hb, ← State.validated_succ _ _ v]
  rfl

/-- R183: a stream of legal blocks passes phase VALIDATE. -/
theorem validatePhase_validated : ∃ v, validatePhase s = .ok () (s.validated bs.flatten.length v) := by
  have loop := forCount_ok (body := validateBlock) (I := fun b u => ∃ v, u = s.validated (wordsBefore bs b) v) bs.length 0
    (by
      rintro b u _ hb ⟨v, rfl⟩
      exact ⟨_, validateBlock_validated hr (by omega) v, 64, rfl⟩)
    (s.startPass .validate) ⟨s.seq.sum, rfl⟩
  obtain ⟨t, ht, v, rfl⟩ := loop
  refine ⟨v, ?_⟩
  unfold validatePhase
  rw [← hr.count, ht, bind_ok, Nat.zero_add, wordsBefore_length]
  exact if_neg (not_not.2 hr.length)

end Validate

/-! ### Phase BLOCKS -/

/-- What SEQ_DECOMPRESS needs to get through (R183), with a stream of the blocks `bs`. -/
structure DecompressStart (s : State) (bs : List (List Word)) : Prop extends StreamReady s bs where
  mem : Memory.wf s.mem = true
  disjoint : overlaps (imageRegion s.regs) (streamRegionLen s.regs) = false
  len : 4 * s.regs.strmLen.toNat ≤ 2 ^ 32

/-- The pixel writes of the first `b` blocks. -/
def imageRequests (s : State) (bs : List (List Word)) (b : Nat) : List Request :=
  (List.range b).flatMap fun k => storeRequests s.regs (k / blkCols s.regs) (k % blkCols s.regs)
    (reconstruct s.cb (matrixOf s.regs.quality.toNat) (bs.getD k []))

theorem imageRequests_succ (s : State) {bs : List (List Word)} {b : Nat} (hb : b < bs.length) : imageRequests s bs (b + 1) =
    imageRequests s bs b ++ storeRequests s.regs (b / blkCols s.regs) (b % blkCols s.regs)
      (reconstruct s.cb (matrixOf s.regs.quality.toNat) bs[b]) := by
  simp [imageRequests, List.range_succ, hb]

theorem mem_storeRequests {r : Regs} {row col : Nat} {x : Block 32} {q : Request} : q ∈ storeRequests r row col x ↔
    ∃ n : Fin 64, inBounds r (cellY row n) (cellX col n) = true ∧ q = .write8 (pixAddr r (cellY row n) (cellX col n)) (pixel x[n]) := by
  simp only [storeRequests, cellsInside, List.mem_map, List.mem_filter, List.mem_finRange, true_and, @eq_comm _ q]

/-- The state of SEQ_DECOMPRESS, begun in `s`, after `b` blocks of phase BLOCKS. -/
structure DecompressInv (s : State) (bs : List (List Word)) (b : Nat) (u : State) : Prop where
  regs : u.regs = { s.regs with blkDone := BitVec.ofNat 32 b, strmPtr := pat32 (wordsBefore bs b) }
  status : u.status = { s.status with
    qv := true, sat := s.status.sat || (bs.take b).any (dequantSaturates s.cb (matrixOf s.regs.quality.toNat)) }
  qmat : u.qmat = matrixOf s.regs.quality.toNat
  cb : u.cb = s.cb
  j : u.seq.j = wordsBefore bs b
  mem : u.mem = (imageRequests s bs b).foldl Request.perform s.mem
  memResp : u.memResp = s.memResp
  busLog : u.busLog = ((List.range b).flatMap (decompressBlockRequests s (matrixOf s.regs.quality.toNat) bs)).reverse ++
    ((readRequests s.regs 0 bs.flatten.length).reverse ++ s.busLog)
  rst : u.rst = s.rst
  hostIn : u.hostIn = s.hostIn
  hostOut : u.hostOut = s.hostOut

/-- Only the image is written (R76). -/
theorem stores_imageRequests {s : State} {bs : List (List Word)} {b : Nat} {a : Addr} (ha : inRegion (imageRegion s.regs) a = false) :
    ∀ q ∈ imageRequests s bs b, q.stores a = false := by
  intro q hq
  obtain ⟨k, _, hq⟩ := List.mem_flatMap.1 hq
  obtain ⟨n, hn, rfl⟩ := mem_storeRequests.1 hq
  rw [write8_stores_eq_false]
  rintro rfl
  rw [pixAddr_inRegion hn] at ha
  exact nomatch ha

/-- A byte of a stream word. -/
theorem strmAddr_inStream (r : Regs) {n i d : Nat} (hn : 4 * n ≤ 2 ^ 32) (hi : i < n) (hd : d < 4) :
    inStream r n (strmAddr r i + BitVec.ofNat 32 d) = true := by
  have h := strmAddr_sub r (i := i) (k := 0) (d := d) (by omega) (by omega)
  rw [show strmAddr r 0 = strmBaseByte r from BitVec.add_zero _] at h
  unfold inStream
  rw [inRegion_iff]
  dsimp only
  omega

section Blocks
variable {s : State} {bs : List (List Word)} (hs : DecompressStart s bs)
include hs

/-- No pixel written reaches the stream (R76). -/
theorem DecompressStart.stream_unchanged (b : Nat) : streamHas s.regs ((imageRequests s bs b).foldl Request.perform s.mem) 0 bs.flatten := by
  intro i hi
  rw [← hs.words i hi, Nat.zero_add]
  refine memGet32_congr fun d hd => memGet_foldl_perform hs.mem (stores_imageRequests ?_)
  by_contra h
  have hin := not_inRegion_of_disjoint hs.disjoint (Bool.eq_true_of_not_eq_false h)
  have := strmAddr_inStream s.regs hs.len (hs.length ▸ hi) hd
  rw [inStream, show ({ base := strmBaseByte s.regs, len := 4 * s.regs.strmLen.toNat } : Region) = streamRegionLen s.regs from rfl,
    hin] at this
  exact nomatch this

variable {b : Nat} {u : State} (hI : DecompressInv s bs b u) (hb : b < bs.length)
include hI hb

/-- One block of phase BLOCKS (R183). -/
theorem DecompressInv.step : ∃ t, decompressBlock b u = .ok () t ∧ DecompressInv s bs (b + 1) t := by
  have hu : u.Undisturbed := hs.undisturbed.of hI.hostIn hI.memResp
  have hw : streamHas u.regs u.mem u.seq.j bs[b] := by
    rw [hI.mem, hI.j]
    exact (streamHas_congr (by rw [hI.regs])).2 (streamHas_block (hs.stream_unchanged b) hb)
  have hl : u.seq.j + bs[b].length ≤ u.regs.strmLen.toNat := by
    rw [hI.j, hI.regs, ← wordsBefore_succ hb, ← hs.length]
    exact wordsBefore_le bs _
  have hleg : legalBlock u.cb bs[b] = true := by rw [hI.cb]; exact hs.legal _ (List.getElem_mem hb)
  rw [decompressBlock_rebuilt hu (by rw [hI.status]) hw hleg hl, storeBlock_did (hu.rebuilt b bs[b]), bind_ok]
  exact ⟨_, rfl, {
    regs := by simp [hI.regs, hI.j, wordsBefore_succ hb, BitVec.ofNat_add]
    status := by
      rw [← List.take_append_getElem hb, List.any_append, List.any_cons, List.any_nil, Bool.or_false, ← Bool.or_assoc]
      simp only [State.blockDone_status, State.did_status, State.rebuilt_status, hI.status, hI.cb, hI.qmat]
    qmat := by simpa using hI.qmat
    cb := by simpa using hI.cb
    j := by simp [hI.j, wordsBefore_succ hb]
    mem := by simp [hI.regs, hI.mem, hI.cb, hI.qmat, imageRequests_succ s hb]
    memResp := by simpa using hI.memResp
    busLog := by
      simp [hI.regs, hI.j, hI.busLog, hI.cb, hI.qmat, List.range_succ, decompressBlockRequests, hb, wordsBefore]
    rst := by simpa using hI.rst
    hostIn := by simpa using hI.hostIn
    hostOut := by simpa using hI.hostOut }⟩

omit hI hb in
/-- Phase BLOCKS (R183). -/
theorem decompressBlocks_ok (h0 : DecompressInv s bs 0 u) :
    ∃ t, forCount decompressBlock (blkCount s.regs) 0 u = .ok () t ∧ DecompressInv s bs (blkCount s.regs) t := by
  obtain ⟨t, ht, hI⟩ := forCount_ok (blkCount s.regs) 0
    (fun b u _ hb hI => DecompressInv.step hs hI (by rw [hs.count]; omega)) u h0
  exact ⟨t, ht, by rwa [Nat.zero_add] at hI⟩

end Blocks

/-! ### The whole command -/

theorem decompressInv_start (s : State) (bs : List (List Word)) (v : Nat) :
    DecompressInv s bs 0 ((s.generated.clearBlkDone.validated bs.flatten.length v).startPass .blocks) where
  regs := rfl
  status := by simp [State.generated, State.validated]
  qmat := rfl
  cb := rfl
  j := rfl
  mem := State.validated_mem _ v _
  memResp := rfl
  busLog := rfl
  rst := rfl
  hostIn := rfl
  hostOut := rfl

/-- R183: a stream of legal blocks is reconstructed. -/
theorem bodySeqDecompress_ok {s : State} {bs : List (List Word)} (hs : DecompressStart s bs) (hq : qualityLegal s.regs = true)
    (hw : s.regs.width ≠ 0) (hh : s.regs.height ≠ 0) :
    ∃ u, bodySeqDecompress s = .ok () u ∧ DecompressInv s bs (blkCount s.regs) u := by
  have hr : StreamReady s.generated.clearBlkDone bs :=
    { undisturbed := hs.undisturbed.of rfl rfl
      count := hs.count
      legal := hs.legal
      length := hs.length
      words := (streamHas_congr rfl).2 hs.words }
  obtain ⟨v, hv⟩ := validatePhase_validated hr
  obtain ⟨u, hu, hI⟩ := decompressBlocks_ok hs (decompressInv_start s bs v)
  refine ⟨u, ?_, hI⟩
  unfold bodySeqDecompress checkRegions
  rw [checkSequence_eq hw hh, if_pos hq, ofCheck_ok, bind_ok, if_neg (by simp [hs.disjoint]), bind_ok, bodyQgen_generated hq,
    bind_ok, hv, bind_ok, ← hu]
  rfl

end Sys2Proof.Machine
end

section
/-! SUPPORT. The image that SEQ_DECOMPRESS leaves (45_geometry.md R170, R174; 46_sequencer.md R183). -/

namespace Sys2Proof.Machine

/-- A byte to which one value alone is stored. -/
theorem memGet_foldl_write8 {m : List Host.Cell} (hm : Memory.wf m = true) {l : List Request} {a : Addr} {v : Byte}
    (hl : ∀ q ∈ l, q.stores a = true → q = .write8 a v) (he : .write8 a v ∈ l) :
    memGet (l.foldl Request.perform m) a.toNat = v := by
  induction l using List.reverseRecOn with
  | nil => exact nomatch he
  | append_singleton l q ih =>
    rw [List.foldl_append, List.foldl_cons, List.foldl_nil]
    cases hq : q.stores a with
    | true =>
      obtain rfl := hl q (by simp) hq
      exact (memGet_memSet (foldl_perform_wf hm l) _ _ v).trans (if_pos rfl)
    | false =>
      have hne : Request.write8 a v ≠ q := by
        rintro rfl
        exact (write8_stores_eq_false a v a).1 hq rfl
      rw [memGet_perform (foldl_perform_wf hm l) hq]
      exact ih (fun p hp => hl p (by simp [hp])) (by simpa [hne] using he)

/-- Different pixels have different addresses (R75). -/
theorem pixAddr_inj {r : Regs} {y x y' x' : Nat} (h : inBounds r y x = true) (h' : inBounds r y' x' = true)
    (he : pixAddr r y x = pixAddr r y' x') : y = y' ∧ x = x' := by
  have hx := ((inBounds_iff r y x).1 h).2
  have hx' := ((inBounds_iff r y' x').1 h').2
  have e : y * r.width.toNat + x = y' * r.width.toNat + x' := by
    rw [← (pixAddr_sub r h).1, ← (pixAddr_sub r h').1, he]
  have hw : 0 < r.width.toNat := by omega
  have hd := congrArg (· / r.width.toNat) e
  have hm := congrArg (· % r.width.toNat) e
  simp only [Nat.mul_comm _ r.width.toNat, Nat.mul_add_div hw, Nat.mul_add_mod, Nat.div_eq_of_lt hx, Nat.div_eq_of_lt hx',
    Nat.mod_eq_of_lt hx, Nat.mod_eq_of_lt hx', Nat.add_zero] at hd hm
  exact ⟨hd, hm⟩

/-- A pixel lies in one cell of one block (R170). -/
theorem cell_inj {row col row' col' : Nat} {n n' : Fin 64} (hy : cellY row n = cellY row' n') (hx : cellX col n = cellX col' n') :
    row = row' ∧ col = col' ∧ n = n' := by
  unfold cellY cellRow at hy
  unfold cellX cellCol at hx
  refine ⟨by omega, by omega, Fin.ext (by omega)⟩

/-- R183: after all blocks, each pixel is the reconstruction of its cell. -/
theorem pixel_imageRequests {s : State} (hm : Memory.wf s.mem = true) (bs : List (List Word)) {row col : Nat} {n : Fin 64}
    (hr : row < blkRows s.regs) (hc : col < blkCols s.regs) (hn : inBounds s.regs (cellY row n) (cellX col n) = true) :
    memGet ((imageRequests s bs (blkCount s.regs)).foldl Request.perform s.mem) (pixAddr s.regs (cellY row n) (cellX col n)).toNat =
      pixel (reconstruct s.cb (matrixOf s.regs.quality.toNat) (bs.getD (row * blkCols s.regs + col) []))[n] := by
  refine memGet_foldl_write8 hm (fun q hq hst => ?_) ?_
  · obtain ⟨k, _, hq⟩ := List.mem_flatMap.1 hq
    obtain ⟨n', hn', rfl⟩ := mem_storeRequests.1 hq
    obtain ⟨hy, hx⟩ := pixAddr_inj hn hn' (by simpa [Request.stores] using hst)
    obtain ⟨rfl, rfl, rfl⟩ := cell_inj hy hx
    rw [Nat.div_add_mod']
  · refine List.mem_flatMap.2 ⟨_, List.mem_range.2 (block_lt hr hc), ?_⟩
    rw [block_div hc, block_mod hc]
    exact mem_storeRequests.2 ⟨n, hn, rfl⟩

/-- R183: a SEQ_DECOMPRESS of legal blocks that leaves ERRCODE at 0. -/
theorem seqDecompress_ok_of_errCode {s t : State} {bs : List (List Word)} (hu : s.Undisturbed) (hm : Memory.wf s.mem = true)
    (hw : s.regs.width ≠ 0) (hh : s.regs.height ≠ 0) (h : exec .seqDecompress s = .next t) (he : t.status.errCode = 0)
    (hn : bs.length = blkCount s.regs) (hl : bs.all (legalBlock s.cb) = true) (hf : bs.flatten = strmWords s s.regs.strmLen.toNat) :
    qualityLegal s.regs = true ∧ ∃ u, DecompressInv s bs (blkCount s.regs) u ∧ t = u.freeScratch.complete := by
  obtain ⟨v, hv, rfl⟩ := sequence_ok_of_errCode
    (bodySeqDecompress_keepsFlags noFlagClaim_grows.1 noFlagClaim_grows.2 s ⟨hu.1, trivial⟩) h he
  obtain ⟨hq, ho⟩ := bodySeqDecompress_checks hw hh hv
  have hs : DecompressStart s bs :=
    { undisturbed := hu
      count := hn
      legal := List.all_eq_true.1 hl
      length := by simp [hf, strmWords]
      words := fun i hi => by simp [hf, strmWords, State.strmWord]
      mem := hm
      disjoint := ho
      len := stream_lt_of_disjoint hw hh ho }
  obtain ⟨u, hu, hI⟩ := bodySeqDecompress_ok hs hq hw hh
  obtain rfl : v = u := by rw [hv] at hu; exact (Run.ok.inj hu).2
  exact ⟨hq, v, hI, rfl⟩

/-- Settles O58: an error-free run went through every block, and stored its reconstruction at the addresses of its cells. -/
theorem decompressImage : Obligations.DecompressImage := by
  intro s t bs hu hm hw hh h he _ hn hl hf
  obtain ⟨hq, u, hI, rfl⟩ := seqDecompress_ok_of_errCode hu hm hw hh h he hn hl hf
  have hqm : u.freeScratch.complete.qmat = matrixOf s.regs.quality.toNat := by simpa using hI.qmat
  rw [hqm]
  refine ⟨matrixOf_toNat hq, ?_, fun row col n hr hc hy hx => ?_⟩
  · simp [hI.status, ← hn, dequantSaturates]
  · have hb : inBounds s.regs (cellY row n) (cellX col n) = true := (inBounds_iff _ _ _).2 ⟨hy, hx⟩
    rw [State.byte, State.complete_mem, State.freeScratch_mem, hI.mem]
    exact pixel_imageRequests hm bs hr hc hb

end Sys2Proof.Machine
end

section
/-! SUPPORT. Which commands reach external memory (20_memory.md R70, R73). -/

namespace Sys2Proof.Machine

/-- A claim about a state that the end of a command cannot make false holds after a command that no reset abandons. -/
theorem finish_of_ensures {P : State → Prop} {r : Run Unit} {t : State} (h : r.Ensures (fun _ => P) (fun _ _ => P) fun _ => False)
    (hc : ∀ s, P s → P s.complete) (hr : ∀ c i s, P s → P (s.raise c i)) (ht : finish r = .next t) : P t := by
  rcases finish_next ht with ⟨s, rfl, rfl⟩ | ⟨c, i, s, rfl, rfl⟩ | rfl
  · exact hc _ (ensures_ok.1 h)
  · exact hr _ _ _ (ensures_raised.1 h)
  · exact (ensures_abandoned.1 h).elim

/-- `t` comes after `s` with no master-port access made. -/
structure NoAccess (s t : State) : Prop where
  mem : t.mem = s.mem
  memResp : t.memResp = s.memResp
  masters : t.busLog.filter Request.isMaster = s.busLog.filter Request.isMaster

/-- Only external memory, the Memory agent's answers and the transactions matter to `NoAccess`. -/
theorem NoAccess.of {s t u : State} (h : NoAccess s t) (hm : u.mem = t.mem) (hr : u.memResp = t.memResp) (hl : u.busLog = t.busLog) :
    NoAccess s u := ⟨hm.trans h.mem, hr.trans h.memResp, by rw [hl]; exact h.masters⟩

theorem NoAccess.refl (s : State) : NoAccess s s := ⟨rfl, rfl, rfl⟩

/-- A piece of a command begun in `s` makes no master-port access, however it ends. -/
abbrev AccessFree (s : State) {α : Type} (r : Run α) : Prop :=
  r.Ensures (fun _ t => NoAccess s t) (fun _ _ t => NoAccess s t) fun _ => False

theorem ofCheck_accessFree {α : Type} (r : Except (ErrCode × Word) α) (s : State) : AccessFree s (ofCheck r s) :=
  ofCheck_ensures (fun _ _ => .refl s) fun _ _ => .refl s

theorem bodyQgen_accessFree (s : State) : AccessFree s (bodyQgen s) := by
  unfold bodyQgen
  split
  · exact ensures_raised.2 (.refl s)
  · exact ensures_ok.2 ⟨rfl, rfl, rfl⟩

theorem bodyQuant_accessFree (s : State) : AccessFree s (bodyQuant s) := by
  unfold bodyQuant
  split
  · exact ensures_raised.2 (.refl s)
  · exact ensures_ok.2 ⟨rfl, rfl, rfl⟩

theorem bodyDequant_accessFree (s : State) : AccessFree s (bodyDequant s) := by
  unfold bodyDequant
  split
  · exact ensures_raised.2 (.refl s)
  · exact ensures_ok.2 ⟨rfl, rfl, rfl⟩

theorem bodyRleDec_accessFree (s : State) : AccessFree s (bodyRleDec s) := by
  refine (ofCheck_accessFree _ s).bind fun _ t h => ?_
  split
  · exact ensures_raised.2 h
  · exact ensures_ok.2 (h.of rfl rfl rfl)

theorem bodyCbRead_accessFree (s : State) : AccessFree s (bodyCbRead s) := by
  unfold bodyCbRead
  split
  · exact ensures_raised.2 (.refl s)
  · exact ensures_ok.2 ⟨rfl, rfl, rfl⟩

/-- A transform request is no master-port access (R122). -/
theorem request_accessFree {s : State} (ha : s.Alone) {r : Request} (hr : r.isMaster = false) : AccessFree s (request r s) := by
  rw [request_alone ha]
  exact ensures_ok.2 ⟨rfl, rfl, List.filter_cons_of_neg (by simp [hr])⟩

/-- R70: every command but PAD_FETCH, CROP_STORE and the sequences is a body that makes no access, and its end. -/
theorem exec_eq_finish_accessFree {i : Instr} (hi : reachesMemory i = false) {s : State} (ha : s.Alone) :
    ∃ r, exec i s = finish r ∧ AccessFree s r := by
  cases i with
  | nop => exact ⟨.ok () s, rfl, ensures_ok.2 (.refl s)⟩
  | qgen => exact ⟨_, rfl, bodyQgen_accessFree s⟩
  | quant => exact ⟨_, rfl, bodyQuant_accessFree s⟩
  | dequant => exact ⟨_, rfl, bodyDequant_accessFree s⟩
  | txFwd => exact ⟨_, rfl, (request_accessFree ha rfl).bind fun _ _ h => ensures_ok.2 (h.of rfl rfl rfl)⟩
  | txInv => exact ⟨_, rfl, (request_accessFree ha rfl).bind fun _ _ h => ensures_ok.2 (h.of rfl rfl rfl)⟩
  | zzFlat => exact ⟨bodyZzFlat s, rfl, ensures_ok.2 ⟨rfl, rfl, rfl⟩⟩
  | zzUnflat => exact ⟨bodyZzUnflat s, rfl, ensures_ok.2 ⟨rfl, rfl, rfl⟩⟩
  | rleEnc => exact ⟨bodyRleEnc s, rfl, ensures_ok.2 ⟨rfl, rfl, rfl⟩⟩
  | rleDec => exact ⟨_, rfl, bodyRleDec_accessFree s⟩
  | cbClear => exact ⟨bodyCbClear s, rfl, ensures_ok.2 ⟨rfl, rfl, rfl⟩⟩
  | cbAccum => exact ⟨_, rfl, (ofCheck_accessFree _ s).bind fun _ _ h => ensures_ok.2 (h.of rfl rfl rfl)⟩
  | cbBuild => exact ⟨bodyCbBuild s, rfl, ensures_ok.2 ⟨rfl, rfl, rfl⟩⟩
  | cbEncode => exact ⟨_, rfl, (ofCheck_accessFree _ s).bind fun _ _ h => ensures_ok.2 (h.of rfl rfl rfl)⟩
  | cbDecode => exact ⟨_, rfl, (ofCheck_accessFree _ s).bind fun _ _ h => ensures_ok.2 (h.of rfl rfl rfl)⟩
  | cbLoad => exact ⟨_, rfl, (ofCheck_accessFree _ s).bind fun _ _ h => ensures_ok.2 (h.of rfl rfl rfl)⟩
  | cbRead => exact ⟨_, rfl, bodyCbRead_accessFree s⟩
  | padFetch | cropStore | seqCompress | seqDecompress => exact nomatch hi

/-- No host transaction is to land, and external memory is `m`. -/
structure MemoryIs (m : List Host.Cell) (s : State) : Prop where
  alone : s.Alone
  mem : s.mem = m

/-- A byte read, however it is answered, leaves external memory alone (R71). -/
theorem memRead8_memoryIs {m : List Host.Cell} (a : Addr) {s : State} (h : MemoryIs m s) :
    (memRead8 a s).Ensures (fun _ => MemoryIs m) (fun _ _ => MemoryIs m) fun _ => False := by
  unfold memRead8
  rw [request_alone h.alone, bind_ok]
  split
  · exact ensures_ok.2 ⟨h.alone, h.mem⟩
  · exact ensures_ok.2 ⟨h.alone, h.mem⟩
  · exact ensures_raised.2 ⟨h.alone, h.mem⟩

theorem fetchBlock_memoryIs {m : List Host.Cell} (row col : Nat) {s : State} (h : MemoryIs m s) :
    (fetchBlock row col s).Ensures (fun _ => MemoryIs m) (fun _ _ => MemoryIs m) fun _ => False := by
  refine forCount_ensures (I := fun _ => MemoryIs m) (fun n s h => ?_) 64 0 s h
  unfold fetchCell
  split
  · exact (memRead8_memoryIs _ h).bind fun _ t ht => ensures_ok.2 ⟨ht.alone, ht.mem⟩
  · exact ensures_ok.2 ⟨h.alone, h.mem⟩

theorem fetchFailed_memoryIs {m : List Host.Cell} (c : ErrCode) {s : State} (h : MemoryIs m s) : MemoryIs m (fetchFailed c s) := by
  unfold fetchFailed
  split
  · exact ⟨h.alone, h.mem⟩
  · exact h

/-- R173: PAD_FETCH writes nothing to external memory. -/
theorem padFetch_memoryIs {m : List Host.Cell} {s t : State} (h : MemoryIs m s) (ht : exec .padFetch s = .next t) : MemoryIs m t := by
  have hc : (ofCheck (checkGeometry true s.regs) s).Ensures (fun _ => MemoryIs m) (fun _ _ => MemoryIs m) fun _ => False :=
    ofCheck_ensures (fun _ _ => h) fun _ _ => h
  exact finish_of_ensures ((hc.bind fun _ _ h => fetchBlock_memoryIs _ _ h).atEnd (fun _ _ h => h) fun c _ _ => fetchFailed_memoryIs c)
    (fun _ h => ⟨h.alone, h.mem⟩) (fun _ _ _ h => ⟨h.alone, h.mem⟩) ht

/-- Settles O20: the bodies of the other commands make no access, and PAD_FETCH only reads. -/
theorem onlyMemoryCommandsReachMemory : Obligations.OnlyMemoryCommandsReachMemory := by
  intro i s t ha ht
  refine ⟨fun hi => ?_, ?_⟩
  · obtain ⟨r, hr, h⟩ := exec_eq_finish_accessFree hi ha
    obtain ⟨hm, hp, hl⟩ := finish_of_ensures h (fun _ h => h.of rfl rfl rfl) (fun _ _ _ h => h.of rfl rfl rfl) (hr ▸ ht)
    exact ⟨hm, hp, hl⟩
  · rintro rfl
    exact (padFetch_memoryIs ⟨ha, rfl⟩ ht).mem

end Sys2Proof.Machine
end

section
/-! SUPPORT. The bytes of a word in external memory (20_memory.md R71), and the compression of an all-zero image
(95_test_vectors.md V-L1-4; 46_sequencer.md R182). -/

namespace Sys2Proof.Machine

/-! ### The bytes of a word -/

theorem toNat_or_shiftLeft {x y : Word} {i : Nat} (hx : x.toNat < 2 ^ i) (hy : y.toNat <<< i < 2 ^ 32) :
    (x ||| y <<< i).toNat = x.toNat + 2 ^ i * y.toNat := by
  rw [BitVec.toNat_or, BitVec.toNat_shiftLeft, Nat.mod_eq_of_lt hy, Nat.or_comm, ← Nat.shiftLeft_add_eq_or_of_lt hx,
    Nat.shiftLeft_eq, Nat.add_comm, Nat.mul_comm]

/-- R71: the lowest address holds the least significant byte. -/
theorem memGet32_toNat (m : List Host.Cell) (a : Addr) : (memGet32 m a).toNat = (memGet m a.toNat).toNat +
    2 ^ 8 * (memGet m (a + 1).toNat).toNat + 2 ^ 16 * (memGet m (a + 2).toNat).toNat + 2 ^ 24 * (memGet m (a + 3).toNat).toNat := by
  have hb (b : Byte) : (b.setWidth 32).toNat = b.toNat := by rw [BitVec.toNat_setWidth]; omega
  have h0 := (memGet m a.toNat).isLt
  have h1 := (memGet m (a + 1).toNat).isLt
  have h2 := (memGet m (a + 2).toNat).isLt
  have h3 := (memGet m (a + 3).toNat).isLt
  unfold memGet32
  have e1 := toNat_or_shiftLeft (x := (memGet m a.toNat).setWidth 32) (y := (memGet m (a + 1).toNat).setWidth 32) (i := 8)
    (by rw [hb]; omega) (by rw [hb, Nat.shiftLeft_eq]; omega)
  have e2 := toNat_or_shiftLeft (y := (memGet m (a + 2).toNat).setWidth 32) (i := 16) (e1.trans_lt (by rw [hb, hb]; omega))
    (by rw [hb, Nat.shiftLeft_eq]; omega)
  have e3 := toNat_or_shiftLeft (y := (memGet m (a + 3).toNat).setWidth 32) (i := 24) (e2.trans_lt (by rw [e1, hb, hb, hb]; omega))
    (by rw [hb, Nat.shiftLeft_eq]; omega)
  rw [e3, e2, e1, hb, hb, hb, hb]

/-- The four bytes that read as a word are its digits to the base 256. -/
theorem bytes_of_memGet32 {m : List Host.Cell} {a : Addr} {w : Word} (h : memGet32 m a = w) :
    (memGet m a.toNat).toNat = w.toNat % 2 ^ 8 ∧ (memGet m (a + 1).toNat).toNat = w.toNat / 2 ^ 8 % 2 ^ 8 ∧
    (memGet m (a + 2).toNat).toNat = w.toNat / 2 ^ 16 % 2 ^ 8 ∧ (memGet m (a + 3).toNat).toNat = w.toNat / 2 ^ 24 := by
  have e := memGet32_toNat m a
  rw [h] at e
  have h0 := (memGet m a.toNat).isLt
  have h1 := (memGet m (a + 1).toNat).isLt
  have h2 := (memGet m (a + 2).toNat).isLt
  omega

/-! ### The zero block -/

theorem txFwd_zeroBlock : txFwd zeroBlock = zeroBlock := if_pos rfl

theorem zeroBlock_getElem (n : Fin 64) : zeroBlock[n] = 0 := by simp [zeroBlock]

/-- The value-form word of a run of 64 zeros. -/
theorem rleWords_zero : rleWords (Vector.replicate 64 0) = [0x88000000] := by decide

section Zero
variable {q : Block 16} (hq : ∀ n : Fin 64, 1 ≤ q[n].toNat)
include hq

/-- R111: the transform of the zero block is quantized to 0 at every cell. -/
theorem quantExact_zeroBlock (n : Fin 64) : quantExact (txFwd zeroBlock)[n] q[n] = 0 := by
  rw [txFwd_zeroBlock, zeroBlock_getElem]
  exact quantExact_zero (hq n)

theorem wordsOfBlock_zero : wordsOfBlock q zeroBlock = [0x88000000] := by
  rw [← rleWords_zero]
  refine congrArg rleWords (Vector.ext fun i hi => ?_)
  rw [Vector.getElem_ofFn, quantExact_zeroBlock hq, Vector.getElem_replicate]
  rfl

theorem quantSaturates_zero : quantSaturates q zeroBlock = false :=
  List.any_eq_false.2 fun n _ => by rw [quantExact_zeroBlock hq]; decide

end Zero

/-! ### The all-zero image -/

/-- R110: no entry of a generated matrix is 0. -/
theorem matrixOf_pos {r : Regs} (h : qualityLegal r = true) (n : Fin 64) : 1 ≤ (matrixOf r.quality.toNat)[n].toNat := by
  rw [matrixOf_toNat h n]
  exact Nat.le_max_left _ _

/-- The number of blocks of a non-empty image (R33). -/
theorem blkCount_range {r : Regs} (hw : r.width ≠ 0) (hh : r.height ≠ 0) : 1 ≤ blkCount r ∧ blkCount r ≤ 2 ^ 26 := by
  have hw0 : r.width.toNat ≠ 0 := fun h => hw (BitVec.eq_of_toNat_eq h)
  have hh0 : r.height.toNat ≠ 0 := fun h => hh (BitVec.eq_of_toNat_eq h)
  have hc : 1 ≤ blkCols r ∧ blkCols r ≤ 2 ^ 13 := by unfold blkCols width8; omega
  have hr : 1 ≤ blkRows r ∧ blkRows r ≤ 2 ^ 13 := by unfold blkRows height8; omega
  exact ⟨Nat.mul_pos hc.1 hr.1, (Nat.mul_le_mul hc.2 hr.2).trans_eq (by norm_num)⟩

/-- One value alone, `n` times. -/
theorem countedCodebook_replicate {n : Nat} (hn : 1 ≤ n) (w : Word) :
    countedCodebook (List.replicate n w) = [countEntry (symField w) n] := by
  have he : (List.replicate n (symField w)).eraseDups = [symField w] := by
    obtain ⟨k, rfl⟩ : ∃ k, n = k + 1 := ⟨n - 1, by omega⟩
    simp [List.replicate_succ, List.eraseDups_cons]
  rw [countedCodebook_eq, List.map_replicate, he, List.map_singleton, List.count_replicate_self]

theorem buildCodebook_singleton (e : Entry) : buildCodebook [e] = [{ e with code := some (rankCode 0) }] := rfl

/-- R182: the codebook of a stream of one value. -/
theorem streamCodebook_replicate {n : Nat} (hn : 1 ≤ n) (w : Word) : streamCodebook (List.replicate n w) =
    [{ countEntry (symField w) n with code := some (rankCode 0) }] := by
  unfold streamCodebook
  rw [countedCodebook_replicate hn, buildCodebook_singleton]

theorem encWord_replicate {n : Nat} (hn : 1 ≤ n) (w : Word) : encWord (List.replicate n w) w = encodedWord (rankCode 0) w := by
  unfold encWord
  rw [streamCodebook_replicate hn]
  simp [codeOf, lookupValue, countEntry]

/-- R154: the value-form word of 64 zeros with the code of rank 0. -/
theorem encodedWord_zero : encodedWord (rankCode 0) 0x88000000 = 0x88010000 := by decide

section Image
variable {s : State} (hz : ∀ a : Addr, inRegion (imageRegion s.regs) a = true → s.byte a = 0)
include hz

theorem imageBlock_zero (row col : Nat) : imageBlock s row col = zeroBlock := by
  refine Vector.ext fun i hi => ?_
  have h := imageBlock_getElem s row col ⟨i, hi⟩
  simp only [Fin.getElem_fin] at h
  rw [h, zeroBlock, Vector.getElem_replicate]
  split
  · rename_i hc
    rw [hz _ (pixAddr_inRegion hc)]
    decide
  · decide

variable (hq : qualityLegal s.regs = true)
include hq

theorem blockStream_zero (b : Nat) : blockStream s b = [0x88000000] := by
  unfold blockStream nthBlock
  rw [imageBlock_zero hz]
  exact wordsOfBlock_zero (matrixOf_pos hq)

theorem valueStream_zero (k : Nat) : valueStream s k = List.replicate k 0x88000000 := by
  induction k with
  | zero => rfl
  | succ k ih => rw [valueStream_succ, ih, blockStream_zero hz hq, List.replicate_succ']

theorem streamSaturates_zero (k : Nat) : streamSaturates s k = false := by
  refine List.any_eq_false.2 fun b _ => ?_
  unfold nthBlock
  rw [imageBlock_zero hz, quantSaturates_zero (matrixOf_pos hq)]
  decide

end Image

/-- Settles O60: every block of an all-zero image is the zero block, so the value stream is one word repeated. -/
theorem allZeroImageCompresses : Obligations.AllZeroImageCompresses := by
  refine ⟨memGet32_toNat, fun m a w hm => bytes_of_memGet32 (memGet32_memSet32 hm a w), ?_⟩
  intro s hu hm h1 h2 hw hh ho hc hz
  have hq := (qualityLegal_iff s.regs).2 ⟨h1, h2⟩
  have hs : CompressStart s := ⟨hu, hm, hw, hh, ho⟩
  obtain ⟨hn1, hn2⟩ := blkCount_range hw hh
  have hv := valueStream_zero hz hq (blkCount s.regs)
  have hl : (valueStream s (blkCount s.regs)).length = blkCount s.regs := by rw [hv, List.length_replicate]
  have hf : blocksFit s (blkCount s.regs) := by
    rw [blocksFit_iff, hl, hv, countedCodebook_replicate hn1]
    exact ⟨hc, Nat.succ_le_succ (Nat.zero_le _)⟩
  obtain ⟨u, hr, hI⟩ := bodySeqCompress_ok hs hq hf
  have hst := hI.strmWords hs hf (t := u.setStrmLen.freeScratch.complete) (by simp) (by simp [hI.regs])
  rw [codeStream, hv, List.map_replicate, encWord_replicate hn1, encodedWord_zero, List.length_replicate] at hst
  refine ⟨u.setStrmLen.freeScratch.complete, ?_, ?_, ?_, ?_, fun j hj => ?_⟩
  · show finish (sequenceEnd (bodySeqCompress s)) = _
    rw [hr]
    rfl
  · simp [hI.status, streamSaturates_zero hz hq]
  · simp [hI.j, hl, pat32]
  · have hcb : u.setStrmLen.freeScratch.complete.cb = streamCodebook (List.replicate (blkCount s.regs) 0x88000000) := by
      simpa [hv] using hI.cb
    rw [hcb, streamCodebook_replicate hn1, countEntry, Nat.min_eq_right (by omega)]
    rfl
  · have hj' : u.setStrmLen.freeScratch.complete.strmWord j = 0x88010000 := by
      have := congrArg (·[j]?) hst
      simpa [strmWords, hj] using this
    have ha : strmAddr u.setStrmLen.freeScratch.complete.regs j = strmAddr s.regs j := strmAddr_congr (by simp [hI.regs]) j
    obtain ⟨b0, b1, b2, b3⟩ := bytes_of_memGet32 hj'
    rw [ha] at b0 b1 b2 b3
    exact ⟨hj', BitVec.eq_of_toNat_eq b0, BitVec.eq_of_toNat_eq b1, BitVec.eq_of_toNat_eq b2, BitVec.eq_of_toNat_eq b3⟩

end Sys2Proof.Machine
end

section
/-! SUPPORT. A piece of a command run twice: on ordinary memory, and on memory that answers one access with an error
(20_memory.md R84). -/

namespace Sys2Proof.Machine

/-- The Memory agent's coming answers replaced. -/
def State.withResp (m : List MemResponse) (s : State) : State := { s with memResp := m }

/-- Answers of the Memory agent of which the `k`-th, from 0, is the first error. -/
def failing (k : Nat) (landed : Bool) (rest : List MemResponse) : List MemResponse :=
  List.replicate k .ordinary ++ .error landed :: rest

theorem failing_zero (landed : Bool) (rest : List MemResponse) : failing 0 landed rest = .error landed :: rest := rfl

theorem failing_succ (k : Nat) (landed : Bool) (rest : List MemResponse) :
    failing (k + 1) landed rest = .ordinary :: failing k landed rest := by
  unfold failing
  rw [List.replicate_succ, List.cons_append]

/-- What no piece of a command undoes after QGEN: SAT once set (R27), QMAT and QV. -/
structure Before (s u : State) : Prop where
  sat : s.status.sat = true → u.status.sat = true
  qmat : u.qmat = s.qmat
  qv : u.status.qv = s.status.qv

theorem Before.refl (s : State) : Before s s := ⟨id, rfl, rfl⟩

/-- Only the flags and QMAT matter to `Before`. -/
theorem Before.of {s u : State} (hs : u.status = s.status) (hq : u.qmat = s.qmat) : Before s u :=
  ⟨fun h => by rw [hs]; exact h, hq, by rw [hs]⟩

theorem Before.trans {s u v : State} (h : Before s u) (h' : Before u v) : Before s v :=
  ⟨fun hs => h'.sat (h.sat hs), h'.qmat.trans h.qmat, h'.qv.trans h.qv⟩

/-- A run on ordinary memory has come from `s` to `u` by the transactions `l`. -/
structure Traced (s : State) (l : List Request) (u : State) : Prop where
  busLog : u.busLog = l.reverse ++ s.busLog
  mem : u.mem = l.foldl Request.perform s.mem
  hostIn : u.hostIn = s.hostIn
  memResp : u.memResp = s.memResp
  before : Before s u

theorem Traced.trans {s u v : State} {l l' : List Request} (h : Traced s l u) (h' : Traced u l' v) : Traced s (l ++ l') v where
  busLog := by rw [h'.busLog, h.busLog, List.reverse_append, List.append_assoc]
  mem := by rw [h'.mem, h.mem, List.foldl_append]
  hostIn := h'.hostIn.trans h.hostIn
  memResp := h'.memResp.trans h.memResp
  before := h.before.trans h'.before

/-- A change of the state that makes no transaction. -/
theorem traced_nil {s u : State} (hl : u.busLog = s.busLog := by rfl) (hm : u.mem = s.mem := by rfl)
    (hq : u.hostIn = s.hostIn := by rfl) (hr : u.memResp = s.memResp := by rfl) (hb : Before s u := by exact .of rfl rfl) :
    Traced s [] u := ⟨hl, hm, hq, hr, hb⟩

theorem Traced.undisturbed {s u : State} {l : List Request} (h : Traced s l u) (hs : s.Undisturbed) : u.Undisturbed :=
  hs.of h.hostIn h.memResp

/-- A run from `s` has stopped in `t` at its access `r`, the `k`-th, after the transactions `done` (R84). -/
structure Cut (s : State) (k : Nat) (landed : Bool) (rest : List MemResponse) (done : List Request) (r : Request) (t : State) :
    Prop where
  busLog : t.busLog = (done ++ [r]).reverse ++ s.busLog
  master : r.isMaster = true
  count : done.countP Request.isMaster = k
  mem : t.mem = (done ++ if landed then [r] else []).foldl Request.perform s.mem
  memResp : t.memResp = rest

/-- A run that stops after it has come from `s` to `u`. -/
theorem Traced.cut {s u t : State} {l done : List Request} {r : Request} {k : Nat} {landed : Bool} {rest : List MemResponse}
    (h : Traced s l u) (hk : l.countP Request.isMaster ≤ k) (hc : Cut u (k - l.countP Request.isMaster) landed rest done r t) :
    Cut s k landed rest (l ++ done) r t where
  busLog := by simp [hc.busLog, h.busLog]
  master := hc.master
  count := by rw [List.countP_append, hc.count]; omega
  mem := by rw [hc.mem, h.mem, List.append_assoc, ← List.foldl_append]
  memResp := hc.memResp

variable {α β : Type}

/-- What the answers of the Memory agent make of a piece `run`, whose run on ordinary memory goes from `s` by the transactions `l`
to `u` and ends as `past`: it ends so if the error comes later, and else it raises BUS_ERROR at the failing access, where
`F` holds of the transactions done, the access and the state. -/
def Replays (s : State) (l : List Request) (u : State) (run past : List MemResponse → Run α)
    (F : List Request → Request → State → Prop) : Prop :=
  ∀ (k : Nat) (landed : Bool) (rest : List MemResponse),
    (l.countP Request.isMaster ≤ k → run (failing k landed rest) = past (failing (k - l.countP Request.isMaster) landed rest)) ∧
    (k < l.countP Request.isMaster → ∃ (done : List Request) (r : Request) (t : State),
      run (failing k landed rest) = .raised .busError r.addr t ∧ done ++ [r] <+: l ∧ Cut s k landed rest done r t ∧
      Before t u ∧ F done r t)

/-- A piece `f` of a command, begun in `s` and run on ordinary memory, goes on only with `Q` (of its result, its transactions
and the state it leaves); and where an access of it is answered with an error, it stops there with `F`. -/
def Meets (f : State → Run α) (s : State) (Q : α → List Request → State → Prop) (F : List Request → Request → State → Prop) :
    Prop :=
  s.Undisturbed → (f s).Ensures
    (fun a u => ∃ l, Traced s l u ∧ Q a l u ∧ Replays s l u (fun m => f (s.withResp m)) (fun m => .ok a (u.withResp m)) F)
    (fun c i u => ∃ l, Traced s l u ∧ Replays s l u (fun m => f (s.withResp m)) (fun m => .raised c i (u.withResp m)) F)
    fun _ => False

/-! ### Rules -/

theorem replays_of_masterless {s u : State} {l : List Request} {run past : List MemResponse → Run α}
    {F : List Request → Request → State → Prop} (hl : l.countP Request.isMaster = 0) (h : ∀ m, run m = past m) :
    Replays s l u run past F := by
  intro k landed rest
  rw [hl]
  exact ⟨fun _ => h _, fun hk => absurd hk (Nat.not_lt_zero k)⟩

section Rules
variable {f : State → Run α} {s : State} {Q Q' : α → List Request → State → Prop} {F F' : List Request → Request → State → Prop}

theorem Replays.mono {u : State} {l : List Request} {run past : List MemResponse → Run α} (h : Replays s l u run past F)
    (hF : ∀ done r t, F done r t → F' done r t) : Replays s l u run past F' := by
  intro k landed rest
  obtain ⟨h1, h2⟩ := h k landed rest
  refine ⟨h1, fun hk => ?_⟩
  obtain ⟨done, r, t, hr, hp, hc, hb, hf⟩ := h2 hk
  exact ⟨done, r, t, hr, hp, hc, hb, hF _ _ _ hf⟩

theorem Meets.mono (h : Meets f s Q F) (hQ : ∀ a l u, Q a l u → Q' a l u) (hF : ∀ done r t, F done r t → F' done r t) :
    Meets f s Q' F' := fun hs =>
  (h hs).mono (fun _ _ ⟨l, ht, hq, hr⟩ => ⟨l, ht, hQ _ _ _ hq, hr.mono hF⟩) (fun _ _ _ ⟨l, ht, hr⟩ => ⟨l, ht, hr.mono hF⟩)
    fun _ => id

/-- Pieces that do the same in `s`, whatever the Memory agent's answers. -/
theorem Meets.congr {g : State → Run α} (h : Meets g s Q F) (hg : ∀ m, f (s.withResp m) = g (s.withResp m)) : Meets f s Q F := by
  intro hs
  have h0 : f s = g s := hg s.memResp
  simp only [hg, h0]
  exact h hs

/-- A piece that goes on and makes no master-port access. -/
theorem meets_ok {a : α} {u : State} {l : List Request} (hf : s.Undisturbed → ∀ m, f (s.withResp m) = .ok a (u.withResp m))
    (ht : Traced s l u) (hl : l.countP Request.isMaster = 0) (hq : Q a l u) : Meets f s Q F := by
  intro hs
  have hu : u.withResp s.memResp = u := by rw [← ht.memResp]; rfl
  have h0 : f s = .ok a u := (hf hs s.memResp).trans (by rw [hu])
  rw [h0]
  exact ensures_ok.2 ⟨l, ht, hq, replays_of_masterless hl (hf hs)⟩

/-- A piece that raises an error and makes no transaction. -/
theorem meets_raised_after {c : ErrCode} {i : Word} {u : State} (hf : ∀ m, f (s.withResp m) = .raised c i (u.withResp m))
    (ht : Traced s [] u) : Meets f s Q F := by
  intro _
  have hu : u.withResp s.memResp = u := by rw [← ht.memResp]; rfl
  have h0 : f s = .raised c i u := (hf s.memResp).trans (by rw [hu])
  rw [h0]
  exact ensures_raised.2 ⟨[], ht, replays_of_masterless rfl hf⟩

/-- A check that fails. -/
theorem meets_raised {c : ErrCode} {i : Word} (hf : ∀ m, f (s.withResp m) = .raised c i (s.withResp m)) : Meets f s Q F :=
  meets_raised_after hf traced_nil

/-- A piece that raises an error whose ERRINFO the Memory agent's coming answers do not decide. -/
theorem raise_meets {c : ErrCode} {info : State → Word} {h : State → State} (hi : ∀ m, info (s.withResp m) = info s)
    (hh : ∀ m, h (s.withResp m) = (h s).withResp m) (ht : Traced s [] (h s)) : Meets (fun s => .raised c (info s) (h s)) s Q F :=
  meets_raised_after (fun m => by rw [hi, hh]) ht

/-- A test that the Memory agent's coming answers do not decide. -/
theorem meets_ite {g : State → Run α} {p : State → Prop} [DecidablePred p] (hp : ∀ m, p (s.withResp m) ↔ p s)
    (hf : p s → Meets f s Q F) (hg : ¬ p s → Meets g s Q F) : Meets (fun s => if p s then f s else g s) s Q F := by
  by_cases h : p s
  · exact (hf h).congr fun m => if_pos ((hp m).2 h)
  · exact (hg h).congr fun m => if_neg fun h' => h ((hp m).1 h')

theorem Replays.bind {u v : State} {l l' : List Request} {a : α} {run : List MemResponse → Run α} {g : α → State → Run β}
    {past : List MemResponse → Run β} (ht : Traced s l u) (h : Replays s l u run (fun m => .ok a (u.withResp m)) F) (hb : Before u v)
    (h' : Replays u l' v (fun m => g a (u.withResp m)) past fun done => F (l ++ done)) :
    Replays s (l ++ l') v (fun m => (run m).bind g) past F := by
  intro k landed rest
  rw [List.countP_append]
  rcases Nat.lt_or_ge k (l.countP Request.isMaster) with hk | hk
  · refine ⟨fun _ => by omega, fun _ => ?_⟩
    obtain ⟨done, r, t, hr, hp, hc, hbt, hF⟩ := (h k landed rest).2 hk
    exact ⟨done, r, t, by dsimp only; rw [hr, bind_raised], hp.trans (List.prefix_append l l'), hc, hbt.trans hb, hF⟩
  · obtain ⟨h1, h2⟩ := h' (k - l.countP Request.isMaster) landed rest
    dsimp only at h1 h2 ⊢
    rw [(h k landed rest).1 hk, bind_ok]
    refine ⟨fun _ => by rw [h1 (by omega), Nat.sub_sub], fun _ => ?_⟩
    obtain ⟨done, r, t, hr, hp, hc, hbt, hF⟩ := h2 (by omega)
    exact ⟨l ++ done, r, t, hr, by rw [List.append_assoc]; exact (List.prefix_append_right_inj l).2 hp, ht.cut hk hc, hbt, hF⟩

theorem Replays.bind_raised {u : State} {l : List Request} {c : ErrCode} {i : Word} {run : List MemResponse → Run α}
    (h : Replays s l u run (fun m => .raised c i (u.withResp m)) F) (g : α → State → Run β) :
    Replays s l u (fun m => (run m).bind g) (fun m => .raised c i (u.withResp m)) F := by
  intro k landed rest
  obtain ⟨h1, h2⟩ := h k landed rest
  refine ⟨fun hk => by dsimp only; rw [h1 hk, Machine.bind_raised], fun hk => ?_⟩
  obtain ⟨done, r, t, hr, hrest⟩ := h2 hk
  exact ⟨done, r, t, by dsimp only; rw [hr, Machine.bind_raised], hrest⟩

/-- Sequencing: the second piece's transactions come after the first's. -/
theorem Meets.bind {g : α → State → Run β} {Q' : β → List Request → State → Prop} (h : Meets f s Q F)
    (hg : ∀ a l u, f s = .ok a u → Q a l u → Meets (g a) u (fun b l' v => Q' b (l ++ l') v) fun done => F (l ++ done)) :
    Meets (fun s => (f s).bind g) s Q' F := by
  intro hs
  have h := h hs
  dsimp only
  cases hf : f s with
  | ok a u =>
    obtain ⟨l, ht, hq, hr⟩ := ensures_ok.1 (hf ▸ h)
    refine (hg a l u hf hq (ht.undisturbed hs)).mono (fun b v ⟨l', ht', hq', hr'⟩ => ?_) (fun c i v ⟨l', ht', hr'⟩ => ?_) fun _ => id
    · exact ⟨l ++ l', ht.trans ht', hq', hr.bind ht ht'.before hr'⟩
    · exact ⟨l ++ l', ht.trans ht', hr.bind ht ht'.before hr'⟩
  | raised c i u =>
    obtain ⟨l, ht, hr⟩ := ensures_raised.1 (hf ▸ h)
    exact ensures_raised.2 ⟨l, ht, hr.bind_raised g⟩
  | abandoned u => exact (ensures_abandoned.1 (hf ▸ h)).elim
  | fault x => exact ensures_fault.2 trivial
  | refused x => exact ensures_refused.2 trivial

/-- A change of the state before a piece. -/
theorem Meets.comp {h : State → State} (hf : Meets f (h s) Q F) (hr : ∀ m, h (s.withResp m) = (h s).withResp m)
    (ht : Traced s [] (h s)) : Meets (fun s => f (h s)) s Q F :=
  Meets.bind (f := fun s => .ok () (h s)) (g := fun _ => f) (Q := fun _ l u => l = [] ∧ u = h s)
    (meets_ok (fun _ m => by rw [hr]) ht rfl ⟨rfl, rfl⟩) (by rintro _ _ _ - ⟨rfl, rfl⟩; exact hf)

/-- What a piece is known to do on ordinary memory. -/
theorem Meets.of_ok {a : α} {u : State} {l : List Request} (h : Meets f s Q F) (hf : s.Undisturbed → f s = .ok a u)
    (hl : u.busLog = l.reverse ++ s.busLog) :
    Meets f s (fun a' l' u' => a' = a ∧ l' = l ∧ u' = u) fun done r t => done ++ [r] <+: l ∧ F done r t := by
  intro hs
  have h := h hs
  rw [hf hs] at h ⊢
  obtain ⟨l', ht, -, hr⟩ := ensures_ok.1 h
  obtain rfl : l' = l := List.reverse_injective (List.append_cancel_right (ht.busLog.symm.trans hl))
  refine ensures_ok.2 ⟨l', ht, ⟨rfl, rfl, rfl⟩, fun k landed rest => ?_⟩
  obtain ⟨h1, h2⟩ := hr k landed rest
  refine ⟨h1, fun hk => ?_⟩
  obtain ⟨done, r, t, hr, hp, hc, hb, hf⟩ := h2 hk
  exact ⟨done, r, t, hr, hp, hc, hb, hp, hf⟩

end Rules

/-- The rule of a counted loop, with an invariant indexed by the counter that speaks of the transactions before it too. -/
theorem meets_forCount {body : Nat → State → Run Unit} {I : Nat → List Request → State → Prop}
    {F : List Request → Request → State → Prop} (step : ∀ n l u, I n l u →
      Meets (body n) u (fun _ l' v => I (n + 1) (l ++ l') v) fun done => F (l ++ done)) (k n : Nat) (l : List Request) (u : State)
    (h : I n l u) : Meets (forCount body k n) u (fun _ l' v => I (n + k) (l ++ l') v) fun done => F (l ++ done) := by
  induction k generalizing n l u with
  | zero => exact meets_ok (fun _ _ => rfl) ⟨rfl, rfl, rfl, rfl, .refl u⟩ rfl (by rwa [List.append_nil])
  | succ k ih =>
    refine (step n l u h).bind (g := fun _ => forCount body k (n + 1)) fun _ l' v _ hI => (ih (n + 1) (l ++ l') v hI).mono ?_ ?_
    · intro _ l'' w hw
      rwa [← List.append_assoc, show n + (k + 1) = n + 1 + k by omega]
    · intro done r t hF
      rwa [← List.append_assoc]

/-! ### Transactions -/

/-- `t` is `s` but for the Sequencer, external memory and the transactions. -/
structure SameButBus (s t : State) : Prop where
  eq : t = { s with seq := t.seq, mem := t.mem, memResp := t.memResp, busLog := t.busLog }

section SameButBus
variable {s t : State}

theorem SameButBus.trans {u : State} (h : SameButBus s u) (h' : SameButBus u t) : SameButBus s t :=
  ⟨h'.eq.trans (congrArg (fun x : State => { x with seq := t.seq, mem := t.mem, memResp := t.memResp, busLog := t.busLog }) h.eq)⟩

theorem sameButBus_did (s : State) (l : List Request) : SameButBus s (s.did l) := ⟨rfl⟩

/-- One CBUF in the place of another. -/
theorem SameButBus.withCbuf {b : Block 32} (h : SameButBus (s.withCbuf b) t) (c : Block 32) :
    SameButBus (s.withCbuf c) (t.withCbuf c) := ⟨congrArg (State.withCbuf c) h.eq⟩

theorem SameButBus.regs (h : SameButBus s t) : t.regs = s.regs := (congrArg State.regs h.eq :)

theorem SameButBus.status (h : SameButBus s t) : t.status = s.status := (congrArg State.status h.eq :)

theorem SameButBus.qmat (h : SameButBus s t) : t.qmat = s.qmat := (congrArg State.qmat h.eq :)

theorem SameButBus.cb (h : SameButBus s t) : t.cb = s.cb := (congrArg State.cb h.eq :)

end SameButBus

/-- The state after the access `r` has been answered with an error (R84). -/
def State.failedAt (r : Request) (landed : Bool) (rest : List MemResponse) (s : State) : State :=
  { s with
    seq := { s.seq with inflight := none }
    mem := if landed then r.perform s.mem else s.mem
    memResp := rest
    busLog := r :: s.busLog }

/-- One access, answered as ordinary memory does or with an error. -/
theorem meets_access {f : State → Run α} {s : State} {r : Request} {a : α} (hr : r.isMaster = true)
    (hn : s.Undisturbed → f s = .ok a (s.did [r]))
    (ho : s.Alone → ∀ m, f (s.withResp (.ordinary :: m)) = .ok a ((s.did [r]).withResp m))
    (he : s.Alone → ∀ landed rest, f (s.withResp (.error landed :: rest)) = .raised .busError r.addr (s.failedAt r landed rest)) :
    Meets f s (fun b l u => b = a ∧ l = [r] ∧ u = s.did [r]) fun done q t => done = [] ∧ q = r ∧ SameButBus s t := by
  intro hs
  rw [hn hs]
  refine ensures_ok.2 ⟨[r], ⟨rfl, rfl, rfl, rfl, .of rfl rfl⟩, ⟨rfl, rfl, rfl⟩, fun k landed rest => ?_⟩
  have hc : [r].countP Request.isMaster = 1 := by simp [hr]
  rw [hc]
  cases k with
  | zero =>
    refine ⟨fun h => absurd h (by decide), fun _ => ⟨[], r, s.failedAt r landed rest, ?_, List.prefix_rfl, ?_, .of rfl rfl, rfl, rfl,
      ⟨rfl⟩⟩⟩
    · rw [failing_zero]
      exact he hs.1 landed rest
    · exact ⟨rfl, hr, rfl, by cases landed <;> rfl, rfl⟩
  | succ k =>
    refine ⟨fun _ => ?_, fun h => by omega⟩
    rw [failing_succ]
    exact ho hs.1 _

theorem memRead8_meets (a : Addr) (s : State) : Meets (memRead8 a) s
    (fun b l u => b = s.byte a ∧ l = [.read8 a] ∧ u = s.did [.read8 a]) fun done r t => done = [] ∧ r = .read8 a ∧ SameButBus s t := by
  refine meets_access rfl (fun h => memRead8_did h a) (fun h m => ?_) fun h landed rest => ?_
  · unfold memRead8
    rw [request_alone (by exact h)]
    rfl
  · unfold memRead8
    rw [request_alone (by exact h)]
    cases landed <;> rfl

theorem memRead32_meets (a : Addr) (s : State) : Meets (memRead32 a) s
    (fun w l u => w = memGet32 s.mem a ∧ l = [.read32 a] ∧ u = s.did [.read32 a])
    fun done r t => done = [] ∧ r = .read32 a ∧ SameButBus s t := by
  refine meets_access rfl (fun h => memRead32_did h a) (fun h m => ?_) fun h landed rest => ?_
  · unfold memRead32
    rw [request_alone (by exact h)]
    rfl
  · unfold memRead32
    rw [request_alone (by exact h)]
    cases landed <;> rfl

theorem memWrite8_meets (a : Addr) (v : Byte) (s : State) : Meets (memWrite8 a v) s
    (fun _ l u => l = [.write8 a v] ∧ u = s.did [.write8 a v]) fun done r t => done = [] ∧ r = .write8 a v ∧ SameButBus s t := by
  refine (meets_access rfl (fun h => memWrite8_did h a v) (fun h m => ?_) fun h landed rest => ?_).mono
    (fun _ _ _ h => h.2) fun _ _ _ => id
  · unfold memWrite8
    rw [request_alone (by exact h)]
    rfl
  · unfold memWrite8
    rw [request_alone (by exact h)]
    rfl

theorem memWrite32_meets (a : Addr) (w : Word) (s : State) : Meets (memWrite32 a w) s
    (fun _ l u => l = [.write32 a w] ∧ u = s.did [.write32 a w]) fun done r t => done = [] ∧ r = .write32 a w ∧ SameButBus s t := by
  refine (meets_access rfl (fun h => memWrite32_did h a w) (fun h m => ?_) fun h landed rest => ?_).mono
    (fun _ _ _ h => h.2) fun _ _ _ => id
  · unfold memWrite32
    rw [request_alone (by exact h)]
    rfl
  · unfold memWrite32
    rw [request_alone (by exact h)]
    rfl

theorem bodyTxFwd_meets {F : List Request → Request → State → Prop} (s : State) : Meets bodyTxFwd s
    (fun _ l u => l = [.txFwd s.cbuf] ∧ u = (s.did [.txFwd s.cbuf]).withCbuf (txFwd s.cbuf)) F := by
  refine meets_ok (a := ()) (l := [.txFwd s.cbuf]) (u := (s.did [.txFwd s.cbuf]).withCbuf (txFwd s.cbuf)) (fun h m => ?_)
    ⟨rfl, rfl, rfl, rfl, .of rfl rfl⟩ rfl ⟨rfl, rfl⟩
  exact bodyTxFwd_undisturbed (s := s.withResp m) h.1

theorem bodyTxInv_meets {F : List Request → Request → State → Prop} (s : State) : Meets bodyTxInv s
    (fun _ l u => l = [.txInv s.cbuf] ∧ u = (s.did [.txInv s.cbuf]).withCbuf (txInv s.cbuf)) F := by
  refine meets_ok (a := ()) (l := [.txInv s.cbuf]) (u := (s.did [.txInv s.cbuf]).withCbuf (txInv s.cbuf)) (fun h m => ?_)
    ⟨rfl, rfl, rfl, rfl, .of rfl rfl⟩ rfl ⟨rfl, rfl⟩
  exact bodyTxInv_undisturbed (s := s.withResp m) h.1

/-! ### A block's pixels -/

/-- PAD_FETCH of a block, where a read of it fails (R84, R173). -/
theorem fetchBlock_meets (row col : Nat) (s : State) : Meets (fetchBlock row col) s
    (fun _ l u => l = fetchRequests s.regs row col ∧ u = (s.did (fetchRequests s.regs row col)).withCbuf (imageBlock s row col))
    fun done r t => done ++ [r] <+: fetchRequests s.regs row col ∧ ∃ b, SameButBus (s.withCbuf b) t := by
  have loop : Meets (fetchBlock row col) s (fun _ _ u => ∃ b, SameButBus (s.withCbuf b) u)
      fun _ _ t => ∃ b, SameButBus (s.withCbuf b) t := by
    refine meets_forCount (I := fun _ _ u => ∃ b, SameButBus (s.withCbuf b) u) (F := fun _ _ t => ∃ b, SameButBus (s.withCbuf b) t)
      (fun n l u ⟨b, hb⟩ => ?_) 64 0 [] s ⟨s.cbuf, ⟨rfl⟩⟩
    by_cases hc : inBounds u.regs (cellY row n) (cellX col n) = true
    · refine Meets.congr (g := fun t => (memRead8 (pixAddr u.regs (cellY row n) (cellX col n)) t).bind fun p t =>
        .ok () (t.withCbuf (t.cbuf.setIfInBounds n (sample p)))) (Meets.bind ((memRead8_meets _ u).mono (fun _ _ _ => id)
          fun _ _ t ⟨_, _, h⟩ => ⟨b, hb.trans h⟩) ?_) fun m => if_pos hc
      rintro p _ _ - ⟨-, rfl, rfl⟩
      exact meets_ok (u := (u.did _).withCbuf (u.cbuf.setIfInBounds n (sample p))) (fun _ _ => rfl)
        traced_nil rfl ⟨_, (hb.trans (sameButBus_did u _)).withCbuf _⟩
    · exact meets_ok (u := u.withCbuf (u.cbuf.setIfInBounds n (sample 0))) (fun _ m => if_neg hc)
        traced_nil rfl ⟨_, hb.withCbuf _⟩
  exact (loop.of_ok (fun h => fetchBlock_did h row col) rfl).mono (fun _ _ _ h => h.2) fun _ _ _ => id

/-- CROP_STORE of a block, where a write of it fails (R84, R174). -/
theorem storeBlock_meets (row col : Nat) (s : State) : Meets (storeBlock row col) s
    (fun _ l u => l = storeRequests s.regs row col s.cbuf ∧ u = s.did (storeRequests s.regs row col s.cbuf))
    fun done r t => done ++ [r] <+: storeRequests s.regs row col s.cbuf ∧ SameButBus s t := by
  have loop : Meets (storeBlock row col) s (fun _ _ u => SameButBus s u) fun _ _ t => SameButBus s t := by
    refine meets_forCount (I := fun _ _ u => SameButBus s u) (F := fun _ _ t => SameButBus s t) (fun n l u hu => ?_) 64 0 [] s ⟨rfl⟩
    by_cases hc : inBounds u.regs (cellY row n) (cellX col n) = true
    · refine Meets.congr ((memWrite8_meets (pixAddr u.regs (cellY row n) (cellX col n)) (pixel (u.cbuf[n]?.getD 0)) u).mono ?_ ?_)
        fun m => if_pos hc
      · rintro _ _ _ ⟨-, rfl⟩
        exact hu.trans (sameButBus_did u _)
      · rintro _ _ _ ⟨-, -, h⟩
        exact hu.trans h
    · exact meets_ok (u := u) (fun _ m => if_neg hc) traced_nil rfl hu
  exact (loop.of_ok (fun h => storeBlock_did h row col) rfl).mono (fun _ _ _ h => h.2) fun _ _ _ => id

end Sys2Proof.Machine
end

section
/-! SUPPORT. SEQ_COMPRESS where an access of it is answered with an error (20_memory.md R84; 46_sequencer.md R182). -/

namespace Sys2Proof.Machine

/-! ### What the transactions say of a sequence's progress -/

/-- Of the transactions `l`, in order: the blocks transformed, and the numbers of stream words read and written. -/
structure Tally (l : List Request) (xs : List (Block 32)) (reads writes : Nat) : Prop where
  blocks : transformed l = xs
  reads : l.countP Request.isRead32 = reads
  writes : l.countP Request.isWrite32 = writes

theorem tally_nil : Tally [] [] 0 0 := ⟨rfl, rfl, rfl⟩

theorem tally_txFwd (x : Block 32) : Tally [.txFwd x] [x] 0 0 := ⟨rfl, rfl, rfl⟩

theorem tally_txInv (x : Block 32) : Tally [.txInv x] [x] 0 0 := ⟨rfl, rfl, rfl⟩

theorem Tally.append {l l' : List Request} {xs xs' : List (Block 32)} {n n' w w' : Nat} (h : Tally l xs n w) (h' : Tally l' xs' n' w') :
    Tally (l ++ l') (xs ++ xs') (n + n') (w + w') where
  blocks := by rw [transformed, List.filterMap_append, ← h.blocks, ← h'.blocks]
  reads := by rw [List.countP_append, h.reads, h'.reads]
  writes := by rw [List.countP_append, h.writes, h'.writes]

/-- An access to a byte (R73). -/
def Request.isByte : Request → Bool
  | .read8 _ | .write8 _ _ => true
  | .read32 _ | .write32 _ _ | .txFwd _ | .txInv _ => false

theorem isRead32_of_isByte {q : Request} (h : q.isByte = true) : q.isRead32 = false :=
  match q, h with
  | .read8 _, _ | .write8 _ _, _ => rfl

theorem isWrite32_of_isByte {q : Request} (h : q.isByte = true) : q.isWrite32 = false :=
  match q, h with
  | .read8 _, _ | .write8 _ _, _ => rfl

theorem isRead32_of_isWrite32 {q : Request} (h : q.isWrite32 = true) : q.isRead32 = false :=
  match q, h with
  | .write32 _ _, _ => rfl

theorem tally_bytes {l : List Request} (h : ∀ q ∈ l, q.isByte = true) : Tally l [] 0 0 where
  blocks := List.filterMap_eq_nil_iff.2 fun q hq => match q, h q hq with
    | .read8 _, _ | .write8 _ _, _ => rfl
  reads := List.countP_eq_zero.2 fun q hq => by simp [isRead32_of_isByte (h q hq)]
  writes := List.countP_eq_zero.2 fun q hq => by simp [isWrite32_of_isByte (h q hq)]

theorem tally_writes {l : List Request} (h : ∀ q ∈ l, q.isWrite32 = true) : Tally l [] 0 l.length where
  blocks := List.filterMap_eq_nil_iff.2 fun q hq => match q, h q hq with
    | .write32 _ _, _ => rfl
  reads := List.countP_eq_zero.2 fun q hq => by simp [isRead32_of_isWrite32 (h q hq)]
  writes := List.countP_eq_length.2 h

theorem isByte_of_mem_fetchRequests {r : Regs} {row col : Nat} : ∀ q ∈ fetchRequests r row col, q.isByte = true := by
  intro q hq
  obtain ⟨n, _, rfl⟩ := List.mem_map.1 hq
  rfl

theorem isByte_of_mem_storeRequests {r : Regs} {row col : Nat} {x : Block 32} : ∀ q ∈ storeRequests r row col x, q.isByte = true := by
  intro q hq
  obtain ⟨n, _, rfl⟩ := List.mem_map.1 hq
  rfl

theorem isWrite32_of_mem_writeRequests {r : Regs} {j : Nat} {ws : List Word} : ∀ q ∈ writeRequests r j ws, q.isWrite32 = true := by
  intro q hq
  obtain ⟨k, w, _, _, rfl⟩ := mem_writeRequests hq
  rfl

@[simp] theorem length_writeRequests (r : Regs) (j : Nat) (ws : List Word) : (writeRequests r j ws).length = ws.length := by
  simp [writeRequests]

/-! ### The words of a block -/

/-- The stream writes of a block, where one of them fails (R84, R182). -/
theorem streamPairs_meets (ws : List Word) (s : State) (hp : s.regs.strmPtr = pat32 s.seq.j) : Meets (streamPairs ws) s
    (fun _ l u => l = writeRequests s.regs s.seq.j ws ∧ u = (s.did (writeRequests s.regs s.seq.j ws)).atWord (s.seq.j + ws.length))
    fun done r t => (∀ q ∈ done ++ [r], q.isWrite32 = true) ∧ SameButBus (s.atWord (s.seq.j + done.length)) t := by
  induction ws generalizing s with
  | nil => exact meets_ok (u := s) (fun _ _ => rfl) traced_nil rfl ⟨rfl, (State.atWord_self hp).symm⟩
  | cons w ws ih =>
    by_cases hc : s.regs.strmCap.toNat ≤ s.seq.j
    · exact meets_raised (i := s.regs.strmCap) fun m => if_pos hc
    refine Meets.congr (g := fun t => (memWrite32 (strmAddr s.regs s.seq.j) w t).bind fun _ t => streamPairs ws t.nextWord)
      (Meets.bind ((memWrite32_meets (strmAddr s.regs s.seq.j) w s).mono (fun _ _ _ => id) ?_) ?_) fun m => if_neg hc
    · rintro _ _ t ⟨rfl, rfl, h⟩
      refine ⟨fun q hq => by rw [List.mem_singleton.1 hq]; rfl, ?_⟩
      rwa [List.length_nil, Nat.add_zero, State.atWord_self hp]
    · rintro _ _ _ - ⟨rfl, rfl⟩
      refine Meets.comp (h := State.nextWord) ((ih _ rfl).mono ?_ ?_) (fun _ => rfl) traced_nil
      · rintro _ _ _ ⟨rfl, rfl⟩
        refine ⟨rfl, ?_⟩
        rw [State.nextWord_eq_atWord, State.did_atWord, State.atWord_atWord, ← State.did_append, writeRequests_cons, List.length_cons]
        simp only [State.atWord_j, State.did_j, State.atWord_regs, State.did_regs, writeRequests_progress, List.singleton_append,
          Nat.add_assoc, Nat.add_comm 1]
      · rintro done r t ⟨hw, h⟩
        refine ⟨fun q hq => ?_, ?_⟩
        · rcases List.mem_cons.1 hq with rfl | hq
          · rfl
          · exact hw q hq
        · rw [List.length_append, List.length_singleton, ← Nat.add_assoc]
          exact .trans ⟨rfl⟩ h

/-! ### The stages of a block -/

section Stages
variable {F : List Request → Request → State → Prop} (s : State)

theorem traced_quantized : Traced s [] s.quantized := by
  unfold State.quantized
  exact traced_nil rfl rfl rfl rfl ⟨fun h => by simp [h], rfl, rfl⟩

theorem traced_flattened : Traced s [] s.flattened := by
  unfold State.flattened
  exact traced_nil

theorem traced_encoded : Traced s [] s.encoded := by
  unfold State.encoded
  exact traced_nil

theorem flattened_withResp (m : List MemResponse) : (s.withResp m).flattened = s.flattened.withResp m := by
  unfold State.flattened
  rfl

theorem encoded_withResp (m : List MemResponse) : (s.withResp m).encoded = s.encoded.withResp m := by
  unfold State.encoded
  rfl

theorem bodyQuant_meets {s : State} (hq : s.status.qv = true) : Meets bodyQuant s (fun _ l u => l = [] ∧ u = s.quantized) F :=
  meets_ok (fun _ m => bodyQuant_quantized (s := s.withResp m) hq) (traced_quantized s) rfl ⟨rfl, rfl⟩

theorem bodyZzFlat_meets : Meets bodyZzFlat s (fun _ l u => l = [] ∧ u = s.flattened) F :=
  meets_ok (fun _ m => by rw [bodyZzFlat_flattened, flattened_withResp]) (traced_flattened s) rfl ⟨rfl, rfl⟩

theorem bodyRleEnc_meets : Meets bodyRleEnc s (fun _ l u => l = [] ∧ u = s.encoded) F :=
  meets_ok (fun _ m => by rw [bodyRleEnc_encoded, encoded_withResp]) (traced_encoded s) rfl ⟨rfl, rfl⟩

theorem bodyCbAccum_meets {s : State} {c : List Entry} (h : accumulate s.cbDepth (validPairs s) s.cb = .ok c) :
    Meets bodyCbAccum s (fun _ l u => l = [] ∧ u = s.withCb c) F :=
  meets_ok (a := ()) (u := s.withCb c) (fun _ m => bodyCbAccum_ok (s := s.withResp m) h) traced_nil rfl ⟨rfl, rfl⟩

theorem bodyCbAccum_meets_error {s : State} {e : ErrCode × Word} (h : accumulate s.cbDepth (validPairs s) s.cb = .error e) :
    Meets bodyCbAccum s (fun _ _ _ => False) F :=
  meets_raised fun m => bodyCbAccum_error (s := s.withResp m) h

end Stages

theorem coded_eq (b : Nat) (x : Block 32) (s : State) : s.coded b x =
    ((((((s.atBlock b).did (fetchRequests s.regs (b / blkCols s.regs) (b % blkCols s.regs))).withCbuf x).did [.txFwd x]).withCbuf
      (txFwd x)).quantized.flattened).encoded := by
  rw [State.did_withCbuf, State.withCbuf_withCbuf, ← State.did_append]
  unfold State.coded
  rfl

/-- The rest of a block once its words stand in PBUF (R182). -/
def countAndWrite (s : State) : Run Unit :=
  (bodyCbAccum s).bind fun _ s => (streamPairs (validPairs s) s).bind fun _ s => .ok () s.blockDone

/-- The padded block `b` of the image, as a sequence finds it. -/
abbrev blockAt (u : State) (b : Nat) : Block 32 := imageBlock u (b / blkCols u.regs) (b % blkCols u.regs)

/-- The transactions of block `b` before its words are written. -/
abbrev codingAt (u : State) (b : Nat) : List Request :=
  fetchRequests u.regs (b / blkCols u.regs) (b % blkCols u.regs) ++ [.txFwd (blockAt u b)]

/-- A block of phase BLOCKS up to its words: only the reads of its pixels can fail. -/
theorem compressBlock_meets_of_rest {Q : Unit → List Request → State → Prop} {F : List Request → Request → State → Prop} {u : State}
    {b : Nat} (hq : u.status.qv = true)
    (hF : ∀ done r t, (∀ q ∈ done ++ [r], q.isByte = true) → ∀ c, SameButBus (u.withCbuf c) t → F done r t)
    (hrest : Meets countAndWrite (u.coded b (blockAt u b)) (fun a l' v => Q a (codingAt u b ++ l') v)
      fun done => F (codingAt u b ++ done)) :
    Meets (compressBlock b) u Q F := by
  refine Meets.congr (g := fun s => (fetchBlock (b / blkCols u.regs) (b % blkCols u.regs) (s.atBlock b)).bind fun _ s =>
    (bodyTxFwd s).bind fun _ s => (bodyQuant s).bind fun _ s => (bodyZzFlat s).bind fun _ s => (bodyRleEnc s).bind fun _ =>
      countAndWrite) ?_ fun m => rfl
  refine Meets.comp (h := State.atBlock b) (f := fun s => (fetchBlock (b / blkCols u.regs) (b % blkCols u.regs) s).bind _) ?_
    (fun _ => rfl) traced_nil
  refine Meets.bind ((fetchBlock_meets _ _ (u.atBlock b)).mono (fun _ _ _ => id) fun done r t ⟨hp, c, h⟩ =>
    hF done r t (fun q hq => isByte_of_mem_fetchRequests q (hp.subset hq)) c (.trans ⟨rfl⟩ h)) ?_
  rintro _ _ _ - ⟨rfl, rfl⟩
  refine Meets.bind (bodyTxFwd_meets _) ?_
  rintro _ _ _ - ⟨rfl, rfl⟩
  refine Meets.bind (bodyQuant_meets (by exact hq)) ?_
  rintro _ _ _ - ⟨rfl, rfl⟩
  refine Meets.bind (bodyZzFlat_meets _) ?_
  rintro _ _ _ - ⟨rfl, rfl⟩
  refine Meets.bind (bodyRleEnc_meets _) ?_
  rintro _ _ _ - ⟨rfl, rfl⟩
  rw [coded_eq] at hrest
  simp only [codingAt, List.append_assoc] at hrest
  exact hrest

end Sys2Proof.Machine
end

section
/-! SUPPORT. SEQ_COMPRESS where an access of phase BLOCKS is answered with an error (20_memory.md R84; 46_sequencer.md
R182; 10_state.md R37 with 90_conflicts.md C3). -/

namespace Sys2Proof.Machine

/-! ### Phase BLOCKS -/

/-- SEQ_COMPRESS, begun in `s`, after `b` blocks of phase BLOCKS and the transactions `l`, whatever the image holds. -/
structure CompressLog (s : State) (b : Nat) (l : List Request) (u : State) : Prop where
  regs : u.regs = { s.regs with blkDone := BitVec.ofNat 32 b, strmPtr := pat32 u.seq.j }
  status : u.status = { s.status with
    qv := true, sat := s.status.sat || (transformed l).any (quantSaturates (matrixOf s.regs.quality.toNat)) }
  qmat : u.qmat = matrixOf s.regs.quality.toNat
  cb : u.cb = countedCodebook ((transformed l).flatMap (wordsOfBlock (matrixOf s.regs.quality.toNat)))
  room : u.cb.length ≤ u.cbDepth
  blocks : (transformed l).length = b
  tally : Tally l (transformed l) 0 u.seq.j

/-- SEQ_COMPRESS, begun in `s`, stopped at its access `r` after the transactions `done`; in phase SUBST its codebook meets `C`. -/
structure CompressCut (s : State) (C : List Entry → Prop) (done : List Request) (r : Request) (t : State) : Prop where
  regs : t.regs = compressStopped done r s.regs
  status : t.status = { s.status with
    qv := true, sat := s.status.sat || (transformed done).any (quantSaturates (matrixOf s.regs.quality.toNat)) }
  qmat : t.qmat = matrixOf s.regs.quality.toNat
  cb : if substBegun (done ++ [r]) then C t.cb
    else t.cb = countedCodebook ((transformed done).flatMap (wordsOfBlock (matrixOf s.regs.quality.toNat)))

theorem substBegun_eq_false {l : List Request} (h : l.countP Request.isRead32 = 0) : substBegun l = false :=
  List.any_eq_false.2 (List.countP_eq_zero.1 h)

/-- Before phase SUBST no stream word has been read. -/
theorem substBegun_blocks {done : List Request} {r : Request} {xs : List (Block 32)} {w : Nat} (h : Tally done xs 0 w)
    (hr : r.isRead32 = false) : substBegun (done ++ [r]) = false :=
  substBegun_eq_false (by rw [List.countP_append, h.reads, Nat.zero_add]; simp [hr])

/-- The progress of a sequence stopped in phase BLOCKS (R37). -/
theorem compressStopped_blocks {done : List Request} {r : Request} {xs : List (Block 32)} {w : Nat} (h : Tally done xs 0 w)
    (hr : r.isRead32 = false) (g : Regs) : compressStopped done r g =
      { g with blkDone := BitVec.ofNat 32 (if r.isWrite32 then xs.length - 1 else xs.length), strmPtr := BitVec.ofNat 32 w } := by
  unfold compressStopped
  simp only [substBegun_blocks h hr, h.blocks, h.writes, Bool.not_false, Bool.and_true, Bool.false_eq_true, if_false]

theorem tally_coding (u : State) (b : Nat) : Tally (codingAt u b) [blockAt u b] 0 0 :=
  (tally_bytes isByte_of_mem_fetchRequests).append (tally_txFwd _)

theorem blockDone_meets {F : List Request → Request → State → Prop} (s : State) :
    Meets (fun t => .ok () t.blockDone) s (fun _ l u => l = [] ∧ u = s.blockDone) F :=
  meets_ok (u := s.blockDone) (fun _ _ => rfl) traced_nil rfl ⟨rfl, rfl⟩

section Block
variable {s u : State} {b : Nat} {l : List Request} (hI : CompressLog s b l u) {C : List Entry → Prop}
include hI

/-- A read of a pixel fails. -/
theorem CompressLog.cut_fetch {done : List Request} {r : Request} {t : State} (hd : ∀ q ∈ done ++ [r], q.isByte = true)
    {c : Block 32} (h : SameButBus (u.withCbuf c) t) : CompressCut s C (l ++ done) r t := by
  have hr : r.isByte = true := hd r (by simp)
  have hr1 := isRead32_of_isByte hr
  have hr2 := isWrite32_of_isByte hr
  have ht := hI.tally.append (tally_bytes fun q hq => hd q (List.mem_append_left _ hq))
  rw [List.append_nil] at ht
  refine ⟨?_, ?_, (h.qmat).trans hI.qmat, ?_⟩
  · rw [compressStopped_blocks ht hr1, hr2, if_neg Bool.false_ne_true, hI.blocks]
    exact (h.regs).trans hI.regs
  · rw [ht.blocks]
    exact (h.status).trans hI.status
  · rw [substBegun_blocks ht hr1, if_neg Bool.false_ne_true, ht.blocks]
    exact (h.cb).trans hI.cb

/-- The words of the block that is coded. -/
theorem CompressLog.validPairs_coded : validPairs (u.coded b (blockAt u b)) =
    wordsOfBlock (matrixOf s.regs.quality.toNat) (blockAt u b) := by
  rw [Machine.validPairs_coded, hI.qmat]

omit hI in
/-- The values of one more block, with those before it. -/
theorem flatMap_succ {l' : List Request} {j : Nat} (ht : Tally (l ++ l') (transformed l ++ [blockAt u b]) 0 j) :
    (transformed (l ++ l')).flatMap (wordsOfBlock (matrixOf s.regs.quality.toNat)) =
      (transformed l).flatMap (wordsOfBlock (matrixOf s.regs.quality.toNat)) ++
        wordsOfBlock (matrixOf s.regs.quality.toNat) (blockAt u b) := by
  rw [ht.blocks, List.flatMap_append, List.flatMap_singleton]

/-- The flags once the block is coded. -/
theorem CompressLog.status_coded {l' : List Request} {j : Nat} (ht : Tally (l ++ l') (transformed l ++ [blockAt u b]) 0 j) :
    (u.coded b (blockAt u b)).status = { s.status with
      qv := true, sat := s.status.sat || (transformed (l ++ l')).any (quantSaturates (matrixOf s.regs.quality.toNat)) } := by
  rw [ht.blocks, State.coded_status, hI.status, hI.qmat, List.any_append, List.any_cons, List.any_nil, Bool.or_false, Bool.or_assoc]

/-- Block `b` is coded and counted, and its words are to be written. -/
abbrev State.countedAt (b : Nat) (c : List Entry) (u : State) : State := (u.coded b (blockAt u b)).withCb c

/-- The codebook after block `b`. -/
abbrev codebookAt (s : State) (l : List Request) (u : State) (b : Nat) : List Entry :=
  countedCodebook ((transformed l).flatMap (wordsOfBlock (matrixOf s.regs.quality.toNat)) ++
    wordsOfBlock (matrixOf s.regs.quality.toNat) (blockAt u b))

/-- The write of a word fails. -/
theorem CompressLog.cut_write {done : List Request} {r : Request} {t : State} (hw : ∀ q ∈ done ++ [r], q.isWrite32 = true)
    (h : SameButBus ((u.countedAt b (codebookAt s l u b)).atWord (u.seq.j + done.length)) t) :
    CompressCut s C (l ++ (codingAt u b ++ done)) r t := by
  have hr : r.isWrite32 = true := hw r (by simp)
  have hr1 := isRead32_of_isWrite32 hr
  have ht := hI.tally.append ((tally_coding u b).append (tally_writes fun q hq => hw q (List.mem_append_left _ hq)))
  simp only [List.append_nil, Nat.zero_add] at ht
  refine ⟨?_, ?_, (h.qmat).trans ((State.coded_qmat b _ u).trans hI.qmat), ?_⟩
  · rw [compressStopped_blocks ht hr1, if_pos hr, List.length_append, hI.blocks]
    refine (h.regs).trans ?_
    simp only [State.atWord_regs, State.withCb_regs, State.coded_regs, hI.regs]
    rfl
  · exact (h.status).trans (hI.status_coded ht)
  · rw [substBegun_blocks ht hr1, if_neg Bool.false_ne_true, flatMap_succ ht]
    exact h.cb

/-- The words of the block are written, and the block is done. -/
theorem CompressLog.succ (hc : (codebookAt s l u b).length ≤ u.cbDepth) (ws : List Word) (r : Regs) :
    CompressLog s (b + 1) (l ++ (codingAt u b ++ writeRequests r u.seq.j ws))
      (((u.countedAt b (codebookAt s l u b)).did (writeRequests r u.seq.j ws)).atWord (u.seq.j + ws.length)).blockDone := by
  have ht := hI.tally.append ((tally_coding u b).append
    (tally_writes (isWrite32_of_mem_writeRequests (r := r) (j := u.seq.j) (ws := ws))))
  simp only [List.append_nil, Nat.zero_add, length_writeRequests] at ht
  exact {
    regs := by simp [hI.regs, BitVec.ofNat_add]
    status := by
      simpa only [State.blockDone_status, State.atWord_status, State.did_status, State.withCb_status] using hI.status_coded ht
    qmat := by simpa using hI.qmat
    cb := (congrArg countedCodebook (flatMap_succ ht)).symm
    room := by
      change _ ≤ (u.coded b (blockAt u b)).cbDepth
      rw [State.coded_cbDepth]
      exact hc
    blocks := by rw [ht.blocks, List.length_append, hI.blocks]; rfl
    tally := by rw [ht.blocks]; simpa using ht }

/-- The words of a block and the end of the block. -/
theorem CompressLog.write_meets (hc : (codebookAt s l u b).length ≤ u.cbDepth) :
    Meets (fun t => (streamPairs (wordsOfBlock (matrixOf s.regs.quality.toNat) (blockAt u b)) t).bind fun _ t => .ok () t.blockDone)
      (u.countedAt b (codebookAt s l u b)) (fun _ l' v => CompressLog s (b + 1) (l ++ (codingAt u b ++ l')) v)
      fun done => CompressCut s C (l ++ (codingAt u b ++ done)) := by
  have hw := streamPairs_meets (wordsOfBlock (matrixOf s.regs.quality.toNat) (blockAt u b)) (u.countedAt b (codebookAt s l u b))
    (by simp only [State.withCb_regs, State.withCb_seq, State.coded_regs, State.coded_j, hI.regs])
  rw [State.withCb_seq, State.coded_j] at hw
  refine Meets.bind (hw.mono (fun _ _ _ => id) fun done r t ⟨hw, h⟩ => hI.cut_write hw h) ?_
  rintro _ l' v - ⟨hl, hv⟩
  rw [hl, hv]
  refine (blockDone_meets _).mono (fun _ l'' w ⟨hl'', hw⟩ => ?_) fun _ _ _ => id
  rw [hl'', hw, List.append_nil]
  exact hI.succ hc _ _

/-- One block of phase BLOCKS, where an access of it may fail (R84, R182). -/
theorem CompressLog.step_meets : Meets (compressBlock b) u (fun _ l' v => CompressLog s (b + 1) (l ++ l') v)
    fun done => CompressCut s C (l ++ done) := by
  refine compressBlock_meets_of_rest (by rw [hI.status]) (fun done r t hd c h => hI.cut_fetch hd h) ?_
  have hacc := accumulate_countedCodebook (ws := wordsOfBlock (matrixOf s.regs.quality.toNat) (blockAt u b))
    (fun w hw => lenField_of_mem_rleWords hw) (by rw [← hI.cb]; exact hI.room : _ ≤ u.cbDepth)
  have hu : accumulate (u.coded b (blockAt u b)).cbDepth (validPairs (u.coded b (blockAt u b))) (u.coded b (blockAt u b)).cb = _ :=
    Eq.trans (by rw [State.coded_cbDepth, hI.validPairs_coded, State.coded_cb, hI.cb]) hacc
  by_cases hc : (codebookAt s l u b).length ≤ u.cbDepth
  · refine Meets.bind (bodyCbAccum_meets (hu.trans (if_pos hc))) ?_
    rintro _ _ _ - ⟨rfl, rfl⟩
    refine (hI.write_meets hc).congr fun m => ?_
    change (streamPairs (validPairs (u.coded b (blockAt u b))) _).bind _ = _
    rw [hI.validPairs_coded]
  · exact Meets.bind (bodyCbAccum_meets_error (hu.trans (if_neg hc))) fun _ _ _ _ h => h.elim

end Block

end Sys2Proof.Machine
end

section
/-! SUPPORT. SEQ_COMPRESS where an access of phase SUBST, or of the whole command, is answered with an error (20_memory.md R84;
46_sequencer.md R182). -/

namespace Sys2Proof.Machine

/-! ### Phase SUBST -/

/-- Transactions of phase SUBST: they begin with a read, and none of them is a transform request. -/
structure SubstTail (l : List Request) : Prop where
  head : l.dropWhile (fun q => !q.isRead32) = l
  blocks : transformed l = []

theorem SubstTail.append {l l' : List Request} (h : SubstTail l) (h' : SubstTail l') : SubstTail (l ++ l') where
  head := by
    rw [List.dropWhile_append, h.head, h'.head]
    cases l <;> rfl
  blocks := by rw [transformed, List.filterMap_append, ← transformed, ← transformed, h.blocks, h'.blocks, List.append_nil]

/-- The progress of a sequence stopped in phase SUBST (R37, R182). -/
theorem compressStopped_subst {l done : List Request} {r : Request} {xs : List (Block 32)} {w : Nat} (h : Tally l xs 0 w)
    (hd : SubstTail done) (hr : substBegun (done ++ [r]) = true) (g : Regs) : compressStopped (l ++ done) r g =
      { g with blkDone := BitVec.ofNat 32 xs.length, strmPtr := BitVec.ofNat 32 (done.countP Request.isWrite32) } := by
  have hs : substBegun (l ++ done ++ [r]) = true := by
    rw [List.append_assoc, substBegun, List.any_append, ← substBegun, ← substBegun, hr, Bool.or_true]
  have hw : (l ++ done).dropWhile (fun q => !q.isRead32) = done := by
    rw [List.dropWhile_append_of_pos, hd.head]
    intro q hq
    simpa using List.countP_eq_zero.1 h.reads q hq
  have hb : transformed (l ++ done) = xs := by
    rw [transformed, List.filterMap_append, ← transformed, ← transformed, h.blocks, hd.blocks, List.append_nil]
  unfold compressStopped
  simp only [hs, hw, hb, Bool.not_true, Bool.and_false, Bool.false_eq_true, if_false, if_true]

/-- Phase SUBST, begun in `v`, after `k` words and the transactions `l`. -/
structure SubstLog (v : State) (k : Nat) (l : List Request) (u : State) : Prop where
  state : SameButBus (v.atWord k) u
  tail : SubstTail l
  writes : l.countP Request.isWrite32 = k

/-- Phase SUBST, begun in `v`, stopped at its access `r` after the transactions `done`. -/
structure SubstCut (v : State) (done : List Request) (r : Request) (t : State) : Prop where
  state : SameButBus (v.atWord (done.countP Request.isWrite32)) t
  tail : SubstTail done
  begun : substBegun (done ++ [r]) = true

/-- STRM_PTR replaced. -/
def State.withStrmPtr (p : BitVec 32) (s : State) : State := { s with regs := { s.regs with strmPtr := p } }

/-- What phase SUBST makes of a word it has read (R182). -/
def substWith (k : Nat) (w : Word) (s : State) : Run Unit :=
  if lenField w ≠ 0 then .raised .pairForm (pat32 k) s
  else
    match codeOf s.cb (symField w) with
    | none => .raised .unknownValue (pat32 k) s
    | some c => (memWrite32 (strmAddr s.regs k) (encodedWord c w) s).bind fun _ s => .ok () (s.withStrmPtr (pat32 (k + 1)))

theorem substWord_eq (k : Nat) (s : State) : substWord k s = (memRead32 (strmAddr s.regs k) s).bind (substWith k) := rfl

section SubstWith
variable {k : Nat} {w : Word} {s : State}

theorem substWith_pairForm (h : lenField w ≠ 0) : substWith k w s = .raised .pairForm (pat32 k) s := if_pos h

variable (h : ¬ lenField w ≠ 0)
include h

theorem substWith_unknownValue (hc : codeOf s.cb (symField w) = none) :
    substWith k w s = .raised .unknownValue (pat32 k) s := by rw [substWith, if_neg h, hc]

theorem substWith_write {c : Code} (hc : codeOf s.cb (symField w) = some c) : substWith k w s =
    (memWrite32 (strmAddr s.regs k) (encodedWord c w) s).bind fun _ s => .ok () (s.withStrmPtr (pat32 (k + 1))) := by
  rw [substWith, if_neg h, hc]

end SubstWith

section Word
variable {v u : State} {k : Nat} {l : List Request} (hI : SubstLog v k l u)
include hI

theorem SubstLog.cut_read (a : Addr) {t : State} (h : SameButBus u t) : SubstCut v (l ++ []) (.read32 a) t := by
  rw [List.append_nil]
  exact ⟨by rw [hI.writes]; exact hI.state.trans h, hI.tail, by simp [substBegun, Request.isRead32]⟩

theorem SubstLog.cut_write (a : Addr) (r : Request) {t : State} (h : SameButBus u t) : SubstCut v (l ++ [.read32 a]) r t where
  state := by
    rw [List.countP_append, hI.writes]
    exact hI.state.trans h
  tail := hI.tail.append ⟨rfl, rfl⟩
  begun := by simp [substBegun, Request.isRead32]

theorem SubstLog.succ (a a' : Addr) (w : Word) {t : State} (h : SameButBus u t) :
    SubstLog v (k + 1) (l ++ [.read32 a, .write32 a' w]) (t.withStrmPtr (pat32 (k + 1))) where
  state := ⟨congrArg (State.withStrmPtr (pat32 (k + 1))) (hI.state.trans h).eq⟩
  tail := hI.tail.append ⟨rfl, rfl⟩
  writes := by rw [List.countP_append, hI.writes]; rfl

/-- One word of phase SUBST, where an access of it may fail (R84, R182). -/
theorem SubstLog.step_meets : Meets (substWord k) u (fun _ l' w => SubstLog v (k + 1) (l ++ l') w)
    fun done => SubstCut v (l ++ done) := by
  refine Meets.congr (g := fun s => (memRead32 (strmAddr u.regs k) s).bind (substWith k)) ?_ fun m => substWord_eq k (u.withResp m)
  refine Meets.bind ((memRead32_meets (strmAddr u.regs k) u).mono (fun _ _ _ => id) ?_) ?_
  · rintro _ _ t ⟨rfl, rfl, h⟩
    exact hI.cut_read _ h
  rintro w _ _ - ⟨-, rfl, rfl⟩
  by_cases hl : lenField w ≠ 0
  · exact meets_raised fun m => substWith_pairForm hl
  cases hc : codeOf u.cb (symField w) with
  | none => exact meets_raised fun m => substWith_unknownValue hl hc
  | some c =>
    refine Meets.congr (g := fun s => (memWrite32 (strmAddr u.regs k) (encodedWord c w) s).bind fun _ s =>
      .ok () (s.withStrmPtr (pat32 (k + 1)))) ?_ fun m => substWith_write hl hc
    refine Meets.bind ((memWrite32_meets _ _ _).mono (fun _ _ _ => id) ?_) ?_
    · rintro _ _ t ⟨rfl, rfl, h⟩
      exact hI.cut_write _ _ ((sameButBus_did u _).trans h)
    rintro _ _ v - ⟨rfl, rfl⟩
    exact meets_ok (u := State.withStrmPtr _ _) (fun _ _ => rfl) traced_nil rfl
      (hI.succ _ _ _ ((sameButBus_did u _).trans (sameButBus_did _ _)))

end Word

/-- Phases BUILD and SUBST (R182). -/
def substPhase (s : State) : Run Unit :=
  (buildPhase s).bind fun _ s => (forCount substWord s.seq.j 0 s.startSubst).bind fun _ s => .ok () s.setStrmLen

/-- After phase BUILD (R185). -/
def State.built (s : State) : State := { s with seq := { s.seq with phase := .build }, cb := buildCodebook s.cb }

theorem substPhase_eq (s : State) : substPhase s =
    (forCount substWord s.seq.j 0 s.built.startSubst).bind fun _ s => .ok () s.setStrmLen := rfl

/-- Phases BUILD and SUBST, where an access of phase SUBST may fail. -/
theorem substPhase_meets (v : State) : Meets substPhase v (fun _ _ _ => True) (SubstCut v.built.startSubst) := by
  refine Meets.congr (g := fun s => (forCount substWord v.seq.j 0 s.built.startSubst).bind fun _ s => .ok () s.setStrmLen) ?_
    fun _ => rfl
  refine Meets.comp (f := fun s => (forCount substWord v.seq.j 0 s).bind fun _ s => .ok () s.setStrmLen)
    (h := fun s => s.built.startSubst) ?_ (fun _ => rfl) traced_nil
  refine Meets.bind (meets_forCount (I := SubstLog v.built.startSubst) (fun k l u hI => SubstLog.step_meets hI) _ 0 [] _
    ⟨⟨rfl⟩, ⟨rfl, rfl⟩, rfl⟩) fun _ l u _ _ => ?_
  exact meets_ok (u := u.setStrmLen) (fun _ _ => rfl) traced_nil rfl trivial

/-- On ordinary memory phase SUBST leaves the codebook as phase BUILD made it, however it ends. -/
theorem substPhase_ensures {v : State} (hv : v.Undisturbed) : (substPhase v).Ensures (fun _ u => u.cb = buildCodebook v.cb)
    (fun _ _ u => u.cb = buildCodebook v.cb) fun _ => True := by
  have loop := forCount_ensures (body := substWord) (I := fun _ u => u.Undisturbed ∧ u.cb = buildCodebook v.cb)
    (R := fun _ _ u => u.cb = buildCodebook v.cb) (A := fun _ => True) (fun k u ⟨hu, hc⟩ => by
      unfold substWord
      rw [memRead32_did hu, bind_ok]
      split
      · exact ensures_raised.2 hc
      · split
        · exact ensures_raised.2 hc
        · rw [memWrite32_did (did_undisturbed hu _), bind_ok]
          exact ensures_ok.2 ⟨hu.of rfl rfl, hc⟩) v.seq.j 0 v.built.startSubst ⟨hv.of rfl rfl, rfl⟩
  rw [substPhase_eq]
  exact loop.bind fun _ u ⟨_, hc⟩ => ensures_ok.2 hc

/-! ### The whole command -/

/-- SEQ_COMPRESS from phase BLOCKS on, for `n` blocks (R182). -/
def compressPhases (n : Nat) (s : State) : Run Unit := (forCount compressBlock n 0 s).bind fun _ => substPhase

theorem compressLog_start (s : State) : CompressLog s 0 [] s.generated.startCompress where
  regs := rfl
  status := by simp [State.generated]
  qmat := rfl
  cb := rfl
  room := Nat.zero_le _
  blocks := rfl
  tally := tally_nil

theorem CompressLog.cut_subst {s v t : State} {b : Nat} {l done : List Request} {r : Request} (hI : CompressLog s b l v)
    {C : List Entry → Prop} (hC : C (buildCodebook v.cb)) (h : SubstCut v.built.startSubst done r t) :
    CompressCut s C (l ++ done) r t := by
  have hb : transformed (l ++ done) = transformed l := by
    rw [transformed, List.filterMap_append, ← transformed, ← transformed, h.tail.blocks, List.append_nil]
  have hs : substBegun (l ++ done ++ [r]) = true := by
    rw [List.append_assoc, substBegun, List.any_append, ← substBegun, ← substBegun, h.begun, Bool.or_true]
  refine ⟨?_, ?_, h.state.qmat.trans hI.qmat, ?_⟩
  · rw [compressStopped_subst hI.tally h.tail h.begun, hI.blocks, h.state.regs]
    change ({ v.regs with strmPtr := pat32 (done.countP Request.isWrite32) } : Regs) = _
    rw [hI.regs]
    rfl
  · rw [hb]
    exact h.state.status.trans hI.status
  · rw [hs, if_pos rfl, h.state.cb]
    exact hC

/-- SEQ_COMPRESS, where an access of it may fail (R84, R182): the codebook of phase SUBST is that of its run on ordinary memory. -/
theorem compressPhases_meets (s : State) (n : Nat) : Meets (compressPhases n) s.generated.startCompress (fun _ _ _ => True)
    (CompressCut s fun c => (compressPhases n s.generated.startCompress).Ensures (fun _ u => u.cb = c) (fun _ _ u => u.cb = c)
      fun _ => True) := by
  refine Meets.bind (meets_forCount (I := CompressLog s) (fun b l u hI => CompressLog.step_meets hI) n 0 [] _ (compressLog_start s))
    fun _ l v hr hI => ?_
  intro hv
  refine ((substPhase_meets v).mono (fun _ _ _ => id) fun done r t h => CompressLog.cut_subst hI ?_ h) hv
  rw [compressPhases, hr, bind_ok]
  exact substPhase_ensures hv

end Sys2Proof.Machine
end

section
/-! SUPPORT. SEQ_DECOMPRESS where an access of it is answered with an error (20_memory.md R84; 46_sequencer.md R183; 10_state.md
R37 with 90_conflicts.md C3). -/

namespace Sys2Proof.Machine

/-- SEQ_DECOMPRESS, begun in `s`, stopped at its access `r` after the transactions `done`. -/
structure DecompressCut (s : State) (done : List Request) (r : Request) (t : State) : Prop where
  regs : t.regs = decompressStopped done r s.regs
  status : t.status = { s.status with qv := true, sat := t.status.sat }
  cb : t.cb = s.cb

/-- SEQ_DECOMPRESS, begun in `s`, with `b` blocks done and `n` stream words read before this phase, after the transactions `l`. -/
structure DecompressLog (s : State) (n b : Nat) (l : List Request) (u : State) : Prop where
  regs : u.regs = { s.regs with blkDone := BitVec.ofNat 32 b, strmPtr := pat32 u.seq.j }
  status : u.status = { s.status with qv := true, sat := u.status.sat }
  cb : u.cb = s.cb
  le : u.seq.j ≤ s.regs.strmLen.toNat
  tally : Tally l (transformed l) (n + u.seq.j) 0

theorem decompressStopped_eq {done : List Request} {xs : List (Block 32)} {n : Nat} (h : Tally done xs n 0) (r : Request) (g : Regs) :
    decompressStopped done r g = { g with
      blkDone := BitVec.ofNat 32 (if r.isRead32 then xs.length else xs.length - 1)
      strmPtr := BitVec.ofNat 32 (if n < g.strmLen.toNat then n else n - g.strmLen.toNat) } := by
  unfold decompressStopped
  rw [h.blocks, h.reads]

theorem tally_read32 (a : Addr) : Tally [.read32 a] [] 1 0 := ⟨rfl, rfl, rfl⟩

/-- What a stage of a block changes neither of: the registers, the flags but SAT, the codebook and the word counter. -/
structure SameProgress (s t : State) : Prop where
  regs : t.regs = s.regs
  status : t.status = { s.status with sat := t.status.sat }
  cb : t.cb = s.cb
  j : t.seq.j = s.seq.j

section Log
variable {s u v : State} {n b : Nat} {l : List Request} (hI : DecompressLog s n b l u)
include hI

theorem DecompressLog.of (h : SameProgress u v) : DecompressLog s n b l v where
  regs := by rw [h.regs, h.j]; exact hI.regs
  status := h.status.trans (by rw [hI.status])
  cb := h.cb.trans hI.cb
  le := by rw [h.j]; exact hI.le
  tally := by rw [h.j]; exact hI.tally

/-- A stream word has been read. -/
theorem DecompressLog.read (a : Addr) (hl : u.seq.j < s.regs.strmLen.toNat) :
    DecompressLog s n b (l ++ [.read32 a]) (u.did [.read32 a]).nextWord where
  regs := by rw [State.nextWord_eq_atWord, State.atWord_regs, State.did_regs, hI.regs]; rfl
  status := hI.status
  cb := hI.cb
  le := hl
  tally := by
    have h := hI.tally.append (tally_read32 a)
    rw [List.append_nil] at h
    rw [h.blocks]
    exact h

/-- The read of a stream word fails. -/
theorem DecompressLog.cut_read (a : Addr) {t : State} (hb : (transformed l).length = b) (hl : u.seq.j < s.regs.strmLen.toNat)
    (hn : n = 0 ∨ n = s.regs.strmLen.toNat) (h : SameButBus u t) : DecompressCut s (l ++ []) (.read32 a) t where
  regs := by
    have hp : (if n + u.seq.j < s.regs.strmLen.toNat then n + u.seq.j else n + u.seq.j - s.regs.strmLen.toNat) = u.seq.j := by
      split <;> omega
    rw [List.append_nil, decompressStopped_eq hI.tally, hb, hp, h.regs, hI.regs]
    rfl
  status := by rw [h.status]; exact hI.status
  cb := h.cb.trans hI.cb

end Log

/-! ### Phase VALIDATE -/

/-- What phase VALIDATE makes of a word it has read, with `left` words to come after it (R183). -/
def validateWith (left : Nat) (w : Word) (s : State) : Run Unit :=
  if lenField w = 0 then .raised .pairForm (pat32 s.seq.j) s
  else if (lookupCode s.cb { len := lenField w, bits := symField w }).isNone then .raised .unknownCode (pat32 s.seq.j) s
  else if (runField w).toNat = 0 ∨ 64 < s.seq.sum + (runField w).toNat then .raised .corruptRunSum (pat32 s.seq.j) s
  else if eobField w then
    if s.seq.sum + (runField w).toNat ≠ 64 then
      .raised .corruptRunSum (pat32 s.seq.j) (s.setSum (s.seq.sum + (runField w).toNat)).nextWord
    else .ok () (s.setSum (s.seq.sum + (runField w).toNat)).nextWord
  else validateWords left (s.setSum (s.seq.sum + (runField w).toNat)).nextWord

theorem validateWords_succ (left : Nat) (s : State) : validateWords (left + 1) s =
    (memRead32 (strmAddr s.regs s.seq.j) s).bind (validateWith left) := rfl

/-- Phase VALIDATE: after the transactions `l` no block has been transformed. -/
structure ValidateLog (s : State) (l : List Request) (u : State) : Prop extends DecompressLog s 0 0 l u where
  blocks : transformed l = []

/-- A stream word has been read and its run counted. -/
theorem ValidateLog.read {s u : State} {l : List Request} (hI : ValidateLog s l u) (a : Addr)
    (hl : u.seq.j < s.regs.strmLen.toNat) (k : Nat) : ValidateLog s (l ++ [.read32 a]) ((u.did [.read32 a]).setSum k).nextWord where
  toDecompressLog := (hI.toDecompressLog.read a hl).of ⟨rfl, rfl, rfl, rfl⟩
  blocks := (Tally.append ⟨hI.blocks, rfl, rfl⟩ (tally_read32 a)).blocks

/-- The checks of a word of phase VALIDATE, and the words after it. -/
theorem validateWith_meets {Q : Unit → List Request → State → Prop} {F : List Request → Request → State → Prop} {v : State} {left : Nat}
    (w : Word) (hok : ∀ k, Q () [] (v.setSum k).nextWord) (hnext : ∀ k, Meets (validateWords left) (v.setSum k).nextWord Q F) :
    Meets (validateWith left w) v Q F := by
  have check (c : ErrCode) : Meets (fun s : State => (.raised c (pat32 s.seq.j) s : Run Unit)) v Q F :=
    raise_meets (h := id) (fun _ => rfl) (fun _ => rfl) traced_nil
  refine meets_ite (fun _ => Iff.rfl) (fun _ => check _) fun _ => ?_
  refine meets_ite (fun _ => Iff.rfl) (fun _ => check _) fun _ => ?_
  refine meets_ite (fun _ => Iff.rfl) (fun _ => check _) fun _ => ?_
  refine meets_ite (fun _ => Iff.rfl) (fun _ => meets_ite (fun _ => Iff.rfl) (fun _ => ?_) fun _ => ?_) fun _ => ?_
  · exact raise_meets (fun _ => rfl) (fun _ => rfl) traced_nil
  · exact meets_ok (u := (v.setSum (v.seq.sum + (runField w).toNat)).nextWord) (fun _ _ => rfl)
      traced_nil rfl (hok _)
  · exact Meets.comp (h := fun s => (s.setSum (s.seq.sum + (runField w).toNat)).nextWord) (f := validateWords left) (hnext _)
      (fun _ => rfl) traced_nil

/-- The words of a block in phase VALIDATE, with `left` words to come, where the read of one may fail (R84, R183). -/
theorem validateWords_meets {s u : State} {left : Nat} {l : List Request} (hI : ValidateLog s l u)
    (hl : u.seq.j + left = s.regs.strmLen.toNat) : Meets (validateWords left) u (fun _ l' v => ValidateLog s (l ++ l') v)
    fun done => DecompressCut s (l ++ done) := by
  induction left generalizing l u with
  | zero => exact meets_raised (c := .corruptBlockCount) (i := pat32 u.seq.j) fun _ => rfl
  | succ left ih =>
    refine Meets.congr (g := fun t => (memRead32 (strmAddr u.regs u.seq.j) t).bind (validateWith left)) ?_
      fun m => validateWords_succ left (u.withResp m)
    refine Meets.bind ((memRead32_meets _ u).mono (fun _ _ _ => id) ?_) ?_
    · rintro _ _ t ⟨rfl, rfl, h⟩
      exact hI.cut_read _ (by rw [hI.blocks]; rfl) (by omega) (.inl rfl) h
    rintro w _ _ - ⟨-, rfl, rfl⟩
    have hread (k : Nat) := hI.read (strmAddr u.regs u.seq.j) (by omega) k
    refine validateWith_meets w (fun k => by rw [List.append_nil]; exact hread k) fun k => (ih (hread k) ?_).mono ?_ ?_
    · change u.seq.j + 1 + left = _
      omega
    · intro _ l' v h
      rwa [← List.append_assoc]
    · intro done r t h
      rwa [← List.append_assoc]

/-- Phase VALIDATE, where a read of it may fail; it goes on only when every stream word has been read (R183). -/
theorem validatePhase_meets {s u : State} (hI : DecompressLog s 0 0 [] (u.startPass .validate)) : Meets validatePhase u
    (fun _ l v => ValidateLog s l v ∧ v.seq.j = s.regs.strmLen.toNat) (DecompressCut s) := by
  have hlen {v : State} {l : List Request} (h : ValidateLog s l v) : v.regs.strmLen = s.regs.strmLen := by rw [h.regs]
  refine Meets.congr (g := fun t => (forCount validateBlock (blkCount u.regs) 0 (t.startPass .validate)).bind fun _ t =>
    if t.seq.j ≠ t.regs.strmLen.toNat then .raised .corruptBlockCount (pat32 t.seq.j) t else .ok () t) ?_ fun _ => rfl
  refine Meets.comp (h := State.startPass .validate) (f := fun t => (forCount validateBlock (blkCount u.regs) 0 t).bind _) ?_
    (fun _ => rfl) traced_nil
  refine Meets.bind (meets_forCount (I := fun _ => ValidateLog s) (fun b l v hv => ?_) _ 0 [] _ ?_) fun _ l v _ hv => ?_
  · refine Meets.congr (g := fun t => validateWords (v.regs.strmLen.toNat - v.seq.j) (t.setSum 0)) ?_ fun _ => rfl
    refine Meets.comp (h := State.setSum 0) (validateWords_meets ⟨hv.of ⟨rfl, rfl, rfl, rfl⟩, hv.blocks⟩ ?_) (fun _ => rfl)
      traced_nil
    have := hv.le
    rw [hlen hv]
    change v.seq.j + _ = _
    omega
  · exact ⟨hI, rfl⟩
  · refine meets_ite (fun _ => Iff.rfl)
      (fun _ => raise_meets (h := id) (fun _ => rfl) (fun _ => rfl) traced_nil) fun h => ?_
    refine meets_ok (fun _ _ => rfl) traced_nil rfl ?_
    rw [List.append_nil, ← hlen hv]
    exact ⟨hv, not_not.1 h⟩

/-! ### Phase BLOCKS -/

section Stages
variable {F : List Request → Request → State → Prop} (s : State)

theorem withPbuf_meets (p : Block 32) : Meets (fun t => .ok () (t.withPbuf p)) s (fun _ l u => l = [] ∧ SameProgress s u) F :=
  meets_ok (u := s.withPbuf p) (fun _ _ => rfl) traced_nil rfl ⟨rfl, rfl, rfl, rfl, rfl⟩

theorem withZbuf_meets (z : Block 16) : Meets (fun t => .ok () (t.withZbuf z)) s (fun _ l u => l = [] ∧ SameProgress s u) F :=
  meets_ok (u := s.withZbuf z) (fun _ _ => rfl) traced_nil rfl ⟨rfl, rfl, rfl, rfl, rfl⟩

theorem bodyCbDecode_meets : Meets bodyCbDecode s (fun _ l u => l = [] ∧ SameProgress s u) F := by
  have hv (m : List MemResponse) : validPairs (s.withResp m) = validPairs s := rfl
  cases h : decodePairs s.cb 0 (validPairs s) with
  | error e =>
    refine meets_raised (c := e.1) (i := e.2) fun m => ?_
    unfold bodyCbDecode
    rw [hv, show (s.withResp m).cb = s.cb from rfl, h, ofCheck_error, bind_raised]
  | ok ws => exact (withPbuf_meets s (overwrite s.pbuf ws)).congr fun m => bodyCbDecode_ok (s := s.withResp m) h

theorem bodyRleDec_meets : Meets bodyRleDec s (fun _ l u => l = [] ∧ SameProgress s u) F := by
  have hv (m : List MemResponse) : validPairs (s.withResp m) = validPairs s := rfl
  cases h : rleCheck 0 0 (validPairs s) with
  | error e =>
    refine meets_raised (c := e.1) (i := e.2) fun m => ?_
    unfold bodyRleDec
    rw [hv, h, ofCheck_error, bind_raised]
  | ok total =>
    by_cases ht : total = 64
    · rw [ht] at h
      exact (withZbuf_meets s (fromList (expand (validPairs s)))).congr fun m => bodyRleDec_ok (hv m) h
    · refine meets_raised (c := .corruptRunSum) (i := pat32 s.pcount.toNat) fun m => ?_
      unfold bodyRleDec
      rw [hv, h, ofCheck_ok, bind_ok, if_pos ht]
      rfl

theorem bodyZzUnflat_meets : Meets bodyZzUnflat s (fun _ l u => l = [] ∧ SameProgress s u) F := by
  refine meets_ok (a := ()) (u := s.unflattened) (fun _ m => ?_) ?_ rfl ⟨rfl, ?_⟩
  · rw [bodyZzUnflat_unflattened]
    unfold State.unflattened
    rfl
  · unfold State.unflattened
    exact traced_nil
  · unfold State.unflattened
    exact ⟨rfl, rfl, rfl, rfl⟩

theorem bodyDequant_meets (hq : s.status.qv = true) : Meets bodyDequant s (fun _ l u => l = [] ∧ SameProgress s u) F := by
  refine meets_ok (a := ()) (u := s.scaled) (fun _ m => ?_) ?_ rfl ⟨rfl, ?_⟩
  · rw [bodyDequant_scaled (s := s.withResp m) hq]
    unfold State.scaled
    rfl
  · unfold State.scaled
    exact traced_nil rfl rfl rfl rfl ⟨fun h => by simp [h], rfl, rfl⟩
  · unfold State.scaled
    exact ⟨rfl, rfl, rfl, rfl⟩

end Stages

/-- Phase BLOCKS of SEQ_DECOMPRESS, begun in `s`, with `b` blocks done and `n` transformed. -/
structure BlocksLog (s : State) (b n : Nat) (l : List Request) (u : State) : Prop extends
    DecompressLog s s.regs.strmLen.toNat b l u where
  blocks : (transformed l).length = n

/-- The words of a block in phase BLOCKS, where the read of one may fail (R84, R183). -/
theorem readPairs_meets {s u : State} {b left m : Nat} {l : List Request} (hI : BlocksLog s b b l u)
    (hl : u.seq.j + left = s.regs.strmLen.toNat) : Meets (readPairs left m) u (fun _ l' v => BlocksLog s b b (l ++ l') v)
    fun done => DecompressCut s (l ++ done) := by
  induction left generalizing l u m with
  | zero => exact meets_raised (c := .corruptBlockCount) (i := pat32 u.seq.j) fun _ => rfl
  | succ left ih =>
    by_cases hm : m = 64
    · exact meets_raised (c := .corruptRunSum) (i := pat32 u.seq.j) fun _ => if_pos hm
    have hlt : u.seq.j < s.regs.strmLen.toNat := by omega
    refine Meets.congr (g := fun t => (memRead32 (strmAddr u.regs u.seq.j) t).bind fun w t =>
      if eobField w then .ok (m + 1) ((t.withPbuf (t.pbuf.setIfInBounds m (maskPair w))).atWord (t.seq.j + 1))
      else readPairs left (m + 1) ((t.withPbuf (t.pbuf.setIfInBounds m (maskPair w))).atWord (t.seq.j + 1)))
      (Meets.bind ((memRead32_meets _ u).mono (fun _ _ _ => id) ?_) ?_) fun r => readPairs_succ hm left (u.withResp r)
    · rintro _ _ t ⟨rfl, rfl, h⟩
      exact hI.cut_read _ hI.blocks hlt (.inr rfl) h
    rintro w _ _ - ⟨-, rfl, rfl⟩
    have hread : BlocksLog s b b (l ++ [.read32 (strmAddr u.regs u.seq.j)])
        (((u.did [.read32 (strmAddr u.regs u.seq.j)]).withPbuf (u.pbuf.setIfInBounds m (maskPair w))).atWord (u.seq.j + 1)) :=
      ⟨(hI.read _ hlt).of ⟨rfl, rfl, rfl, rfl⟩, by
        rw [(Tally.append ⟨rfl, rfl, rfl⟩ (tally_read32 _)).blocks, List.append_nil, hI.blocks]⟩
    refine meets_ite (fun _ => Iff.rfl) (fun _ => ?_) fun _ => ?_
    · exact meets_ok (u := State.atWord _ (State.withPbuf _ (State.did _ _))) (fun _ _ => rfl) traced_nil rfl
        (by rwa [List.append_nil])
    · refine Meets.comp (h := fun t => (t.withPbuf (t.pbuf.setIfInBounds m (maskPair w))).atWord (t.seq.j + 1))
        (f := readPairs left (m + 1)) ((ih hread ?_).mono (fun _ l' v h => ?_) fun done r t h => ?_) (fun _ => rfl) traced_nil
      · change u.seq.j + 1 + left = _
        omega
      · rwa [← List.append_assoc]
      · rwa [← List.append_assoc]

section Block
variable {s u : State} {b : Nat} {l : List Request}

/-- The block is rebuilt. -/
theorem BlocksLog.rebuilt (hI : BlocksLog s b b l u) : BlocksLog s b (b + 1) (l ++ [.txInv u.cbuf])
    ((u.did [.txInv u.cbuf]).withCbuf (txInv u.cbuf)) where
  regs := hI.regs
  status := hI.status
  cb := hI.cb
  le := hI.le
  tally := by
    have h := hI.tally.append (tally_txInv u.cbuf)
    rwa [← h.blocks] at h
  blocks := by rw [(Tally.append ⟨rfl, rfl, rfl⟩ (tally_txInv _)).blocks, List.length_append, hI.blocks]; rfl

variable (hI : BlocksLog s b (b + 1) l u)
include hI

/-- The write of a pixel fails. -/
theorem BlocksLog.cut_store {done : List Request} {r : Request} {t : State} (hd : ∀ q ∈ done ++ [r], q.isByte = true)
    (h : SameButBus u t) : DecompressCut s (l ++ done) r t where
  regs := by
    have ht := hI.tally.append (tally_bytes fun q hq => hd q (List.mem_append_left _ hq))
    rw [List.append_nil] at ht
    have hp : (if s.regs.strmLen.toNat + u.seq.j + 0 < s.regs.strmLen.toNat then s.regs.strmLen.toNat + u.seq.j + 0
        else s.regs.strmLen.toNat + u.seq.j + 0 - s.regs.strmLen.toNat) = u.seq.j := by
      split <;> omega
    rw [decompressStopped_eq ht, isRead32_of_isByte (hd r (by simp)), hp, if_neg Bool.false_ne_true, hI.blocks, Nat.add_sub_cancel,
      h.regs, hI.regs]
    rfl
  status := by rw [h.status]; exact hI.status
  cb := h.cb.trans hI.cb

/-- The block is stored, and done. -/
theorem BlocksLog.done {l' : List Request} (hl : ∀ q ∈ l', q.isByte = true) :
    BlocksLog s (b + 1) (b + 1) (l ++ l') (u.did l').blockDone where
  regs := by simp [hI.regs, BitVec.ofNat_add]
  status := hI.status
  cb := hI.cb
  le := hI.le
  tally := by
    have ht := hI.tally.append (tally_bytes hl)
    rw [List.append_nil] at ht
    rwa [ht.blocks]
  blocks := by rw [(Tally.append ⟨rfl, rfl, rfl⟩ (tally_bytes hl)).blocks, List.append_nil, hI.blocks]

/-- The pixels of a block and its end, where a write may fail. -/
theorem BlocksLog.store_meets (row col : Nat) : Meets (fun t => (storeBlock row col t).bind fun _ t => .ok () t.blockDone) u
    (fun _ l' v => BlocksLog s (b + 1) (b + 1) (l ++ l') v) fun done => DecompressCut s (l ++ done) := by
  refine Meets.bind ((storeBlock_meets row col u).mono (fun _ _ _ => id) fun done r t ⟨hp, h⟩ =>
    hI.cut_store (fun q hq => isByte_of_mem_storeRequests q (hp.subset hq)) h) ?_
  rintro _ _ _ - ⟨rfl, rfl⟩
  refine (blockDone_meets _).mono (fun _ l'' w ⟨hl'', hw⟩ => ?_) fun _ _ _ => id
  rw [hl'', hw, List.append_nil]
  exact hI.done isByte_of_mem_storeRequests

end Block

/-- The stages of a block once its words stand in PBUF (R183). -/
def rebuildAndStore (s : State) : Run Unit :=
  (bodyCbDecode s).bind fun _ s => (bodyRleDec s).bind fun _ s => (bodyZzUnflat s).bind fun _ s => (bodyDequant s).bind fun _ s =>
    (bodyTxInv s).bind fun _ s => (storeBlock s.seq.row s.seq.col s).bind fun _ s => .ok () s.blockDone

theorem rebuildAndStore_meets {s u : State} {b : Nat} {l : List Request} (hI : BlocksLog s b b l u) : Meets rebuildAndStore u
    (fun _ l' v => BlocksLog s (b + 1) (b + 1) (l ++ l') v) fun done => DecompressCut s (l ++ done) := by
  have keep {v w : State} (hI : BlocksLog s b b l v) (h : SameProgress v w) : BlocksLog s b b l w := ⟨hI.of h, hI.blocks⟩
  refine Meets.bind (bodyCbDecode_meets u) fun _ l₁ u₁ _ ⟨h₁, hu₁⟩ => ?_
  refine Meets.bind (bodyRleDec_meets u₁) fun _ l₂ u₂ _ ⟨h₂, hu₂⟩ => ?_
  refine Meets.bind (bodyZzUnflat_meets u₂) fun _ l₃ u₃ _ ⟨h₃, hu₃⟩ => ?_
  have hI := keep (keep (keep hI hu₁) hu₂) hu₃
  refine Meets.bind (bodyDequant_meets u₃ (by rw [hI.status])) fun _ l₄ u₄ _ ⟨h₄, hu₄⟩ => ?_
  refine Meets.bind (bodyTxInv_meets u₄) fun _ l₅ u₅ _ ⟨h₅, hu₅⟩ => ?_
  subst h₁ h₂ h₃ h₄ h₅ hu₅
  refine Meets.congr (g := fun t => (storeBlock u₄.seq.row u₄.seq.col t).bind fun _ t => .ok () t.blockDone)
    (((keep hI hu₄).rebuilt.store_meets u₄.seq.row u₄.seq.col).mono (fun _ l' v h => ?_) fun done r t h => ?_) fun _ => rfl
  · rwa [List.append_assoc] at h
  · rwa [List.append_assoc] at h

/-- One block of phase BLOCKS, where an access of it may fail (R84, R183). -/
theorem decompressBlock_meets {s u : State} {b : Nat} {l : List Request} (hI : BlocksLog s b b l u) : Meets (decompressBlock b) u
    (fun _ l' v => BlocksLog s (b + 1) (b + 1) (l ++ l') v) fun done => DecompressCut s (l ++ done) := by
  have hlen : u.regs.strmLen = s.regs.strmLen := by rw [hI.regs]
  have hle := hI.le
  have hstart : BlocksLog s b b l (u.atBlock b) := ⟨hI.of ⟨rfl, rfl, rfl, rfl⟩, hI.blocks⟩
  refine Meets.congr (g := fun t => (readPairs (u.regs.strmLen.toNat - u.seq.j) 0 (t.atBlock b)).bind fun m t =>
    rebuildAndStore (t.counted m)) ?_ fun _ => rfl
  refine Meets.comp (h := State.atBlock b) (f := fun t => (readPairs (u.regs.strmLen.toNat - u.seq.j) 0 t).bind _) ?_ (fun _ => rfl)
    traced_nil
  refine Meets.bind (readPairs_meets hstart (by rw [hlen]; change u.seq.j + _ = _; omega)) fun m l' v _ hv => ?_
  have hc : BlocksLog s b b (l ++ l') (v.counted m) := ⟨hv.of ⟨rfl, rfl, rfl, rfl⟩, hv.blocks⟩
  refine Meets.comp (h := State.counted m) ((rebuildAndStore_meets hc).mono (fun _ l'' w h => ?_) fun done r t h => ?_) (fun _ => rfl)
    traced_nil
  · rwa [← List.append_assoc]
  · rwa [← List.append_assoc]

/-! ### The whole command -/

/-- SEQ_DECOMPRESS from phase VALIDATE on (R183). -/
def decompressPhases (s : State) : Run Unit :=
  (validatePhase s).bind fun _ s => forCount decompressBlock (blkCount s.regs) 0 (s.startPass .blocks)

theorem ValidateLog.startBlocks {s u : State} {l : List Request} (hI : ValidateLog s l u) (hj : u.seq.j = s.regs.strmLen.toNat) :
    BlocksLog s 0 0 l (u.startPass .blocks) where
  regs := by rw [State.startPass_regs, hI.regs]; rfl
  status := hI.status
  cb := hI.cb
  le := Nat.zero_le _
  tally := by
    have h := hI.tally
    rwa [hj, Nat.zero_add] at h
  blocks := by rw [hI.blocks]; rfl

/-- SEQ_DECOMPRESS, where an access of it may fail (R84, R183). -/
theorem decompressPhases_meets (s : State) :
    Meets decompressPhases s.generated.clearBlkDone (fun _ _ _ => True) (DecompressCut s) := by
  have hstart : DecompressLog s 0 0 [] (s.generated.clearBlkDone.startPass .validate) :=
    ⟨rfl, rfl, rfl, Nat.zero_le _, tally_nil⟩
  refine Meets.bind (validatePhase_meets hstart) fun _ l v _ ⟨hv, hj⟩ => ?_
  refine Meets.congr (g := fun t => forCount decompressBlock (blkCount v.regs) 0 (t.startPass .blocks)) ?_ fun _ => rfl
  refine Meets.comp (h := State.startPass .blocks) (f := forCount decompressBlock (blkCount v.regs) 0) ?_ (fun _ => rfl)
    traced_nil
  exact (meets_forCount (I := fun b => BlocksLog s b b) (fun b l u => decompressBlock_meets) _ 0 l _ (hv.startBlocks hj)).mono
    (fun _ _ _ _ => trivial) fun _ _ _ => id

end Sys2Proof.Machine
end

section
/-! SUPPORT. A whole command where an access of it is answered with an error (20_memory.md R84; 60_exceptions.md R200, R203). -/

namespace Sys2Proof.Machine

/-! ### The end of a command -/

/-- A piece of a command has come to its end in `w`, with an error or without. -/
def EndsIn (p : Run Unit) (w : State) : Prop := p = .ok () w ∨ ∃ c i, p = .raised c i w

theorem EndsIn.of_ensures {p : Run Unit} {w : State} (h : EndsIn p w) {P : State → Prop}
    (hp : p.Ensures (fun _ => P) (fun _ _ => P) fun _ => True) : P w := by
  rcases h with rfl | ⟨c, i, rfl⟩
  · exact ensures_ok.1 hp
  · exact ensures_raised.1 hp

/-- What the end of a command does not touch. -/
structure EndKeeps (s t : State) : Prop where
  regs : t.regs = s.regs
  status : t.status = s.status
  qmat : t.qmat = s.qmat
  cb : t.cb = s.cb
  mem : t.mem = s.mem
  memResp : t.memResp = s.memResp
  busLog : t.busLog = s.busLog

theorem EndKeeps.refl (s : State) : EndKeeps s s := ⟨rfl, rfl, rfl, rfl, rfl, rfl, rfl⟩

theorem freeScratch_endKeeps (s : State) : EndKeeps s s.freeScratch := by
  constructor <;> simp

theorem fetchFailed_endKeeps (c : ErrCode) (s : State) : EndKeeps s (fetchFailed c s) := by
  unfold fetchFailed
  split
  · exact ⟨rfl, rfl, rfl, rfl, rfl, rfl, rfl⟩
  · exact .refl s

/-- What a command's last state shows of the state `w` that its pieces left. -/
structure Ended (w u : State) : Prop where
  sat : u.status.sat = w.status.sat
  qv : u.status.qv = w.status.qv
  qmat : u.qmat = w.qmat
  cb : u.cb = w.cb
  busLog : u.busLog = w.busLog

theorem EndKeeps.complete {w v : State} (h : EndKeeps w v) : Ended w v.complete :=
  ⟨(congrArg Status.sat h.status :), (congrArg Status.qv h.status :), h.qmat, h.cb, h.busLog⟩

theorem EndKeeps.raise {w v : State} (h : EndKeeps w v) (c : ErrCode) (i : Word) : Ended w (v.raise c i) :=
  ⟨(congrArg Status.sat h.status :), (congrArg Status.qv h.status :), h.qmat, h.cb, h.busLog⟩

section Command
variable {i : Instr} {s s₁ : State} {f : State → Run Unit} {e₁ : State → State} {e₂ : ErrCode → State → State}
  {F : List Request → Request → State → Prop}

/-- Begun in `s`, the command `i` passes its checks: then it is the piece `f`, begun in `s₁`, and the changes of its end. -/
structure Body (i : Instr) (s : State) (f : State → Run Unit) (s₁ : State) (e₁ : State → State) (e₂ : ErrCode → State → State)
    (F : List Request → Request → State → Prop) : Prop where
  exec : ∀ m, exec i (s.withResp m) = finish ((f (s₁.withResp m)).atEnd e₁ e₂)
  undisturbed : s₁.Undisturbed
  mem : s₁.mem = s.mem
  busLog : s₁.busLog = s.busLog
  keepsOk : ∀ w, EndKeeps w (e₁ w)
  keepsRaised : ∀ c w, EndKeeps w (e₂ c w)
  meets : Meets f s₁ (fun _ _ _ => True) F

theorem Body.mono (h : Body i s f s₁ e₁ e₂ F) {F' : List Request → Request → State → Prop} (hF : ∀ done r t, F done r t → F' done r t) :
    Body i s f s₁ e₁ e₂ F' := { h with meets := h.meets.mono (fun _ _ _ => id) hF }

/-- Of the transactions of a run, the last of a part of them that ends with a master-port access. -/
theorem eq_of_prefix {done log : List Request} {r r' : Request} (hp : done ++ [r'] <+: log) (hm : r'.isMaster = true)
    (hr : (log.filter Request.isMaster)[done.countP Request.isMaster]? = some r) : r' = r := by
  obtain ⟨l, rfl⟩ := hp
  rw [List.countP_eq_length_filter, List.filter_append, List.filter_append, List.append_assoc,
    List.getElem?_append_right (Nat.le_refl _), Nat.sub_self, List.filter_cons_of_pos hm] at hr
  exact Option.some.inj hr

/-- A command whose ordinary run issues the transactions `log`, where its `k`-th access is answered with an error (R84). -/
theorem Body.cut (h : Body i s f s₁ e₁ e₂ F) {u : State} {log : List Request} {k : Nat} {r : Request} (landed : Bool)
    (rest : List MemResponse) (hu : Machine.exec i (s.withResp []) = .next u) (hlog : u.busLog = log.reverse ++ s.busLog)
    (hr : (log.filter Request.isMaster)[k]? = some r) : ∃ done t w,
      Machine.exec i (s.withResp (failing k landed rest)) = .next ((e₂ .busError t).raise .busError r.addr) ∧ done ++ [r] <+: log ∧
      Cut s₁ k landed rest done r t ∧ EndsIn (f s₁) w ∧ Ended w u ∧ Before t w ∧ F done r t := by
  have h0 : s₁.withResp [] = s₁ := by
    conv_rhs => rw [show s₁ = s₁.withResp s₁.memResp from rfl, h.undisturbed.2]
  rw [h.exec, h0] at hu
  have stops {w : State} {l : List Request} {past : List MemResponse → Run Unit} (ht : Traced s₁ l w) (he : Ended w u)
      (hp : Replays s₁ l w (fun m => f (s₁.withResp m)) past F) : ∃ done t,
        Machine.exec i (s.withResp (failing k landed rest)) = .next ((e₂ .busError t).raise .busError r.addr) ∧ done ++ [r] <+: log ∧
        Cut s₁ k landed rest done r t ∧ Before t w ∧ F done r t := by
    obtain rfl : l = log := List.reverse_injective
      (List.append_cancel_right ((ht.busLog.symm.trans he.busLog.symm).trans (by rw [hlog, h.busLog])))
    have hk : k < l.countP Request.isMaster := by
      rw [List.countP_eq_length_filter]
      exact (List.getElem?_eq_some_iff.1 hr).1
    obtain ⟨done, r', t, hrun, hpre, hcut, hb, hF⟩ := (hp k landed rest).2 hk
    obtain rfl := eq_of_prefix hpre hcut.master (by rw [hcut.count]; exact hr)
    exact ⟨done, t, (h.exec _).trans (congrArg (fun p => finish (p.atEnd e₁ e₂)) hrun), hpre, hcut, hb, hF⟩
  have hm := h.meets h.undisturbed
  cases hf : f s₁ with
  | ok a w =>
    obtain ⟨l, ht, -, hp⟩ := ensures_ok.1 (hf ▸ hm)
    obtain rfl : (e₁ w).complete = u := by simpa [hf] using hu
    have he := (h.keepsOk w).complete
    obtain ⟨done, t, hrun, hpre, hcut, hb, hF⟩ := stops ht he hp
    exact ⟨done, t, w, hrun, hpre, hcut, .inl rfl, he, hb, hF⟩
  | raised c i w =>
    obtain ⟨l, ht, hp⟩ := ensures_raised.1 (hf ▸ hm)
    obtain rfl : (e₂ c w).raise c i = u := by simpa [hf] using hu
    have he := (h.keepsRaised c w).raise c i
    obtain ⟨done, t, hrun, hpre, hcut, hb, hF⟩ := stops ht he hp
    exact ⟨done, t, w, hrun, hpre, hcut, .inr ⟨c, i, rfl⟩, he, hb, hF⟩
  | abandoned w => exact (ensures_abandoned.1 (hf ▸ hm)).elim
  | fault x => exact nomatch hf ▸ hu
  | refused x => exact nomatch hf ▸ hu

end Command

/-! ### The four commands that reach external memory -/

/-- A command that does not pass its checks makes no transaction. -/
def Idle (i : Instr) (s : State) : Prop := ∀ u, exec i s = .next u → u.busLog = s.busLog

theorem atEnd_id (p : Run Unit) : p.atEnd id (fun _ => id) = p := by
  cases p <;> rfl

section Geometry
variable {s : State} (hs : s.Alone)

theorem padFetch_idle {e : ErrCode × Word} (h : checkGeometry true s.regs = .error e) : Idle .padFetch s := by
  intro u hu
  change execPadFetch s = _ at hu
  unfold execPadFetch at hu
  rw [h, ofCheck_error, bind_raised, atEnd_raised, finish_raised] at hu
  obtain rfl := Host.Outcome.next.inj hu
  exact (fetchFailed_endKeeps _ _).busLog

theorem cropStore_idle {e : ErrCode × Word} (h : checkGeometry true s.regs = .error e) : Idle .cropStore s := by
  intro u hu
  change execCropStore s = _ at hu
  unfold execCropStore at hu
  rw [h, ofCheck_error, bind_raised, finish_raised] at hu
  obtain rfl := Host.Outcome.next.inj hu
  rfl

include hs

/-- PAD_FETCH past its check (R172, R173). -/
theorem padFetch_body (h : checkGeometry true s.regs = .ok ()) : Body .padFetch s
    (fetchBlock s.regs.blkRow.toNat s.regs.blkCol.toNat) (s.withResp []) id fetchFailed
    fun _ _ t => ∃ b, SameButBus ((s.withResp []).withCbuf b) t where
  exec m := by
    change execPadFetch (s.withResp m) = _
    unfold execPadFetch
    rw [show checkGeometry true (s.withResp m).regs = .ok () from h, ofCheck_ok, bind_ok]
    rfl
  undisturbed := ⟨hs, rfl⟩
  mem := rfl
  busLog := rfl
  keepsOk := EndKeeps.refl
  keepsRaised := fetchFailed_endKeeps
  meets := (fetchBlock_meets _ _ _).mono (fun _ _ _ _ => trivial) fun _ _ _ h => h.2

/-- CROP_STORE past its check (R172, R174). -/
theorem cropStore_body (h : checkGeometry true s.regs = .ok ()) : Body .cropStore s
    (storeBlock s.regs.blkRow.toNat s.regs.blkCol.toNat) (s.withResp []) id (fun _ => id)
    fun _ _ t => SameButBus (s.withResp []) t where
  exec m := by
    change execCropStore (s.withResp m) = _
    unfold execCropStore
    rw [show checkGeometry true (s.withResp m).regs = .ok () from h, ofCheck_ok, bind_ok, atEnd_id]
    rfl
  undisturbed := ⟨hs, rfl⟩
  mem := rfl
  busLog := rfl
  keepsOk := EndKeeps.refl
  keepsRaised _ := EndKeeps.refl
  meets := (storeBlock_meets _ _ _).mono (fun _ _ _ _ => trivial) fun _ _ _ h => h.2

end Geometry

/-- The checks that a sequence begins with, and QGEN (R182, R183); `stream` is its stream region. -/
def sequenceChecks (stream : Regs → Region) (s : State) : Run Unit :=
  (ofCheck (checkSequence s.regs) s).bind fun _ s => (checkRegions (imageRegion s.regs) (stream s.regs) s).bind fun _ => bodyQgen

/-- What a sequence's checks come to does not depend on the Memory agent's answers. -/
theorem sequenceChecks_cases (stream : Regs → Region) (s : State) :
    (∀ m, sequenceChecks stream (s.withResp m) = .ok () (s.withResp m).generated) ∨
    (∃ e : ErrCode × Word, sequenceChecks stream s = .raised e.1 e.2 s) ∨ ∃ x, sequenceChecks stream s = .refused x := by
  unfold sequenceChecks
  cases hc : checkSequence s.regs with
  | error e => exact .inr (.inl ⟨e, by rw [ofCheck_error, bind_raised]⟩)
  | ok a =>
    have hq : qualityLegal s.regs = true := by
      by_contra hq
      rw [checkSequence, if_pos (by simpa using hq)] at hc
      exact nomatch hc
    cases ho : overlaps (imageRegion s.regs) (stream s.regs) with
    | true => exact .inr (.inr ⟨.regionsOverlap, by rw [ofCheck_ok, bind_ok, checkRegions, if_pos ho, bind_refused]⟩)
    | false =>
      refine .inl fun m => ?_
      change (ofCheck (checkSequence s.regs) _).bind _ = _
      rw [hc, ofCheck_ok, bind_ok]
      change (checkRegions (imageRegion s.regs) (stream s.regs) _).bind _ = _
      rw [checkRegions, ho, if_neg Bool.false_ne_true, bind_ok]
      exact bodyQgen_generated (s := s.withResp m) hq

theorem bind_bind {α β γ : Type} (p : Run α) (f : α → State → Run β) (g : β → State → Run γ) :
    (p.bind f).bind g = p.bind fun a s => (f a s).bind g := by
  cases p <;> rfl

theorem exec_seqCompress (s : State) : exec .seqCompress s = finish (sequenceEnd ((sequenceChecks streamRegionCap s).bind fun _ s =>
    compressPhases (blkCount s.regs) s.startCompress)) := by
  change finish (sequenceEnd (bodySeqCompress s)) = _
  unfold bodySeqCompress sequenceChecks compressPhases substPhase
  simp only [bind_bind]

theorem exec_seqDecompress (s : State) : exec .seqDecompress s = finish (sequenceEnd ((sequenceChecks streamRegionLen s).bind fun _ s =>
    decompressPhases s.clearBlkDone)) := by
  change finish (sequenceEnd (bodySeqDecompress s)) = _
  unfold bodySeqDecompress sequenceChecks decompressPhases
  simp only [bind_bind]

/-- A sequence fails a check, or is its phases `f`, begun in `h` of the state with the generated matrix (R182, R183). -/
theorem sequence_idle_or_body {i : Instr} {s : State} (hs : s.Alone) {stream : Regs → Region} {f : State → Run Unit} {h : State → State}
    {F : List Request → Request → State → Prop}
    (hx : ∀ s, exec i s = finish (sequenceEnd ((sequenceChecks stream s).bind fun _ s => f (h s))))
    (hh : ∀ s m, h (State.withResp m s) = (h s).withResp m) (ht : ∀ s, Traced s [] (h s))
    (hf : Meets f (h (s.withResp []).generated) (fun _ _ _ => True) F) : Idle i (s.withResp []) ∨
      Body i s f (h (s.withResp []).generated) State.freeScratch (fun _ => State.freeScratch) F := by
  rcases sequenceChecks_cases stream (s.withResp []) with hc | ⟨e, hc⟩ | ⟨x, hc⟩
  · refine .inr ⟨fun m => ?_, (ht _).undisturbed ⟨hs, rfl⟩, (ht _).mem, (ht _).busLog, freeScratch_endKeeps,
      fun _ => freeScratch_endKeeps, hf⟩
    rw [hx, show s.withResp m = (s.withResp []).withResp m from rfl, hc, bind_ok, ← hh]
    rfl
  · refine .inl fun u hu => ?_
    rw [hx, hc, bind_raised, sequenceEnd, atEnd_raised, finish_raised] at hu
    obtain rfl := Host.Outcome.next.inj hu
    exact State.freeScratch_busLog _
  · refine .inl fun u hu => ?_
    rw [hx, hc, bind_refused] at hu
    exact nomatch hu

/-! ### What a stopped command leaves -/

/-- The command `i`, begun in `s`, stopped at its access `r` after the transactions `done`, before its end; once phase SUBST of
SEQ_COMPRESS has begun, its codebook meets `C`. -/
structure StoppedAs (i : Instr) (s : State) (C : List Entry → Prop) (done : List Request) (r : Request) (t : State) : Prop where
  regs : t.regs = if i = .seqCompress then compressStopped done r s.regs
    else if i = .seqDecompress then decompressStopped done r s.regs else s.regs
  status : t.status = { s.status with qv := t.status.qv, sat := t.status.sat }
  cb : if i ≠ .seqCompress then t.cb = s.cb else if substBegun (done ++ [r]) then C t.cb
    else t.cb = countedCodebook ((transformed done).flatMap (wordsOfBlock t.qmat))
  sat : i = .seqCompress → t.status.sat = (s.status.sat || (transformed done).any (quantSaturates t.qmat))

section Stopped
variable {s t : State} {C : List Entry → Prop} {done : List Request} {r : Request}

theorem SameButBus.stoppedAs {i : Instr} {b : Block 32} (h : SameButBus ((s.withResp []).withCbuf b) t) (h₁ : i ≠ .seqCompress)
    (h₂ : i ≠ .seqDecompress) : StoppedAs i s C done r t where
  regs := by rw [if_neg h₁, if_neg h₂]; exact h.regs
  status := by rw [h.status]; rfl
  cb := by rw [if_pos h₁]; exact h.cb
  sat h := absurd h h₁

theorem CompressCut.stoppedAs (h : CompressCut (s.withResp []) C done r t) : StoppedAs .seqCompress s C done r t where
  regs := h.regs
  status := by rw [h.status]; rfl
  cb := by rw [if_neg (not_not.2 rfl), h.qmat]; exact h.cb
  sat _ := by rw [h.status, h.qmat]; rfl

theorem DecompressCut.stoppedAs (h : DecompressCut (s.withResp []) done r t) : StoppedAs .seqDecompress s C done r t where
  regs := h.regs
  status := by rw [h.status]; rfl
  cb := h.cb
  sat h := nomatch h

end Stopped

theorem StoppedAs.mono {i : Instr} {s t : State} {C C' : List Entry → Prop} {done : List Request} {r : Request}
    (h : StoppedAs i s C done r t) (hC : ∀ c, C c → C' c) : StoppedAs i s C' done r t where
  regs := h.regs
  status := h.status
  cb := by
    have hc := h.cb
    split_ifs at hc ⊢
    · exact hc
    · exact hC _ hc
    · exact hc
  sat := h.sat

/-- A command that reaches memory fails a check, or stops at a failing access as its progress says (R37, R84). -/
theorem idle_or_body {i : Instr} (hi : reachesMemory i = true) {s : State} (hs : s.Alone) : Idle i (s.withResp []) ∨
    ∃ f s₁ e₁ e₂, Body i s f s₁ e₁ e₂ (StoppedAs i s fun c => ∀ w, EndsIn (f s₁) w → c = w.cb) := by
  cases i with
  | padFetch =>
    cases hc : checkGeometry true s.regs with
    | error e => exact .inl (padFetch_idle hc)
    | ok a => exact .inr ⟨_, _, _, _, (padFetch_body hs hc).mono fun _ _ _ ⟨_, h⟩ => h.stoppedAs (by decide) (by decide)⟩
  | cropStore =>
    cases hc : checkGeometry true s.regs with
    | error e => exact .inl (cropStore_idle hc)
    | ok a => exact .inr ⟨_, _, _, _, (cropStore_body hs hc).mono fun _ _ _ h =>
        SameButBus.stoppedAs (b := s.cbuf) h (by decide) (by decide)⟩
  | seqCompress =>
    refine (sequence_idle_or_body (f := fun s => compressPhases (blkCount s.regs) s) (h := State.startCompress) hs exec_seqCompress
      (fun _ _ => rfl) (fun _ => traced_nil)
      ((compressPhases_meets (s.withResp []) (blkCount s.regs)).congr fun _ => rfl)).imp_right fun h => ⟨_, _, _, _, h.mono ?_⟩
    exact fun _ _ _ hc => hc.stoppedAs.mono fun c hc w hw => (hw.of_ensures hc).symm
  | seqDecompress =>
    exact (sequence_idle_or_body (f := decompressPhases) (h := State.clearBlkDone) hs exec_seqDecompress
      (fun _ _ => rfl) (fun _ => traced_nil) (decompressPhases_meets (s.withResp []))).imp_right
      fun h => ⟨_, _, _, _, h.mono fun _ _ _ => DecompressCut.stoppedAs⟩
  | _ => exact nomatch hi

/-- The first failing access of a command that reaches memory (R84). -/
theorem busErrorRecord {i : Instr} {s u : State} {k : Nat} {landed : Bool} {rest : List MemResponse} {log : List Request} {r : Request}
    (hi : reachesMemory i = true) (hs : s.Alone) (hu : exec i (s.withResp []) = .next u) (hlog : u.busLog = log.reverse ++ s.busLog)
    (hr : (log.filter Request.isMaster)[k]? = some r) : ∃ done t t',
      exec i (s.withResp (failing k landed rest)) = .next (t'.raise .busError r.addr) ∧ EndKeeps t t' ∧ done ++ [r] <+: log ∧
      Cut (s.withResp []) k landed rest done r t ∧ Before t u ∧ StoppedAs i s (fun c => c = u.cb) done r t := by
  rcases idle_or_body hi hs with h | ⟨f, s₁, e₁, e₂, h⟩
  · have hnil : log.reverse ++ s.busLog = [] ++ s.busLog := hlog.symm.trans (h u hu)
    rw [List.reverse_eq_nil_iff.1 (List.append_cancel_right hnil)] at hr
    exact nomatch hr
  · obtain ⟨done, t, w, hrun, hpre, hcut, hw, he, hb, hstop⟩ := h.cut landed rest hu hlog hr
    refine ⟨done, t, _, hrun, h.keepsRaised _ t, hpre, ⟨?_, hcut.master, hcut.count, ?_, hcut.memResp⟩, ⟨?_, ?_, ?_⟩, ?_⟩
    · rw [hcut.busLog, h.busLog]
      rfl
    · rw [hcut.mem, h.mem]
      rfl
    · rw [he.sat]
      exact hb.sat
    · rw [he.qmat, hb.qmat]
    · rw [he.qv, hb.qv]
    · exact hstop.mono fun c hc => (hc w hw).trans he.cb.symm

end Sys2Proof.Machine
end

section
/-! SUPPORT. PAD_FETCH and CROP_STORE of a block where an access of it is answered with an error (20_memory.md R84; 45_geometry.md
R173, R174). -/

namespace Sys2Proof.Machine

/-- R174 in rational arithmetic: a sample rounded half up and clamped. -/
theorem toNat_pixel (c : Word) : ((pixel c).toNat : ℤ) = max 0 (min 255 ⌊(c.toInt : ℚ) / 256 + 1 / 2⌋) := by
  have hq : (c.toInt : ℚ) / 256 + 1 / 2 = ((c.toInt + 128 : ℤ) : ℚ) / ((256 : ℕ) : ℚ) := by
    push_cast
    ring
  rw [hq, Rat.floor_intCast_div_natCast, pixel, clamp, floorDiv, BitVec.toNat_ofInt]
  omega

section Selected
variable {s : State} (hw : s.regs.width ≠ 0) (hh : s.regs.height ≠ 0) (hc : s.regs.blkCol.toNat < blkCols s.regs)
  (hr : s.regs.blkRow.toNat < blkRows s.regs)
include hw hh hc hr

theorem checkGeometry_selected : checkGeometry true s.regs = .ok () := by
  unfold checkGeometry
  rw [if_neg (not_or.2 ⟨hw, hh⟩), if_neg (by simp [hc, hr])]

end Selected

/-- The first transactions of a list of master-port accesses. -/
theorem take_of_prefix {cs : List (Fin 64)} {g : Fin 64 → Request} (hg : ∀ n, (g n).isMaster = true) {done : List Request} {r : Request}
    {k : Nat} (hp : done ++ [r] <+: cs.map g) (hk : done.countP Request.isMaster = k) :
    done = (cs.take k).map g ∧ done ++ [r] = (cs.take (k + 1)).map g := by
  have hd : done <+: cs.map g := (List.prefix_append done [r]).trans hp
  have hn : done.length = k := by
    rw [← hk, List.countP_eq_length.2]
    intro q hq
    obtain ⟨n, _, rfl⟩ := List.mem_map.1 (hd.subset hq)
    exact hg n
  constructor
  · rw [List.map_take, ← hn]
    exact List.prefix_iff_eq_take.1 hd
  · rw [List.map_take, ← hn]
    simpa using List.prefix_iff_eq_take.1 hp

/-- The address of cell `n` of the selected block (R170). -/
abbrev cellAddr (r : Regs) (n : Fin 64) : Addr := pixAddr r (cellY r.blkRow.toNat n) (cellX r.blkCol.toNat n)

/-- The cells of the selected block that lie in the image. -/
abbrev selectedCells (r : Regs) : List (Fin 64) := cellsInside r r.blkRow.toNat r.blkCol.toNat

/-- The write of cell `n` of the selected block (R174). -/
abbrev cellWrite (s : State) (n : Fin 64) : Request := .write8 (cellAddr s.regs n) (pixel s.cbuf[n])

/-- Where the ordinary run makes an access `g` for each cell in the image, the `k`-th is that of the `k`-th cell. -/
theorem getElem?_masters {cs : List (Fin 64)} {g : Fin 64 → Request} (hg : ∀ n, (g n).isMaster = true) {k : Nat} {f : Fin 64}
    (hk : cs[k]? = some f) : ((cs.map g).filter Request.isMaster)[k]? = some (g f) := by
  rw [List.filter_eq_self.2 fun q hq => ?_, List.getElem?_map, hk]
  · rfl
  · obtain ⟨n, _, rfl⟩ := List.mem_map.1 hq
    exact hg n

theorem SameButBus.freeCbuf {s t : State} (h : SameButBus s t) : SameButBus s.freeCbuf t.freeCbuf := ⟨congrArg State.freeCbuf h.eq⟩

/-- The error record, and what the run before it may have changed. -/
theorem SameButBus.raise_eq {s t : State} (h : SameButBus s t) (c : ErrCode) (i : Word) : t.raise c i =
    { s with
      seq := Sequencer.idle, mem := t.mem, memResp := t.memResp, busLog := t.busLog
      status := { s.status with done := true, err := true, errCode := c.number, errInfo := i } } := congrArg (State.raise c i) h.eq

section Selected
variable {s : State} (hs : s.Alone) (hg : checkGeometry true s.regs = .ok ()) {k : Nat} {landed : Bool} {rest : List MemResponse}
  {f : Fin 64} (hk : (selectedCells s.regs)[k]? = some f)
include hs hg hk

/-- A PAD_FETCH whose `k`-th read is answered with an error (R84, R173). -/
theorem padFetch_busError : ∃ b : Block 32, exec .padFetch (s.withResp (failing k landed rest)) = .next { s with
    cbuf := b, draws := s.draws + 1, memResp := rest, seq := Sequencer.idle
    busLog := (((selectedCells s.regs).take (k + 1)).map fun n => Request.read8 (cellAddr s.regs n)).reverse ++ s.busLog
    status := { s.status with done := true, err := true, errCode := 12, errInfo := cellAddr s.regs f } } := by
  have body := padFetch_body hs hg
  have hu := (body.exec []).trans (congrArg (fun p => finish (p.atEnd id fetchFailed)) (fetchBlock_did body.undisturbed _ _))
  obtain ⟨done, t, w, hrun, hpre, hcut, -, -, -, b, ht⟩ := body.cut landed rest hu rfl (getElem?_masters (fun _ => rfl) hk)
  obtain ⟨-, hd⟩ := take_of_prefix (fun _ => rfl) hpre hcut.count
  have hm : t.mem = s.mem := by
    rw [hcut.mem]
    refine foldl_perform_pure (fun q hq => ?_) s.mem
    have hq : q ∈ (selectedCells s.regs).map fun n : Fin 64 => Request.read8 (cellAddr s.regs n) := by
      refine hpre.subset ?_
      cases landed with
      | true => exact hq
      | false => exact List.mem_append_left _ (by simpa using hq)
    obtain ⟨n, _, rfl⟩ := List.mem_map.1 hq
    rfl
  refine ⟨freeBlock 32 s.draws 0, hrun.trans (congrArg Host.Outcome.next ?_)⟩
  refine (ht.freeCbuf.raise_eq .busError (cellAddr s.regs f)).trans ?_
  rw [show t.freeCbuf.mem = s.mem from hm, show t.freeCbuf.memResp = rest from hcut.memResp,
    show t.freeCbuf.busLog = _ from hcut.busLog, hd]
  rfl

/-- A CROP_STORE whose `k`-th write is answered with an error (R84, R174). -/
theorem cropStore_busError : exec .cropStore (s.withResp (failing k landed rest)) = .next { s with
    mem := (((selectedCells s.regs).take (if landed then k + 1 else k)).map (cellWrite s)).foldl Request.perform s.mem
    memResp := rest, seq := Sequencer.idle
    busLog := (((selectedCells s.regs).take (k + 1)).map (cellWrite s)).reverse ++ s.busLog
    status := { s.status with done := true, err := true, errCode := 12, errInfo := cellAddr s.regs f } } := by
  have body := cropStore_body hs hg
  have hu := (body.exec []).trans (congrArg (fun p => finish (p.atEnd id fun _ => id)) (storeBlock_did body.undisturbed _ _))
  obtain ⟨done, t, w, hrun, hpre, hcut, -, -, -, ht⟩ := body.cut landed rest hu rfl (getElem?_masters (fun _ => rfl) hk)
  obtain ⟨hd, hd'⟩ := take_of_prefix (fun _ => rfl) hpre hcut.count
  have hm : t.mem = (((selectedCells s.regs).take (if landed then k + 1 else k)).map (cellWrite s)).foldl Request.perform s.mem := by
    rw [hcut.mem]
    cases landed with
    | true => exact congrArg (List.foldl Request.perform s.mem) hd'
    | false => exact congrArg (List.foldl Request.perform s.mem) ((List.append_nil done).trans hd)
  refine hrun.trans (congrArg Host.Outcome.next ((ht.raise_eq .busError (cellAddr s.regs f)).trans ?_))
  rw [hm, hcut.memResp, hcut.busLog, hd']
  rfl

end Selected

theorem cellAddr_inj {r : Regs} {n n' : Fin 64} (h : n ∈ selectedCells r) (h' : n' ∈ selectedCells r)
    (he : cellAddr r n = cellAddr r n') :
    n = n' := by
  obtain ⟨hy, hx⟩ := pixAddr_inj (List.mem_filter.1 h).2 (List.mem_filter.1 h').2 he
  exact (cell_inj hy hx).2.2

section Bytes
variable {s : State} (hm : Memory.wf s.mem = true) {cs : List (Fin 64)}
include hm

/-- The byte of a cell that has been stored. -/
theorem memGet_cellWrites {n : Fin 64} (hcs : cs ⊆ selectedCells s.regs) (hn : n ∈ cs) :
    memGet ((cs.map (cellWrite s)).foldl Request.perform s.mem) (cellAddr s.regs n).toNat = pixel s.cbuf[n] := by
  refine memGet_foldl_write8 hm (fun q hq hst => ?_) (List.mem_map_of_mem hn)
  obtain ⟨n', hn', rfl⟩ := List.mem_map.1 hq
  obtain rfl := cellAddr_inj (hcs hn) (hcs hn') (by simpa [Request.stores] using hst)
  rfl

/-- Every byte but those of the cells stored. -/
theorem memGet_cellWrites_other {a : Addr} (ha : ∀ n ∈ cs, a ≠ cellAddr s.regs n) :
    memGet ((cs.map (cellWrite s)).foldl Request.perform s.mem) a.toNat = s.byte a := by
  refine memGet_foldl_perform hm fun q hq => ?_
  obtain ⟨n, hn, rfl⟩ := List.mem_map.1 hq
  exact (write8_stores_eq_false _ _ _).2 (ha n hn)

end Bytes

theorem nodup_selectedCells (r : Regs) : (selectedCells r).Nodup := (List.nodup_finRange 64).filter _

/-- The bytes that a CROP_STORE stopped at its `k`-th write leaves (R84). -/
theorem memGet_failedByte {s : State} (hm : Memory.wf s.mem = true) {k : Nat} (landed : Bool) {f : Fin 64}
    (hk : (selectedCells s.regs)[k]? = some f) :
    memGet ((((selectedCells s.regs).take (if landed then k + 1 else k)).map (cellWrite s)).foldl Request.perform s.mem)
      (cellAddr s.regs f).toNat = if landed then pixel s.cbuf[f] else s.byte (cellAddr s.regs f) := by
  obtain ⟨hlt, rfl⟩ := List.getElem?_eq_some_iff.1 hk
  cases landed with
  | true => exact memGet_cellWrites hm (List.take_subset _ _) (List.mem_take_iff_getElem.2 ⟨k, by simpa using hlt, rfl⟩)
  | false =>
    refine memGet_cellWrites_other hm fun n hn he => ?_
    obtain rfl := cellAddr_inj (List.getElem_mem hlt) (List.take_subset _ _ hn) he
    obtain ⟨j, hj, hjk⟩ := List.mem_take_iff_getElem.1 hn
    have hjk : j = k := (nodup_selectedCells s.regs).getElem_inj_iff.1 hjk
    change j < min k _ at hj
    omega

/-- Settles O50. The run on failing memory is compared, piece by piece, with the one on ordinary memory (`Meets`): before the failing
access they do the same, and the progress of a sequence is read off the transactions before it. -/
theorem busErrorAtAnyAccess : Obligations.BusErrorAtAnyAccess := by
  unfold Obligations.BusErrorAtAnyAccess
  refine ⟨fun i s u k landed rest log r hi hs _ hresp hu hlog hr => ?_,
    fun s k landed rest f hs hm hresp hw hh hc hrow => ?_⟩
  · have hresp : s = s.withResp (failing k landed rest) := congrArg s.withResp hresp
    obtain ⟨done, t, t', hrun, hend, hpre, hcut, hb, hst⟩ := busErrorRecord (landed := landed) (rest := rest) hi hs hu hlog hr
    refine ⟨t'.raise .busError r.addr, done, (congrArg (exec i) hresp).trans hrun, hend.busLog.trans hcut.busLog, hpre, hcut.count,
      ?_, rfl, hend.qmat.trans hb.qmat.symm, hend.memResp.trans hcut.memResp, hend.mem.trans hcut.mem, hend.regs.trans hst.regs, ?_, ?_, ?_⟩
    · have hstatus : t'.status = { s.status with qv := u.status.qv, sat := t'.status.sat } := by
        rw [hend.status, hb.qv]
        exact hst.status
      exact congrArg (fun st : Status => { st with done := true, err := true, errCode := 12, errInfo := r.addr }) hstatus
    · change t'.cb = if i ≠ .seqCompress then s.cb else if substBegun (done ++ [r]) then u.cb
        else countedCodebook ((transformed done).flatMap (wordsOfBlock t'.qmat))
      rw [hend.cb, hend.qmat]
      have hcb := hst.cb
      split_ifs at hcb ⊢ <;> exact hcb
    · change t'.status.sat = true → _
      rw [hend.status]
      exact hb.sat
    · change _ → t'.status.sat = (s.status.sat || (transformed done).any (quantSaturates t'.qmat))
      rw [hend.status, hend.qmat]
      exact hst.sat
  · have hresp : s = s.withResp (failing k landed rest) := congrArg s.withResp hresp
    intro y x inside addr cells hk
    have hg := checkGeometry_selected hw hh hc hrow
    obtain ⟨b, hb⟩ := padFetch_busError hs hg (landed := landed) (rest := rest) hk
    refine ⟨⟨b, (congrArg (exec .padFetch) hresp).trans hb⟩, _, fun n => pixel s.cbuf[n],
      (congrArg (exec .cropStore) hresp).trans (cropStore_busError hs hg (landed := landed) (rest := rest) hk), fun n => toNat_pixel _,
      fun n hn => ?_, memGet_failedByte hm landed hk, fun a ha => ?_⟩
    · refine memGet_cellWrites hm (List.take_subset _ _) (List.take_subset_take_left _ ?_ hn)
      split <;> omega
    · refine memGet_cellWrites_other hm fun n hn => ha n (List.take_subset_take_left _ ?_ hn)
      split <;> omega

end Sys2Proof.Machine
end

section
/-! SUPPORT. Decoding a command word and encoding a command (30_encoding.md R90, R91, R93, R99). -/

namespace Sys2Proof.Machine

/-- R90, R93: the fields of every command's word, one lemma per command. -/
theorem encoded_statement : ∀ i : Instr, Laws.Encoded.Statement i
  | .nop => Laws.Encoded.nop
  | .qgen => Laws.Encoded.qgen
  | .quant => Laws.Encoded.quant
  | .dequant => Laws.Encoded.dequant
  | .txFwd => Laws.Encoded.txFwd
  | .txInv => Laws.Encoded.txInv
  | .zzFlat => Laws.Encoded.zzFlat
  | .zzUnflat => Laws.Encoded.zzUnflat
  | .rleEnc => Laws.Encoded.rleEnc
  | .rleDec => Laws.Encoded.rleDec
  | .cbClear => Laws.Encoded.cbClear
  | .cbAccum => Laws.Encoded.cbAccum
  | .cbBuild => Laws.Encoded.cbBuild
  | .cbEncode => Laws.Encoded.cbEncode
  | .cbDecode => Laws.Encoded.cbDecode
  | .cbLoad => Laws.Encoded.cbLoad
  | .cbRead => Laws.Encoded.cbRead
  | .padFetch => Laws.Encoded.padFetch
  | .cropStore => Laws.Encoded.cropStore
  | .seqCompress => Laws.Encoded.seqCompress
  | .seqDecompress => Laws.Encoded.seqDecompress

/-- R91: a word decodes to a command exactly if its bits [31:8] are zero and the map lists its OP for that command. -/
theorem decode_eq_ok_iff {w : Word} {i : Instr} : decode w = .ok i ↔ mbzField w = 0 ∧ decodeOp (opField w) = some i := by
  unfold decode
  by_cases hm : mbzField w = 0
  · rw [if_pos hm]
    cases decodeOp (opField w) <;> simp [hm]
  · rw [if_neg hm]
    exact iff_of_false nofun fun h => hm h.1

theorem decode_encode (i : Instr) : decode (encode i) = .ok i :=
  decode_eq_ok_iff.2 (encoded_statement i).2

/-- R93: the map lists no OP twice: the OP it lists for a command is the command's own. -/
theorem opcode_of_decodeOp {op : BitVec 8} {i : Instr} (h : decodeOp op = some i) : opcode i = op := by
  unfold decodeOp at h
  apply BitVec.eq_of_toNat_eq
  split at h <;> cases h
  all_goals simp [opcode, *]

/-- R90: a command word is its OP and its bits [31:8]. -/
theorem eq_setWidth_opField {w : Word} (h : mbzField w = 0) : w = (opField w).setWidth 32 := by
  have hm := congrArg BitVec.toNat h
  apply BitVec.eq_of_toNat_eq
  simp [mbzField, opField, Nat.shiftRight_eq_div_pow] at hm ⊢
  omega

/-- Settles O1: by the fields of the words, and by evaluation of the two lists. -/
theorem tableWordsDecode : Obligations.TableWordsDecode :=
  ⟨fun i _ => decode_encode i, by decide, by decide⟩

/-- Settles O2: bits [31:8] are zero, and the OP is the command's. -/
theorem decodedWordIsEncoding : Obligations.DecodedWordIsEncoding := by
  intro w i h
  obtain ⟨hm, ho⟩ := decode_eq_ok_iff.1 h
  calc encode i = (opcode i).setWidth 32 := rfl
    _ = (opField w).setWidth 32 := by rw [opcode_of_decodeOp ho]
    _ = w := (eq_setWidth_opField hm).symm

/-- The words the opcode map does not list (R99). -/
def Unlisted (n : Nat) : Prop :=
  n / 256 ≠ 0 ∨ (0x0A ≤ n ∧ n ≤ 0x0F) ∨ n = 0x17 ∨ (0x1A ≤ n ∧ n ≤ 0x1F) ∨ 0x22 ≤ n

theorem encode_not_unlisted (i : Instr) : ¬ Unlisted (encode i).toNat := by
  unfold Unlisted
  cases i <;> decide

theorem decode_eq_error_of_unlisted {w : Word} (h : Unlisted w.toNat) : ∃ e, decode w = .error e := by
  cases hd : decode w with
  | error e => exact ⟨e, rfl⟩
  | ok i => exact absurd (decodedWordIsEncoding w i hd ▸ h) (encode_not_unlisted i)

/-- R91: a word that is no command's raises ILLEGAL_COMMAND. -/
theorem runCommand_of_error {w : Word} {e : IllegalWord} (h : decode w = .error e) (s : State) :
    runCommand w s = .next (s.raise .illegalCommand w) := by
  unfold runCommand
  rw [h]

/-- R180: with no host transaction due, a step runs the received word. -/
theorem step_eq_runCommand {s : State} {w : Word} (hr : s.rst = false) (hw : s.seq.cmd = some w) (hd : hostDueNow s = false) :
    step s = runCommand w s := by
  simp [step, hr, hw, hd]

/-- Settles O3: no command's word lies in the ranges of R99, so the word does not decode. -/
theorem illegalWordRaises : Obligations.IllegalWordRaises := by
  intro s w hr hw hd h
  obtain ⟨e, he⟩ := decode_eq_error_of_unlisted h
  rw [step_eq_runCommand hr hw hd, runCommand_of_error he]
  rfl

end Sys2Proof.Machine
end

section
/-! SUPPORT. The layout of a pair word (30_encoding.md R94), and the codes and their texts (30_encoding.md R95). -/

namespace Sys2Proof.Machine

/-! ### Pair words -/

/-- The reserved bits [30:28] of a pair word (R94). -/
def reservedField (w : Word) : BitVec 3 := w.extractLsb' 28 3

/-- R94: the fields tile the 32 bits. -/
theorem toNat_eq_pairFields (w : Word) : w.toNat = (eobField w).toNat * 2 ^ 31 + (reservedField w).toNat * 2 ^ 28 +
    (runField w).toNat * 2 ^ 21 + (lenField w).toNat * 2 ^ 16 + (symField w).toNat := by
  have he : (eobField w).toNat = w.toNat / 2 ^ 31 % 2 := by
    rw [← Nat.toNat_testBit]
    rfl
  simp [he, reservedField, runField, lenField, symField, Nat.shiftRight_eq_div_pow]
  omega

@[simp] theorem reservedField_pairWord (e : Bool) (r : BitVec 7) (l : BitVec 5) (v : BitVec 16) :
    reservedField (pairWord e r l v) = 0 := by
  unfold reservedField pairWord
  ext i hi
  interval_cases i <;> simp

@[simp] theorem reservedField_maskPair (w : Word) : reservedField (maskPair w) = 0 := by
  unfold reservedField maskPair
  ext i hi
  interval_cases i <;> simp

theorem toNat_pairWord (e : Bool) (r : BitVec 7) (l : BitVec 5) (v : BitVec 16) :
    (pairWord e r l v).toNat = e.toNat * 2 ^ 31 + r.toNat * 2 ^ 21 + l.toNat * 2 ^ 16 + v.toNat := by
  rw [toNat_eq_pairFields]
  simp

/-- R94: a word is its fields, with zeros in the reserved bits. -/
theorem pairWord_fields (w : Word) : pairWord (eobField w) (runField w) (lenField w) (symField w) = maskPair w := by
  apply BitVec.eq_of_toNat_eq
  rw [toNat_pairWord, toNat_eq_pairFields (maskPair w)]
  simp

/-- Settles O36: every word is the sum of its fields at their places. -/
theorem pairWordFields : Obligations.PairWordFields :=
  ⟨toNat_pairWord, fun e r l v => ⟨symField_pairWord e r l v, lenField_pairWord e r l v, runField_pairWord e r l v,
    eobField_pairWord e r l v, reservedField_pairWord e r l v⟩, pairWord_fields⟩

/-! ### Texts of binary digits -/

/-- The `n` low binary digits of `v`, the most significant first. -/
def binaryText (n v : Nat) : List Bool := (List.range n).map fun i => v.testBit (n - 1 - i)

/-- R95: the text of a code is the LEN low digits of BITS. -/
theorem codeText_eq_binaryText (c : Code) : codeText c = binaryText c.len.toNat c.bits.toNat := rfl

@[simp] theorem length_binaryText (n v : Nat) : (binaryText n v).length = n := by simp [binaryText]

theorem binaryText_succ (n v : Nat) : binaryText (n + 1) v = v.testBit n :: binaryText n v := by
  simp [binaryText, List.range_succ_eq_map, Function.comp_def, Nat.sub_sub, Nat.add_comm]

theorem binaryText_mod (n v : Nat) : binaryText n (v % 2 ^ n) = binaryText n v := by
  refine List.map_congr_left fun i hi => ?_
  have hi := List.mem_range.1 hi
  rw [Nat.testBit_mod_two_pow, decide_eq_true (by omega), Bool.true_and]

theorem foldl_binary (t : List Bool) (a : Nat) : t.foldl (fun n b => 2 * n + b.toNat) a = a * 2 ^ t.length + textValue t := by
  induction t generalizing a with
  | nil => simp [textValue]
  | cons b t ih =>
    rw [textValue, List.foldl_cons, List.foldl_cons, ih, ih (2 * 0 + _), List.length_cons, pow_succ]
    ring

theorem textValue_cons (b : Bool) (t : List Bool) : textValue (b :: t) = b.toNat * 2 ^ t.length + textValue t := by
  rw [textValue, List.foldl_cons, foldl_binary]
  simp

theorem textValue_lt (t : List Bool) : textValue t < 2 ^ t.length := by
  induction t with
  | nil => decide
  | cons b t ih =>
    have := Nat.mul_le_mul_right (2 ^ t.length) (Bool.toNat_le b)
    rw [textValue_cons, List.length_cons, pow_succ]
    omega

/-- The value of the `n` low digits of a number is their number. -/
theorem textValue_binaryText (n v : Nat) : textValue (binaryText n v) = v % 2 ^ n := by
  induction n with
  | zero => simp [binaryText, textValue, Nat.mod_one]
  | succ n ih =>
    rw [binaryText_succ, textValue_cons, ih, length_binaryText, Nat.toNat_testBit, Nat.mod_pow_succ]
    ring

/-- The digits of the value of a text are the text. -/
theorem binaryText_textValue (t : List Bool) : binaryText t.length (textValue t) = t := by
  induction t with
  | nil => rfl
  | cons b t ih =>
    have hlt := textValue_lt t
    have hmod : textValue (b :: t) % 2 ^ t.length = textValue t := by
      rw [textValue_cons, Nat.mul_add_mod', Nat.mod_eq_of_lt hlt]
    have hbit : (textValue (b :: t)).testBit t.length = b := by
      rw [textValue_cons, Nat.mul_comm, Nat.testBit_two_pow_mul_add _ hlt]
      cases b <;> simp
    rw [List.length_cons, binaryText_succ, hbit, ← binaryText_mod, hmod, ih]

/-! ### Codes -/

theorem legal_iff (c : Code) : c.legal = true ↔ 1 ≤ c.len.toNat ∧ c.len.toNat ≤ 16 ∧ c.bits.toNat < 2 ^ c.len.toNat := by
  simp [Code.legal, and_assoc]

theorem textValue_codeText {c : Code} (h : c.legal = true) : textValue (codeText c) = c.bits.toNat := by
  obtain ⟨_, _, hb⟩ := (legal_iff c).1 h
  rw [codeText_eq_binaryText, textValue_binaryText, Nat.mod_eq_of_lt hb]

/-- Settles O37: the length of a rank code is the number of its rank's digits, and its bits are the rank. -/
theorem rankCodes : Obligations.RankCodes := by
  intro r r' hr hr'
  obtain ⟨hlegal, hbits, hlen⟩ := rankCode_legal r hr
  obtain ⟨_, hbits', _⟩ := rankCode_legal r' hr'
  refine ⟨hlegal, hbits, fun k hk => ?_, fun h => ?_, ?_⟩
  · rw [hlen, ← bitlen_le]
    omega
  · rw [← hbits, h, hbits']
  · rw [textValue_codeText hlegal, hbits]

theorem textCode_codeText {c : Code} (h : c.legal = true) : textCode (codeText c) = some c := by
  obtain ⟨h1, h16, _⟩ := (legal_iff c).1 h
  have hl : (codeText c).length = c.len.toNat := by rw [codeText_eq_binaryText, length_binaryText]
  rw [textCode, hl, if_pos ⟨h1, h16⟩, textValue_codeText h, BitVec.ofNat_toNat, BitVec.ofNat_toNat, BitVec.setWidth_eq, BitVec.setWidth_eq]

/-- R95: a text of 1 to 16 digits is the text of a legal code. -/
theorem exists_code_of_text {t : List Bool} (h1 : 1 ≤ t.length) (h16 : t.length ≤ 16) :
    ∃ c, textCode t = some c ∧ c.legal = true ∧ codeText c = t := by
  have hv := textValue_lt t
  have hp : 2 ^ t.length ≤ 2 ^ 16 := Nat.pow_le_pow_right (by decide) h16
  have hlen : (BitVec.ofNat 5 t.length).toNat = t.length := by rw [BitVec.toNat_ofNat, Nat.mod_eq_of_lt (by omega)]
  have hbits : (BitVec.ofNat 16 (textValue t)).toNat = textValue t := by rw [BitVec.toNat_ofNat, Nat.mod_eq_of_lt (by omega)]
  refine ⟨⟨.ofNat 5 t.length, .ofNat 16 (textValue t)⟩, if_pos ⟨h1, h16⟩, ?_, ?_⟩
  · rw [legal_iff, hlen, hbits]
    exact ⟨h1, h16, hv⟩
  · rw [codeText_eq_binaryText, hlen, hbits, binaryText_textValue]

/-- Settles O38: the digits of a text's value are the text, and the value of a number's digits is the number. -/
theorem codeTextBijection : Obligations.CodeTextBijection :=
  ⟨fun _ => textCode_codeText, fun _ => exists_code_of_text⟩

end Sys2Proof.Machine
end

section
/-! SUPPORT. Which registers, tables and flags a command writes (30_encoding.md R92; 10_state.md R31 to R45). -/

namespace Sys2Proof.Machine

/-- The part of the state that few commands write: the registers, OVF, the matrix with QV, the codebook, the build's capacity, and
the host transactions still to come. -/
structure Settings where
  hostIn : List HostEvent
  regs : Regs
  ovf : Bool
  qv : Bool
  qmat : Block 16
  cb : List Entry
  depth : Fin 65536

def State.settings (s : State) : Settings :=
  { hostIn := s.hostIn, regs := s.regs, ovf := s.status.ovf, qv := s.status.qv, qmat := s.qmat, cb := s.cb
    depth := s.cbDepthLessOne }

/-- The claim `P` about the settings survives whatever command `i` writes in them. -/
structure Admits (i : Instr) (P : Settings → Prop) : Prop where
  matrix : i ∈ ([.qgen, .seqCompress, .seqDecompress] : List Instr) → ∀ g m, P g → P { g with qmat := m, qv := true }
  codebook : i ∈ ([.cbClear, .cbAccum, .cbBuild, .cbLoad, .seqCompress] : List Instr) → ∀ g c, P g → P { g with cb := c }
  progress : isSequence i = true → ∀ g b p, P g → P { g with regs := { g.regs with blkDone := b, strmPtr := p } }
  length : i = .seqCompress → ∀ g n, P g → P { g with regs := { g.regs with strmLen := n } }
  entry : i = .cbRead → ∀ g v c w, P g → P { g with regs := { g.regs with cbValue := v, cbCode := c, cbWeight := w } }

/-- A transaction keeps the claim `P` about the settings; if a reset abandons the command in it, `A` holds. -/
abbrev RequestsKeep (P : Settings → Prop) (A : State → Prop) : Prop :=
  ∀ (r : Request) (s : State), P s.settings → (request r s).Ensures (fun _ t => P t.settings) (fun _ _ _ => False) A

/-- A piece of a command keeps the claim `P` about the settings, however it ends, but for a reset that abandons it. -/
abbrev KeepsSettings (P : Settings → Prop) (A : State → Prop) {α : Type} (r : Run α) : Prop :=
  r.Ensures (fun _ t => P t.settings) (fun _ _ t => P t.settings) A

section Pieces
variable {P : Settings → Prop} {A : State → Prop}

theorem keepsSettings_ok {α : Type} {a : α} {s : State} (h : P s.settings) : KeepsSettings P A (.ok a s) := ensures_ok.2 h

theorem keepsSettings_raised {α : Type} {c : ErrCode} {w : Word} {s : State} (h : P s.settings) :
    KeepsSettings P A (.raised c w s : Run α) := ensures_raised.2 h

theorem keepsSettings_bind {α β : Type} {r : Run α} {f : α → State → Run β} (h : KeepsSettings P A r)
    (hf : ∀ a s, P s.settings → KeepsSettings P A (f a s)) : KeepsSettings P A (r.bind f) := Run.Ensures.bind h hf

theorem ofCheck_keepsSettings {α : Type} (r : Except (ErrCode × Word) α) {s : State} (h : P s.settings) :
    KeepsSettings P A (ofCheck r s) := ofCheck_ensures (fun _ _ => h) fun _ _ => h

theorem forCount_keepsSettings {body : Nat → State → Run Unit} (hb : ∀ n s, P s.settings → KeepsSettings P A (body n s)) (k n : Nat)
    {s : State} (h : P s.settings) : KeepsSettings P A (forCount body k n s) :=
  forCount_ensures (I := fun _ s => P s.settings) hb k n s h

/-! ### Pieces that write none of the settings -/

/-- The buffers, PCOUNT and SAT are no part of the settings. -/
theorem keepsSettings_buffers {α : Type} {a : α} {s : State} {c : Block 32} {q z : Block 16} {p : Block 32} {n : BitVec 7} {b : Bool}
    (h : P s.settings) : KeepsSettings P A (.ok a { s with
      cbuf := c, qbuf := q, zbuf := z, pbuf := p, pcount := n, status := { s.status with sat := b } }) := ensures_ok.2 h

theorem bodyQuant_keepsSettings {s : State} (h : P s.settings) : KeepsSettings P A (bodyQuant s) := by
  unfold bodyQuant
  split
  · exact keepsSettings_raised h
  · exact keepsSettings_buffers h

theorem bodyDequant_keepsSettings {s : State} (h : P s.settings) : KeepsSettings P A (bodyDequant s) := by
  unfold bodyDequant
  split
  · exact keepsSettings_raised h
  · exact keepsSettings_buffers h

theorem bodyZzFlat_keepsSettings {s : State} (h : P s.settings) : KeepsSettings P A (bodyZzFlat s) := keepsSettings_buffers h

theorem bodyZzUnflat_keepsSettings {s : State} (h : P s.settings) : KeepsSettings P A (bodyZzUnflat s) := keepsSettings_buffers h

theorem bodyRleEnc_keepsSettings {s : State} (h : P s.settings) : KeepsSettings P A (bodyRleEnc s) := keepsSettings_buffers h

theorem bodyRleDec_keepsSettings {s : State} (h : P s.settings) : KeepsSettings P A (bodyRleDec s) := by
  refine keepsSettings_bind (ofCheck_keepsSettings _ h) fun _ t h => ?_
  split
  · exact keepsSettings_raised h
  · exact keepsSettings_buffers h

theorem bodyCbEncode_keepsSettings {s : State} (h : P s.settings) : KeepsSettings P A (bodyCbEncode s) :=
  keepsSettings_bind (ofCheck_keepsSettings _ h) fun _ _ h => keepsSettings_buffers h

theorem bodyCbDecode_keepsSettings {s : State} (h : P s.settings) : KeepsSettings P A (bodyCbDecode s) :=
  keepsSettings_bind (ofCheck_keepsSettings _ h) fun _ _ h => keepsSettings_buffers h

theorem checkRegions_keepsSettings (g k : Region) {s : State} (h : P s.settings) : KeepsSettings P A (checkRegions g k s) := by
  unfold checkRegions
  split
  · exact ensures_refused.2 trivial
  · exact keepsSettings_ok h

theorem fetchFailed_keepsSettings (c : ErrCode) {s : State} (h : P s.settings) : P (fetchFailed c s).settings := by
  unfold fetchFailed
  split
  · exact h
  · exact h

theorem answerWrite_keepsSettings (a : Addr) (m : List Host.Cell) {s : State} (h : P s.settings) :
    KeepsSettings P A (answerWrite a m s) := by
  unfold answerWrite
  split
  · exact keepsSettings_ok h
  · exact keepsSettings_ok h
  · exact keepsSettings_raised h

/-! ### Transactions and the pieces that make them -/

section Requests
variable (hreq : RequestsKeep P A)
include hreq

theorem request_keepsSettings (r : Request) {s : State} (h : P s.settings) : KeepsSettings P A (request r s) :=
  (hreq r s h).mono (fun _ _ h => h) (fun _ _ _ h => h.elim) fun _ h => h

theorem memRead8_keepsSettings (a : Addr) {s : State} (h : P s.settings) : KeepsSettings P A (memRead8 a s) := by
  refine keepsSettings_bind (request_keepsSettings hreq _ h) fun _ t h => ?_
  split
  · exact keepsSettings_ok h
  · exact keepsSettings_ok h
  · exact keepsSettings_raised h

theorem memRead32_keepsSettings (a : Addr) {s : State} (h : P s.settings) : KeepsSettings P A (memRead32 a s) := by
  refine keepsSettings_bind (request_keepsSettings hreq _ h) fun _ t h => ?_
  split
  · exact keepsSettings_ok h
  · exact keepsSettings_ok h
  · exact keepsSettings_raised h

theorem memWrite8_keepsSettings (a : Addr) (v : Byte) {s : State} (h : P s.settings) : KeepsSettings P A (memWrite8 a v s) :=
  keepsSettings_bind (request_keepsSettings hreq _ h) fun _ _ => answerWrite_keepsSettings _ _

theorem memWrite32_keepsSettings (a : Addr) (w : Word) {s : State} (h : P s.settings) : KeepsSettings P A (memWrite32 a w s) :=
  keepsSettings_bind (request_keepsSettings hreq _ h) fun _ _ => answerWrite_keepsSettings _ _

theorem bodyTxFwd_keepsSettings {s : State} (h : P s.settings) : KeepsSettings P A (bodyTxFwd s) :=
  keepsSettings_bind (request_keepsSettings hreq _ h) fun _ _ h => keepsSettings_ok h

theorem bodyTxInv_keepsSettings {s : State} (h : P s.settings) : KeepsSettings P A (bodyTxInv s) :=
  keepsSettings_bind (request_keepsSettings hreq _ h) fun _ _ h => keepsSettings_ok h

theorem fetchBlock_keepsSettings (row col : Nat) {s : State} (h : P s.settings) : KeepsSettings P A (fetchBlock row col s) := by
  refine forCount_keepsSettings (fun n s h => ?_) 64 0 h
  unfold fetchCell
  split
  · exact keepsSettings_bind (memRead8_keepsSettings hreq _ h) fun _ _ h => keepsSettings_ok h
  · exact keepsSettings_ok h

theorem storeBlock_keepsSettings (row col : Nat) {s : State} (h : P s.settings) : KeepsSettings P A (storeBlock row col s) := by
  refine forCount_keepsSettings (fun n s h => ?_) 64 0 h
  unfold storeCell
  split
  · exact memWrite8_keepsSettings hreq _ _ h
  · exact keepsSettings_ok h

end Requests

/-! ### Pieces that write the matrix, the codebook, or the entry registers -/

theorem bodyQgen_keepsSettings (hm : ∀ g m, P g → P { g with qmat := m, qv := true }) {s : State} (h : P s.settings) :
    KeepsSettings P A (bodyQgen s) := by
  unfold bodyQgen
  split
  · exact keepsSettings_raised h
  · exact keepsSettings_ok (hm _ _ h)

theorem bodyCbAccum_keepsSettings (hc : ∀ g c, P g → P { g with cb := c }) {s : State} (h : P s.settings) :
    KeepsSettings P A (bodyCbAccum s) :=
  keepsSettings_bind (ofCheck_keepsSettings _ h) fun _ _ h => keepsSettings_ok (hc _ _ h)

theorem bodyCbLoad_keepsSettings (hc : ∀ g c, P g → P { g with cb := c }) {s : State} (h : P s.settings) :
    KeepsSettings P A (bodyCbLoad s) :=
  keepsSettings_bind (ofCheck_keepsSettings _ h) fun _ _ h => keepsSettings_ok (hc _ _ h)

theorem bodyCbRead_keepsSettings
    (he : ∀ g v c w, P g → P { g with regs := { g.regs with cbValue := v, cbCode := c, cbWeight := w } }) {s : State}
    (h : P s.settings) : KeepsSettings P A (bodyCbRead s) := by
  unfold bodyCbRead
  split
  · exact keepsSettings_raised h
  · exact keepsSettings_ok (he _ _ _ _ h)

/-! ### Pieces of the sequences -/

section Sequences
variable (hreq : RequestsKeep P A) (hp : ∀ g b p, P g → P { g with regs := { g.regs with blkDone := b, strmPtr := p } })
include hreq hp

theorem streamPairs_keepsSettings (ws : List Word) {s : State} (h : P s.settings) : KeepsSettings P A (streamPairs ws s) := by
  induction ws generalizing s with
  | nil => exact keepsSettings_ok h
  | cons w ws ih =>
    unfold streamPairs
    split
    · exact keepsSettings_raised h
    · exact keepsSettings_bind (memWrite32_keepsSettings hreq _ _ h) fun _ t h => ih (hp _ t.regs.blkDone _ h)

theorem substWord_keepsSettings (k : Nat) {s : State} (h : P s.settings) : KeepsSettings P A (substWord k s) := by
  refine keepsSettings_bind (memRead32_keepsSettings hreq _ h) fun w s h => ?_
  split
  · exact keepsSettings_raised h
  · split
    · exact keepsSettings_raised h
    · exact keepsSettings_bind (memWrite32_keepsSettings hreq _ _ h) fun _ t h => keepsSettings_ok (hp _ t.regs.blkDone _ h)

theorem compressBlock_keepsSettings (hc : ∀ g c, P g → P { g with cb := c }) (b : Nat) {s : State} (h : P s.settings) :
    KeepsSettings P A (compressBlock b s) := by
  refine keepsSettings_bind (fetchBlock_keepsSettings hreq _ _ (s := s.atBlock b) h) fun _ s h => ?_
  refine keepsSettings_bind (bodyTxFwd_keepsSettings hreq h) fun _ s h => ?_
  refine keepsSettings_bind (bodyQuant_keepsSettings h) fun _ s h => ?_
  refine keepsSettings_bind (bodyZzFlat_keepsSettings h) fun _ s h => ?_
  refine keepsSettings_bind (bodyRleEnc_keepsSettings h) fun _ s h => ?_
  refine keepsSettings_bind (bodyCbAccum_keepsSettings hc h) fun _ s h => ?_
  exact keepsSettings_bind (streamPairs_keepsSettings hreq hp _ h) fun _ s h => keepsSettings_ok (hp _ _ s.regs.strmPtr h)

theorem validateWords_keepsSettings (left : Nat) {s : State} (h : P s.settings) : KeepsSettings P A (validateWords left s) := by
  induction left generalizing s with
  | zero => exact keepsSettings_raised h
  | succ k ih =>
    unfold validateWords
    refine keepsSettings_bind (memRead32_keepsSettings hreq _ h) fun w s h => ?_
    have hnext : ∀ v, P (s.setSum v).nextWord.settings := fun v => hp _ s.regs.blkDone _ h
    split
    · exact keepsSettings_raised h
    split
    · exact keepsSettings_raised h
    split
    · exact keepsSettings_raised h
    dsimp only
    split
    · split
      · exact keepsSettings_raised (hnext _)
      · exact keepsSettings_ok (hnext _)
    · exact ih (hnext _)

theorem validatePhase_keepsSettings {s : State} (h : P s.settings) : KeepsSettings P A (validatePhase s) := by
  refine keepsSettings_bind (forCount_keepsSettings
    (fun _ s h => validateWords_keepsSettings hreq hp _ (s := s.setSum 0) h) _ 0 (hp _ s.regs.blkDone _ h)) fun _ s h => ?_
  split
  · exact keepsSettings_raised h
  · exact keepsSettings_ok h

theorem readPairs_keepsSettings (left m : Nat) {s : State} (h : P s.settings) : KeepsSettings P A (readPairs left m s) := by
  induction left generalizing m s with
  | zero => exact keepsSettings_raised h
  | succ k ih =>
    unfold readPairs
    split
    · exact keepsSettings_raised h
    · refine keepsSettings_bind (memRead32_keepsSettings hreq _ h) fun w s h => ?_
      dsimp only
      split
      · exact keepsSettings_ok (hp _ s.regs.blkDone _ h)
      · exact ih _ (hp _ s.regs.blkDone _ h)

theorem decompressBlock_keepsSettings (b : Nat) {s : State} (h : P s.settings) : KeepsSettings P A (decompressBlock b s) := by
  refine keepsSettings_bind (readPairs_keepsSettings hreq hp _ 0 (s := s.atBlock b) h) fun m s h => ?_
  refine keepsSettings_bind (bodyCbDecode_keepsSettings (s := { s with pcount := BitVec.ofNat 7 m }) h) fun _ s h => ?_
  refine keepsSettings_bind (bodyRleDec_keepsSettings h) fun _ s h => ?_
  refine keepsSettings_bind (bodyZzUnflat_keepsSettings h) fun _ s h => ?_
  refine keepsSettings_bind (bodyDequant_keepsSettings h) fun _ s h => ?_
  refine keepsSettings_bind (bodyTxInv_keepsSettings hreq h) fun _ s h => ?_
  exact keepsSettings_bind (storeBlock_keepsSettings hreq _ _ h) fun _ s h => keepsSettings_ok (hp _ _ s.regs.strmPtr h)

end Sequences

section Commands
variable (hreq : RequestsKeep P A)
include hreq

theorem bodySeqCompress_keepsSettings (hP : Admits .seqCompress P) {s : State} (h : P s.settings) :
    KeepsSettings P A (bodySeqCompress s) := by
  have hp := hP.progress rfl
  have hc := hP.codebook (by decide)
  refine keepsSettings_bind (ofCheck_keepsSettings _ h) fun _ s h => ?_
  refine keepsSettings_bind (checkRegions_keepsSettings _ _ h) fun _ s h => ?_
  refine keepsSettings_bind (bodyQgen_keepsSettings (hP.matrix (by decide)) h) fun _ s h => ?_
  refine keepsSettings_bind (forCount_keepsSettings (fun b _ => compressBlock_keepsSettings hreq hp hc b) _ 0
    (hc _ _ (hp _ _ _ h))) fun _ s h => ?_
  refine keepsSettings_bind (r := buildPhase s) (keepsSettings_ok (hc _ _ h)) fun _ s h => ?_
  refine keepsSettings_bind (forCount_keepsSettings (fun k _ => substWord_keepsSettings hreq hp k) _ 0
    (hp _ s.regs.blkDone _ h)) fun _ s h => ?_
  exact keepsSettings_ok (hP.length rfl _ _ h)

theorem bodySeqDecompress_keepsSettings (hP : Admits .seqDecompress P) {s : State} (h : P s.settings) :
    KeepsSettings P A (bodySeqDecompress s) := by
  have hp := hP.progress rfl
  refine keepsSettings_bind (ofCheck_keepsSettings _ h) fun _ s h => ?_
  refine keepsSettings_bind (checkRegions_keepsSettings _ _ h) fun _ s h => ?_
  refine keepsSettings_bind (bodyQgen_keepsSettings (hP.matrix (by decide)) h) fun _ s h => ?_
  refine keepsSettings_bind (validatePhase_keepsSettings hreq hp (hp _ _ s.regs.strmPtr h)) fun _ s h => ?_
  exact forCount_keepsSettings (fun b _ => decompressBlock_keepsSettings hreq hp b) _ 0 (hp _ s.regs.blkDone _ h)

/-- R92: a command is a body that keeps every claim its writes cannot make false, and its end. -/
theorem exec_eq_finish_keepsSettings {i : Instr} (hP : Admits i P) {s : State} (h : P s.settings) :
    ∃ r, exec i s = finish r ∧ KeepsSettings P A r := by
  have hend : ∀ {r : Run Unit}, KeepsSettings P A r → KeepsSettings P A (sequenceEnd r) := fun h =>
    h.atEnd (fun _ _ h => h) fun _ _ _ h => h
  cases i with
  | nop => exact ⟨.ok () s, rfl, keepsSettings_ok h⟩
  | qgen => exact ⟨_, rfl, bodyQgen_keepsSettings (hP.matrix (by decide)) h⟩
  | quant => exact ⟨_, rfl, bodyQuant_keepsSettings h⟩
  | dequant => exact ⟨_, rfl, bodyDequant_keepsSettings h⟩
  | txFwd => exact ⟨_, rfl, bodyTxFwd_keepsSettings hreq h⟩
  | txInv => exact ⟨_, rfl, bodyTxInv_keepsSettings hreq h⟩
  | zzFlat => exact ⟨_, rfl, bodyZzFlat_keepsSettings h⟩
  | zzUnflat => exact ⟨_, rfl, bodyZzUnflat_keepsSettings h⟩
  | rleEnc => exact ⟨_, rfl, bodyRleEnc_keepsSettings h⟩
  | rleDec => exact ⟨_, rfl, bodyRleDec_keepsSettings h⟩
  | cbClear => exact ⟨bodyCbClear s, rfl, keepsSettings_ok (hP.codebook (by decide) _ _ h)⟩
  | cbAccum => exact ⟨_, rfl, bodyCbAccum_keepsSettings (hP.codebook (by decide)) h⟩
  | cbBuild => exact ⟨bodyCbBuild s, rfl, keepsSettings_ok (hP.codebook (by decide) _ _ h)⟩
  | cbEncode => exact ⟨_, rfl, bodyCbEncode_keepsSettings h⟩
  | cbDecode => exact ⟨_, rfl, bodyCbDecode_keepsSettings h⟩
  | cbLoad => exact ⟨_, rfl, bodyCbLoad_keepsSettings (hP.codebook (by decide)) h⟩
  | cbRead => exact ⟨_, rfl, bodyCbRead_keepsSettings (hP.entry rfl) h⟩
  | padFetch =>
    exact ⟨_, rfl, (keepsSettings_bind (ofCheck_keepsSettings _ h) fun _ _ h => fetchBlock_keepsSettings hreq _ _ h).atEnd
      (fun _ _ h => h) fun c _ _ => fetchFailed_keepsSettings c⟩
  | cropStore =>
    exact ⟨_, rfl, keepsSettings_bind (ofCheck_keepsSettings _ h) fun _ _ h => storeBlock_keepsSettings hreq _ _ h⟩
  | seqCompress => exact ⟨_, rfl, hend (bodySeqCompress_keepsSettings hreq hP h)⟩
  | seqDecompress => exact ⟨_, rfl, hend (bodySeqDecompress_keepsSettings hreq hP h)⟩

/-- A claim about the settings that the command's writes cannot make false holds after the command, unless a reset abandons it. -/
theorem exec_keepsSettings {i : Instr} (hP : Admits i P) {s t : State} (h : P s.settings) (ht : exec i s = .next t) :
    P t.settings ∨ A t := by
  obtain ⟨r, hr, hk⟩ := exec_eq_finish_keepsSettings hreq hP h
  rcases finish_next (hr ▸ ht) with ⟨u, rfl, rfl⟩ | ⟨c, w, u, rfl, rfl⟩ | rfl
  · exact .inl (ensures_ok.1 hk)
  · exact .inl (ensures_raised.1 hk)
  · exact .inr (ensures_abandoned.1 hk)

end Commands
end Pieces

/-! ### Commands that no host transaction disturbs -/

/-- No host transaction is to land during the command. -/
def Settings.Alone (g : Settings) : Prop := g.hostIn.all (fun e => e.gap.isNone) = true

theorem requestsKeep_of_alone {P : Settings → Prop} (hP : ∀ g, P g → g.Alone) : RequestsKeep P fun _ => False := by
  intro r s h
  rw [request_alone (hP _ h)]
  exact ensures_ok.2 h

theorem Admits.alone {i : Instr} {P : Settings → Prop} (h : Admits i P) : Admits i fun g => g.Alone ∧ P g where
  matrix hi g m hg := ⟨hg.1, h.matrix hi g m hg.2⟩
  codebook hi g c hg := ⟨hg.1, h.codebook hi g c hg.2⟩
  progress hi g b p hg := ⟨hg.1, h.progress hi g b p hg.2⟩
  length hi g n hg := ⟨hg.1, h.length hi g n hg.2⟩
  entry hi g v c w hg := ⟨hg.1, h.entry hi g v c w hg.2⟩

/-- A claim about the settings that the command's writes cannot make false holds after an undisturbed command. -/
theorem exec_keepsSettings_of_alone {i : Instr} {s t : State} (ha : s.Alone) (ht : exec i s = .next t) {P : Settings → Prop}
    (hP : Admits i P) (h : P s.settings) : P t.settings := by
  rcases exec_keepsSettings (requestsKeep_of_alone fun _ hg => hg.1) hP.alone ⟨ha, h⟩ ht with ⟨_, ht⟩ | ht
  · exact ht
  · exact ht.elim

/-- The registers that no command writes (R92), and OVF, agree. -/
def Settings.SameConstants (g g' : Settings) : Prop :=
  g.regs.quality = g'.regs.quality ∧ g.regs.width = g'.regs.width ∧ g.regs.height = g'.regs.height ∧
    g.regs.imgBase = g'.regs.imgBase ∧ g.regs.strmBase = g'.regs.strmBase ∧ g.regs.strmCap = g'.regs.strmCap ∧
    g.regs.blkRow = g'.regs.blkRow ∧ g.regs.blkCol = g'.regs.blkCol ∧ g.regs.cbIndex = g'.regs.cbIndex ∧
    g.regs.irqEn = g'.regs.irqEn ∧ g.ovf = g'.ovf

section Unwritten
variable {i : Instr}

theorem admits_sameConstants (g : Settings) : Admits i (Settings.SameConstants · g) :=
  ⟨fun _ _ _ h => h, fun _ _ _ h => h, fun _ _ _ _ h => h, fun _ _ _ h => h, fun _ _ _ _ _ h => h⟩

theorem admits_strmLen (hi : i ≠ .seqCompress) (n : BitVec 32) : Admits i fun g => g.regs.strmLen = n :=
  ⟨fun _ _ _ h => h, fun _ _ _ h => h, fun _ _ _ _ h => h, fun h => absurd h hi, fun _ _ _ _ _ h => h⟩

theorem admits_progress (hi : isSequence i = false) (b p : BitVec 32) :
    Admits i fun g => g.regs.blkDone = b ∧ g.regs.strmPtr = p :=
  ⟨fun _ _ _ h => h, fun _ _ _ h => h, fun h => absurd h (by simp [hi]), fun _ _ _ h => h, fun _ _ _ _ _ h => h⟩

theorem admits_entry (hi : i ≠ .cbRead) (v : Value) (c : Code) (w : BitVec 32) :
    Admits i fun g => g.regs.cbValue = v ∧ g.regs.cbCode = c ∧ g.regs.cbWeight = w :=
  ⟨fun _ _ _ h => h, fun _ _ _ h => h, fun _ _ _ _ h => h, fun _ _ _ h => h, fun h => absurd h hi⟩

theorem admits_matrix (hi : i ∉ ([.qgen, .seqCompress, .seqDecompress] : List Instr)) (m : Block 16) (b : Bool) :
    Admits i fun g => g.qmat = m ∧ g.qv = b :=
  ⟨fun h => absurd h hi, fun _ _ _ h => h, fun _ _ _ _ h => h, fun _ _ _ h => h, fun _ _ _ _ _ h => h⟩

theorem admits_codebook (hi : i ∉ ([.cbClear, .cbAccum, .cbBuild, .cbLoad, .seqCompress] : List Instr)) (c : List Entry) :
    Admits i fun g => g.cb = c :=
  ⟨fun _ _ _ h => h, fun h => absurd h hi, fun _ _ _ _ h => h, fun _ _ _ h => h, fun _ _ _ _ _ h => h⟩

theorem admits_depth (d : Fin 65536) : Admits i fun g => g.depth = d :=
  ⟨fun _ _ _ h => h, fun _ _ _ h => h, fun _ _ _ _ h => h, fun _ _ _ h => h, fun _ _ _ _ _ h => h⟩

end Unwritten

/-! ### The build's capacity -/

theorem regWrite_cbDepthLessOne (r : HostReg) (w : Word) (s : State) : (regWrite r w s).cbDepthLessOne = s.cbDepthLessOne := by
  cases r
  case ctrl =>
    change (writeCtrl w s).cbDepthLessOne = _
    unfold writeCtrl
    split <;> rfl
  case pcount =>
    change (writePcount w s).cbDepthLessOne = _
    unfold writePcount
    dsimp only
    split <;> rfl
  all_goals rfl

/-- R18, R232: no host transaction changes the build, a reset neither. -/
theorem hostOp_cbDepthLessOne {op : HostOp} {s t : State} (ht : hostOp op s = .next t) : t.cbDepthLessOne = s.cbDepthLessOne := by
  cases op with
  | read off =>
    simp only [hostOp] at ht
    split at ht <;> cases ht
    rcases hostRead_cases off s with ⟨e, d, he⟩ | ⟨d, he⟩ <;> rw [he] <;> rfl
  | write off strb w =>
    simp only [hostOp] at ht
    split at ht <;> cases ht
    rcases hostWrite_cases off strb w s with he | ⟨_, he⟩ | ⟨r, he, _⟩ <;> rw [he]
    · rfl
    · rfl
    · exact regWrite_cbDepthLessOne r w s
  | store a b =>
    simp only [hostOp] at ht
    split at ht <;> cases ht
    rfl
  | assertReset => cases ht; rfl
  | releaseReset =>
    simp only [hostOp] at ht
    split at ht <;> cases ht <;> rfl

theorem hostStep_cbDepthLessOne {s t : State} (ht : hostStep s = .next t) : t.cbDepthLessOne = s.cbDepthLessOne := by
  unfold hostStep at ht
  split at ht
  · cases ht; rfl
  · rename_i e rest _
    exact hostOp_cbDepthLessOne (s := { s with hostIn := rest }) ht

theorem requestsKeep_depth (d : Fin 65536) : RequestsKeep (fun g => g.depth = d) fun t => t.cbDepthLessOne = d := fun _ _ h =>
  landDue_ensures (I := fun t => t.cbDepthLessOne = d) (fun _ _ _ h ht => (hostOp_cbDepthLessOne ht).trans h) (fun _ _ h => h) _ _ h

theorem exec_cbDepthLessOne {i : Instr} {s t : State} (ht : exec i s = .next t) : t.cbDepthLessOne = s.cbDepthLessOne := by
  rcases exec_keepsSettings (requestsKeep_depth _) (admits_depth _) rfl ht with h | h
  · exact h
  · exact h

theorem runCommand_cbDepthLessOne {w : Word} {s t : State} (ht : runCommand w s = .next t) :
    t.cbDepthLessOne = s.cbDepthLessOne := by
  unfold runCommand at ht
  split at ht
  · exact exec_cbDepthLessOne ht
  · cases ht; rfl

theorem step_cbDepthLessOne {s t : State} (ht : step s = .next t) : t.cbDepthLessOne = s.cbDepthLessOne := by
  rcases step_cases s with hs | ⟨w, _, _, hs⟩
  · exact hostStep_cbDepthLessOne (hs ▸ ht)
  · exact runCommand_cbDepthLessOne (hs ▸ ht)

/-- Settles O19: each clause is a claim about the settings that the writes of its commands cannot make false. -/
theorem commandsKeepConfiguration : Obligations.CommandsKeepConfiguration := by
  refine ⟨fun s t => step_cbDepthLessOne, fun i s t ha ht => ?_⟩
  have keeps {P : Settings → Prop} : Admits i P → P s.settings → P t.settings := exec_keepsSettings_of_alone ha ht
  obtain ⟨hquality, hwidth, hheight, himg, hstrm, hcap, hrow, hcol, hindex, hirq, hovf⟩ :=
    keeps (admits_sameConstants s.settings) ⟨rfl, rfl, rfl, rfl, rfl, rfl, rfl, rfl, rfl, rfl, rfl⟩
  exact ⟨hquality, hwidth, hheight, himg, hstrm, hcap, hrow, hcol, hindex, hirq, hovf,
    fun hi => keeps (admits_strmLen hi _) rfl, fun hi => keeps (admits_progress hi _ _) ⟨rfl, rfl⟩,
    fun hi => keeps (admits_entry hi _ _ _) ⟨rfl, rfl, rfl⟩, fun hi => keeps (admits_matrix hi _ _) ⟨rfl, rfl⟩,
    fun hi => keeps (admits_codebook hi _) rfl⟩

end Sys2Proof.Machine
end

section
/-! SUPPORT. QGEN, QUANT and DEQUANT alone: what each makes of a state, and their integer formulas in rational arithmetic
(40_quantization.md R110 to R114). -/

namespace Sys2Proof.Machine

/-! ### The matrix (R110, R114) -/

/-- `scale`, exact (R110). -/
def qgenScale (q : Nat) : ℚ := if q < 50 then 5000 / (q : ℚ) else 200 - 2 * (q : ℚ)

theorem qgenScale_of_lt {q : Nat} (h : q < 50) : qgenScale q = 5000 / (q : ℚ) := if_pos h

theorem qgenScale_of_le {q : Nat} (h : 50 ≤ q) : qgenScale q = 200 - 2 * (q : ℚ) := if_neg (by omega)

/-- R110: an entry, computed by integer division, is the formula with the exact scale. -/
theorem qgenEntry_eq_floor (b : Nat) {q : Nat} (h1 : 1 ≤ q) (h2 : q ≤ 100) :
    (qgenEntry b q : ℤ) = max 1 ⌊((b : ℚ) * qgenScale q + 50) / 100⌋ := by
  unfold qgenEntry
  rw [Nat.cast_max, Nat.cast_one]
  congr 1
  split
  case isTrue h =>
    have hq : ((b : ℚ) * qgenScale q + 50) / 100 = ((b * 5000 + 50 * q : ℕ) : ℚ) / ((100 * q : ℕ) : ℚ) := by
      have : (q : ℚ) ≠ 0 := Nat.cast_ne_zero.2 (by omega)
      rw [qgenScale_of_lt h]
      push_cast
      field_simp
    rw [hq, Rat.floor_natCast_div_natCast, Int.natCast_ediv]
  case isFalse h =>
    have hq : ((b : ℚ) * qgenScale q + 50) / 100 = ((b * (200 - 2 * q) + 50 : ℕ) : ℚ) / ((100 : ℕ) : ℚ) := by
      rw [qgenScale_of_le (by omega), Nat.cast_add, Nat.cast_mul, Nat.cast_sub (by omega)]
      push_cast
      rfl
    rw [hq, Rat.floor_natCast_div_natCast, Int.natCast_ediv]

/-- The scale falls with the quality, also where its formula changes. -/
theorem qgenScale_le {q q' : Nat} (h1 : 1 ≤ q) (h : q ≤ q') : qgenScale q' ≤ qgenScale q := by
  have hc : (q : ℚ) ≤ q' := Nat.cast_le.2 h
  have hpos : (0 : ℚ) < q := Nat.cast_pos.2 h1
  rcases lt_or_ge q' 50 with hq' | hq'
  · rw [qgenScale_of_lt hq', qgenScale_of_lt (h.trans_lt hq')]
    exact div_le_div_of_nonneg_left (by norm_num) hpos hc
  rw [qgenScale_of_le hq']
  rcases lt_or_ge q 50 with hq | hq
  · have hl : (50 : ℚ) ≤ q' := by exact_mod_cast hq'
    have hu : (q : ℚ) ≤ 50 := by exact_mod_cast hq.le
    rw [qgenScale_of_lt hq]
    calc 200 - 2 * (q' : ℚ) ≤ 5000 / 50 := by linarith
      _ ≤ 5000 / (q : ℚ) := div_le_div_of_nonneg_left (by norm_num) hpos hu
  · rw [qgenScale_of_le hq]
    linarith

/-- R114: an entry does not rise with the quality, for its scale does not. -/
theorem qgenEntry_le (b : Nat) {q q' : Nat} (h1 : 1 ≤ q) (h : q ≤ q') (h2 : q' ≤ 100) : qgenEntry b q' ≤ qgenEntry b q := by
  rw [← Int.ofNat_le, qgenEntry_eq_floor b (h1.trans h) h2, qgenEntry_eq_floor b h1 (h.trans h2)]
  have hs := qgenScale_le h1 h
  gcongr

/-- R110: the corner cases of the quality. -/
theorem qgenEntry_corners {b : Nat} (hb : 1 ≤ b) : qgenEntry b 1 = 50 * b ∧ qgenEntry b 50 = b ∧ qgenEntry b 100 = 1 := by
  unfold qgenEntry
  refine ⟨?_, ?_, ?_⟩
  · rw [if_pos (by decide)]
    omega
  · rw [if_neg (by decide)]
    omega
  · rw [if_neg (by decide)]
    omega

/-- Settles O26: an entry is monotone in the exact scale, which falls with the quality. -/
theorem matrixEntryOrder : Obligations.MatrixEntryOrder := by
  intro b q q' hb hb' h1 h h2
  obtain ⟨hmin, hmax⟩ := qgenEntry_range hb' h1 (h.trans h2)
  exact ⟨qgenEntry_le b h1 h h2, hmin, hmax, qgenEntry_corners hb⟩

/-! ### The whole commands -/

section Commands
variable (s : State)

theorem exec_qgen : exec .qgen s = finish (bodyQgen s) := rfl
theorem exec_quant : exec .quant s = finish (bodyQuant s) := rfl
theorem exec_dequant : exec .dequant s = finish (bodyDequant s) := rfl

variable {s}

theorem bodyQgen_illegal (h : qualityLegal s.regs = false) :
    bodyQgen s = .raised .invalidQuality (s.regs.quality.setWidth 32) s := by
  unfold bodyQgen
  rw [h, pat32, BitVec.ofNat_toNat]
  rfl

theorem bodyQuant_invalid (h : s.status.qv = false) : bodyQuant s = .raised .qmatInvalid 0 s := by
  unfold bodyQuant
  rw [h]
  rfl

theorem bodyDequant_invalid (h : s.status.qv = false) : bodyDequant s = .raised .qmatInvalid 0 s := by
  unfold bodyDequant
  rw [h]
  rfl

end Commands

/-- Settles O25: the generated matrix holds the integer entries, and each of them is the formula with the exact scale. -/
theorem qgenMatrix : Obligations.QgenMatrix := by
  refine ⟨decode_encode .qgen, fun s h1 h2 => ?_, fun s h => ?_⟩
  · have hl := (qualityLegal_iff s.regs).2 ⟨h1, h2⟩
    refine ⟨matrixOf s.regs.quality.toNat, ?_, fun n => ?_⟩
    · rw [exec_qgen, bodyQgen_generated hl]
      rfl
    · rw [matrixOf_toNat hl]
      exact qgenEntry_eq_floor _ h1 h2
  · have hl : qualityLegal s.regs = false := by
      rw [Bool.eq_false_iff, Ne, qualityLegal_iff]
      omega
    rw [exec_qgen, bodyQgen_illegal hl]
    rfl

/-! ### Saturation (R11) -/

theorem toInt_satPat {n : Nat} (hn : 0 < n) (v : ℤ) :
    (satPat n v).toInt = max (-2 ^ (n - 1)) (min (2 ^ (n - 1) - 1) v) := by
  have hp : (0 : ℤ) < 2 ^ (n - 1) := by positivity
  unfold satPat sat
  rw [BitVec.toInt_ofInt_eq_self hn (by omega) (by omega)]
  omega

theorem overflowed_iff (n : Nat) (v : ℤ) : overflowed n v = true ↔ 2 ^ (n - 1) - 1 < v ∨ v < -2 ^ (n - 1) := by
  unfold overflowed
  rw [Bool.or_eq_true, decide_eq_true_eq, decide_eq_true_eq, or_comm]

theorem anyCell_iff (p : Fin 64 → Bool) : anyCell p = true ↔ ∃ n, p n = true := by
  simp [anyCell]

/-! ### QUANT and DEQUANT (R111, R112) -/

/-- R111: the quotient of QUANT is the rational one, rounded half up. -/
theorem quantExact_eq_floor (c : Word) {d : BitVec 16} (hd : 1 ≤ d.toNat) :
    quantExact c d = ⌊(c.toInt : ℚ) / 256 / (d.toNat : ℚ) + 1 / 2⌋ := by
  have hq : (c.toInt : ℚ) / 256 / (d.toNat : ℚ) + 1 / 2 = ((c.toInt + d.toNat * 128 : ℤ) : ℚ) / ((d.toNat * 256 : ℕ) : ℚ) := by
    have : (d.toNat : ℚ) ≠ 0 := Nat.cast_ne_zero.2 (by omega)
    push_cast
    field_simp
    ring
  rw [hq, Rat.floor_intCast_div_natCast]
  rfl

/-- Settles O27: each element is the saturated quotient, and the quotient is the rational one rounded half up. -/
theorem quantRounds : Obligations.QuantRounds := by
  refine ⟨decode_encode .quant, fun s hv hm => ⟨s.quantized.qbuf, s.quantized.status.sat, ?_, fun n => ?_, ?_⟩, fun s hv => ?_⟩
  · rw [exec_quant, bodyQuant_quantized hv]
    rfl
  · rw [← quantExact_eq_floor _ (hm n)]
    simpa using toInt_satPat (n := 16) (by decide) _
  · simp only [← quantExact_eq_floor _ (hm _)]
    simp [anyCell_iff, overflowed_iff]
  · rw [exec_quant, bodyQuant_invalid hv]
    rfl

/-- Settles O28: each element is the saturated product. -/
theorem dequantScales : Obligations.DequantScales := by
  refine ⟨decode_encode .dequant, fun s hv => ⟨s.scaled.cbuf, s.scaled.status.sat, ?_, fun n => ?_, ?_⟩, fun s hv => ?_⟩
  · rw [exec_dequant, bodyDequant_scaled hv]
    rfl
  · simpa [dequantExact] using toInt_satPat (n := 32) (by decide) (dequantExact s.qbuf[n] s.qmat[n])
  · simp [anyCell_iff, overflowed_iff, dequantExact]
  · rw [exec_dequant, bodyDequant_invalid hv]
    rfl

end Sys2Proof.Machine
end

section
/-! SUPPORT. TX_FWD and TX_INV alone: each command with its one request, and the all-zero block
(41_transform_port.md R120 to R124). -/

namespace Sys2Proof.Machine

/-- R120 (b), for the inverse transform. -/
theorem txInv_zeroBlock : txInv zeroBlock = zeroBlock := if_pos rfl

section Commands
variable (s : State)

theorem exec_txFwd : exec .txFwd s = finish (bodyTxFwd s) := rfl
theorem exec_txInv : exec .txInv s = finish (bodyTxInv s) := rfl

end Commands

/-- Settles O29: with no host transaction due, each body logs its one request and takes the answer into CBUF, and completion
leaves the Sequencer idle. -/
theorem transformInPlace : Obligations.TransformInPlace := by
  refine ⟨decode_encode .txFwd, decode_encode .txInv, fun s h => ?_, fun s h => ?_, txFwd_zeroBlock, txInv_zeroBlock⟩
  · rw [exec_txFwd, bodyTxFwd_undisturbed h, finish_ok]
    rfl
  · rw [exec_txInv, bodyTxInv_undisturbed h, finish_ok]
    rfl

end Sys2Proof.Machine
end

section
/-! SUPPORT. ZZ_FLAT and ZZ_UNFLAT: the order of the scan, its inverse, and the two commands alone
(42_zigzag.md R130 to R134). -/

namespace Sys2Proof.Machine

/-! ### The order of the scan (R130) -/

/-- The place of cell `n` in the scan by anti-diagonals, as a number that grows along the scan: eight places for each
anti-diagonal, counted by the row on an even one and against it on an odd one. -/
def scanRank (n : Nat) : Nat :=
  8 * (cellRow n + cellCol n) + if (cellRow n + cellCol n) % 2 = 0 then cellRow n else 7 - cellRow n

/-- The table steps forward in the scan from each position to the next. -/
theorem scanRank_zz_strictMono : StrictMono fun k : Fin 64 => scanRank (zz k).val :=
  Fin.strictMono_iff_lt_succ.2 (by decide)

/-- What a growing rank says of two cells. -/
theorem scanOrder_of_scanRank_lt {n n' : Fin 64} (h : scanRank n.val < scanRank n'.val) :
    cellRow n.val + cellCol n.val < cellRow n'.val + cellCol n'.val ∨
      (cellRow n.val + cellCol n.val = cellRow n'.val + cellCol n'.val ∧
        if (cellRow n.val + cellCol n.val) % 2 = 0 then cellRow n.val < cellRow n'.val else cellRow n'.val < cellRow n.val) := by
  have hr : cellRow n.val < 8 := Nat.div_lt_of_lt_mul n.isLt
  have hr' : cellRow n'.val < 8 := Nat.div_lt_of_lt_mul n'.isLt
  unfold scanRank at h
  rcases lt_trichotomy (cellRow n.val + cellCol n.val) (cellRow n'.val + cellCol n'.val) with hd | hd | hd
  · exact .inl hd
  · refine .inr ⟨hd, ?_⟩
    rw [← hd] at h
    split at h
    case isTrue he =>
      rw [if_pos he]
      omega
    case isFalse he =>
      rw [if_neg he]
      omega
  · split at h <;> split at h <;> omega

/-! ### The table and its inverse (R131) -/

theorem zz_injective : Function.Injective zz :=
  Function.Injective.of_comp (f := fun n : Fin 64 => scanRank n.val) scanRank_zz_strictMono.injective

@[simp] theorem zz_zzInv (n : Fin 64) : zz (zzInv n) = n := by
  revert n
  decide

/-- A one-sided inverse of an injective table is its inverse. -/
@[simp] theorem zzInv_zz (k : Fin 64) : zzInv (zz k) = k := zz_injective (zz_zzInv (zz k))

/-- Settles O30: each cell has its one position by the inverse table, and the scan's rank grows with the position. -/
theorem zigzagTableOrder : Obligations.ZigzagTableOrder :=
  ⟨fun n => ⟨zzInv n, zz_zzInv n, fun _ h => zz_injective (h.trans (zz_zzInv n).symm)⟩,
    fun _ _ h => scanOrder_of_scanRank_lt (scanRank_zz_strictMono h)⟩

/-! ### The two commands (R132, R133) -/

section Commands
variable (s : State)

theorem exec_zzFlat : exec .zzFlat s = .next s.flattened.complete := rfl
theorem exec_zzUnflat : exec .zzUnflat s = .next s.unflattened.complete := rfl

variable {s}

/-- R132: position `k` of the sequence holds the cell that the scan visits as its `k`-th. -/
theorem flattened_zbuf_getElem (k : Fin 64) : s.flattened.zbuf[k] = s.qbuf[zz k] := by simp

/-- R133: the cell that the scan visits as its `k`-th holds position `k` of the sequence. -/
theorem unflattened_qbuf_getElem_zz (k : Fin 64) : s.unflattened.qbuf[zz k] = s.zbuf[k] := by simp

end Commands

/-- Settles O31: each command completes with its one buffer replaced, element by element along the table. -/
theorem zigzagMoves : Obligations.ZigzagMoves := by
  refine ⟨decode_encode .zzFlat, decode_encode .zzUnflat, fun s => ⟨s.flattened.zbuf, ?_, flattened_zbuf_getElem⟩,
    fun s => ⟨s.unflattened.qbuf, ?_, unflattened_qbuf_getElem_zz⟩⟩
  · rw [exec_zzFlat]
    dsimp only [State.complete, State.flattened]
  · rw [exec_zzUnflat]
    dsimp only [State.complete, State.unflattened]

/-! ### Identities (R134) -/

/-- R134: un-scanning a buffer that holds the scan of QBUF gives QBUF. -/
theorem unflattened_qbuf_of_flattened {s u : State} (h : u.zbuf = s.flattened.zbuf) : u.unflattened.qbuf = s.qbuf := by
  ext i hi
  simp [h]

/-- R134: scanning a buffer that holds the un-scan of ZBUF gives ZBUF. -/
theorem flattened_zbuf_of_unflattened {s u : State} (h : u.qbuf = s.unflattened.qbuf) : u.flattened.zbuf = s.zbuf := by
  ext i hi
  simp [h]

/-- Settles O32: the issue between the two commands keeps the buffer that the first has written. -/
theorem zigzagRoundTrip : Obligations.ZigzagRoundTrip := by
  refine fun s t u w => ⟨fun ht hu => ?_, fun ht hu => ?_⟩
  · cases (exec_zzFlat s).symm.trans ht
    cases (exec_zzUnflat _).symm.trans hu
    exact unflattened_qbuf_of_flattened rfl
  · cases (exec_zzUnflat s).symm.trans ht
    cases (exec_zzFlat _).symm.trans hu
    exact flattened_zbuf_of_unflattened rfl

end Sys2Proof.Machine
end

section
/-! SUPPORT. RLE_ENC and RLE_DEC alone: what the valid pairs of RLE_ENC are, how the checks of RLE_DEC run over the pairs,
and the two in turn (43_rle.md R140 to R142). -/

namespace Sys2Proof.Machine

/-! ### Buffers and lists -/

/-- Elements past the list keep their contents. -/
theorem getElem_overwrite_of_length_le {w : Nat} (b : Block w) {xs : List (BitVec w)} {i : Fin 64} (h : xs.length ≤ i.val) :
    (overwrite b xs)[i] = b[i] := by
  simp [overwrite, List.getElem?_eq_none h]

theorem toList_fromList {w : Nat} {xs : List (BitVec w)} (h : xs.length = 64) : (fromList xs).toList = xs :=
  List.ext_getElem (by simp [h]) fun i _ hi => by simp [fromList, hi]

@[simp] theorem fromList_toList {w : Nat} (b : Block w) : fromList b.toList = b :=
  Vector.toList_inj.1 (toList_fromList b.length_toList)

/-! ### The words of RLE_ENC (R140) -/

/-- A pair word has no reserved bit for the mask of PBUF to clear (R44, R94). -/
@[simp] theorem maskPair_pairWord (e : Bool) (r : BitVec 7) (l : BitVec 5) (v : BitVec 16) :
    maskPair (pairWord e r l v) = pairWord e r l v := by
  simpa using (pairWord_fields (pairWord e r l v)).symm

theorem maskPair_and_reservedBits (w : Word) : maskPair w &&& 0x70000000 = 0 := by
  rw [maskPair, BitVec.and_assoc]
  exact BitVec.and_zero

theorem reservedBits_of_mem_rleWords {z : Block 16} {w : Word} (h : w ∈ rleWords z) : w &&& 0x70000000 = 0 := by
  obtain ⟨e, p, _, rfl⟩ := mem_runWords h
  rw [runWord, ← maskPair_pairWord]
  exact maskPair_and_reservedBits _

/-- EOB is set in the last word of a sequence and in no other. -/
theorem map_eobField_rleWords (z : Block 16) :
    (rleWords z).map eobField = List.replicate ((rleWords z).length - 1) false ++ [true] :=
  eq_of_beq (eobLast_rleWords z)

theorem State.encoded_pcount_toNat (s : State) : s.encoded.pcount.toNat = (rleWords s.zbuf).length :=
  (BitVec.toNat_ofNat ..).trans (Nat.mod_eq_of_lt ((rleWords_length s.zbuf).trans_lt (by decide)))

theorem exec_rleEnc (s : State) : exec .rleEnc s = .next s.encoded.complete := rfl

/-- Settles O33: the valid pairs are the words of the maximal runs of ZBUF. -/
theorem rleEncodeResult : Obligations.RleEncodeResult := by
  refine ⟨decode_encode .rleEnc, fun s => ⟨s.encoded.pbuf, s.encoded.pcount, ?_, ?_⟩⟩
  · rw [exec_rleEnc]
    dsimp only [State.complete, State.encoded]
  have hv : s.encoded.pbuf.toList.take s.encoded.pcount.toNat = rleWords s.zbuf := validPairs_encoded s
  rw [hv, State.encoded_pcount_toNat, ← expand_eq_flatMap]
  exact ⟨rleWords_pos _, rleWords_length _, expand_rleWords _,
    fun w hw => ⟨lenField_of_mem_rleWords hw, run_pos_of_mem_rleWords hw, reservedBits_of_mem_rleWords hw⟩,
    runSum_rleWords _, rleWords_isChain _, map_eobField_rleWords _, fun i hi => getElem_overwrite_of_length_le _ hi⟩

/-! ### The checks of RLE_DEC (R141) -/

/-- A pair fails on a running sum: it is in code form, has count 0, or makes the sum pass 64. -/
abbrev FailsOn (sum : Nat) (w : Word) : Prop := lenField w ≠ 0 ∨ (runField w).toNat = 0 ∨ 64 < sum + (runField w).toNat

/-- Pair `k` of a list fails on the sum of the pairs before it. -/
abbrev PairFails (ws : List Word) (k : Nat) : Prop := FailsOn (runSum (ws.take k)) (ws.getD k 0)

/-- The error of a pair that fails. -/
def pairError (w : Word) : ErrCode := if lenField w ≠ 0 then .pairForm else .corruptRunSum

theorem number_pairError (w : Word) : (pairError w).number = if lenField w ≠ 0 then 10 else 3 := apply_ite ..

theorem rleCheck_cons_of_fails {i sum : Nat} {w : Word} {ws : List Word} (h : FailsOn sum w) :
    rleCheck i sum (w :: ws) = .error (pairError w, pat32 i) := by
  unfold rleCheck pairError
  by_cases hl : lenField w ≠ 0
  · rw [if_pos hl, if_pos hl]
  · rw [if_neg hl, if_neg hl, if_pos (h.resolve_left hl)]

theorem rleCheck_cons_of_passes {i sum : Nat} {w : Word} {ws : List Word} (h : ¬ FailsOn sum w) :
    rleCheck i sum (w :: ws) = rleCheck (i + 1) (sum + (runField w).toNat) ws := by
  obtain ⟨hl, hr⟩ := not_or.1 h
  rw [rleCheck, if_neg hl, if_neg hr]

theorem runSum_take_succ {ws : List Word} {k : Nat} (h : k < ws.length) :
    runSum (ws.take (k + 1)) = runSum (ws.take k) + (runField (ws.getD k 0)).toNat := by
  rw [List.getD_eq_getElem _ _ h, List.take_succ_eq_append_getElem h, runSum, List.map_append, List.sum_append]
  rfl

theorem drop_eq_getD_cons {ws : List Word} {k : Nat} (h : k < ws.length) : ws.drop k = ws.getD k 0 :: ws.drop (k + 1) := by
  rw [List.getD_eq_getElem _ _ h, List.drop_eq_getElem_cons h]

/-- The checks pass over a beginning none of whose pairs fails. -/
theorem rleCheck_eq_drop {ws : List Word} {k : Nat} (hk : k ≤ ws.length) (h : ∀ j, j < k → ¬ PairFails ws j) :
    rleCheck 0 0 ws = rleCheck k (runSum (ws.take k)) (ws.drop k) := by
  induction k with
  | zero => rfl
  | succ k ih =>
    rw [ih (by omega) fun j hj => h j (by omega), drop_eq_getD_cons hk, rleCheck_cons_of_passes (h k k.lt_succ_self),
      runSum_take_succ hk]

/-- The lowest failing pair decides the error. -/
theorem rleCheck_of_fails {ws : List Word} {k : Nat} (hk : k < ws.length) (hf : PairFails ws k)
    (h : ∀ j, j < k → ¬ PairFails ws j) : rleCheck 0 0 ws = .error (pairError (ws.getD k 0), pat32 k) := by
  rw [rleCheck_eq_drop hk.le h, drop_eq_getD_cons hk, rleCheck_cons_of_fails hf]

/-- With no failing pair the checks give the total. -/
theorem rleCheck_of_passes {ws : List Word} (h : ∀ j, j < ws.length → ¬ PairFails ws j) : rleCheck 0 0 ws = .ok (runSum ws) := by
  rw [rleCheck_eq_drop le_rfl h, List.drop_length, List.take_length, rleCheck]

theorem length_expand (ws : List Word) : (expand ws).length = runSum ws := by
  simp [expand_eq_flatMap, List.length_flatMap]

/-! ### The command RLE_DEC (R141) -/

theorem exec_rleDec (s : State) : exec .rleDec s = finish (bodyRleDec s) := rfl

section Decode
variable {s : State}

theorem exec_rleDec_of_error {e : ErrCode × Word} (h : rleCheck 0 0 (validPairs s) = .error e) :
    exec .rleDec s = .next (s.raise e.1 e.2) := by
  rw [exec_rleDec, bodyRleDec, h, ofCheck_error, bind_raised, finish_raised]

theorem exec_rleDec_of_total_ne {n : Nat} (h : rleCheck 0 0 (validPairs s) = .ok n) (hn : n ≠ 64) :
    exec .rleDec s = .next (s.raise .corruptRunSum (s.pcount.setWidth 32)) := by
  rw [exec_rleDec, bodyRleDec, h, ofCheck_ok, bind_ok, if_pos hn, finish_raised, pat32, BitVec.ofNat_toNat]

theorem exec_rleDec_of_total_eq (h : rleCheck 0 0 (validPairs s) = .ok 64) :
    exec .rleDec s = .next (s.withZbuf (fromList (expand (validPairs s)))).complete := by
  rw [exec_rleDec, bodyRleDec_ok rfl h, finish_ok]

end Decode

/-- Settles O34: the checks pass over the pairs before the lowest failing one, or over all of them to the total. -/
theorem rleDecodeResult : Obligations.RleDecodeResult := by
  refine ⟨decode_encode .rleDec, fun s => ⟨fun i hi hf hlow => ?_, fun hp hlt => ?_, fun hp heq => ?_⟩⟩
  · rw [exec_rleDec_of_error (rleCheck_of_fails hi hf hlow), ← number_pairError]
    rfl
  · have hlt : runSum (validPairs s) < 64 := by simpa using hlt
    rw [exec_rleDec_of_total_ne (rleCheck_of_passes hp) hlt.ne]
    rfl
  · have heq : runSum (validPairs s) = 64 := by simpa using heq
    refine ⟨fromList (expand (validPairs s)), ?_, ?_⟩
    · rw [exec_rleDec_of_total_eq ((rleCheck_of_passes hp).trans (congrArg _ heq))]
      dsimp only [State.complete, State.withZbuf]
    · rw [toList_fromList ((length_expand _).trans heq), expand_eq_flatMap]

/-! ### Round trip (R142) -/

theorem validPairs_issue (w : Word) (s : State) : validPairs (s.issue w) = validPairs s := rfl

theorem validPairs_complete (s : State) : validPairs s.complete = validPairs s := rfl

/-- The words of a sequence pass the checks of RLE_DEC. -/
theorem rleCheck_rleWords (z : Block 16) : rleCheck 0 0 (rleWords z) = .ok 64 := by
  rw [rleCheck_ok (fun w hw => ⟨lenField_of_mem_rleWords hw, run_pos_of_mem_rleWords hw⟩) (by rw [runSum_rleWords]),
    runSum_rleWords]

/-- R142: RLE_DEC on the words of a sequence puts the sequence into ZBUF. -/
theorem exec_rleDec_of_rleWords {s : State} {z : Block 16} (h : validPairs s = rleWords z) :
    exec .rleDec s = .next (s.withZbuf z).complete := by
  rw [exec_rleDec_of_total_eq (h ▸ rleCheck_rleWords z), h, expand_rleWords, fromList_toList]

/-- Settles O35: the issue between the two commands keeps the valid pairs, which are the words of ZBUF, and clears the record
of an error. -/
theorem rleRoundTrip : Obligations.RleRoundTrip := by
  intro s t w ht
  have hv : validPairs (t.issue w) = rleWords s.zbuf := by
    cases (exec_rleEnc s).symm.trans ht
    rw [validPairs_issue, validPairs_complete, validPairs_encoded]
  exact ⟨_, exec_rleDec_of_rleWords hv, rfl, rfl, rfl, rfl, rfl⟩

end Sys2Proof.Machine
end

section
/-! SUPPORT. The codebook commands alone: the checks of the pairs, counting on any codebook, and each command's result
(44_codebook.md R151 to R158). -/

namespace Sys2Proof.Machine

/-! ### Commands that end with their check -/

section Commands
variable (s : State)

theorem exec_cbClear : exec .cbClear s = finish (bodyCbClear s) := rfl
theorem exec_cbAccum : exec .cbAccum s = finish (bodyCbAccum s) := rfl
theorem exec_cbBuild : exec .cbBuild s = finish (bodyCbBuild s) := rfl
theorem exec_cbEncode : exec .cbEncode s = finish (bodyCbEncode s) := rfl
theorem exec_cbDecode : exec .cbDecode s = finish (bodyCbDecode s) := rfl
theorem exec_cbLoad : exec .cbLoad s = finish (bodyCbLoad s) := rfl
theorem exec_cbRead : exec .cbRead s = finish (bodyCbRead s) := rfl

variable {s}

/-- A command whose check fails records the check's error and has done nothing else (R200). -/
theorem finish_ofCheck_of_error {α : Type} {r : Except (ErrCode × Word) α} {f : α → State → Run Unit} {e : ErrCode × Word}
    (h : r = .error e) : finish ((ofCheck r s).bind f) = .next (s.raise e.1 e.2) := by
  rw [h, ofCheck_error, bind_raised, finish_raised]

theorem exec_cbAccum_of_error {e : ErrCode × Word} (h : accumulate s.cbDepth (validPairs s) s.cb = .error e) :
    exec .cbAccum s = .next (s.raise e.1 e.2) := finish_ofCheck_of_error h

theorem exec_cbLoad_of_error {e : ErrCode × Word} (h : loadEntry s.cbDepth s.regs.cbValue s.regs.cbCode s.cb = .error e) :
    exec .cbLoad s = .next (s.raise e.1 e.2) := finish_ofCheck_of_error h

theorem exec_cbAccum_of_ok {c : List Entry} (h : accumulate s.cbDepth (validPairs s) s.cb = .ok c) :
    exec .cbAccum s = .next (s.withCb c).complete := by
  rw [exec_cbAccum, bodyCbAccum_ok h, finish_ok]

theorem exec_cbLoad_of_ok {c : List Entry} (h : loadEntry s.cbDepth s.regs.cbValue s.regs.cbCode s.cb = .ok c) :
    exec .cbLoad s = .next (s.withCb c).complete := by
  rw [exec_cbLoad, bodyCbLoad, h, ofCheck_ok, bind_ok, finish_ok, State.withCb]

end Commands

/-- Settles O39: CB_CLEAR has no check, and completes with the empty codebook. -/
theorem cbClearEmpties : Obligations.CbClearEmpties := by
  refine ⟨decode_encode .cbClear, fun s => ?_⟩
  rw [exec_cbClear, bodyCbClear, finish_ok, State.complete]

/-! ### The checks of the pairs -/

/-- The checks of a command on the pairs from index `i` on, with no write among them: the lowest pair that `fails` gives its
error. -/
def checkPairs (fails : Word → Prop) [DecidablePred fails] (error : Word → ErrCode) (i : Nat) :
    List Word → Except (ErrCode × Word) Unit
  | [] => .ok ()
  | w :: ws => if fails w then .error (error w, pat32 i) else checkPairs fails error (i + 1) ws

section CheckPairs
variable {fails : Word → Prop} [DecidablePred fails] {error : Word → ErrCode}

theorem checkPairs_of_fails {ws : List Word} {k : Nat} (hk : k < ws.length) (hf : fails (ws.getD k 0))
    (hlow : ∀ j, j < k → ¬ fails (ws.getD j 0)) (i : Nat) :
    checkPairs fails error i ws = .error (error (ws.getD k 0), pat32 (i + k)) := by
  induction ws generalizing i k with
  | nil => exact absurd hk k.not_lt_zero
  | cons w ws ih =>
    cases k with
    | zero => exact if_pos hf
    | succ k =>
      have h0 : ¬ fails w := hlow 0 k.succ_pos
      rw [checkPairs, if_neg h0, ih (Nat.lt_of_succ_lt_succ hk) hf fun j hj => hlow (j + 1) (Nat.succ_lt_succ hj),
        List.getD_cons_succ, Nat.add_right_comm, Nat.add_assoc]

theorem checkPairs_of_passes {ws : List Word} (h : ∀ w ∈ ws, ¬ fails w) (i : Nat) : checkPairs fails error i ws = .ok () := by
  induction ws generalizing i with
  | nil => rfl
  | cons w ws ih => rw [checkPairs, if_neg (h w List.mem_cons_self), ih fun v hv => h v (List.mem_cons_of_mem _ hv)]

end CheckPairs

/-- That no index of a list fails, as a claim about its elements. -/
theorem forall_mem_of_forall_getD {p : Word → Prop} {ws : List Word} (h : ∀ i, i < ws.length → p (ws.getD i 0)) : ∀ w ∈ ws, p w := by
  intro w hw
  obtain ⟨i, hi, rfl⟩ := List.getElem_of_mem hw
  rw [← List.getD_eq_getElem _ 0 hi]
  exact h i hi

/-! ### Replacing the valid pairs -/

section Overwrite
variable (s : State)

/-- As many words as there are valid pairs become the valid pairs. -/
theorem validPairs_withPbuf_overwrite {ws : List Word} (h : ws.length = (validPairs s).length) :
    validPairs (s.withPbuf (overwrite s.pbuf ws)) = ws := by
  refine List.ext_getElem (by simp [h, validPairs]) fun i _ hi => ?_
  simp [validPairs, overwrite, hi]

/-- The valid pairs, replaced one for one. -/
theorem validPairs_withPbuf_overwrite_map (f : Word → Word) :
    validPairs (s.withPbuf (overwrite s.pbuf ((validPairs s).map f))) = (validPairs s).map f :=
  validPairs_withPbuf_overwrite s (List.length_map f)

theorem mem_validPairs {i : Fin 64} (h : i.val < s.pcount.toNat) : s.pbuf[i] ∈ validPairs s :=
  List.mem_take_iff_getElem.2 ⟨i.val, by simpa using h, by simp⟩

/-- Each valid pair is replaced by its image, and the elements past PCOUNT keep their contents. -/
theorem getElem_overwrite_map_validPairs (f : Word → Word) (i : Fin 64) :
    (overwrite s.pbuf ((validPairs s).map f))[i] = if i.val < s.pcount.toNat then f s.pbuf[i] else s.pbuf[i] := by
  split
  case isTrue h => simp [overwrite, validPairs, List.getElem?_take, h]
  case isFalse h => exact getElem_overwrite_of_length_le _ (by simp [validPairs]; omega)

end Overwrite

/-- The shape of CB_ENCODE and CB_DECODE: the valid pairs are checked, and then each of them is replaced (R154, R155). -/
def replacePairs (fails : Word → Prop) [DecidablePred fails] (error : Word → ErrCode) (f : Word → Word) (s : State) : Run Unit :=
  (ofCheck (checkPairs fails error 0 (validPairs s)) s).bind fun _ s =>
    .ok () (s.withPbuf (overwrite s.pbuf ((validPairs s).map f)))

section ReplacePairs
variable {fails : Word → Prop} [DecidablePred fails] {error : Word → ErrCode} {f : Word → Word} {s : State}

theorem finish_replacePairs_of_fails {k : Nat} (hk : k < (validPairs s).length) (hf : fails ((validPairs s).getD k 0))
    (hlow : ∀ j, j < k → ¬ fails ((validPairs s).getD j 0)) :
    finish (replacePairs fails error f s) = .next (s.raise (error ((validPairs s).getD k 0)) (pat32 k)) := by
  have h := checkPairs_of_fails (error := error) hk hf hlow 0
  rw [Nat.zero_add] at h
  exact finish_ofCheck_of_error h

theorem finish_replacePairs_of_passes (h : ∀ w ∈ validPairs s, ¬ fails w) :
    finish (replacePairs fails error f s) = .next (s.withPbuf (overwrite s.pbuf ((validPairs s).map f))).complete := by
  rw [replacePairs, checkPairs_of_passes h, ofCheck_ok, bind_ok, finish_ok]

end ReplacePairs

/-! ### CB_ENCODE and CB_DECODE (R154, R155) -/

/-- A pair that CB_ENCODE rejects: in code form, or of a value that has no code (R154). -/
abbrev EncodeFails (cb : List Entry) (w : Word) : Prop := lenField w ≠ 0 ∨ codeOf cb (symField w) = none

/-- The error of a pair that CB_ENCODE rejects. -/
def encodeError (w : Word) : ErrCode := if lenField w ≠ 0 then .pairForm else .unknownValue

theorem number_encodeError (w : Word) : (encodeError w).number = if lenField w ≠ 0 then 10 else 13 := apply_ite ..

/-- What CB_ENCODE makes of a pair whose value has a code. -/
def codeFormWord (cb : List Entry) (w : Word) : Word := encodedWord ((codeOf cb (symField w)).getD { len := 0, bits := 0 }) w

/-- R154: all checks of CB_ENCODE precede its writes. -/
theorem encodePairs_eq (cb : List Entry) (i : Nat) (ws : List Word) :
    encodePairs cb i ws = (checkPairs (EncodeFails cb) encodeError i ws).map fun _ => ws.map (codeFormWord cb) := by
  induction ws generalizing i with
  | nil => rfl
  | cons w ws ih =>
    rw [encodePairs, checkPairs, ih, encodeError]
    by_cases hl : lenField w ≠ 0
    · rw [if_pos hl, if_pos (.inl hl), if_pos hl]
      rfl
    · rw [if_neg hl, if_neg hl]
      rcases Option.eq_none_or_eq_some (codeOf cb (symField w)) with hc | ⟨c, hc⟩
      · rw [if_pos (.inr hc), hc]
        rfl
      · rw [if_neg (not_or.2 ⟨hl, by simp [hc]⟩), List.map_cons, codeFormWord, hc]
        cases checkPairs (EncodeFails cb) encodeError (i + 1) ws <;> rfl

/-- A pair that CB_DECODE rejects: in value form, or of a code that no entry has (R155). -/
abbrev DecodeFails (cb : List Entry) (w : Word) : Prop :=
  lenField w = 0 ∨ lookupCode cb { len := lenField w, bits := symField w } = none

/-- The error of a pair that CB_DECODE rejects. -/
def decodeError (w : Word) : ErrCode := if lenField w = 0 then .pairForm else .unknownCode

theorem number_decodeError (w : Word) : (decodeError w).number = if lenField w = 0 then 10 else 4 := apply_ite ..

/-- R155: all checks of CB_DECODE precede its writes. -/
theorem decodePairs_eq (cb : List Entry) (i : Nat) (ws : List Word) :
    decodePairs cb i ws = (checkPairs (DecodeFails cb) decodeError i ws).map fun _ => valueWords cb ws := by
  induction ws generalizing i with
  | nil => rfl
  | cons w ws ih =>
    rw [decodePairs, checkPairs, ih, decodeError]
    by_cases hl : lenField w = 0
    · rw [if_pos hl, if_pos (.inl hl), if_pos hl]
      rfl
    · rw [if_neg hl, if_neg hl]
      rcases Option.eq_none_or_eq_some (lookupCode cb { len := lenField w, bits := symField w }) with hc | ⟨e, hc⟩
      · rw [if_pos (.inr hc), hc]
        rfl
      · have hv : valueWords cb (w :: ws) = decodedWord e.value w :: valueWords cb ws := by
          rw [valueWords, List.map_cons, pairValue, hc]
          rfl
        rw [if_neg (not_or.2 ⟨hl, by simp [hc]⟩), hc, hv]
        cases checkPairs (DecodeFails cb) decodeError (i + 1) ws <;> rfl

theorem exec_cbEncode_eq (s : State) :
    exec .cbEncode s = finish (replacePairs (EncodeFails s.cb) encodeError (codeFormWord s.cb) s) := by
  rw [exec_cbEncode, bodyCbEncode, encodePairs_eq, replacePairs]
  cases checkPairs (EncodeFails s.cb) encodeError 0 (validPairs s) with
  | error e => rfl
  | ok _ => rw [Except.map, ofCheck_ok, bind_ok, ofCheck_ok, bind_ok, State.withPbuf]

theorem exec_cbDecode_eq (s : State) : exec .cbDecode s =
    finish (replacePairs (DecodeFails s.cb) decodeError (fun w => decodedWord (pairValue s.cb w) w) s) := by
  rw [exec_cbDecode, bodyCbDecode, decodePairs_eq, replacePairs]
  cases checkPairs (DecodeFails s.cb) decodeError 0 (validPairs s) with
  | error e => rfl
  | ok _ => rw [Except.map, ofCheck_ok, bind_ok, ofCheck_ok, bind_ok, State.withPbuf, valueWords]

/-- Settles O42: the lowest failing pair decides, or each pair that passes is replaced. -/
theorem cbEncodeResult : Obligations.CbEncodeResult := by
  refine ⟨decode_encode .cbEncode, fun s => ⟨fun i hi hf hlow => ?_, fun hp => ?_⟩⟩
  · rw [exec_cbEncode_eq, finish_replacePairs_of_fails (fails := EncodeFails s.cb) hi hf hlow, ← number_encodeError]
    rfl
  · have hp : ∀ w ∈ validPairs s, ¬ EncodeFails s.cb w := forall_mem_of_forall_getD hp
    refine ⟨overwrite s.pbuf ((validPairs s).map (codeFormWord s.cb)), ?_, fun i => ?_⟩
    · rw [exec_cbEncode_eq, finish_replacePairs_of_passes hp]
      dsimp only [State.complete, State.withPbuf]
    rw [getElem_overwrite_map_validPairs]
    split
    case isFalse => rfl
    case isTrue h =>
      obtain ⟨c, hc⟩ := Option.ne_none_iff_exists'.1 (not_or.1 (hp _ (mem_validPairs s h))).2
      exact ⟨c, hc, by rw [codeFormWord, hc]; rfl⟩

/-- Settles O43: the lowest failing pair decides, or each pair that passes is replaced. -/
theorem cbDecodeResult : Obligations.CbDecodeResult := by
  refine ⟨decode_encode .cbDecode, fun s => ⟨fun i hi hf hlow => ?_, fun hp => ?_⟩⟩
  · rw [exec_cbDecode_eq, finish_replacePairs_of_fails (fails := DecodeFails s.cb) hi hf hlow, ← number_decodeError]
    rfl
  · have hp : ∀ w ∈ validPairs s, ¬ DecodeFails s.cb w := forall_mem_of_forall_getD hp
    refine ⟨overwrite s.pbuf ((validPairs s).map fun w => decodedWord (pairValue s.cb w) w), ?_, fun i => ?_⟩
    · rw [exec_cbDecode_eq, finish_replacePairs_of_passes hp]
      dsimp only [State.complete, State.withPbuf]
    rw [getElem_overwrite_map_validPairs]
    split
    case isFalse => rfl
    case isTrue h =>
      obtain ⟨e, he⟩ := Option.ne_none_iff_exists'.1 (not_or.1 (hp _ (mem_validPairs s h))).2
      exact ⟨e, he, by simpa using List.find?_some he, by rw [pairValue, he]; rfl⟩

/-! ### Round trip (R158) -/

section RoundTrip
variable {d : Nat} {cb : List Entry} {w : Word}

/-- A value with a code is that of an entry with that code. -/
theorem exists_mem_of_codeOf {v : Value} {c : Code} (h : codeOf cb v = some c) : ∃ e ∈ cb, e.value = v ∧ e.code = some c := by
  obtain ⟨e, he, hc⟩ := Option.bind_eq_some_iff.1 h
  exact ⟨e, List.mem_of_find?_eq_some he, by simpa using List.find?_some he, hc⟩

variable (h : CbWf d cb) (hc : (codeOf cb (symField w)).isSome = true)
include h hc

theorem not_decodeFails_codeFormWord : ¬ DecodeFails cb (codeFormWord cb w) := by
  obtain ⟨c, hc⟩ := Option.isSome_iff_exists.1 hc
  obtain ⟨e, he, hv, hec⟩ := exists_mem_of_codeOf hc
  obtain ⟨hl, f, hf⟩ := (decodable_iff cb _).1 (decodable_encodedWord h he hec w)
  rw [codeFormWord, hc]
  exact not_or.2 ⟨hl, Option.ne_none_iff_exists'.2 ⟨f, hf⟩⟩

/-- The value-form word of the code of a value-form word is the word, without its reserved bits. -/
theorem decodedWord_codeFormWord (hl : lenField w = 0) :
    decodedWord (pairValue cb (codeFormWord cb w)) (codeFormWord cb w) = maskPair w := by
  obtain ⟨c, hc⟩ := Option.isSome_iff_exists.1 hc
  obtain ⟨e, he, hv, hec⟩ := exists_mem_of_codeOf hc
  have hp : pairValue cb (codeFormWord cb w) = symField w := by
    rw [codeFormWord, hc, ← hv]
    exact pairValue_encodedWord h he hec w
  rw [hp, decodedWord, codeFormWord, encodedWord, eobField_pairWord, runField_pairWord, ← hl, pairWord_fields]

end RoundTrip

/-- Settles O44: each code-form word stands for the value-form word it was made of. -/
theorem codebookRoundTrip : Obligations.CodebookRoundTrip := by
  intro s t w hwf hs ht
  have hwf := (codebook_wf_iff _ _).1 hwf
  have hpass : ∀ p ∈ validPairs s, ¬ EncodeFails s.cb p := fun p hp => by
    obtain ⟨hl, hc⟩ := hs p hp
    exact not_or.2 ⟨not_not.2 hl, Option.isSome_iff_ne_none.1 hc⟩
  obtain ⟨hcb, hv⟩ : t.cb = s.cb ∧ validPairs t = (validPairs s).map (codeFormWord s.cb) := by
    rw [exec_cbEncode_eq, finish_replacePairs_of_passes hpass] at ht
    rw [← Host.Outcome.next.inj ht]
    exact ⟨(State.complete_cb _).trans (State.withPbuf_cb ..), by rw [validPairs_complete, validPairs_withPbuf_overwrite_map]⟩
  have hdec : ∀ p ∈ validPairs (t.issue w), ¬ DecodeFails (t.issue w).cb p := by
    rw [validPairs_issue, hv, State.issue_cb, hcb, List.forall_mem_map]
    exact fun p hp => not_decodeFails_codeFormWord hwf (hs p hp).2
  refine ⟨_, (exec_cbDecode_eq _).trans (finish_replacePairs_of_passes hdec), by simp, by simp, by simpa using hcb, ?_⟩
  rw [validPairs_complete, validPairs_withPbuf_overwrite_map, validPairs_issue, hv, List.map_map, State.issue_cb, hcb]
  exact List.map_congr_left fun p hp => decodedWord_codeFormWord hwf (hs p hp).2 (hs p hp).1

/-! ### CB_ACCUM (R152) -/

theorem newValues_eq (known vs : List Value) : newValues known vs = (vs.filter fun v => v ∉ known).eraseDups := by
  induction vs generalizing known with
  | nil => rfl
  | cons v vs ih =>
    rw [newValues]
    split
    case isTrue h => rw [ih, List.filter_cons_of_neg (by simpa using h)]
    case isFalse h =>
      rw [ih, List.filter_cons_of_pos (by simpa using h), List.eraseDups_cons, List.filter_filter]
      congr 3
      funext x
      simp [Bool.beq_eq_decide_eq]

/-- The new values are those that the codebook does not have, each once, in order of first occurrence. -/
theorem newValues_map_value (cb : List Entry) (vs : List Value) :
    newValues (cb.map fun e => e.value) vs = (vs.filter fun v => (lookupValue cb v).isNone).eraseDups := by
  rw [newValues_eq]
  congr 2
  funext v
  rw [Bool.eq_iff_iff, decide_eq_true_iff, Option.isNone_iff_eq_none, lookupValue_none]

/-- An entry whose value `n` more pairs hold: its weight grows by `n`, up to the greatest weight. -/
def Entry.gain (n : Nat) (e : Entry) : Entry := { e with weight := BitVec.ofNat 32 (min (2 ^ 32 - 1) (e.weight.toNat + n)) }

/-- The entry of a value that no pair has held yet. -/
def newEntry (v : Value) : Entry := { value := v, weight := 0, code := none }

theorem Entry.gain_gain (m n : Nat) (e : Entry) : (e.gain m).gain n = e.gain (n + m) := by
  unfold Entry.gain
  rw [BitVec.toNat_ofNat]
  congr 2
  omega

theorem Entry.gain_one (e : Entry) : e.gain 1 = { e with weight := bumpWeight e.weight } := by
  unfold Entry.gain bumpWeight
  congr 1
  have hlt := e.weight.isLt
  split
  case isTrue h =>
    rw [h]
    decide
  case isFalse h =>
    rw [← BitVec.toNat_inj, BitVec.toNat_allOnes] at h
    rw [min_eq_right (by omega), ← BitVec.toNat_inj, BitVec.toNat_ofNat, BitVec.toNat_add]
    rfl

theorem lookupValue_cons (e : Entry) (es : List Entry) (u : Value) :
    lookupValue (e :: es) u = if e.value = u then some e else lookupValue es u := by
  unfold lookupValue
  rw [List.find?_cons]
  by_cases h : e.value = u
  · simp [h]
  · simp [h, beq_false_of_ne h]

/-- One pair counts for its own value alone. -/
theorem lookupValue_countValue (v : Value) (cb : List Entry) (u : Value) : lookupValue (countValue v cb) u =
    if u = v then some (((lookupValue cb u).getD (newEntry u)).gain 1) else lookupValue cb u := by
  induction cb with
  | nil =>
    rw [countValue, lookupValue_cons]
    by_cases h : u = v
    · rw [if_pos h.symm, if_pos h, h]
      rfl
    · rw [if_neg (Ne.symm h), if_neg h]
  | cons e es ih =>
    rw [countValue, lookupValue_cons e]
    by_cases hv : e.value = v
    · rw [if_pos hv, ← Entry.gain_one, lookupValue_cons, ← hv]
      by_cases hu : e.value = u
      · rw [if_pos hu, if_pos hu.symm]
        exact if_pos (c := e.value = u) hu
      · rw [if_neg hu, if_neg (Ne.symm hu)]
        exact if_neg (c := e.value = u) hu
    · rw [if_neg hv, lookupValue_cons, ih]
      by_cases hu : e.value = u
      · rw [if_pos hu, if_pos hu, if_neg (hu ▸ hv)]
      · rw [if_neg hu, if_neg hu]

/-- Each pair counts for its value. -/
theorem lookupValue_countValues (vs : List Value) (cb : List Entry) (u : Value) : lookupValue (countValues vs cb) u =
    if vs.count u = 0 then lookupValue cb u else some (((lookupValue cb u).getD (newEntry u)).gain (vs.count u)) := by
  induction vs generalizing cb with
  | nil => rfl
  | cons v vs ih =>
    change lookupValue (countValues vs (countValue v cb)) u = _
    rw [ih, lookupValue_countValue]
    by_cases h : u = v
    · subst h
      rw [if_pos rfl, List.count_cons_self, if_neg (Nat.succ_ne_zero _), Option.getD_some, Entry.gain_gain]
      split
      case isTrue h0 => rw [h0]
      case isFalse => rfl
    · rw [if_neg h, List.count_cons_of_ne (Ne.symm h)]

/-- R152's check. -/
theorem valueFormCheck_eq (i : Nat) (ws : List Word) :
    valueFormCheck i ws = checkPairs (fun w => lenField w ≠ 0) (fun _ => .pairForm) i ws := by
  induction ws generalizing i with
  | nil => rfl
  | cons w ws ih => rw [valueFormCheck, checkPairs, ih]

section Accumulate
variable {ws : List Word} {cb : List Entry} {depth : Nat}

theorem accumulate_of_codeForm {k : Nat} (hk : k < ws.length) (hf : lenField (ws.getD k 0) ≠ 0)
    (hlow : ∀ j, j < k → lenField (ws.getD j 0) = 0) : accumulate depth ws cb = .error (.pairForm, pat32 k) := by
  rw [accumulate, valueFormCheck_eq, checkPairs_of_fails (fails := fun w => lenField w ≠ 0) hk hf fun j hj => not_not.2 (hlow j hj),
    Nat.zero_add]

variable (h : ∀ w ∈ ws, lenField w = 0)
include h

theorem accumulate_of_room
    (hd : cb.length + (((ws.map symField).filter fun v => (lookupValue cb v).isNone).eraseDups).length ≤ depth) :
    accumulate depth ws cb = .ok (countValues (ws.map symField) cb) := by
  rw [accumulate, valueFormCheck_ok h]
  dsimp only
  rw [newValues_map_value, if_neg hd.not_gt]

theorem accumulate_of_no_room
    (hd : depth < cb.length + (((ws.map symField).filter fun v => (lookupValue cb v).isNone).eraseDups).length) :
    accumulate depth ws cb = .error (.codebookFull,
      ((((ws.map symField).filter fun v => (lookupValue cb v).isNone).eraseDups).getD (depth - cb.length) 0).setWidth 32) := by
  rw [accumulate, valueFormCheck_ok h]
  dsimp only
  rw [newValues_map_value, if_pos hd, List.getD_eq_getElem?_getD]

end Accumulate

/-- A block has at most 64 pairs. -/
theorem length_validPairs_le (s : State) : (validPairs s).length ≤ 64 := by
  rw [validPairs, List.length_take, Vector.length_toList]
  exact Nat.min_le_right ..

/-- The weight of a new value is the number of its pairs, which is too small to saturate. -/
theorem newEntry_gain {n : Nat} (h : n < 2 ^ 32) (v : Value) :
    (newEntry v).gain n = { value := v, weight := BitVec.ofNat 32 n, code := none } := by
  unfold newEntry Entry.gain
  simp only [BitVec.ofNat_eq_ofNat, BitVec.toNat_zero, Nat.zero_add, min_eq_right (Nat.le_sub_one_of_lt h)]

/-- Settles O40: the pairs are counted one by one, and each value's entry gains the number of its pairs. -/
theorem cbAccumResult : Obligations.CbAccumResult := by
  refine ⟨decode_encode .cbAccum, fun s i hi hf hlow => ?_, fun s _ hl hd => ?_, fun s hl hd => ?_⟩
  · rw [exec_cbAccum_of_error (accumulate_of_codeForm hi hf hlow)]
    rfl
  · refine ⟨countValues ((validPairs s).map symField) s.cb, exec_cbAccum_of_ok (accumulate_of_room hl hd), ?_, fun v => ?_⟩
    · rw [countValues_map]
      exact congrArg _ (newValues_map_value ..)
    · rw [lookupValue_countValues]
      have hc : ((validPairs s).map symField).count v < 2 ^ 32 :=
        (List.count_le_length.trans ((List.length_map ..).trans_le (length_validPairs_le s))).trans_lt (by decide)
      cases lookupValue s.cb v with
      | some e => rfl
      | none => rw [Option.getD_none, newEntry_gain hc]
  · rw [exec_cbAccum_of_error (accumulate_of_no_room hl hd)]
    rfl

/-! ### CB_BUILD (R153) -/

theorem assignCodes_map_value_weight (r : Nat) (cb : List Entry) :
    (assignCodes r cb).map (fun e => (e.value, e.weight)) = cb.map fun e => (e.value, e.weight) := by
  induction cb generalizing r with
  | nil => rfl
  | cons e es ih => rw [assignCodes, List.map_cons, ih, List.map_cons]

/-- Values and weights are kept. -/
theorem buildCodebook_perm (cb : List Entry) :
    ((buildCodebook cb).map fun e => (e.value, e.weight)).Perm (cb.map fun e => (e.value, e.weight)) := by
  rw [buildCodebook, assignCodes_map_value_weight]
  exact (List.perm_insertionSort _ cb).map _

/-- Settles O41: the codebook is sorted by the rank order, and the codes are given by position. -/
theorem cbBuildResult : Obligations.CbBuildResult := by
  refine ⟨decode_encode .cbBuild, fun s => ⟨buildCodebook s.cb, ?_, buildCodebook_perm s.cb, ?_, fun r e => buildCodebook_code⟩⟩
  · rw [exec_cbBuild, bodyCbBuild, finish_ok, State.complete]
  · exact (buildCodebook_pairwise s.cb).imp (rankLe_iff _ _).1

/-! ### CB_LOAD and CB_READ (R156, R157) -/

theorem isSome_lookupValue (cb : List Entry) (v : Value) : (lookupValue cb v).isSome = true ↔ ∃ e ∈ cb, e.value = v := by
  simp [lookupValue]

theorem isSome_lookupCode (cb : List Entry) (c : Code) : (lookupCode cb c).isSome = true ↔ ∃ e ∈ cb, e.code = some c := by
  simp [lookupCode]

theorem not_legal_iff (c : Code) : c.legal = false ↔ c.len.toNat = 0 ∨ 16 < c.len.toNat ∨ 2 ^ c.len.toNat ≤ c.bits.toNat := by
  rw [← Bool.not_eq_true, legal_iff]
  omega

section Load
variable {depth : Nat} {v : Value} {c : Code} {cb : List Entry}

theorem loadEntry_of_corrupt (h : c.legal = false ∨ (∃ e ∈ cb, e.value = v) ∨ ∃ e ∈ cb, e.code = some c) :
    loadEntry depth v c cb = .error (.corruptCodebook, pat32 cb.length) := by
  rw [← isSome_lookupValue, ← isSome_lookupCode, ← Bool.or_eq_true] at h
  unfold loadEntry
  cases hl : c.legal with
  | false => rfl
  | true => exact if_pos (h.resolve_left (by simp [hl]))

variable (hl : c.legal = true) (hd : ¬ ((∃ e ∈ cb, e.value = v) ∨ ∃ e ∈ cb, e.code = some c))
include hl hd

theorem loadEntry_of_new : loadEntry depth v c cb =
    if cb.length = depth then .error (.codebookFull, v.setWidth 32) else .ok (cb ++ [{ value := v, weight := 0, code := some c }]) := by
  rw [← isSome_lookupValue, ← isSome_lookupCode, ← Bool.or_eq_true] at hd
  rw [loadEntry, hl, if_neg (by decide), if_neg hd]

end Load

/-- Settles O45: the checks of CB_LOAD in their order. -/
theorem cbLoadResult : Obligations.CbLoadResult := by
  refine ⟨decode_encode .cbLoad, fun s => ?_⟩
  dsimp only
  rw [← not_legal_iff]
  refine ⟨fun h => ?_, fun hl hd hf => ?_, fun hl hd hf => ?_⟩
  · rw [exec_cbLoad_of_error (loadEntry_of_corrupt h)]
    rfl
  · rw [exec_cbLoad_of_error ((loadEntry_of_new (eq_true_of_ne_false hl) hd).trans (if_pos hf))]
    rfl
  · rw [exec_cbLoad_of_ok ((loadEntry_of_new (eq_true_of_ne_false hl) hd).trans (if_neg hf))]
    rfl

/-- Settles O46: the index has an entry or is past the last. -/
theorem cbReadResult : Obligations.CbReadResult := by
  refine ⟨decode_encode .cbRead, fun s e he => ?_, fun s h => ?_⟩
  · rw [exec_cbRead, bodyCbRead, he]
    cases he : e.code <;> simp [he, State.complete]
  · rw [exec_cbRead, bodyCbRead, List.getElem?_eq_none h]
    dsimp only
    rw [finish_raised, pat32, BitVec.ofNat_toNat]
    rfl

end Sys2Proof.Machine
end

section
/-! SUPPORT. PAD_FETCH and CROP_STORE as whole commands: their geometry errors, and their results in an undisturbed run
(45_geometry.md R170 to R174). -/

namespace Sys2Proof.Machine

/-! ### The geometry check (R172) -/

/-- The size of the image as one word, HEIGHT above WIDTH. -/
theorem sizeWord_eq_append (r : Regs) : sizeWord r = r.height ++ r.width := by
  rw [sizeWord, BitVec.append_def, BitVec.shiftLeftZeroExtend_eq, BitVec.setWidth'_eq]

section Check
variable {r : Regs}

theorem checkGeometry_empty (sel : Bool) (h : r.width = 0 ∨ r.height = 0) :
    checkGeometry sel r = .error (.invalidGeometry, r.height ++ r.width) := by
  unfold checkGeometry
  rw [if_pos h, sizeWord_eq_append]

theorem checkGeometry_unselected (hw : r.width ≠ 0) (hh : r.height ≠ 0)
    (h : blkCols r ≤ r.blkCol.toNat ∨ blkRows r ≤ r.blkRow.toNat) :
    checkGeometry true r = .error (.invalidGeometry, blkSelWord r) := by
  unfold checkGeometry
  rw [if_neg (not_or.2 ⟨hw, hh⟩), if_pos (by simpa using h)]

end Check

/-! ### The two commands, by the outcome of the check -/

section Commands
variable {s : State}

theorem exec_padFetch (s : State) : exec .padFetch s = execPadFetch s := rfl
theorem exec_cropStore (s : State) : exec .cropStore s = execCropStore s := rfl

/-- A geometry error is recorded, and nothing else is done: CBUF is lost only to a BUS_ERROR (U7, R203). -/
theorem exec_of_geometryError {i : Instr} (hi : i = .padFetch ∨ i = .cropStore) {info : Word}
    (h : checkGeometry true s.regs = .error (.invalidGeometry, info)) : exec i s = .next (s.raise .invalidGeometry info) := by
  rcases hi with rfl | rfl
  · rw [exec_padFetch, execPadFetch, h, ofCheck_error, bind_raised, atEnd_raised, finish_raised]
    rfl
  · exact finish_ofCheck_of_error h

variable (hu : s.Undisturbed) (hg : checkGeometry true s.regs = .ok ())
include hu hg

theorem exec_padFetch_did : exec .padFetch s = .next ((s.did (fetchRequests s.regs s.regs.blkRow.toNat s.regs.blkCol.toNat)).withCbuf
    (imageBlock s s.regs.blkRow.toNat s.regs.blkCol.toNat)).complete := by
  rw [exec_padFetch, execPadFetch, hg, ofCheck_ok, bind_ok, fetchBlock_did hu, atEnd_ok, finish_ok, id_eq]

theorem exec_cropStore_did :
    exec .cropStore s = .next (s.did ((selectedCells s.regs).map (cellWrite s))).complete := by
  rw [exec_cropStore, execCropStore, hg, ofCheck_ok, bind_ok, storeBlock_did hu, finish_ok]
  rfl

end Commands

/-! ### The fetched block -/

/-- The cells of a block as plain numbers. -/
theorem map_filter_range {α : Type} (n : Nat) (p : Nat → Bool) (f : Nat → α) :
    ((List.range n).filter p).map f = ((List.finRange n).filter fun i => p i.val).map fun i => f i.val := by
  rw [← List.map_coe_finRange_eq_range, List.filter_map, List.map_map]
  rfl

theorem toNat_sample (p : Byte) : (sample p).toNat = 256 * p.toNat := by
  rw [sample, BitVec.toNat_shiftLeft, BitVec.toNat_setWidth, Nat.shiftLeft_eq]
  omega

theorem toNat_imageBlock (s : State) (row col : Nat) (n : Fin 64) : (imageBlock s row col)[n].toNat =
    if cellInside s.regs row col n then 256 * (s.byte (pixAddr s.regs (cellY row n) (cellX col n))).toNat else 0 := by
  rw [imageBlock_getElem, apply_ite BitVec.toNat, toNat_sample]
  rfl

/-- Transactions that store nothing show in the log alone. -/
theorem complete_did_of_pure {l : List Request} (hl : ∀ q ∈ l, q.pure = true) (s : State) :
    (s.did l).complete = { s.complete with busLog := l.reverse ++ s.busLog } := by
  unfold State.did
  rw [foldl_perform_pure hl]
  rfl

/-! ### Obligations -/

/-- Settles O47: each of the two checks gives its error, which is recorded and nothing else. -/
theorem geometryErrors : Obligations.GeometryErrors := fun _ _ hi =>
  ⟨fun h => exec_of_geometryError hi (checkGeometry_empty true h),
    fun hw hh h => exec_of_geometryError hi (checkGeometry_unselected hw hh h)⟩

/-- Settles O48: CBUF is the padded block, fetched by reads, which leave memory as it is. -/
theorem padFetchResult : Obligations.PadFetchResult := by
  intro s hu hw hh hc hr y x inside addr
  refine ⟨imageBlock s s.regs.blkRow.toNat s.regs.blkCol.toNat, ?_, toNat_imageBlock s _ _⟩
  rw [exec_padFetch_did hu (checkGeometry_selected hw hh hc hr), map_filter_range]
  exact congrArg (fun t => Host.Outcome.next (State.withCbuf (imageBlock s s.regs.blkRow.toNat s.regs.blkCol.toNat) t))
    (complete_did_of_pure pure_of_mem_cellReads s)

/-- Settles O49: the bytes stored are those of the selected cells, at different addresses. -/
theorem cropStoreResult : Obligations.CropStoreResult := by
  intro s hu hm hw hh hc hr y x inside addr
  refine ⟨_, fun n => pixel s.cbuf[n], exec_cropStore_did hu (checkGeometry_selected hw hh hc hr), fun n => toNat_pixel _,
    fun n hn => ?_, fun a ha => ?_⟩
  · exact memGet_cellWrites hm (List.Subset.refl _) (List.mem_filter.2 ⟨List.mem_finRange n, hn⟩)
  · exact memGet_cellWrites_other hm fun n hn => ha n (List.mem_filter.1 hn).2

end Sys2Proof.Machine
end

section
/-! SUPPORT. A step that runs a command, and NOP (46_sequencer.md R180, R181). -/

namespace Sys2Proof.Machine

theorem runCommand_of_ok {w : Word} {i : Instr} (h : decode w = .ok i) (s : State) : runCommand w s = exec i s := by
  unfold runCommand
  rw [h]

theorem exec_nop (s : State) : exec .nop s = .next s.complete := rfl

/-- Settles O4. -/
theorem stepRunsDecodedCommand : Obligations.StepRunsDecodedCommand := fun s _ _ hr hw hd hi =>
  (step_eq_runCommand hr hw hd).trans (runCommand_of_ok hi s)

/-- Settles O24: NOP has no body, so that only its end is left. -/
theorem nopCompletes : Obligations.NopCompletes := by
  refine ⟨decode_encode .nop, fun s => ?_⟩
  rw [exec_nop, State.complete]

end Sys2Proof.Machine
end

section
/-! SUPPORT. SEQ_COMPRESS alone: its result where every block fits, and its record and progress where one does not
(46_sequencer.md R182). -/

namespace Sys2Proof.Machine

/-! ### How much a block needs -/

/-- R140: a block needs one word at least, and 64 at most. -/
theorem length_valueStream_bounds (s : State) (k : Nat) : k ≤ (valueStream s k).length ∧ (valueStream s k).length ≤ 64 * k := by
  induction k with
  | zero => exact ⟨Nat.zero_le _, Nat.le_refl _⟩
  | succ k ih =>
    have h1 := rleWords_pos (blockValues s k)
    have h2 := rleWords_length (blockValues s k)
    rw [valueStream_succ, List.length_append, blockStream_eq]
    omega

/-- There are 65536 values. -/
theorem length_eraseDups_le (vs : List Value) : vs.eraseDups.length ≤ 65536 := by
  have h := (nodup_eraseDups vs).map BitVec.toFin_injective
  simpa using h.length_le_card

theorem length_streamValues_le (s : State) (k : Nat) : (streamValues s k).length ≤ 65536 := length_eraseDups_le _

/-! ### Every block fits -/

theorem legalStream_codeStream {s : State} (hf : blocksFit s (blkCount s.regs)) :
    legalStream (streamCodebook (valueStream s (blkCount s.regs))) (blkCount s.regs) (codeStream s) := by
  refine ⟨codeBlocks s, by simp [codeBlocks], List.all_eq_true.2 fun b hb => ?_, codeBlocks_flatten s⟩
  obtain ⟨k, hk, rfl⟩ := List.mem_map.1 hb
  exact legalBlock_codeBlock hf (List.mem_range.1 hk)

theorem compressRequests_eq (s : State) (ws : List Word) : compressRequests s ws =
    (List.range (blkCount s.regs)).flatMap (compressBlockRequests s) ++ substRequests s.regs ws := rfl

section Fits
variable {s u : State} (hs : CompressStart s) (hf : blocksFit s (blkCount s.regs))
  (hI : SubstInv s (valueStream s (blkCount s.regs)).length u)
include hs hf hI

/-- The bytes outside the stream are as they were. -/
theorem SubstInv.byte_outside {a : Addr} (ha : inStream s.regs (valueStream s (blkCount s.regs)).length a = false) :
    u.byte a = s.byte a := by
  have hn := length_codeStream s
  have hl : 4 * (valueStream s (blkCount s.regs)).length ≤ 2 ^ 32 := by
    have := hs.cap_le
    have := hf.1
    omega
  rw [State.byte, hI.mem, List.take_of_length_le hn.le, memGet_streamed (streamed_wf hs.mem _) (hn ▸ hl) (hn ▸ ha),
    memGet_streamed hs.mem hl ha]

omit hs hf in
theorem SubstInv.busLog_eq : u.busLog = (compressRequests s (codeStream s)).reverse ++ s.busLog := by
  rw [hI.busLog, List.take_of_length_le (length_codeStream s).le, compressRequests_eq, List.reverse_append, List.append_assoc]

end Fits

/-- R182: SEQ_COMPRESS of blocks that fit. -/
theorem exec_seqCompress_ok {s : State} (hs : CompressStart s) (hq : qualityLegal s.regs = true) (hf : blocksFit s (blkCount s.regs)) :
    ∃ u, exec .seqCompress s = .next u.setStrmLen.freeScratch.complete ∧
      SubstInv s (valueStream s (blkCount s.regs)).length u := by
  obtain ⟨u, hu, hI⟩ := bodySeqCompress_ok hs hq hf
  exact ⟨u, congrArg (fun p => finish (sequenceEnd p)) hu, hI⟩

/-- Settles O55: blocks that fit are all coded, and the coded blocks are legal. -/
theorem compressCompletes : Obligations.CompressCompletes := by
  refine ⟨fun s hu hm h1 h2 hw hh ho hf => ?_, fun s k =>
    ⟨(length_valueStream_bounds s k).1, (length_valueStream_bounds s k).2, length_streamValues_le s k⟩⟩
  have hs : CompressStart s := ⟨hu, hm, hw, hh, ho⟩
  obtain ⟨u, he, hI⟩ := exec_seqCompress_ok hs ((qualityLegal_iff s.regs).2 ⟨h1, h2⟩) hf
  have hcb : u.setStrmLen.freeScratch.complete.cb = streamCodebook (valueStream s (blkCount s.regs)) := by simpa using hI.cb
  have hst := hI.strmWords hs hf (t := u.setStrmLen.freeScratch.complete) (by simp) (by simp [hI.regs])
  have hd : u.setStrmLen.freeScratch.complete.cbDepth = s.cbDepth := by simp [State.cbDepth, hI.depth]
  refine ⟨_, (valueStream s (blkCount s.regs)).length, he, ?_, ?_, rfl, hf.1.trans_lt s.regs.strmCap.isLt, ?_, ?_, ?_, ?_, ?_⟩
  · simp [hI.status]
  · simp [hI.regs, hI.j, pat32]
  · rw [hcb, hst]
    exact legalStream_codeStream hf
  · rw [hd, hcb]
    exact (codebook_wf_iff _ _).2 (valueCodebook_wf hf)
  · rw [hcb]
    exact fun r e => buildCodebook_code
  · intro a ha
    rw [State.byte, State.complete_mem, State.freeScratch_mem, State.setStrmLen_mem]
    exact hI.byte_outside hs hf ha
  · rw [hst]
    simpa using hI.busLog_eq

/-! ### A block that does not fit -/

/-- A counted loop stops at the first of its bodies that raises an error. -/
theorem forCount_of_raised {body : Nat → State → Run Unit} {m k n : Nat} (hm : m < k) {s t u : State} {c : ErrCode} {i : Word}
    (h : forCount body m n s = .ok () t) (hr : body (n + m) t = .raised c i u) : forCount body k n s = .raised c i u := by
  obtain ⟨k, rfl⟩ : ∃ j, k = j + 1 := ⟨k - 1, by omega⟩
  induction m generalizing k n s with
  | zero =>
    obtain rfl : s = t := (Run.ok.inj h).2
    rw [forCount_succ, show body n s = _ from hr, bind_raised]
  | succ m ih =>
    rw [forCount_succ] at h ⊢
    cases hb : body n s with
    | ok _ v =>
      rw [hb, bind_ok] at h
      rw [bind_ok]
      obtain ⟨k, rfl⟩ : ∃ j, k = j + 1 := ⟨k - 1, by omega⟩
      exact ih h (by rwa [Nat.add_right_comm, Nat.add_assoc]) k (by omega)
    | raised _ _ _ | abandoned _ | fault _ | refused _ => exact nomatch hb ▸ h

/-- The state of SEQ_COMPRESS, begun in `s`, where block `b` does not fit: the words `counted` have been counted, and the words
`written` written. -/
structure CompressStop (s : State) (b : Nat) (counted written : List Word) (u : State) : Prop where
  regs : u.regs = { s.regs with blkDone := BitVec.ofNat 32 b, strmPtr := BitVec.ofNat 32 written.length }
  status : u.status = { s.status with qv := true, sat := s.status.sat || streamSaturates s (b + 1) }
  qmat : u.qmat = matrixOf s.regs.quality.toNat
  cb : u.cb = countedCodebook counted
  mem : u.mem = streamed s.regs written s.mem
  busLog : u.busLog = ((List.range b).flatMap (compressBlockRequests s) ++ codingRequests s b ++
    writeRequests s.regs (valueStream s b).length (written.drop (valueStream s b).length)).reverse ++ s.busLog

section Stops
variable {s u : State} {b : Nat} (hs : CompressStart s) (hI : CompressInv s b u) (hf : blocksFit s b)
include hI

theorem CompressInv.coded_stop : CompressStop s b (valueStream s b) (valueStream s b) (u.coded b (nthBlock s b)) where
  regs := by simp [hI.regs, pat32]
  status := by simp [hI.status, hI.qmat, streamSaturates_succ, Bool.or_assoc]
  qmat := by simpa using hI.qmat
  cb := by simpa using hI.cb
  mem := by simpa using hI.mem
  busLog := by simp [hI.regs, hI.busLog, codingRequests, writeRequests_nil]

include hs hf

/-- R182: the values of block `b` fit the codebook, and its words do not fit the stream. -/
theorem CompressInv.overflow_stop (h : (countedCodebook (valueStream s (b + 1))).length ≤ s.cbDepth)
    (hc : s.regs.strmCap.toNat < (valueStream s (b + 1)).length) :
    ∃ v, Machine.compressBlock b u = .raised .streamOverflow s.regs.strmCap v ∧
      CompressStop s b (valueStream s (b + 1)) ((valueStream s (b + 1)).take s.regs.strmCap.toNat) v := by
  have hw : (valueStream s (b + 1)).take s.regs.strmCap.toNat =
      valueStream s b ++ (blockStream s b).take (s.regs.strmCap.toNat - (valueStream s b).length) := by
    rw [valueStream_succ, List.take_append, List.take_of_length_le hf.1]
  have hl : ((valueStream s (b + 1)).take s.regs.strmCap.toNat).length = s.regs.strmCap.toNat := by
    rw [List.length_take, Nat.min_eq_left hc.le]
  exact ⟨_, hI.streamOverflow hs hf h hc, {
    regs := by simp [hI.regs, hl, pat32]
    status := by simpa using hI.coded_stop.status
    qmat := by simpa using hI.qmat
    cb := by simp
    mem := by simp [hI.mem, hw, streamed_append]
    busLog := by simp [hI.busLog, hI.regs, hw, codingRequests] }⟩

end Stops

/-- R182: the words of a stopped SEQ_COMPRESS are the beginning of the stream in value form. -/
theorem CompressStop.strmWords {s u t : State} {b : Nat} {counted written : List Word} (hs : CompressStart s)
    (h : CompressStop s b counted written u) (hl : written.length ≤ s.regs.strmCap.toNat) (hm : t.mem = u.mem)
    (hr : t.regs.strmBase = s.regs.strmBase) : strmWords t written.length = written := by
  have := hs.cap_le
  refine List.ext_getElem (by simp [Machine.strmWords]) fun i h1 h2 => ?_
  simp only [Machine.strmWords, List.getElem_map, List.getElem_range, State.strmWord]
  rw [hm, h.mem, strmAddr_congr hr, memGet32_streamed hs.mem (by omega) (by omega), List.getElem?_eq_getElem h2, Option.getD_some]

theorem exec_seqCompress_of_raised {s t u : State} (hs : CompressStart s) (hq : qualityLegal s.regs = true) {b : Nat}
    (hb : b < blkCount s.regs) {c : ErrCode} {i : Word} (ht : forCount compressBlock b 0 s.generated.startCompress = .ok () t)
    (hr : compressBlock b t = .raised c i u) : exec .seqCompress s = .next (u.freeScratch.raise c i) := by
  change finish (sequenceEnd (bodySeqCompress s)) = _
  rw [bodySeqCompress_started hs hq, forCount_of_raised hb ht (by rwa [Nat.zero_add])]
  rfl

/-- R182: SEQ_COMPRESS whose block `b` is the first that does not fit. -/
theorem exec_seqCompress_stop {s : State} (hs : CompressStart s) (hq : qualityLegal s.regs = true) {b : Nat}
    (hb : b < blkCount s.regs) (hf : blocksFit s b) (hn : ¬ blocksFit s (b + 1)) :
    if s.cbDepth < (streamValues s (b + 1)).length then
      ∃ u, exec .seqCompress s =
          .next (u.freeScratch.raise .codebookFull (((streamValues s (b + 1)).getD s.cbDepth 0).setWidth 32)) ∧
        CompressStop s b (valueStream s b) (valueStream s b) u
    else
      ∃ u, exec .seqCompress s = .next (u.freeScratch.raise .streamOverflow s.regs.strmCap) ∧
        CompressStop s b (valueStream s (b + 1)) ((valueStream s (b + 1)).take s.regs.strmCap.toNat) u := by
  obtain ⟨v, hv, hI⟩ := compressBlocks_ok hs (compressInv_start s) hf
  have hd : (countedCodebook (valueStream s (b + 1))).length = (streamValues s (b + 1)).length := length_countedCodebook _
  split
  case isTrue h => exact ⟨_, exec_seqCompress_of_raised hs hq hb hv (hI.codebookFull hs hf (by omega)), hI.coded_stop⟩
  case isFalse h =>
    rw [blocksFit_iff] at hn
    obtain ⟨u, hu, hstop⟩ := hI.overflow_stop hs hf (by omega) (by omega)
    exact ⟨u, exec_seqCompress_of_raised hs hq hb hv hu, hstop⟩

end Sys2Proof.Machine
end

section
/-! SUPPORT. SEQ_DECOMPRESS of a stream its codebook accepts (46_sequencer.md R183). -/

namespace Sys2Proof.Machine

/-- A stream of legal blocks in memory is what SEQ_DECOMPRESS needs to get through. -/
theorem decompressStart_of_legal {s : State} {bs : List (List Word)} (hu : s.Undisturbed) (hm : Memory.wf s.mem = true)
    (hw : s.regs.width ≠ 0) (hh : s.regs.height ≠ 0) (ho : overlaps (imageRegion s.regs) (streamRegionLen s.regs) = false)
    (hn : bs.length = blkCount s.regs) (hl : bs.all (legalBlock s.cb) = true) (hf : bs.flatten = strmWords s s.regs.strmLen.toNat) :
    DecompressStart s bs where
  undisturbed := hu
  count := hn
  legal := List.all_eq_true.1 hl
  length := by simp [hf, strmWords]
  words := fun i hi => by simp [hf, strmWords, State.strmWord]
  mem := hm
  disjoint := ho
  len := stream_lt_of_disjoint hw hh ho

section Finished
variable {s u : State} {bs : List (List Word)} (hs : DecompressStart s bs) (hI : DecompressInv s bs (blkCount s.regs) u)
include hs hI

/-- Every stream word has been read. -/
theorem DecompressInv.strmPtr_eq : u.regs.strmPtr = s.regs.strmLen := by
  have h : wordsBefore bs (blkCount s.regs) = s.regs.strmLen.toNat := by rw [← hs.count, wordsBefore_length, hs.length]
  rw [hI.regs, h, pat32, BitVec.ofNat_toNat]
  exact BitVec.setWidth_eq _

theorem DecompressInv.byte_outside {a : Addr} (ha : inRegion (imageRegion s.regs) a = false) : u.byte a = s.byte a := by
  rw [State.byte, hI.mem]
  exact memGet_foldl_perform hs.mem (stores_imageRequests ha)

theorem DecompressInv.busLog_eq : u.busLog = (decompressRequests s bs).reverse ++ s.busLog := by
  rw [hI.busLog, decompressRequests, hs.count, List.reverse_append, List.append_assoc]

end Finished

/-- Settles O57: a stream of legal blocks is validated and reconstructed, block by block. -/
theorem decompressCompletes : Obligations.DecompressCompletes := by
  intro s bs hu hm h1 h2 hw hh ho hn hl hf
  have hs := decompressStart_of_legal hu hm hw hh ho hn hl hf
  obtain ⟨u, hr, hI⟩ := bodySeqDecompress_ok hs ((qualityLegal_iff s.regs).2 ⟨h1, h2⟩) hw hh
  have hp := hI.strmPtr_eq hs
  refine ⟨u.freeScratch.complete, congrArg (fun p => finish (sequenceEnd p)) hr, ?_, ?_, ?_, fun a ha => ?_, ?_⟩
  · simp [hI.status, ← hn]
  · rw [hI.regs] at hp
    simp only [State.complete_regs, State.freeScratch_regs, hI.regs]
    rw [← hp]
  · simpa using hI.cb
  · rw [State.byte, State.complete_mem, State.freeScratch_mem]
    exact hI.byte_outside hs ha
  · simpa using hI.busLog_eq hs

end Sys2Proof.Machine
end

section
/-! SUPPORT. What the pieces of a sequence keep of the registers, of memory and of the host's side, and what their errors say,
whatever the memory answers (46_sequencer.md R182, R183; 20_memory.md R76; 60_exceptions.md R201, R203). -/

namespace Sys2Proof.Machine

/-- The part of the state that the frame of a sequence, and the ERRINFO of its errors, speak of. -/
structure Frame where
  mem : List Host.Cell
  regs : Regs
  cb : List Entry
  j : Nat
  pcount : BitVec 7
  rst : Bool
  hostIn : List HostEvent
  hostOut : List HostResponse

def State.frame (s : State) : Frame :=
  { mem := s.mem, regs := s.regs, cb := s.cb, j := s.seq.j, pcount := s.pcount, rst := s.rst, hostIn := s.hostIn
    hostOut := s.hostOut }

/-- No host transaction is to land during the command. -/
def Frame.Alone (g : Frame) : Prop := g.hostIn.all (fun e => e.gap.isNone) = true

/-- A piece of a command keeps the claim `P` about the frame, however it ends, and `E` holds of the error it raises, if any; no
reset abandons it. -/
abbrev Framed (P : Frame → Prop) (E : ErrCode → Word → Frame → Prop) {α : Type} (r : Run α) : Prop :=
  r.Ensures (fun _ t => P t.frame) (fun c i t => P t.frame ∧ E c i t.frame) fun _ => False

/-- A claim about errors that says nothing of those which the content of the stream does not cause. -/
def OfStream (E : ErrCode → Word → Frame → Prop) : Prop :=
  ∀ c i g, c ∉ ([.corruptBlockCount, .corruptRunSum, .unknownCode, .pairForm] : List ErrCode) → E c i g

section Pieces
variable {P : Frame → Prop} {E : ErrCode → Word → Frame → Prop}

theorem framed_ok {α : Type} {a : α} {s : State} (h : P s.frame) : Framed P E (.ok a s) := ensures_ok.2 h

theorem framed_raised {α : Type} {c : ErrCode} {i : Word} {s : State} (h : P s.frame) (he : E c i s.frame) :
    Framed P E (.raised c i s : Run α) := ensures_raised.2 ⟨h, he⟩

theorem framed_bind {α β : Type} {r : Run α} {f : α → State → Run β} (h : Framed P E r)
    (hf : ∀ a s, P s.frame → Framed P E (f a s)) : Framed P E (r.bind f) := Run.Ensures.bind h hf

theorem Framed.mono {α : Type} {r : Run α} {P' : Frame → Prop} (h : Framed P E r) (hP : ∀ g, P g → P' g) : Framed P' E r :=
  Run.Ensures.mono h (fun _ _ => hP _) (fun _ _ _ he => ⟨hP _ he.1, he.2⟩) fun _ => id

/-- A weaker claim about the state an error leaves. -/
theorem Framed.mono_raised {α : Type} {r : Run α} {P' : Frame → Prop} (h : Framed P E r) (hP : ∀ g, P g → P' g) :
    r.Ensures (fun _ t => P t.frame) (fun c i t => P' t.frame ∧ E c i t.frame) fun _ => False :=
  Run.Ensures.mono h (fun _ _ h => h) (fun _ _ _ he => ⟨hP _ he.1, he.2⟩) fun _ => id

/-- A piece that keeps more than the claim `P` keeps, before a piece that needs it. -/
theorem framed_bind_of {α β : Type} {r : Run α} {f : α → State → Run β} {P' : Frame → Prop} (h : Framed P' E r)
    (hP : ∀ g, P' g → P g) (hf : ∀ a s, P' s.frame → Framed P E (f a s)) : Framed P E (r.bind f) := (h.mono_raised hP).bind hf

theorem forCount_framed {body : Nat → State → Run Unit} (k n : Nat)
    (hb : ∀ m s, n ≤ m → m < n + k → P s.frame → Framed P E (body m s)) {s : State} (h : P s.frame) :
    Framed P E (forCount body k n s) := by
  induction k generalizing n s with
  | zero => exact framed_ok h
  | succ k ih =>
    rw [forCount_succ]
    exact framed_bind (hb n s le_rfl (by omega) h) fun _ t ht => ih (n + 1) (fun m s hm hk => hb m s (by omega) (by omega)) ht

/-- The buffers and the flags are no part of the frame. -/
theorem framed_buffers {α : Type} {a : α} {s : State} {c : Block 32} {q z : Block 16} {p : Block 32} {st : Status} (h : P s.frame) :
    Framed P E (.ok a { s with cbuf := c, qbuf := q, zbuf := z, pbuf := p, status := st }) := ensures_ok.2 h

/-- PCOUNT replaced. -/
theorem framed_pcount {α : Type} {a : α} {s : State} {p : Block 32} {n : BitVec 7} (h : P { s.frame with pcount := n }) :
    Framed P E (.ok a { s with pbuf := p, pcount := n }) := ensures_ok.2 h

theorem bodyRleEnc_framed {s : State} (h : ∀ n, P { s.frame with pcount := n }) : Framed P E (bodyRleEnc s) := framed_pcount (h _)

theorem bodyZzFlat_framed {s : State} (h : P s.frame) : Framed P E (bodyZzFlat s) := framed_buffers h

theorem bodyZzUnflat_framed {s : State} (h : P s.frame) : Framed P E (bodyZzUnflat s) := framed_buffers h

variable (hE : OfStream E)

section Matrix
include hE

theorem bodyQuant_framed {s : State} (h : P s.frame) : Framed P E (bodyQuant s) := by
  unfold bodyQuant
  split
  · exact framed_raised h (hE _ _ _ (by decide))
  · exact framed_buffers h

theorem bodyDequant_framed {s : State} (h : P s.frame) : Framed P E (bodyDequant s) := by
  unfold bodyDequant
  split
  · exact framed_raised h (hE _ _ _ (by decide))
  · exact framed_buffers h

theorem answerWrite_framed (a : Addr) {m : List Host.Cell} {s : State} (h : P s.frame) (hm : P { s.frame with mem := m }) :
    Framed P E (answerWrite a m s) := by
  unfold answerWrite
  split
  · exact framed_ok hm
  · exact framed_ok hm
  · refine framed_raised ?_ (hE _ _ _ (by decide))
    split
    · exact hm
    · exact h

end Matrix

variable (hA : ∀ g, P g → g.Alone)
include hA

theorem request_framed (r : Request) {s : State} (h : P s.frame) : Framed P E (request r s) := by
  rw [request_alone (hA _ h)]
  exact framed_ok h

theorem bodyTxFwd_framed {s : State} (h : P s.frame) : Framed P E (bodyTxFwd s) :=
  framed_bind (request_framed hA _ h) fun _ _ h => framed_ok h

theorem bodyTxInv_framed {s : State} (h : P s.frame) : Framed P E (bodyTxInv s) :=
  framed_bind (request_framed hA _ h) fun _ _ h => framed_ok h

include hE

theorem memRead8_framed (a : Addr) {s : State} (h : P s.frame) : Framed P E (memRead8 a s) := by
  refine framed_bind (request_framed hA _ h) fun _ t h => ?_
  split
  · exact framed_ok h
  · exact framed_ok h
  · exact framed_raised h (hE _ _ _ (by decide))

theorem memRead32_framed (a : Addr) {s : State} (h : P s.frame) : Framed P E (memRead32 a s) := by
  refine framed_bind (request_framed hA _ h) fun _ t h => ?_
  split
  · exact framed_ok h
  · exact framed_ok h
  · exact framed_raised h (hE _ _ _ (by decide))

theorem memWrite8_framed (a : Addr) (v : Byte) {s : State} (h : P s.frame)
    (hm : P { s.frame with mem := (Request.write8 a v).perform s.mem }) : Framed P E (memWrite8 a v s) := by
  unfold memWrite8
  rw [request_alone (hA _ h), bind_ok]
  exact answerWrite_framed hE a h hm

theorem memWrite32_framed (a : Addr) (w : Word) {s : State} (h : P s.frame)
    (hm : P { s.frame with mem := (Request.write32 a w).perform s.mem }) : Framed P E (memWrite32 a w s) := by
  unfold memWrite32
  rw [request_alone (hA _ h), bind_ok]
  exact answerWrite_framed hE a h hm

theorem fetchBlock_framed (row col : Nat) {s : State} (h : P s.frame) : Framed P E (fetchBlock row col s) := by
  refine forCount_framed 64 0 (fun n s _ _ h => ?_) h
  unfold fetchCell
  split
  · exact framed_bind (memRead8_framed hE hA _ h) fun _ _ h => framed_ok h
  · exact framed_ok h

/-- CROP_STORE, for a claim that the write of a pixel of the image cannot make false. -/
theorem storeBlock_framed (hw : ∀ g y x v, P g → inBounds g.regs y x = true →
      P { g with mem := (Request.write8 (pixAddr g.regs y x) v).perform g.mem }) (row col : Nat) {s : State} (h : P s.frame) :
    Framed P E (storeBlock row col s) := by
  refine forCount_framed 64 0 (fun n s _ _ h => ?_) h
  unfold storeCell
  split
  case isTrue hc => exact memWrite8_framed hE hA _ _ h (hw _ _ _ _ h hc)
  case isFalse => exact framed_ok h

end Pieces

/-! ### The frame -/

/-- Since `s` no byte outside the region `k`, no register but BLK_DONE and STRM_PTR, and nothing on the host's side has changed. -/
structure Confined (s : State) (k : Region) (g : Frame) : Prop where
  alone : s.Alone
  mem : Memory.wf s.mem = true → Memory.wf g.mem = true ∧ ∀ a : Addr, inRegion k a = false → memGet g.mem a.toNat = s.byte a
  regs : g.regs = { s.regs with blkDone := g.regs.blkDone, strmPtr := g.regs.strmPtr }
  rst : g.rst = s.rst
  hostIn : g.hostIn = s.hostIn
  hostOut : g.hostOut = s.hostOut

theorem confined_refl {s : State} (h : s.Alone) (k : Region) : Confined s k s.frame :=
  ⟨h, fun hm => ⟨hm, fun _ _ => rfl⟩, rfl, rfl, rfl, rfl⟩

section Confined
variable {s : State} {k : Region} {g : Frame} (h : Confined s k g)
include h

theorem Confined.frame_alone : g.Alone := by
  unfold Frame.Alone
  rw [h.hostIn]
  exact h.alone

/-- A write in the region. -/
theorem Confined.perform {r : Request} (hr : ∀ a, inRegion k a = false → r.stores a = false) :
    Confined s k { g with mem := r.perform g.mem } where
  alone := h.alone
  mem hm := ⟨perform_wf (h.mem hm).1 r, fun a ha => (memGet_perform (h.mem hm).1 (hr a ha)).trans ((h.mem hm).2 a ha)⟩
  regs := h.regs
  rst := h.rst
  hostIn := h.hostIn
  hostOut := h.hostOut

/-- A change of BLK_DONE and STRM_PTR, of CB, of the word counter and of PCOUNT. -/
theorem Confined.progress (b p : BitVec 32) (c : List Entry) (j : Nat) (n : BitVec 7) :
    Confined s k { g with regs := { g.regs with blkDone := b, strmPtr := p }, cb := c, j := j, pcount := n } where
  alone := h.alone
  mem := h.mem
  regs := by rw [h.regs]
  rst := h.rst
  hostIn := h.hostIn
  hostOut := h.hostOut

end Confined

/-- The checks of a sequence pass, for the stream region `stream` (R202). -/
structure ChecksPass (stream : Regs → Region) (s : State) : Prop where
  quality : qualityLegal s.regs = true
  width : s.regs.width ≠ 0
  height : s.regs.height ≠ 0
  disjoint : overlaps (imageRegion s.regs) (stream s.regs) = false

theorem checkSequence_ensures (s : State) : (ofCheck (checkSequence s.regs) s).Ensures
    (fun _ t => t = s ∧ qualityLegal s.regs = true ∧ s.regs.width ≠ 0 ∧ s.regs.height ≠ 0)
    (fun c _ t => t = s ∧ (c = .invalidQuality ∨ c = .invalidGeometry)) fun _ => False := by
  unfold checkSequence checkGeometry
  cases hq : qualityLegal s.regs with
  | false => exact ensures_raised.2 ⟨rfl, .inl rfl⟩
  | true =>
    by_cases h : s.regs.width = 0 ∨ s.regs.height = 0
    · rw [if_pos h]
      exact ensures_raised.2 ⟨rfl, .inr rfl⟩
    · rw [if_neg h]
      exact ensures_ok.2 ⟨rfl, rfl, not_or.1 h⟩

/-- The checks of a sequence and QGEN: the matrix is generated, or an error has changed nothing. -/
theorem sequenceChecks_ensures (stream : Regs → Region) (s : State) : (sequenceChecks stream s).Ensures
    (fun _ t => t = s.generated ∧ ChecksPass stream s)
    (fun c _ t => t = s ∧ (c = .invalidQuality ∨ c = .invalidGeometry)) fun _ => False := by
  unfold sequenceChecks
  refine (checkSequence_ensures s).bind fun _ t ⟨ht, hq, hw, hh⟩ => ?_
  rw [ht, checkRegions]
  cases ho : overlaps (imageRegion s.regs) (stream s.regs) with
  | true => exact ensures_refused.2 trivial
  | false =>
    rw [if_neg (by decide), bind_ok, bodyQgen_generated hq]
    exact ensures_ok.2 ⟨rfl, hq, hw, hh, ho⟩

/-- The ways a sequence can end. -/
theorem sequence_next {r : Run Unit} {t : State} (h : finish (sequenceEnd r) = .next t) :
    (∃ u, r = .ok () u ∧ t = u.freeScratch.complete) ∨ (∃ c i u, r = .raised c i u ∧ t = u.freeScratch.raise c i) ∨
      r = .abandoned t := by
  cases r with
  | ok _ u => exact .inl ⟨u, rfl, by simpa [sequenceEnd] using h.symm⟩
  | raised c i u => exact .inr (.inl ⟨c, i, u, rfl, by simpa [sequenceEnd] using h.symm⟩)
  | abandoned u => exact .inr (.inr (by simpa [sequenceEnd] using h))
  | fault _ | refused _ => exact nomatch h

/-- ERR is written by the end of a command alone. -/
theorem errClear_grows : GrowsSat (fun st => st.err = false) ∧ GrowsQv (fun st => st.err = false) :=
  ⟨fun _ _ h => h, fun _ h => h⟩

end Sys2Proof.Machine
end

section
/-! SUPPORT. The frame of SEQ_COMPRESS (46_sequencer.md R182; 20_memory.md R76; 60_exceptions.md R203). -/

namespace Sys2Proof.Machine

/-- SEQ_COMPRESS, begun in `s`, has changed no byte outside its stream region and no register but its progress, and has counted no
word past the capacity. -/
structure CompressFramed (s : State) (g : Frame) : Prop extends Confined s (streamRegionCap s.regs) g where
  j : g.j ≤ s.regs.strmCap.toNat

/-- No claim about errors. -/
abbrev AnyError (_ : ErrCode) (_ : Word) (_ : Frame) : Prop := True

theorem anyError_ofStream : OfStream AnyError := fun _ _ _ _ => trivial

section Compress
variable {s : State}

/-- A word written below the capacity lies in the stream region (R76). -/
theorem CompressFramed.write {g : Frame} (h : CompressFramed s g) {i : Nat} (hi : i < s.regs.strmCap.toNat) (w : Word) :
    CompressFramed s { g with mem := (Request.write32 (strmAddr g.regs i) w).perform g.mem } where
  toConfined := h.perform fun a ha => by
    rw [h.regs, strmAddr_progress]
    have hx : ¬ (a - strmBaseByte s.regs).toNat < 4 * s.regs.strmCap.toNat := of_decide_eq_false ha
    exact write32_stores_outside s.regs w ((not_lt.1 hx).trans (a - strmBaseByte s.regs).isLt.le) hi ha
  j := h.j

theorem streamPairs_framed (ws : List Word) {u : State} (h : CompressFramed s u.frame) :
    Framed (CompressFramed s) AnyError (streamPairs ws u) := by
  induction ws generalizing u with
  | nil => exact framed_ok h
  | cons w ws ih =>
    unfold streamPairs
    split
    case isTrue => exact framed_raised h trivial
    case isFalse hc =>
      have hj : u.seq.j < s.regs.strmCap.toNat := by
        rw [show u.regs.strmCap = s.regs.strmCap from (congrArg Regs.strmCap h.regs :)] at hc
        exact not_le.1 hc
      refine framed_bind_of (P' := fun g => CompressFramed s g ∧ g.j < s.regs.strmCap.toNat)
        (memWrite32_framed anyError_ofStream (fun _ h => h.1.frame_alone) _ _ ⟨h, hj⟩ ⟨h.write hj w, hj⟩) (fun _ h => h.1)
        fun _ t ht => ih ⟨?_, ht.2⟩
      exact ht.1.progress t.regs.blkDone _ _ _ _

theorem bodyCbAccum_framed {u : State} (h : CompressFramed s u.frame) : Framed (CompressFramed s) AnyError (bodyCbAccum u) := by
  refine Run.Ensures.bind (Q := fun _ t => t = u) (ofCheck_ensures (fun _ _ => rfl) fun _ _ => ⟨h, trivial⟩) ?_
  rintro c _ rfl
  exact framed_ok ⟨h.progress _ _ c _ _, h.j⟩

theorem compressBlock_framed (b : Nat) {u : State} (h : CompressFramed s u.frame) :
    Framed (CompressFramed s) AnyError (compressBlock b u) := by
  have hA : ∀ g, CompressFramed s g → g.Alone := fun _ h => h.frame_alone
  refine framed_bind (fetchBlock_framed anyError_ofStream hA _ _ (s := u.atBlock b) h) fun _ u h => ?_
  refine framed_bind (bodyTxFwd_framed hA h) fun _ u h => ?_
  refine framed_bind (bodyQuant_framed anyError_ofStream h) fun _ u h => ?_
  refine framed_bind (bodyZzFlat_framed h) fun _ u h => ?_
  refine framed_bind (bodyRleEnc_framed fun n => ⟨h.progress u.regs.blkDone u.regs.strmPtr u.cb u.seq.j n, h.j⟩) fun _ u h => ?_
  refine framed_bind (bodyCbAccum_framed h) fun _ u h => ?_
  exact framed_bind (streamPairs_framed _ h) fun _ u h =>
    framed_ok ⟨h.progress (u.regs.blkDone + 1) u.regs.strmPtr u.cb u.seq.j u.pcount, h.j⟩

theorem substWord_framed {t : Nat} (ht : t < s.regs.strmCap.toNat) {u : State} (h : CompressFramed s u.frame) :
    Framed (CompressFramed s) AnyError (substWord t u) := by
  have hA : ∀ g, CompressFramed s g → g.Alone := fun _ h => h.frame_alone
  refine framed_bind (memRead32_framed anyError_ofStream hA _ h) fun w u h => ?_
  split
  · exact framed_raised h trivial
  · split
    · exact framed_raised h trivial
    · exact framed_bind (memWrite32_framed anyError_ofStream hA _ _ h (h.write ht _)) fun _ u h =>
        framed_ok ⟨h.progress u.regs.blkDone _ u.cb u.seq.j u.pcount, h.j⟩

/-- SEQ_COMPRESS from phase BLOCKS on; it writes STRM_LEN at its end alone. -/
theorem compressPhases_framed (n : Nat) {u : State} (h : CompressFramed s u.frame) : (compressPhases n u).Ensures
    (fun _ t => ∃ v : State, CompressFramed s v.frame ∧ t = v.setStrmLen) (fun _ _ t => CompressFramed s t.frame) fun _ => False := by
  have hloop := forCount_framed n 0 (fun b _ _ _ h => compressBlock_framed b h) h
  unfold compressPhases
  refine Run.Ensures.bind (Run.Ensures.mono hloop (fun _ _ h => h) (fun _ _ _ h => h.1) fun _ => id) fun _ u h => ?_
  unfold substPhase
  refine Run.Ensures.bind (r := buildPhase u) (Q := fun _ t => CompressFramed s t.frame)
    (ensures_ok.2 ⟨h.progress u.regs.blkDone u.regs.strmPtr _ u.seq.j u.pcount, h.j⟩) fun _ u h => ?_
  have hsub := forCount_framed u.seq.j 0 (s := u.startSubst) (P := CompressFramed s)
    (fun t _ _ ht hv => substWord_framed (ht.trans_le (Nat.zero_add _ ▸ h.j)) hv)
    ⟨h.progress u.regs.blkDone 0 u.cb u.seq.j u.pcount, h.j⟩
  exact Run.Ensures.bind (Run.Ensures.mono hsub (fun _ _ h => h) (fun _ _ _ h => h.1) fun _ => id) fun _ u h => ensures_ok.2 ⟨u, h, rfl⟩

theorem bodySeqCompress_eq (s : State) : bodySeqCompress s =
    (sequenceChecks streamRegionCap s).bind fun _ s => compressPhases (blkCount s.regs) s.startCompress := by
  unfold bodySeqCompress sequenceChecks compressPhases substPhase
  simp only [bind_bind]

theorem bodySeqCompress_framed (ha : s.Alone) : (bodySeqCompress s).Ensures
    (fun _ t => ∃ v : State, CompressFramed s v.frame ∧ t = v.setStrmLen) (fun _ _ t => Confined s (streamRegionCap s.regs) t.frame)
    fun _ => False := by
  rw [bodySeqCompress_eq]
  refine Run.Ensures.bind ((sequenceChecks_ensures _ s).mono (fun _ _ => id) (fun c i t ht => ?_) fun _ => id) fun _ t ht => ?_
  · rw [ht.1]
    exact confined_refl ha _
  · rw [ht.1]
    refine (compressPhases_framed (s := s) _ ?_).mono (fun _ _ => id) (fun _ _ _ h => h.toConfined) fun _ => id
    exact ⟨(confined_refl ha _).progress 0 0 [] 0 s.pcount, Nat.zero_le _⟩

end Compress

/-- What SEQ_COMPRESS leaves where a block does not fit. -/
theorem CompressStop.record {s u : State} {b : Nat} {counted written : List Word} (hs : CompressStart s)
    (h : CompressStop s b counted written u) (hl : written.length ≤ s.regs.strmCap.toNat) (c : ErrCode) (info : Word) :
    (u.freeScratch.raise c info).status = { s.status with
        done := true, err := true, qv := true, sat := s.status.sat || streamSaturates s (b + 1), errCode := c.number, errInfo := info } ∧
      (u.freeScratch.raise c info).regs = { s.regs with
        blkDone := BitVec.ofNat 32 b, strmPtr := BitVec.ofNat 32 written.length } ∧
      Machine.strmWords (u.freeScratch.raise c info) written.length = written ∧
      (∀ a : Addr, inStream s.regs written.length a = false → (u.freeScratch.raise c info).byte a = s.byte a) ∧
      (u.freeScratch.raise c info).cb = countedCodebook counted ∧ (u.freeScratch.raise c info).qmat = matrixOf s.regs.quality.toNat ∧
      (u.freeScratch.raise c info).busLog = ((List.range b).flatMap (compressBlockRequests s) ++ codingRequests s b ++
        writeRequests s.regs (valueStream s b).length (written.drop (valueStream s b).length)).reverse ++ s.busLog := by
  refine ⟨by simp [h.status], by simpa using h.regs, h.strmWords hs hl (by simp) (by simp [h.regs]), fun a ha => ?_,
    by simpa using h.cb, by simpa using h.qmat, by simpa using h.busLog⟩
  have := hs.cap_le
  rw [State.byte, State.raise_mem, State.freeScratch_mem, h.mem]
  exact memGet_streamed hs.mem (by omega) ha

/-- Settles O53: no piece of SEQ_COMPRESS writes outside the stream region, and STRM_LEN is written by its last one; where a block is
the first that does not fit, it is reached with all blocks before it done. -/
theorem compressFrame : Obligations.CompressFrame := by
  constructor
  · intro s t ha hm he hx
    have hf := bodySeqCompress_framed ha
    have herr := bodySeqCompress_keepsFlags errClear_grows.1 errClear_grows.2 s ⟨ha, he⟩
    rcases sequence_next (r := bodySeqCompress s) hx with ⟨u, hu, rfl⟩ | ⟨c, i, u, hu, rfl⟩ | hu
    · rw [hu] at hf herr
      obtain ⟨v, hv, rfl⟩ := ensures_ok.1 hf
      have hr : v.regs = _ := hv.regs
      refine ⟨(hv.mem hm).2, ?_, fun h => ?_, hv.rst, hv.hostIn, hv.hostOut⟩
      · simp only [State.complete_regs, State.freeScratch_regs, State.setStrmLen_regs]
        rw [hr]
      · exact nomatch (ensures_ok.1 herr).flags.symm.trans h
    · have hv := ensures_raised.1 (hu ▸ hf)
      have hr : u.regs = _ := hv.regs
      refine ⟨(hv.mem hm).2, ?_, fun _ => ?_, hv.rst, hv.hostIn, hv.hostOut⟩
      · simp only [State.raise_regs, State.freeScratch_regs]
        rw [hr]
      · simp only [State.raise_regs, State.freeScratch_regs]
        rw [hr]
    · exact (ensures_abandoned.1 (hu ▸ hf)).elim
  · intro s b hu hm h1 h2 hw hh ho hb hf hn full written
    have hs : CompressStart s := ⟨hu, hm, hw, hh, ho⟩
    have hstop := exec_seqCompress_stop hs ((qualityLegal_iff s.regs).2 ⟨h1, h2⟩) hb hf hn
    by_cases h : s.cbDepth < (streamValues s (b + 1)).length
    · rw [if_pos h] at hstop
      obtain ⟨u, hx, hst⟩ := hstop
      simp only [written, full, if_pos h]
      exact ⟨_, hx, hst.record hs hf.1 _ _⟩
    · rw [if_neg h] at hstop
      obtain ⟨u, hx, hst⟩ := hstop
      simp only [written, full, if_neg h]
      exact ⟨_, hx, hst.record hs (List.length_take_le ..) _ _⟩

end Sys2Proof.Machine
end

section
/-! SUPPORT. The frame of SEQ_DECOMPRESS, and ERRINFO of the errors that its stream causes (46_sequencer.md R183; 45_geometry.md R171;
60_exceptions.md R201). -/

namespace Sys2Proof.Machine

/-- SEQ_DECOMPRESS, begun in `s`, has changed no byte outside the image, no entry of the codebook, and no register but its progress;
STRM_PTR is the number of words read in the pass. -/
structure DecompressFramed (s : State) (g : Frame) : Prop extends Confined s (imageRegion s.regs) g where
  cb : g.cb = s.cb
  ptr : g.regs.strmPtr = pat32 g.j
  j : g.j ≤ s.regs.strmLen.toNat

/-- R201: ERRINFO of an error that the stream causes. -/
structure StreamError (s : State) (c : ErrCode) (i : Word) (g : Frame) : Prop where
  count : c = .corruptBlockCount → i = g.regs.strmPtr
  word : c ∈ ([.corruptRunSum, .unknownCode, .pairForm] : List ErrCode) →
    i.toNat ≤ g.regs.strmPtr.toNat ∧ g.regs.strmPtr.toNat ≤ s.regs.strmLen.toNat ∧
      ((i.toNat < s.regs.strmLen.toNat ∧ g.regs.strmPtr.toNat ≤ i.toNat + 64) ∨ i.toNat ≤ 64)

theorem streamError_ofStream (s : State) : OfStream (StreamError s) := fun _ _ _ hc =>
  ⟨fun h => absurd (h ▸ List.mem_cons_self) hc, fun h => absurd (List.mem_cons_of_mem _ h) hc⟩

section Decompress
variable {s : State} {g : Frame}

theorem DecompressFramed.strmLen (h : DecompressFramed s g) : g.regs.strmLen = s.regs.strmLen := (congrArg Regs.strmLen h.regs :)

/-- ERRINFO is the number `i`, at most 64 words before STRM_PTR or itself at most 64. -/
theorem DecompressFramed.wordError (h : DecompressFramed s g) {c : ErrCode} (hc : c ≠ .corruptBlockCount) {i : Nat} (hi : i ≤ g.j)
    (hr : (i < s.regs.strmLen.toNat ∧ g.j ≤ i + 64) ∨ i ≤ 64) : StreamError s c (pat32 i) g := by
  have hj := h.j
  have hl := s.regs.strmLen.isLt
  have toNat {k : Nat} (hk : k ≤ s.regs.strmLen.toNat) : (pat32 k).toNat = k :=
    (BitVec.toNat_ofNat ..).trans (Nat.mod_eq_of_lt (by omega))
  refine ⟨fun h => absurd h hc, fun _ => ?_⟩
  rw [h.ptr, toNat hj, toNat (hi.trans hj)]
  exact ⟨hi, hj, hr⟩

theorem DecompressFramed.countError (h : DecompressFramed s g) : StreamError s .corruptBlockCount (pat32 g.j) g :=
  ⟨fun _ => h.ptr.symm, fun hc => absurd hc (by decide)⟩

/-- The next word has been read. -/
theorem DecompressFramed.next (h : DecompressFramed s g) (hj : g.j < s.regs.strmLen.toNat) :
    DecompressFramed s { g with regs := { g.regs with strmPtr := pat32 (g.j + 1) }, j := g.j + 1 } where
  toConfined := h.progress g.regs.blkDone _ g.cb _ g.pcount
  cb := h.cb
  ptr := rfl
  j := hj

/-- A pass begins. -/
theorem DecompressFramed.start (h : Confined s (imageRegion s.regs) g) (hc : g.cb = s.cb) :
    DecompressFramed s { g with regs := { g.regs with strmPtr := 0 }, j := 0 } where
  toConfined := h.progress g.regs.blkDone _ g.cb _ g.pcount
  cb := hc
  ptr := rfl
  j := Nat.zero_le _

/-- The read of stream word `k`. -/
theorem memRead32_decompressFramed (a : Addr) {u : State} (h : DecompressFramed s u.frame) :
    Framed (fun g => DecompressFramed s g ∧ g.j = u.seq.j) (StreamError s) (memRead32 a u) :=
  memRead32_framed (streamError_ofStream s) (fun _ h => h.1.frame_alone) a ⟨h, rfl⟩

/-! ### Phase VALIDATE -/

theorem validateWords_framed {left : Nat} {u : State} (h : DecompressFramed s u.frame)
    (hl : u.seq.j + left = s.regs.strmLen.toNat) : Framed (DecompressFramed s) (StreamError s) (validateWords left u) := by
  induction left generalizing u with
  | zero => exact framed_raised h h.countError
  | succ left ih =>
    rw [validateWords_succ]
    refine framed_bind_of (memRead32_decompressFramed _ h) (fun _ h => h.1) fun w t ⟨ht, hj⟩ => ?_
    have hj : t.seq.j = u.seq.j := hj
    have hlt : t.seq.j < s.regs.strmLen.toNat := by omega
    have word {c : ErrCode} (hc : c ≠ .corruptBlockCount) : StreamError s c (pat32 t.seq.j) t.frame :=
      ht.wordError hc le_rfl (.inl ⟨hlt, Nat.le_add_right ..⟩)
    have hnext : DecompressFramed s (t.setSum (t.seq.sum + (runField w).toNat)).nextWord.frame := ht.next hlt
    unfold validateWith
    split
    · exact framed_raised ht (word (by decide))
    split
    · exact framed_raised ht (word (by decide))
    split
    · exact framed_raised ht (word (by decide))
    split
    · split
      · exact framed_raised hnext (hnext.wordError (by decide) (Nat.le_succ t.seq.j) (.inl ⟨hlt, Nat.add_le_add_left (by decide) _⟩))
      · exact framed_ok hnext
    · exact ih hnext (by change t.seq.j + 1 + left = _; omega)

theorem validatePhase_framed {u : State} (h : Confined s (imageRegion s.regs) u.frame) (hc : u.cb = s.cb) :
    Framed (DecompressFramed s) (StreamError s) (validatePhase u) := by
  refine framed_bind (forCount_framed _ 0 (fun b v _ _ hv => ?_) (DecompressFramed.start h hc)) fun _ v hv => ?_
  · have hlen : v.regs.strmLen = s.regs.strmLen := hv.strmLen
    have hj := hv.j
    refine validateWords_framed (u := v.setSum 0) hv ?_
    rw [hlen]
    exact Nat.add_sub_cancel' hj
  · split
    · exact framed_raised hv hv.countError
    · exact framed_ok hv

/-! ### Phase BLOCKS -/

/-- The words of a block, of which `m` have been read. -/
theorem readPairs_framed {left m : Nat} {u : State} (h : DecompressFramed s u.frame)
    (hl : u.seq.j + left = s.regs.strmLen.toNat) (hm : m ≤ u.seq.j) (hm' : m ≤ 64) : (readPairs left m u).Ensures
      (fun k t => DecompressFramed s t.frame ∧ k ≤ t.seq.j ∧ k ≤ 64)
      (fun c i t => DecompressFramed s t.frame ∧ StreamError s c i t.frame) fun _ => False := by
  induction left generalizing m u with
  | zero => exact ensures_raised.2 ⟨h, h.countError⟩
  | succ left ih =>
    by_cases h64 : m = 64
    · rw [readPairs, if_pos h64]
      exact ensures_raised.2 ⟨h, h.wordError (by decide) le_rfl (.inl ⟨Nat.lt_of_lt_of_eq (by omega) hl, Nat.le_add_right ..⟩)⟩
    rw [readPairs_succ h64]
    refine ((memRead32_decompressFramed _ h).mono_raised fun _ h => h.1).bind fun w t ⟨ht, hj⟩ => ?_
    have hj : t.seq.j = u.seq.j := hj
    have hnext := ht.next (by change t.seq.j < _; omega)
    split
    · exact ensures_ok.2 ⟨hnext, by change m + 1 ≤ t.seq.j + 1; omega, by omega⟩
    · exact ih hnext (by change t.seq.j + 1 + left = _; omega) (by change m + 1 ≤ t.seq.j + 1; omega) (by omega)

/-- The valid pairs of the block being decoded are among the words read. -/
structure BlockFramed (s : State) (g : Frame) : Prop extends DecompressFramed s g where
  pairs : g.pcount.toNat ≤ g.j
  pcount : g.pcount.toNat ≤ 64

theorem length_validPairs_le_pcount (s : State) : (validPairs s).length ≤ s.pcount.toNat := List.length_take_le ..

/-- An error at the PBUF index `k`, or with PCOUNT. -/
theorem BlockFramed.pairError (h : BlockFramed s g) {c : ErrCode} (hc : c ≠ .corruptBlockCount) {k : Nat} (hk : k ≤ g.pcount.toNat) :
    StreamError s c (pat32 k) g := h.wordError hc (hk.trans h.pairs) (.inr (hk.trans h.pcount))

theorem checkPairs_error {fails : Word → Prop} [DecidablePred fails] {error : Word → ErrCode} {i : Nat} {ws : List Word}
    {e : ErrCode × Word} (h : checkPairs fails error i ws = .error e) : ∃ k < ws.length, ∃ w, e = (error w, pat32 (i + k)) := by
  induction ws generalizing i with
  | nil => exact nomatch h
  | cons w ws ih =>
    rw [checkPairs] at h
    split at h
    · cases h
      exact ⟨0, Nat.succ_pos _, w, rfl⟩
    · obtain ⟨k, hk, v, hv⟩ := ih h
      exact ⟨k + 1, Nat.succ_lt_succ hk, v, by rw [hv, Nat.add_assoc, Nat.add_comm 1]⟩

theorem decodeError_ne (w : Word) : decodeError w ≠ .corruptBlockCount := by
  unfold decodeError
  split <;> decide

theorem pairError_ne (w : Word) : pairError w ≠ .corruptBlockCount := by
  unfold pairError
  split <;> decide

/-- R155: an error of CB_DECODE names a pair. -/
theorem decodePairs_error {cb : List Entry} {i : Nat} {ws : List Word} {e : ErrCode × Word} (h : decodePairs cb i ws = .error e) :
    ∃ k < ws.length, e.1 ≠ .corruptBlockCount ∧ e.2 = pat32 (i + k) := by
  rw [decodePairs_eq] at h
  cases hc : checkPairs (DecodeFails cb) decodeError i ws with
  | ok _ => rw [hc] at h; exact nomatch h
  | error e' =>
    rw [hc] at h
    cases h
    obtain ⟨k, hk, w, rfl⟩ := checkPairs_error hc
    exact ⟨k, hk, decodeError_ne w, rfl⟩

/-- R141: an error of the checks of RLE_DEC names a pair. -/
theorem rleCheck_error {i sum : Nat} {ws : List Word} {e : ErrCode × Word} (h : rleCheck i sum ws = .error e) :
    ∃ k < ws.length, e.1 ≠ .corruptBlockCount ∧ e.2 = pat32 (i + k) := by
  induction ws generalizing i sum with
  | nil => exact nomatch h
  | cons w ws ih =>
    by_cases hf : FailsOn sum w
    · rw [rleCheck_cons_of_fails hf] at h
      cases h
      exact ⟨0, Nat.succ_pos _, pairError_ne w, rfl⟩
    · rw [rleCheck_cons_of_passes hf] at h
      obtain ⟨k, hk, hc, hi⟩ := ih h
      exact ⟨k + 1, Nat.succ_lt_succ hk, hc, by rw [hi, Nat.add_assoc, Nat.add_comm 1]⟩

theorem bodyCbDecode_framed {u : State} (h : BlockFramed s u.frame) : Framed (BlockFramed s) (StreamError s) (bodyCbDecode u) := by
  refine framed_bind (ofCheck_ensures (fun _ _ => h) fun e he => ⟨h, ?_⟩) fun ws t ht => framed_buffers ht
  obtain ⟨k, hk, hc, hi⟩ := decodePairs_error he
  rw [hi, Nat.zero_add]
  exact h.pairError hc (hk.le.trans (length_validPairs_le_pcount u))

theorem bodyRleDec_framed {u : State} (h : BlockFramed s u.frame) : Framed (BlockFramed s) (StreamError s) (bodyRleDec u) := by
  refine framed_bind (ofCheck_ensures (fun _ _ => h) fun e he => ⟨h, ?_⟩) fun total t ht => ?_
  · obtain ⟨k, hk, hc, hi⟩ := rleCheck_error he
    rw [hi, Nat.zero_add]
    exact h.pairError hc (hk.le.trans (length_validPairs_le_pcount u))
  · split
    · exact framed_raised ht (ht.pairError (by decide) le_rfl)
    · exact framed_buffers ht

/-- A pixel written lies in the image (R76, R171). -/
theorem DecompressFramed.write (h : DecompressFramed s g) {y x : Nat} (hb : inBounds g.regs y x = true) (v : Byte) :
    DecompressFramed s { g with mem := (Request.write8 (pixAddr g.regs y x) v).perform g.mem } where
  toConfined := h.perform fun a ha => by
    rw [write8_stores_eq_false]
    rintro rfl
    rw [h.regs] at ha hb
    exact nomatch ha.symm.trans (pixAddr_inRegion (r := s.regs) hb)
  cb := h.cb
  ptr := h.ptr
  j := h.j

theorem rebuildAndStore_framed {u : State} (h : BlockFramed s u.frame) :
    Framed (DecompressFramed s) (StreamError s) (rebuildAndStore u) := by
  have hE := streamError_ofStream s
  have hA : ∀ g, DecompressFramed s g → g.Alone := fun _ h => h.frame_alone
  refine framed_bind_of (bodyCbDecode_framed h) (fun _ h => h.toDecompressFramed) fun _ u h => ?_
  refine framed_bind_of (bodyRleDec_framed h) (fun _ h => h.toDecompressFramed) fun _ u h => ?_
  refine framed_bind (bodyZzUnflat_framed h.toDecompressFramed) fun _ u h => ?_
  refine framed_bind (bodyDequant_framed hE h) fun _ u h => ?_
  refine framed_bind (bodyTxInv_framed hA h) fun _ u h => ?_
  refine framed_bind (storeBlock_framed hE hA (fun _ _ _ v h hb => h.write hb v) _ _ h) fun _ u h => framed_ok ?_
  exact ⟨h.progress (u.regs.blkDone + 1) u.regs.strmPtr u.cb u.seq.j u.pcount, h.cb, h.ptr, h.j⟩

theorem decompressBlock_framed (b : Nat) {u : State} (h : DecompressFramed s u.frame) :
    Framed (DecompressFramed s) (StreamError s) (decompressBlock b u) := by
  have hlen : u.regs.strmLen = s.regs.strmLen := h.strmLen
  have hread := readPairs_framed (left := u.regs.strmLen.toNat - u.seq.j) (m := 0) (u := u.atBlock b) h
    (by rw [hlen]; exact Nat.add_sub_cancel' h.j) (Nat.zero_le _) (Nat.zero_le _)
  refine Run.Ensures.bind hread fun m t ⟨ht, hj, hm⟩ => ?_
  have hp : (BitVec.ofNat 7 m).toNat = m := by rw [BitVec.toNat_ofNat]; omega
  refine rebuildAndStore_framed (u := t.counted m) ⟨⟨?_, ht.cb, ht.ptr, ht.j⟩, hp.trans_le hj, hp.trans_le hm⟩
  exact ht.progress t.regs.blkDone t.regs.strmPtr t.cb t.seq.j _

/-! ### The whole command -/

/-- Every byte outside the image, the codebook, every register but BLK_DONE and STRM_PTR, and the host's side are as in `s`. -/
abbrev ImageConfined (s : State) (g : Frame) : Prop := Confined s (imageRegion s.regs) g ∧ g.cb = s.cb

theorem decompressPhases_framed {u : State} (h : ImageConfined s u.frame) :
    Framed (DecompressFramed s) (StreamError s) (decompressPhases u) := by
  refine framed_bind (validatePhase_framed h.1 h.2) fun _ v hv => ?_
  exact forCount_framed _ 0 (fun b _ _ _ => decompressBlock_framed b) (DecompressFramed.start hv.toConfined hv.cb)

theorem bodySeqDecompress_eq (s : State) : bodySeqDecompress s =
    (sequenceChecks streamRegionLen s).bind fun _ s => decompressPhases s.clearBlkDone := by
  unfold bodySeqDecompress sequenceChecks decompressPhases
  simp only [bind_bind]

theorem bodySeqDecompress_framed (ha : s.Alone) : Framed (ImageConfined s) (StreamError s) (bodySeqDecompress s) := by
  rw [bodySeqDecompress_eq]
  have hstart : ImageConfined s s.frame := ⟨confined_refl ha _, rfl⟩
  refine Run.Ensures.bind ((sequenceChecks_ensures _ s).mono (fun _ _ => id) (fun c i t ht => ?_) fun _ => id) fun _ t ht => ?_
  · rw [ht.1]
    refine ⟨hstart, streamError_ofStream s _ _ _ ?_⟩
    rcases ht.2 with rfl | rfl <;> decide
  · rw [ht.1]
    have hclear : ImageConfined s s.generated.clearBlkDone.frame :=
      ⟨(confined_refl ha _).progress 0 s.regs.strmPtr s.cb s.seq.j s.pcount, rfl⟩
    exact (decompressPhases_framed hclear).mono fun _ h => ⟨h.toConfined, h.cb⟩

end Decompress

/-- Settles O54: no piece of SEQ_DECOMPRESS writes outside the image. -/
theorem decompressFrame : Obligations.DecompressFrame := by
  intro s t ha hm hx
  have hf := bodySeqDecompress_framed ha
  have hend {u v : State} (hv : v.frame = { u.frame with j := 0, pcount := freePcount u.draws }) (h : ImageConfined s u.frame) :
      ImageConfined s v.frame := hv ▸ ⟨h.1.progress u.regs.blkDone u.regs.strmPtr u.cb 0 _, h.2⟩
  obtain ⟨h, hcb⟩ : ImageConfined s t.frame := by
    rcases sequence_next (r := bodySeqDecompress s) hx with ⟨u, hu, rfl⟩ | ⟨c, i, u, hu, rfl⟩ | hu
    · exact hend rfl (ensures_ok.1 (hu ▸ hf))
    · exact hend rfl (ensures_raised.1 (hu ▸ hf)).1
    · exact (ensures_abandoned.1 (hu ▸ hf)).elim
  exact ⟨(h.mem hm).2, hcb, h.regs, h.rst, h.hostIn, h.hostOut⟩

end Sys2Proof.Machine
end

section
/-! SUPPORT. Phase VALIDATE of SEQ_DECOMPRESS on any stream, on ordinary memory: what stops it, and that a stream it passes is legal
(46_sequencer.md R183, R187). -/

namespace Sys2Proof.Machine

/-! ### A stream that passes -/

/-- The rest `ws` of a legal block, after words with the run sum `sum`. -/
def legalRest (cb : List Entry) (sum : Nat) (ws : List Word) : Prop :=
  (∀ w ∈ ws, decodable cb w = true ∧ 1 ≤ (runField w).toNat) ∧ eobLast ws = true ∧ sum + runSum ws = 64

theorem legalRest_zero_iff (cb : List Entry) (ws : List Word) : legalRest cb 0 ws ↔ legalBlock cb ws = true := by
  rw [legalRest, legalBlock_iff, Nat.zero_add, and_comm (a := eobLast ws = true)]

section Word
variable {cb : List Entry} {sum : Nat} {w : Word} (hd : decodable cb w = true) (hr : 1 ≤ (runField w).toNat)
include hd hr

theorem legalRest_singleton (he : eobField w = true) (hs : sum + (runField w).toNat = 64) : legalRest cb sum [w] := by
  refine ⟨by simpa using ⟨hd, hr⟩, (eobLast_cons w []).2 (.inl ⟨he, rfl⟩), ?_⟩
  rwa [runSum_cons]

theorem legalRest_cons (he : eobField w = false) {ws : List Word} (h : legalRest cb (sum + (runField w).toNat) ws) :
    legalRest cb sum (w :: ws) := by
  obtain ⟨hall, hlast, hs⟩ := h
  refine ⟨List.forall_mem_cons.2 ⟨⟨hd, hr⟩, hall⟩, (eobLast_cons w ws).2 (.inr ⟨he, hlast⟩), ?_⟩
  rwa [runSum_cons, ← Nat.add_assoc]

end Word

/-- R183, on ordinary memory: words pass only as the rest of a legal block, and an error has written nothing. -/
theorem validateWords_ensures {left : Nat} {u : State} (h : u.Undisturbed) : (validateWords left u).Ensures
    (fun _ _ => ∃ ws, streamHas u.regs u.mem u.seq.j ws ∧ legalRest u.cb u.seq.sum ws ∧ ws.length ≤ left)
    (fun _ _ t => t.mem = u.mem) fun _ => False := by
  induction left generalizing u with
  | zero => exact ensures_raised.2 rfl
  | succ left ih =>
    rw [validateWords_succ, memRead32_did h, bind_ok]
    generalize hw : memGet32 u.mem (strmAddr u.regs u.seq.j) = w
    unfold validateWith
    split
    · exact ensures_raised.2 rfl
    split
    · exact ensures_raised.2 rfl
    split
    · exact ensures_raised.2 rfl
    rename_i hlen hcode hrun
    have hd : decodable u.cb w = true := (decodable_iff _ _).2 ⟨hlen, Option.ne_none_iff_exists'.1 (by simpa using hcode)⟩
    have hr : 1 ≤ (runField w).toNat := by omega
    split
    case isTrue he =>
      split
      · exact ensures_raised.2 rfl
      case isFalse hs =>
        refine ensures_ok.2 ⟨[w], streamHas_cons.2 ⟨hw, ?_⟩, legalRest_singleton hd hr he (not_not.1 hs), by simp⟩
        exact fun i hi => absurd hi (Nat.not_lt_zero i)
    case isFalse he =>
      have hu : ((u.did [.read32 (strmAddr u.regs u.seq.j)]).setSum (u.seq.sum + (runField w).toNat)).nextWord.Undisturbed :=
        h.of rfl rfl
      refine (ih hu).mono (fun _ _ ⟨ws, hs, hl, hn⟩ => ?_) (fun _ _ _ => id) fun _ => id
      exact ⟨w :: ws, streamHas_cons.2 ⟨hw, (streamHas_congr rfl).1 hs⟩, legalRest_cons hd hr (by simpa using he) hl,
        Nat.succ_le_succ hn⟩

section Validated
variable {s : State} (hu : s.Undisturbed)
include hu

omit hu in
theorem validateBlock_eq (b n v : Nat) (s : State) : validateBlock b (s.validated n v) =
    validateWords (s.regs.strmLen.toNat - n) (s.validated n 0) := rfl

/-- A legal block after `n` words that have passed. -/
theorem validateBlock_legal {n v : Nat} {ws : List Word} (hs : streamHas s.regs s.mem n ws) (hb : legalBlock s.cb ws = true)
    (hl : n + ws.length ≤ s.regs.strmLen.toNat) (b : Nat) :
    validateBlock b (s.validated n v) = .ok () (s.validated (n + ws.length) 64) := by
  have hw : streamHas (s.validated n v).regs (s.validated n v).mem n ws := by
    rw [State.validated_mem]
    exact (streamHas_congr rfl).2 hs
  have hv : (s.validated n v).Undisturbed := hu.of rfl rfl
  rw [validateBlock_did hv hw hb hl, ← State.validated_succ n ws.length v]
  rfl

/-- Phase VALIDATE after blocks that have passed: they are legal. -/
def LegalSoFar (s : State) (b : Nat) (u : State) : Prop :=
  ∃ (bs : List (List Word)) (v : Nat), bs.length = b ∧ (bs.all (legalBlock s.cb)) = true ∧ bs.flatten.length ≤ s.regs.strmLen.toNat ∧
    streamHas s.regs s.mem 0 bs.flatten ∧ u = s.validated bs.flatten.length v

theorem validateBlock_ensures {b : Nat} {u : State} (h : LegalSoFar s b u) :
    (validateBlock b u).Ensures (fun _ t => LegalSoFar s (b + 1) t) (fun _ _ t => t.mem = s.mem) fun _ => False := by
  obtain ⟨bs, v, hb, hall, hlen, hs, rfl⟩ := h
  have hv : (s.validated bs.flatten.length 0).Undisturbed := hu.of rfl rfl
  have he := validateWords_ensures (left := s.regs.strmLen.toNat - bs.flatten.length) hv
  rw [State.validated_mem] at he
  rw [← validateBlock_eq b _ v] at he
  cases hr : validateBlock b (s.validated bs.flatten.length v) with
  | ok _ t =>
    obtain ⟨ws, hws, hl, hn⟩ := ensures_ok.1 (hr ▸ he)
    have hws : streamHas s.regs s.mem bs.flatten.length ws := (streamHas_congr rfl).1 hws
    have hleg := (legalRest_zero_iff s.cb ws).1 hl
    have hle : bs.flatten.length + ws.length ≤ s.regs.strmLen.toNat := by omega
    rw [validateBlock_legal hu hws hleg hle] at hr
    obtain rfl := (Run.ok.inj hr).2
    refine ensures_ok.2 ⟨bs ++ [ws], 64, by simp [hb], by simpa [hleg] using hall, by simpa using hle, ?_, by simp⟩
    rw [List.flatten_append, List.flatten_singleton, streamHas_append, Nat.zero_add]
    exact ⟨hs, hws⟩
  | raised c i t => exact ensures_raised.2 (ensures_raised.1 (hr ▸ he))
  | abandoned t => exact (ensures_abandoned.1 (hr ▸ he)).elim
  | fault x => exact ensures_fault.2 trivial
  | refused x => exact ensures_refused.2 trivial

omit hu in
/-- Blocks in memory that fill the stream are the stream. -/
theorem flatten_eq_strmWords {bs : List (List Word)} (hl : bs.flatten.length = s.regs.strmLen.toNat)
    (hs : streamHas s.regs s.mem 0 bs.flatten) : bs.flatten = strmWords s s.regs.strmLen.toNat := by
  refine List.ext_getElem (by simp [strmWords, hl]) fun i h1 h2 => ?_
  have := hs i h1
  simpa [strmWords, State.strmWord] using this.symm

/-- R183, on ordinary memory: a stream that passes phase VALIDATE is legal, and an error of the phase has written nothing. -/
theorem validatePhase_ensures : (validatePhase s).Ensures (fun _ _ => legalStream s.cb (blkCount s.regs) (strmWords s s.regs.strmLen.toNat))
    (fun _ _ t => t.mem = s.mem) fun _ => False := by
  have hstart : LegalSoFar s 0 (s.startPass .validate) :=
    ⟨[], s.seq.sum, rfl, rfl, Nat.zero_le _, fun i hi => absurd hi (Nat.not_lt_zero i), rfl⟩
  unfold validatePhase
  refine (forCount_ensures (fun _ _ => validateBlock_ensures hu) _ 0 _ hstart).bind fun _ t ht => ?_
  obtain ⟨bs, v, hb, hall, hlen, hs, rfl⟩ := ht
  split
  · exact ensures_raised.2 (State.validated_mem _ _ s)
  case isFalse hj =>
    exact ensures_ok.2 ⟨bs, hb.trans (Nat.zero_add _), hall, flatten_eq_strmWords (not_not.1 hj) hs⟩

end Validated
end Sys2Proof.Machine
end

section
/-! SUPPORT. Where phase VALIDATE of SEQ_DECOMPRESS stops, on ordinary memory: the failing word, its error, and the reads made
(46_sequencer.md R183, R187). -/

namespace Sys2Proof.Machine

theorem blockPrefix_iff (cb : List Entry) (p : List Word) : blockPrefix cb p = true ↔
    (∀ w ∈ p, decodable cb w = true ∧ 1 ≤ (runField w).toNat ∧ eobField w = false) ∧ runSum p ≤ 64 := by
  simp [blockPrefix, and_assoc]

/-- A word without EOB that passes: the next one is read. -/
theorem validateWith_passes {left : Nat} {w : Word} {s : State} (hd : decodable s.cb w = true) (hr : 1 ≤ (runField w).toNat)
    (he : eobField w = false) (hs : s.seq.sum + (runField w).toNat ≤ 64) :
    validateWith left w s = validateWords left (s.setSum (s.seq.sum + (runField w).toNat)).nextWord := by
  obtain ⟨hl, e, hc⟩ := (decodable_iff s.cb w).1 hd
  rw [validateWith, if_neg hl, hc, if_neg (by simp), if_neg (by omega), he, if_neg (by decide)]

section Read
variable {s : State} (hu : s.Undisturbed)

/-- Word `n` of the stream has been read after `n` words that have passed. -/
theorem validated_read (n v : Nat) (s : State) (k : Nat) :
    (((s.validated n v).did [.read32 (strmAddr s.regs n)]).setSum k).nextWord = s.validated (n + 1) k := by
  have h := State.validated_succ n 1 v s
  have hr : readRequests s.regs n 1 = [.read32 (strmAddr s.regs n)] := rfl
  rw [hr] at h
  exact congrArg (State.setSum k) h

include hu

theorem validateWords_validated {n : Nat} {w : Word} (hw : memGet32 s.mem (strmAddr s.regs n) = w) (left v : Nat) :
    validateWords (left + 1) (s.validated n v) = validateWith left w ((s.validated n v).did [.read32 (strmAddr s.regs n)]) := by
  have hv : (s.validated n v).Undisturbed := hu.of rfl rfl
  rw [validateWords_succ, memRead32_did hv, bind_ok, State.validated_mem]
  exact congrArg (fun w => validateWith left w ((s.validated n v).did [.read32 (strmAddr s.regs n)])) hw

/-- The beginning of a block passes. -/
theorem validateWords_prefix {p : List Word} {n v left : Nat} (hs : streamHas s.regs s.mem n p)
    (hp : ∀ w ∈ p, decodable s.cb w = true ∧ 1 ≤ (runField w).toNat ∧ eobField w = false) (hr : v + runSum p ≤ 64) :
    validateWords (p.length + left) (s.validated n v) = validateWords left (s.validated (n + p.length) (v + runSum p)) := by
  induction p generalizing n v with
  | nil => rw [List.length_nil, Nat.zero_add]; rfl
  | cons w p ih =>
    obtain ⟨hw, hs⟩ := streamHas_cons.1 hs
    obtain ⟨⟨hd, hrun, he⟩, hp⟩ := List.forall_mem_cons.1 hp
    rw [runSum_cons] at hr ⊢
    have hsum : v + (runField w).toNat ≤ 64 := by omega
    have hpass := validateWith_passes (left := p.length + left) (s := (s.validated n v).did [.read32 (strmAddr s.regs n)]) hd hrun he hsum
    rw [List.length_cons, Nat.add_right_comm, validateWords_validated hu hw, hpass]
    change validateWords _ ((State.did _ _).setSum (v + _)).nextWord = _
    rw [validated_read, ih hs hp (by omega)]
    simp only [Nat.add_assoc, Nat.add_comm 1]

/-- Legal blocks at the beginning of the stream pass. -/
theorem validateBlocks_legal {bs : List (List Word)} (hs : streamHas s.regs s.mem 0 bs.flatten)
    (hb : bs.all (legalBlock s.cb) = true) (hl : bs.flatten.length ≤ s.regs.strmLen.toNat) :
    ∃ v, forCount validateBlock bs.length 0 (s.startPass .validate) = .ok () (s.validated bs.flatten.length v) := by
  have loop := forCount_ok (body := validateBlock) (I := fun b u => ∃ v, u = s.validated (wordsBefore bs b) v) bs.length 0
    (by
      rintro b u _ hb' ⟨v, rfl⟩
      have hlt : b < bs.length := by omega
      refine ⟨_, validateBlock_legal hu (streamHas_block hs hlt) (List.all_eq_true.1 hb _ (List.getElem_mem hlt)) ?_ b, 64, ?_⟩
      · rw [← wordsBefore_succ hlt]
        exact (wordsBefore_le bs _).trans hl
      · rw [wordsBefore_succ hlt])
    (s.startPass .validate) ⟨s.seq.sum, rfl⟩
  obtain ⟨t, ht, v, rfl⟩ := loop
  rw [Nat.zero_add, wordsBefore_length] at ht
  exact ⟨v, ht⟩

end Read

/-- A stream in memory that begins with the legal blocks `bs` and the beginning `p` of one more, and goes on with `r`. -/
structure StreamBegins (s : State) (bs : List (List Word)) (p r : List Word) : Prop where
  undisturbed : s.Undisturbed
  legal : bs.all (legalBlock s.cb) = true
  begun : blockPrefix s.cb p = true
  length : (bs.flatten ++ p ++ r).length = s.regs.strmLen.toNat
  words : streamHas s.regs s.mem 0 (bs.flatten ++ p ++ r)

section Begins
variable {s : State} {bs : List (List Word)} {p r : List Word} (hb : StreamBegins s bs p r)
include hb

/-- The words of the blocks, of the beginning of one more, and after it. -/
theorem StreamBegins.parts : streamHas s.regs s.mem 0 bs.flatten ∧ streamHas s.regs s.mem bs.flatten.length p ∧
    streamHas s.regs s.mem (bs.flatten ++ p).length r := by
  have h := hb.words
  rw [streamHas_append, streamHas_append, Nat.zero_add, Nat.zero_add] at h
  exact ⟨h.1.1, h.1.2, h.2⟩

theorem StreamBegins.blocks_le : bs.flatten.length ≤ s.regs.strmLen.toNat := by
  have h := hb.length
  rw [List.length_append, List.length_append] at h
  omega

/-- An error at the word after the beginning of a block ends the phase. -/
theorem StreamBegins.validatePhase_raised (hlt : bs.length < blkCount s.regs) {c : ErrCode} {i : Word} {t : State}
    (h : validateWords r.length (s.validated (bs.flatten ++ p).length (runSum p)) = .raised c i t) :
    validatePhase s = .raised c i t := by
  obtain ⟨hblocks, hp, -⟩ := hb.parts
  obtain ⟨hall, hsum⟩ := (blockPrefix_iff _ _).1 hb.begun
  obtain ⟨v, hv⟩ := validateBlocks_legal hb.undisturbed hblocks hb.legal hb.blocks_le
  have hleft : s.regs.strmLen.toNat - bs.flatten.length = p.length + r.length := by
    have h := hb.length
    rw [List.length_append, List.length_append] at h
    omega
  have hblock : validateBlock (0 + bs.length) (s.validated bs.flatten.length v) = .raised c i t := by
    rw [validateBlock_eq, hleft, validateWords_prefix hb.undisturbed hp hall (by omega), Nat.zero_add, ← List.length_append, h]
  unfold validatePhase
  rw [forCount_of_raised hlt hv hblock, bind_raised]

/-- R183: words are left after the last block. -/
theorem StreamBegins.validatePhase_left (hn : bs.length = blkCount s.regs) (hp : p = []) (hr : r ≠ []) :
    ∃ v, validatePhase s = .raised .corruptBlockCount (pat32 (bs.flatten ++ p).length) (s.validated (bs.flatten ++ p).length v) := by
  subst hp
  obtain ⟨hblocks, -, -⟩ := hb.parts
  obtain ⟨v, hv⟩ := validateBlocks_legal hb.undisturbed hblocks hb.legal hb.blocks_le
  have hlen : bs.flatten.length ≠ s.regs.strmLen.toNat := by
    have h := hb.length
    have := List.length_pos_iff.2 hr
    simp only [List.length_append, List.length_nil] at h
    omega
  refine ⟨v, ?_⟩
  unfold validatePhase
  rw [← hn, hv, bind_ok, List.append_nil]
  exact if_pos hlen

/-- R183: no word is left for a block. -/
theorem StreamBegins.validatePhase_short (hlt : bs.length < blkCount s.regs) (hr : r = []) : validatePhase s =
    .raised .corruptBlockCount (pat32 (bs.flatten ++ p).length) (s.validated (bs.flatten ++ p).length (runSum p)) :=
  hb.validatePhase_raised hlt (by rw [hr]; rfl)

end Begins

/-- R183: the word after the beginning of a block fails. -/
theorem StreamBegins.validatePhase_word {s : State} {bs : List (List Word)} {p ws : List Word} {w : Word}
    (hb : StreamBegins s bs p (w :: ws)) (hlt : bs.length < blkCount s.regs) {c : ErrCode} {i : Word} {t : State}
    (h : validateWith ws.length w ((s.validated (bs.flatten ++ p).length (runSum p)).did
      [.read32 (strmAddr s.regs (bs.flatten ++ p).length)]) = .raised c i t) : validatePhase s = .raised c i t := by
  obtain ⟨-, -, hw⟩ := hb.parts
  exact hb.validatePhase_raised hlt ((validateWords_validated hb.undisturbed (streamHas_cons.1 hw).1 _ _).trans h)

/-! ### The checks of a word (R183) -/

section Checks
variable {left : Nat} {w : Word} {s : State}

theorem validateWith_valueForm (h : lenField w = 0) : validateWith left w s = .raised .pairForm (pat32 s.seq.j) s := by
  rw [validateWith, if_pos h]

theorem validateWith_unknown (h : lenField w ≠ 0) (hc : lookupCode s.cb { len := lenField w, bits := symField w } = none) :
    validateWith left w s = .raised .unknownCode (pat32 s.seq.j) s := by
  rw [validateWith, if_neg h, hc]
  rfl

theorem validateWith_badRun (hd : decodable s.cb w = true) (hr : (runField w).toNat = 0 ∨ 64 < s.seq.sum + (runField w).toNat) :
    validateWith left w s = .raised .corruptRunSum (pat32 s.seq.j) s := by
  obtain ⟨hl, e, hc⟩ := (decodable_iff s.cb w).1 hd
  rw [validateWith, if_neg hl, hc, if_neg (by simp), if_pos hr]

theorem validateWith_earlyEnd (hd : decodable s.cb w = true) (hr : (runField w).toNat ≠ 0)
    (hs : s.seq.sum + (runField w).toNat < 64) (he : eobField w = true) : validateWith left w s =
      .raised .corruptRunSum (pat32 s.seq.j) (s.setSum (s.seq.sum + (runField w).toNat)).nextWord := by
  obtain ⟨hl, e, hc⟩ := (decodable_iff s.cb w).1 hd
  rw [validateWith, if_neg hl, hc, if_neg (by simp), if_neg (by omega), he, if_pos rfl, if_pos hs.ne]

end Checks

/-! ### The record and the progress -/

/-- SEQ_DECOMPRESS, begun in `s`, has generated the matrix and made the reads of the first `reads` words, `ptr` of which it has
counted; nothing else has changed. -/
structure ReadStop (s : State) (ptr reads : Nat) (u : State) : Prop where
  regs : u.regs = { s.regs with blkDone := 0, strmPtr := BitVec.ofNat 32 ptr }
  status : u.status = { s.status with qv := true }
  mem : u.mem = s.mem
  cb : u.cb = s.cb
  qmat : u.qmat = matrixOf s.regs.quality.toNat
  busLog : u.busLog = (readRequests s.regs 0 reads).reverse ++ s.busLog

section Stop
variable (s : State) (k v : Nat)

theorem readStop_validated : ReadStop s k k (s.generated.clearBlkDone.validated k v) :=
  ⟨rfl, rfl, State.validated_mem k v _, rfl, rfl, rfl⟩

theorem readRequests_succ_last (r : Regs) (k : Nat) : readRequests r 0 (k + 1) = readRequests r 0 k ++ [.read32 (strmAddr r k)] :=
  (readRequests_append r k 1).symm

theorem readStop_read (a : Addr) (ha : a = strmAddr s.regs k) :
    ReadStop s k (k + 1) ((s.generated.clearBlkDone.validated k v).did [.read32 a]) where
  regs := rfl
  status := rfl
  mem := State.validated_mem k v _
  cb := rfl
  qmat := rfl
  busLog := by
    rw [readRequests_succ_last, ha, List.reverse_append, List.append_assoc]
    rfl

end Stop

/-- What SEQ_DECOMPRESS leaves where phase VALIDATE stops. -/
def StopsWith (s : State) (code : BitVec 4) (info ptr reads : Nat) : Prop :=
  ∃ t : State, exec .seqDecompress s = .next t ∧
    t.status = { s.status with done := true, err := true, qv := true, errCode := code, errInfo := BitVec.ofNat 32 info } ∧
    t.regs = { s.regs with blkDone := 0, strmPtr := BitVec.ofNat 32 ptr } ∧ t.mem = s.mem ∧ t.cb = s.cb ∧
    t.qmat = matrixOf s.regs.quality.toNat ∧ t.busLog = (readRequests s.regs 0 reads).reverse ++ s.busLog

theorem bodySeqDecompress_started {s : State} (h : ChecksPass streamRegionLen s) :
    bodySeqDecompress s = decompressPhases s.generated.clearBlkDone := by
  rw [bodySeqDecompress_eq, sequenceChecks, checkSequence_eq h.width h.height, if_pos h.quality, ofCheck_ok, bind_ok, checkRegions,
    if_neg (by simp [h.disjoint]), bind_ok, bodyQgen_generated h.quality, bind_ok]

theorem stopsWith_of_validate {s u : State} (h : ChecksPass streamRegionLen s) {c : ErrCode} {info ptr reads : Nat}
    (hr : validatePhase s.generated.clearBlkDone = .raised c (pat32 info) u) (hu : ReadStop s ptr reads u) :
    StopsWith s c.number info ptr reads := by
  refine ⟨u.freeScratch.raise c (pat32 info), ?_, ?_, ?_, ?_, ?_, ?_, ?_⟩
  · change finish (sequenceEnd (bodySeqDecompress s)) = _
    rw [bodySeqDecompress_started h, decompressPhases, hr]
    rfl
  · simp [hu.status, pat32]
  · simpa using hu.regs
  · simpa using hu.mem
  · simpa using hu.cb
  · simpa using hu.qmat
  · simpa using hu.busLog

theorem streamBegins_of_strmWords {s : State} {bs : List (List Word)} {p r : List Word} (hu : s.Undisturbed)
    (hl : bs.all (legalBlock s.cb) = true) (hp : blockPrefix s.cb p = true)
    (hw : strmWords s s.regs.strmLen.toNat = bs.flatten ++ p ++ r) : StreamBegins s.generated.clearBlkDone bs p r where
  undisturbed := hu.of rfl rfl
  legal := hl
  begun := hp
  length := by rw [← hw]; exact (List.length_map ..).trans (List.length_range ..)
  words := by
    rw [← hw]
    have h : streamHas s.regs s.mem 0 (strmWords s s.regs.strmLen.toNat) := fun i hi => by simp [strmWords, State.strmWord]
    exact h

/-- R187, R183: where a stream stops SEQ_DECOMPRESS. -/
theorem seqDecompress_stops {s : State} (h : ChecksPass streamRegionLen s) (hu : s.Undisturbed) {bs : List (List Word)} {p r : List Word}
    (hl : bs.all (legalBlock s.cb) = true) (hp : blockPrefix s.cb p = true)
    (hw : strmWords s s.regs.strmLen.toNat = bs.flatten ++ p ++ r) :
    let j := (bs.flatten ++ p).length
    (bs.length < blkCount s.regs → r = [] → StopsWith s 2 j j j) ∧
    (∀ (w : Word) (ws : List Word), bs.length < blkCount s.regs → r = w :: ws →
      (lenField w = 0 → StopsWith s 10 j j (j + 1)) ∧
      (lenField w ≠ 0 → lookupCode s.cb { len := lenField w, bits := symField w } = none → StopsWith s 4 j j (j + 1)) ∧
      (decodable s.cb w = true → (runField w = 0 ∨ 64 < runSum p + (runField w).toNat) → StopsWith s 3 j j (j + 1)) ∧
      (decodable s.cb w = true → runField w ≠ 0 → runSum p + (runField w).toNat < 64 → eobField w = true →
        StopsWith s 3 j (j + 1) (j + 1))) ∧
    (bs.length = blkCount s.regs → p = [] → r ≠ [] → StopsWith s 2 j j j) := by
  have hb := streamBegins_of_strmWords hu hl hp hw
  refine ⟨fun hlt hr => ?_, fun w ws hlt hr => ?_, fun hn hp hr => ?_⟩
  · exact stopsWith_of_validate h (hb.validatePhase_short hlt hr) (readStop_validated s _ _)
  · subst hr
    have hread := readStop_read s (bs.flatten ++ p).length (runSum p) _ rfl
    refine ⟨fun hv => ?_, fun hc hx => ?_, fun hd hrun => ?_, fun hd hrun hs he => ?_⟩
    · exact stopsWith_of_validate h (hb.validatePhase_word hlt (validateWith_valueForm hv)) hread
    · exact stopsWith_of_validate h (hb.validatePhase_word hlt (validateWith_unknown hc hx)) hread
    · exact stopsWith_of_validate h (hb.validatePhase_word hlt (validateWith_badRun hd (hrun.imp_left fun h => by rw [h]; rfl))) hread
    · have hrun : (runField w).toNat ≠ 0 := fun h => hrun (BitVec.eq_of_toNat_eq h)
      refine stopsWith_of_validate h (hb.validatePhase_word hlt (validateWith_earlyEnd hd hrun hs he)) ?_
      change ReadStop s _ _ (State.nextWord (State.setSum (runSum p + _) _))
      rw [validated_read]
      exact readStop_validated s _ _
  · obtain ⟨v, hv⟩ := hb.validatePhase_left hn hp hr
    exact stopsWith_of_validate h hv (readStop_validated s _ _)

end Sys2Proof.Machine
end

section
/-! SUPPORT. A block that reads back otherwise in phase BLOCKS of SEQ_DECOMPRESS: the error its body raises (46_sequencer.md R183,
43_rle.md R141, 44_codebook.md R155). -/

namespace Sys2Proof.Machine

/-! ### Reads that the memory answers with words of its own -/

theorem memRead32_returns {s : State} {w : Word} {rest : List MemResponse} (ha : s.Alone) (h : s.memResp = .returns w :: rest)
    (a : Addr) : memRead32 a s = .ok w ((s.did [.read32 a]).withResp rest) := by
  have hw : (s.waiting (.read32 a)).memResp = .returns w :: rest := h
  unfold memRead32 State.answered
  rw [request_alone ha, bind_ok, hw]
  rfl

section WithResp
variable (m : List MemResponse) (s : State)

@[simp] theorem State.withResp_regs : (s.withResp m).regs = s.regs := rfl
@[simp] theorem State.withResp_seq : (s.withResp m).seq = s.seq := rfl
@[simp] theorem State.withResp_pbuf : (s.withResp m).pbuf = s.pbuf := rfl

theorem State.did_withResp (l : List Request) : (s.withResp m).did l = (s.did l).withResp m := rfl

theorem State.withPbuf_withResp (p : Block 32) :
    (s.withResp m).withPbuf p = (s.withPbuf p).withResp m := rfl

theorem State.atWord_withResp (k : Nat) : (s.withResp m).atWord k = (s.atWord k).withResp m := rfl

theorem State.withResp_withResp (n : List MemResponse) : (s.withResp m).withResp n = s.withResp n := rfl

end WithResp

/-- R183: the words that memory returns, up to the one with EOB, are read into PBUF. -/
theorem readPairs_returns {ws : List Word} {left m : Nat} {s : State} {rest : List MemResponse} (ha : s.Alone)
    (h : s.memResp = ws.map .returns ++ rest) (he : eobLast ws = true) (hl : ws.length ≤ left) (hm : m + ws.length ≤ 64) :
    readPairs left m s = .ok (m + ws.length)
      ((((s.did (readRequests s.regs s.seq.j ws.length)).withPbuf (putPairs s.pbuf m ws)).atWord (s.seq.j + ws.length)).withResp rest) := by
  induction ws generalizing left m s with
  | nil => exact nomatch he
  | cons w ws ih =>
    rw [List.length_cons] at hl hm
    obtain ⟨left, rfl⟩ : ∃ k, left = k + 1 := ⟨left - 1, by omega⟩
    rw [readPairs_succ (by omega), memRead32_returns ha h, bind_ok, List.length_cons, readRequests_succ, putPairs]
    rcases (eobLast_cons w ws).1 he with ⟨hf, rfl⟩ | ⟨hf, he⟩
    · rw [if_pos hf]
      rfl
    · rw [if_neg (by rw [hf]; decide)]
      have ha : ((((s.did [.read32 (strmAddr s.regs s.seq.j)]).withResp (ws.map .returns ++ rest)).withPbuf
        (s.pbuf.setIfInBounds m (maskPair w))).atWord (s.seq.j + 1)).Alone := ha
      refine (ih ha rfl he (Nat.le_of_succ_le_succ hl) ((Nat.add_right_comm m 1 _).trans_le hm)).trans ?_
      simp only [State.withPbuf_seq, State.atWord_j, State.withPbuf_pbuf, State.atWord_regs, State.withPbuf_regs, State.withResp_regs,
        State.withResp_seq, State.withResp_pbuf, State.did_regs, readRequests_progress, State.did_atWord,
        State.did_withPbuf, State.did_withResp, State.atWord_withPbuf, State.atWord_withResp, State.withPbuf_withResp,
        State.atWord_atWord, State.withPbuf_withPbuf, State.withResp_withResp, ← State.did_append, List.singleton_append,
        Nat.add_assoc, Nat.add_comm 1]

/-- The words `ws` of block `b` have been read into PBUF, and memory's further answers are `rest`. -/
abbrev State.blockRead (b : Nat) (ws : List Word) (rest : List MemResponse) (s : State) : State := (s.pairsRead b ws).withResp rest

section Block
variable {s : State} {ws : List Word} {rest : List MemResponse} (b : Nat)

theorem decompressBlock_returns (ha : s.Alone) (hr : readAsBlock ws = true) (hl : s.seq.j + ws.length ≤ s.regs.strmLen.toNat)
    (h : s.memResp = ws.map .returns ++ rest) : decompressBlock b s = rebuildAndStore (s.blockRead b ws rest) := by
  obtain ⟨h64, he⟩ : ws.length ≤ 64 ∧ eobLast ws = true := by simpa [readAsBlock, eobLast] using hr
  unfold decompressBlock
  rw [readPairs_returns (s := s.atBlock b) ha h he (by omega) (by omega), bind_ok, Nat.zero_add]
  rfl

/-! ### The checks of the bodies on the words read -/

/-- The checks of CB_DECODE read no reserved bit (R94). -/
theorem decodePairs_maskPair (cb : List Entry) (i : Nat) (ws : List Word) : decodePairs cb i (ws.map maskPair) = decodePairs cb i ws := by
  induction ws generalizing i with
  | nil => rfl
  | cons w ws ih => simp only [List.map_cons, decodePairs, ih, decodedWord, lenField_maskPair, symField_maskPair, eobField_maskPair,
      runField_maskPair]

theorem checkPairs_append {fails : Word → Prop} [DecidablePred fails] {error : Word → ErrCode} {p : List Word}
    (h : ∀ w ∈ p, ¬ fails w) (i : Nat) (ws : List Word) :
    checkPairs fails error i (p ++ ws) = checkPairs fails error (i + p.length) ws := by
  induction p generalizing i with
  | nil => rfl
  | cons w p ih =>
    obtain ⟨hw, hp⟩ := List.forall_mem_cons.1 h
    rw [List.cons_append, checkPairs, if_neg hw, ih hp, List.length_cons, Nat.add_right_comm, Nat.add_assoc]

theorem not_decodeFails {cb : List Entry} {w : Word} (h : decodable cb w = true) : ¬ DecodeFails cb w := by
  obtain ⟨hl, e, hc⟩ := (decodable_iff cb w).1 h
  exact not_or.2 ⟨hl, by simp [hc]⟩

/-- R155: the first pair that CB_DECODE rejects. -/
theorem decodePairs_append {cb : List Entry} {p : List Word} {w : Word} (hp : p.all (decodable cb) = true) (hw : DecodeFails cb w)
    (q : List Word) : decodePairs cb 0 (p ++ w :: q) = .error (decodeError w, pat32 p.length) := by
  rw [decodePairs_eq, checkPairs_append fun v hv => not_decodeFails (List.all_eq_true.1 hp v hv), checkPairs, if_pos hw, Nat.zero_add]
  rfl

/-- The pairs pass the checks of RLE_DEC up to their run sum. -/
theorem rleCheck_append {p : List Word} (h : ∀ w ∈ p, lenField w = 0 ∧ 1 ≤ (runField w).toNat) {i sum : Nat}
    (hs : sum + runSum p ≤ 64) (ws : List Word) : rleCheck i sum (p ++ ws) = rleCheck (i + p.length) (sum + runSum p) ws := by
  induction p generalizing i sum with
  | nil => rfl
  | cons w p ih =>
    obtain ⟨⟨hl, hr⟩, hp⟩ := List.forall_mem_cons.1 h
    rw [runSum_cons] at hs ⊢
    have hw : ¬ FailsOn sum w := by
      rintro (hl' | hr' | hr')
      · exact hl' hl
      · omega
      · omega
    rw [List.cons_append, rleCheck_cons_of_passes hw, ih hp (by omega), List.length_cons, Nat.add_assoc, Nat.add_assoc, Nat.add_comm 1]

@[simp] theorem runSum_valueWords (cb : List Entry) (ws : List Word) : runSum (valueWords cb ws) = runSum ws := by
  simp [runSum, valueWords, decodedWord, Function.comp_def]

theorem valueWords_pass {cb : List Entry} {ws : List Word} (h : runsPositive ws = true) :
    ∀ w ∈ valueWords cb ws, lenField w = 0 ∧ 1 ≤ (runField w).toNat := by
  intro w hw
  obtain ⟨v, hv, rfl⟩ := List.mem_map.1 hw
  refine ⟨lenField_pairWord .., ?_⟩
  rw [decodedWord, runField_pairWord]
  exact of_decide_eq_true (List.all_eq_true.1 h v hv)

/-- R141: the first pair whose count RLE_DEC rejects. -/
theorem rleCheck_valueWords_append {cb : List Entry} {p : List Word} {w : Word} (hp : runsPositive p = true) (hs : runSum p ≤ 64)
    (hw : runField w = 0 ∨ 64 < runSum p + (runField w).toNat) (q : List Word) :
    rleCheck 0 0 (valueWords cb (p ++ w :: q)) = .error (.corruptRunSum, pat32 p.length) := by
  have hl : lenField (decodedWord (pairValue cb w) w) = 0 := lenField_pairWord ..
  have hf : FailsOn (runSum p) (decodedWord (pairValue cb w) w) := by
    rw [FailsOn, decodedWord, runField_pairWord]
    exact .inr (hw.imp_left fun h => by rw [h]; rfl)
  have hv : valueWords cb (p ++ w :: q) = valueWords cb p ++ decodedWord (pairValue cb w) w :: valueWords cb q := by simp [valueWords]
  rw [hv, rleCheck_append (valueWords_pass hp) (by simpa using hs), runSum_valueWords, Nat.zero_add, Nat.zero_add,
    rleCheck_cons_of_fails hf, pairError, if_neg (not_not.2 hl), length_valueWords]

/-! ### What the block comes to -/

/-- The block `ws` ends with the error `c`, ERRINFO the number `info`; it has been read, and nothing else has changed. -/
def BlockStops (b : Nat) (s : State) (ws : List Word) (c : ErrCode) (info : Nat) : Prop :=
  ∃ t : State, decompressBlock b s = .raised c (pat32 info) t ∧ t.mem = s.mem ∧
    t.regs = { s.regs with strmPtr := pat32 (s.seq.j + ws.length) }

theorem blockRead_mem (s : State) (ws : List Word) (rest : List MemResponse) : (s.blockRead b ws rest).mem = s.mem :=
  foldl_perform_pure pure_of_mem_readRequests s.mem

/-- Words that memory returns as a block of phase BLOCKS. -/
structure ReturnsBlock (s : State) (ws : List Word) (rest : List MemResponse) : Prop where
  alone : s.Alone
  block : readAsBlock ws = true
  fits : s.seq.j + ws.length ≤ s.regs.strmLen.toNat
  answers : s.memResp = ws.map .returns ++ rest

variable (h : ReturnsBlock s ws rest)
include h

theorem ReturnsBlock.eq : decompressBlock b s = rebuildAndStore (s.blockRead b ws rest) :=
  decompressBlock_returns b h.alone h.block h.fits h.answers

theorem ReturnsBlock.length_le : ws.length ≤ 64 := by
  have := h.block
  simp only [readAsBlock, Bool.and_eq_true, decide_eq_true_eq] at this
  exact this.1

theorem ReturnsBlock.decodePairs_eq : decodePairs s.cb 0 (validPairs (s.blockRead b ws rest)) = decodePairs s.cb 0 ws := by
  have hp : validPairs (s.blockRead b ws rest) = ws.map maskPair := validPairs_pairsRead s b h.length_le
  rw [hp, decodePairs_maskPair]

/-- CB_DECODE rejects a pair. -/
theorem ReturnsBlock.stops_undecodable {c : ErrCode} {info : Nat} (he : decodePairs s.cb 0 ws = .error (c, pat32 info)) :
    BlockStops b s ws c info := by
  refine ⟨s.blockRead b ws rest, ?_, blockRead_mem b s ws rest, rfl⟩
  have hd : decodePairs (s.blockRead b ws rest).cb 0 (validPairs (s.blockRead b ws rest)) = _ := (h.decodePairs_eq b).trans he
  rw [h.eq b, rebuildAndStore, bodyCbDecode, hd]
  rfl

section Decoded
variable (hd : ws.all (decodable s.cb) = true)
include hd

/-- CB_DECODE passes, and RLE_DEC raises an error. -/
theorem ReturnsBlock.stops_of_rleDec {c : ErrCode} {info : Nat} (he : ∀ u : State, validPairs u = valueWords s.cb ws →
    u.pcount = BitVec.ofNat 7 ws.length → bodyRleDec u = .raised c (pat32 info) u) : BlockStops b s ws c info := by
  have hdec : decodePairs (s.blockRead b ws rest).cb 0 (validPairs (s.blockRead b ws rest)) = .ok (valueWords s.cb ws) :=
    (h.decodePairs_eq b).trans (decodePairs_ok (List.all_eq_true.1 hd) 0)
  have hvalid := validPairs_decoded (s.blockRead b ws rest) (ws := valueWords s.cb ws) (by simpa using h.length_le)
    (by rw [length_valueWords]; rfl)
  refine ⟨(s.blockRead b ws rest).withPbuf (overwrite (s.blockRead b ws rest).pbuf (valueWords s.cb ws)), ?_,
    blockRead_mem b s ws rest, rfl⟩
  rw [h.eq b, rebuildAndStore, bodyCbDecode_ok hdec, bind_ok, he _ hvalid rfl]
  rfl

/-- RLE_DEC rejects the count of a pair. -/
theorem ReturnsBlock.stops_badRun {info : Nat} (he : rleCheck 0 0 (valueWords s.cb ws) = .error (.corruptRunSum, pat32 info)) :
    BlockStops b s ws .corruptRunSum info :=
  h.stops_of_rleDec b hd fun u hu _ => by rw [bodyRleDec, hu, he]; rfl

/-- RLE_DEC rejects the total. -/
theorem ReturnsBlock.stops_short (hr : runsPositive ws = true) (hs : runSum ws < 64) : BlockStops b s ws .corruptRunSum ws.length :=
  h.stops_of_rleDec b hd fun u hu hp => by
    have hc : rleCheck 0 0 (valueWords s.cb ws) = .ok (runSum ws) := by
      rw [rleCheck_ok (valueWords_pass hr) (by simp; omega), runSum_valueWords, Nat.zero_add]
    have hn : u.pcount.toNat = ws.length := by
      have := h.length_le
      rw [hp, BitVec.toNat_ofNat]
      omega
    rw [bodyRleDec, hu, hc, ofCheck_ok, bind_ok, if_pos hs.ne, hn]

end Decoded
end Block
end Sys2Proof.Machine
end

section
/-! SUPPORT. The end of SEQ_DECOMPRESS (46_sequencer.md R183, R187). -/

namespace Sys2Proof.Machine

section Whole
variable {s t : State}

/-- R187 (b), on ordinary memory: without error the stream was legal, and an error has written nothing. -/
theorem bodySeqDecompress_ensures (hu : s.Undisturbed) (hm : Memory.wf s.mem = true) : (bodySeqDecompress s).Ensures
    (fun _ _ => legalStream s.cb (blkCount s.regs) (strmWords s s.regs.strmLen.toNat)) (fun _ _ t => t.mem = s.mem) fun _ => False := by
  rw [bodySeqDecompress_eq]
  refine Run.Ensures.bind ((sequenceChecks_ensures _ s).mono (fun _ _ => id) (fun _ _ _ h => congrArg State.mem h.1) fun _ => id)
    fun _ t ⟨ht, hc⟩ => ?_
  rw [ht]
  by_cases hl : legalStream s.cb (blkCount s.regs) (strmWords s s.regs.strmLen.toNat)
  · obtain ⟨bs, hn, hb, hf⟩ := id hl
    obtain ⟨u, hr, -⟩ := bodySeqDecompress_ok (decompressStart_of_legal hu hm hc.width hc.height hc.disjoint hn hb hf) hc.quality
      hc.width hc.height
    rw [← bodySeqDecompress_started hc, hr]
    exact ensures_ok.2 hl
  · exact (validatePhase_ensures (s := s.generated.clearBlkDone) (hu.of rfl rfl)).bind fun _ _ h => absurd h hl

/-- A run of SEQ_DECOMPRESS that no host transaction disturbs ends its body with or without an error, and ERR tells which. -/
theorem seqDecompress_next (ha : s.Alone) (he : s.status.err = false) (hx : exec .seqDecompress s = .next t) :
    (t.status.err = false ∧ ∃ u, bodySeqDecompress s = .ok () u) ∨
      (t.status.err = true ∧ ∃ c i u, bodySeqDecompress s = .raised c i u ∧ t = u.freeScratch.raise c i) := by
  have hflags := bodySeqDecompress_keepsFlags errClear_grows.1 errClear_grows.2 s ⟨ha, he⟩
  rcases sequence_next (r := bodySeqDecompress s) hx with ⟨u, hu, rfl⟩ | ⟨c, i, u, hu, rfl⟩ | hu
  · exact .inl ⟨(ensures_ok.1 (hu ▸ hflags)).flags, u, hu⟩
  · exact .inr ⟨rfl, c, i, u, hu, rfl⟩
  · exact (ensures_abandoned.1 (hu ▸ hflags)).elim

theorem number_eq_corruptBlockCount {c : ErrCode} : c.number = 2 → c = .corruptBlockCount := by
  cases c <;> decide

theorem number_mem_wordErrors {c : ErrCode} : c.number ∈ ([3, 4, 10] : List (BitVec 4)) →
    c ∈ ([.corruptRunSum, .unknownCode, .pairForm] : List ErrCode) := by
  cases c <;> decide

/-- R201: ERRINFO of an error that the stream causes, whatever the memory answers. -/
theorem seqDecompress_errInfo (ha : s.Alone) (he : s.status.err = false) (hx : exec .seqDecompress s = .next t)
    (ht : t.status.err = true) : (t.status.errCode = 2 → t.status.errInfo = t.regs.strmPtr) ∧
    (t.status.errCode ∈ ([3, 4, 10] : List (BitVec 4)) →
      t.status.errInfo.toNat ≤ t.regs.strmPtr.toNat ∧ t.regs.strmPtr.toNat ≤ s.regs.strmLen.toNat ∧
      ((t.status.errInfo.toNat < s.regs.strmLen.toNat ∧ t.regs.strmPtr.toNat ≤ t.status.errInfo.toNat + 64) ∨
        t.status.errInfo.toNat ≤ 64)) := by
  obtain ⟨h, -⟩ | ⟨-, c, i, u, hr, rfl⟩ := seqDecompress_next ha he hx
  · exact nomatch h.symm.trans ht
  · have herr : StreamError s c i u.frame := (ensures_raised.1 (hr ▸ bodySeqDecompress_framed ha)).2
    exact ⟨fun h => herr.count (number_eq_corruptBlockCount h), fun h => herr.word (number_mem_wordErrors h)⟩

end Whole

/-- Settles O59: phase VALIDATE passes exactly the legal streams, which phase BLOCKS reconstructs with no error; the word that stops it
is the first that a legal block cannot go on with. -/
theorem decompressAllOrNothing : Obligations.DecompressAllOrNothing := by
  refine ⟨fun s t hu hm he hx => ?_, fun s bs p r hu _ h1 h2 hw hh ho hl hp hf => ?_,
    fun s t ha he hx ht => seqDecompress_errInfo ha he hx ht, fun b s ws rest ha hr hl hm => ?_⟩
  · have h := bodySeqDecompress_ensures hu hm
    rcases seqDecompress_next hu.1 he hx with ⟨ht, u, hr⟩ | ⟨ht, c, i, u, hr, rfl⟩
    · exact ⟨fun h' => (nomatch ht.symm.trans h'), fun _ => ensures_ok.1 (hr ▸ h)⟩
    · exact ⟨fun _ => ensures_raised.1 (hr ▸ h), fun h' => nomatch ht.symm.trans h'⟩
  · exact seqDecompress_stops ⟨(qualityLegal_iff s.regs).2 ⟨h1, h2⟩, hw, hh, ho⟩ hu hl hp hf
  · have h : ReturnsBlock s ws rest := ⟨ha, hr, hl, hm⟩
    refine ⟨?_, fun hd => ⟨?_, h.stops_short b hd⟩⟩
    · rintro p q w rfl hp
      refine ⟨fun hw => h.stops_undecodable b ?_, fun hn hw => h.stops_undecodable b ?_⟩
      · rw [decodePairs_append hp (.inl hw), decodeError, if_pos hw]
      · rw [decodePairs_append hp (.inr hw), decodeError, if_neg hn]
    · rintro p q w rfl hp hs hw
      exact h.stops_badRun b hd (rleCheck_valueWords_append hp hs hw q)

end Sys2Proof.Machine
end

section
/-! SUPPORT. The end of a command, with or without an error, and the interrupt it raises (60_exceptions.md R200, R202, R203, R210,
R225). -/

namespace Sys2Proof.Machine

/-! ### The interrupt (R210) -/

/-- A command that no host transaction disturbs completes, or records its error. -/
theorem exec_ends {i : Instr} {s t : State} (ha : s.Alone) (ht : exec i s = .next t) :
    (∃ u : State, t = u.complete) ∨ ∃ c w, ∃ u : State, t = u.raise c w := by
  obtain ⟨r, hr, hk⟩ := exec_eq_finish_keepsFlags (P := fun _ => True) (fun _ _ => trivial) i (fun _ _ _ _ => trivial) ⟨ha, trivial⟩
  rcases finish_next (hr ▸ ht) with ⟨u, -, rfl⟩ | ⟨c, w, u, -, rfl⟩ | rfl
  · exact .inl ⟨u, rfl⟩
  · exact .inr ⟨c, w, u, rfl⟩
  · exact (ensures_abandoned.1 hk).elim

theorem exec_done {i : Instr} {s t : State} (ha : s.Alone) (ht : exec i s = .next t) :
    t.status.done = true ∧ t.seq = Sequencer.idle := by
  rcases exec_ends ha ht with ⟨u, rfl⟩ | ⟨c, w, u, rfl⟩ <;> exact ⟨rfl, rfl⟩

theorem exec_irqEn {i : Instr} {s t : State} (ha : s.Alone) (ht : exec i s = .next t) : t.regs.irqEn = s.regs.irqEn := by
  obtain ⟨-, -, -, -, -, -, -, -, -, h, -⟩ := commandsKeepConfiguration.2 i s t ha ht
  exact h

theorem irq_of_done {s : State} (h : s.status.done = true) : s.irq = s.regs.irqEn := by simp [State.irq, h]

theorem irq_issue (s : State) (w : Word) : (s.issue w).irq = false := by simp [State.irq]

/-- A write to STATUS clears the flags named by its 1 bits. -/
theorem irq_writeStatus (s : State) (w : Word) : (hostWrite 0x008 0xF w s).irq =
    (s.regs.irqEn && (s.status.done && !w.getLsbD 1 || s.status.err && !w.getLsbD 2)) := by
  rw [hostWrite_reaches (off := 0x008) rfl w (.inr rfl)]
  rfl

/-- A write to CTRL that resets nothing stores IRQ_EN. -/
theorem irq_writeCtrl (s : State) {w : Word} (h : w.getLsbD 0 = false) :
    (hostWrite 0x004 0xF w s).irq = (w.getLsbD 1 && (s.status.done || s.status.err)) := by
  rw [hostWrite_reaches (off := 0x004) rfl w (.inr rfl)]
  change ((writeCtrl w s).reply false 0).irq = _
  rw [writeCtrl, h]
  rfl

/-- Settles O17: a command's end sets DONE, so that IRQ_EN alone decides; the writes are those of the flags and of IRQ_EN. -/
theorem completionRaisesInterrupt : Obligations.CompletionRaisesInterrupt := by
  refine ⟨fun i s t ha ht => ?_, irq_issue, irq_writeStatus, fun s _ => irq_writeCtrl s, fun i s t ha ht he hq => ⟨?_, ?_, ?_⟩⟩
  · obtain ⟨hd, hs⟩ := exec_done ha ht
    exact ⟨hd, hs, irq_of_done hd, exec_irqEn ha ht⟩
  · rw [irq_writeStatus, exec_irqEn ha ht, hq, he]
    simp
  · rw [irq_writeStatus]
    simp
  · rw [irq_writeCtrl t rfl]
    rfl

/-! ### Errors of the commands other than a sequence (R200, R203) -/

/-- No host transaction is to land in the running command, and ERR is clear. -/
abbrev ErrClear : State → Prop := FlagsMeet fun st => st.err = false

/-- A command, or a piece of it, begun in `s`: it goes on with ERR clear, or has changed nothing when it raises an error other
than BUS_ERROR. -/
abbrev FailsClean {α : Type} (s : State) (r : Run α) : Prop :=
  r.Ensures (fun _ => ErrClear) (fun c _ u => c = .busError ∨ u = s) fun _ => False

section Pieces
variable {s : State} {c : ErrCode} {w : Word} {r : Run Unit}

theorem failsClean_raised : FailsClean s (.raised c w s : Run Unit) := ensures_raised.2 (.inr rfl)

theorem failsClean_guard {b : Prop} [Decidable b] (h : FailsClean s r) : FailsClean s (if b then .raised c w s else r) := by
  split
  · exact failsClean_raised
  · exact h

/-- A check comes before every write (R203). -/
theorem failsClean_check {α : Type} {e : Except (ErrCode × Word) α} {f : α → State → Run Unit} (h : ∀ a, FailsClean s (f a s)) :
    FailsClean s ((ofCheck e s).bind f) := by
  cases e with
  | error e => exact failsClean_raised
  | ok a => exact h a

/-- What an access to memory ensures, and a loop of them: only BUS_ERROR is raised. -/
abbrev RaisesBusErrors {α : Type} (r : Run α) : Prop :=
  r.Ensures (fun _ => ErrClear) (fun c _ _ => c = .busError) fun _ => False

theorem RaisesBusErrors.failsClean (h : RaisesBusErrors r) : FailsClean s r :=
  h.mono (fun _ _ h => h) (fun _ _ _ h => .inl h) fun _ h => h

variable (h : ErrClear s)
include h

theorem memRead8_raisesBusErrors (a : Addr) : RaisesBusErrors (memRead8 a s) := by
  rw [memRead8, request_alone h.alone, bind_ok]
  split
  · exact ensures_ok.2 (h.of rfl rfl)
  · exact ensures_ok.2 (h.of rfl rfl)
  · exact ensures_raised.2 rfl

theorem memWrite8_raisesBusErrors (a : Addr) (v : Byte) : RaisesBusErrors (memWrite8 a v s) := by
  rw [memWrite8, request_alone h.alone, bind_ok, answerWrite]
  split
  · exact ensures_ok.2 (h.of rfl rfl)
  · exact ensures_ok.2 (h.of rfl rfl)
  · exact ensures_raised.2 rfl

theorem fetchBlock_raisesBusErrors (row col : Nat) : RaisesBusErrors (fetchBlock row col s) := by
  refine forCount_ensures (I := fun _ => ErrClear) (fun n s h => ?_) 64 0 s h
  unfold fetchCell
  split
  · exact (memRead8_raisesBusErrors h _).bind fun _ _ h => ensures_ok.2 (h.of rfl rfl)
  · exact ensures_ok.2 (h.of rfl rfl)

theorem storeBlock_raisesBusErrors (row col : Nat) : RaisesBusErrors (storeBlock row col s) := by
  refine forCount_ensures (I := fun _ => ErrClear) (fun n s h => ?_) 64 0 s h
  unfold storeCell
  split
  · exact memWrite8_raisesBusErrors h _ _
  · exact ensures_ok.2 h

theorem bodyTxFwd_failsClean : FailsClean s (bodyTxFwd s) := by
  rw [bodyTxFwd_undisturbed h.alone]
  exact ensures_ok.2 (h.of rfl rfl)

theorem bodyTxInv_failsClean : FailsClean s (bodyTxInv s) := by
  rw [bodyTxInv_undisturbed h.alone]
  exact ensures_ok.2 (h.of rfl rfl)

theorem bodyCbRead_failsClean : FailsClean s (bodyCbRead s) := by
  unfold bodyCbRead
  split
  · exact failsClean_raised
  · exact ensures_ok.2 (h.of rfl rfl)

end Pieces

/-- CBUF is lost to a BUS_ERROR only (U7). -/
theorem fetchFailed_of_ne {c : ErrCode} (h : c ≠ .busError) (s : State) : fetchFailed c s = s := if_neg h

/-- PAD_FETCH without the end of the command. -/
theorem padFetch_failsClean {s : State} (h : ErrClear s) :
    FailsClean s (((ofCheck (checkGeometry true s.regs) s).bind fun _ s =>
      fetchBlock s.regs.blkRow.toNat s.regs.blkCol.toNat s).atEnd id fetchFailed) := by
  refine Run.Ensures.atEnd (failsClean_check fun _ => (fetchBlock_raisesBusErrors h _ _).failsClean) (fun _ _ h => h) ?_
  rintro c _ u hu
  by_cases hc : c = .busError
  · exact .inl hc
  · exact .inr ((fetchFailed_of_ne hc u).trans (hu.resolve_left hc))

/-- R203: every command but the sequences is a body that fails without a trace, but for a BUS_ERROR, and its end. -/
theorem exec_eq_finish_failsClean {i : Instr} (hi : isSequence i = false) {s : State} (h : ErrClear s) :
    ∃ r, exec i s = finish r ∧ FailsClean s r := by
  cases i with
  | nop => exact ⟨.ok () s, rfl, ensures_ok.2 h⟩
  | qgen => exact ⟨_, rfl, failsClean_guard (ensures_ok.2 ⟨h.alone, h.flags⟩)⟩
  | quant => exact ⟨_, rfl, failsClean_guard (ensures_ok.2 ⟨h.alone, h.flags⟩)⟩
  | dequant => exact ⟨_, rfl, failsClean_guard (ensures_ok.2 ⟨h.alone, h.flags⟩)⟩
  | txFwd => exact ⟨_, rfl, bodyTxFwd_failsClean h⟩
  | txInv => exact ⟨_, rfl, bodyTxInv_failsClean h⟩
  | zzFlat => exact ⟨bodyZzFlat s, rfl, ensures_ok.2 (h.of rfl rfl)⟩
  | zzUnflat => exact ⟨bodyZzUnflat s, rfl, ensures_ok.2 (h.of rfl rfl)⟩
  | rleEnc => exact ⟨bodyRleEnc s, rfl, ensures_ok.2 (h.of rfl rfl)⟩
  | rleDec => exact ⟨_, rfl, failsClean_check fun _ => failsClean_guard (ensures_ok.2 (h.of rfl rfl))⟩
  | cbClear => exact ⟨bodyCbClear s, rfl, ensures_ok.2 (h.of rfl rfl)⟩
  | cbAccum => exact ⟨_, rfl, failsClean_check fun _ => ensures_ok.2 (h.of rfl rfl)⟩
  | cbBuild => exact ⟨bodyCbBuild s, rfl, ensures_ok.2 (h.of rfl rfl)⟩
  | cbEncode => exact ⟨_, rfl, failsClean_check fun _ => ensures_ok.2 (h.of rfl rfl)⟩
  | cbDecode => exact ⟨_, rfl, failsClean_check fun _ => ensures_ok.2 (h.of rfl rfl)⟩
  | cbLoad => exact ⟨_, rfl, failsClean_check fun _ => ensures_ok.2 (h.of rfl rfl)⟩
  | cbRead => exact ⟨_, rfl, bodyCbRead_failsClean h⟩
  | padFetch => exact ⟨_, rfl, padFetch_failsClean h⟩
  | cropStore => exact ⟨_, rfl, failsClean_check fun _ => (storeBlock_raisesBusErrors h _ _).failsClean⟩
  | seqCompress | seqDecompress => exact nomatch hi

theorem number_ne_zero (c : ErrCode) : c.number ≠ 0 := by cases c <;> decide

/-- Settles O18: a body that goes on leaves ERR clear, and one that raises an error other than BUS_ERROR has changed nothing. -/
theorem singleBlockErrorsWriteNothing : Obligations.SingleBlockErrorsWriteNothing := by
  intro i s t hi ha he ht herr hcode
  obtain ⟨r, hr, hk⟩ := exec_eq_finish_failsClean hi ⟨ha, he⟩
  rcases finish_next (hr ▸ ht) with ⟨u, rfl, rfl⟩ | ⟨c, w, u, rfl, rfl⟩ | rfl
  · exact nomatch (ensures_ok.1 hk).flags.symm.trans herr
  · have hc : c ≠ .busError := by rintro rfl; exact hcode rfl
    obtain rfl : u = s := (ensures_raised.1 hk).resolve_left hc
    exact ⟨c.number, w, number_ne_zero c, rfl⟩
  · exact (ensures_abandoned.1 hk).elim

/-! ### The register checks of the sequences (R202) -/

section SequenceChecks
variable {r : Regs}

theorem checkSequence_quality (h : r.quality.toNat < 1 ∨ 100 < r.quality.toNat) :
    checkSequence r = .error (.invalidQuality, r.quality.setWidth 32) := by
  have hq : qualityLegal r = false := by
    rw [Bool.eq_false_iff, Ne, qualityLegal_iff]
    omega
  rw [checkSequence, hq, pat32, BitVec.ofNat_toNat]
  rfl

theorem checkSequence_size (hq : qualityLegal r = true) (h : r.width = 0 ∨ r.height = 0) :
    checkSequence r = .error (.invalidGeometry, r.height ++ r.width) := by
  rw [checkSequence, hq, checkGeometry_empty false h]
  rfl

end SequenceChecks

theorem sequenceChecks_of_error {s : State} {c : ErrCode} {w : Word} (h : checkSequence s.regs = .error (c, w))
    (stream : Regs → Region) : sequenceChecks stream s = .raised c w s := by
  rw [sequenceChecks, h, ofCheck_error, bind_raised]

/-- A sequence whose check fails records the check's error, and only the scratch buffers are lost (U8). -/
theorem exec_of_sequenceError {i : Instr} (hi : i = .seqCompress ∨ i = .seqDecompress) {s : State} {c : ErrCode} {w : Word}
    (h : checkSequence s.regs = .error (c, w)) : exec i s = .next (s.freeScratch.raise c w) := by
  rcases hi with rfl | rfl
  · rw [exec_seqCompress, sequenceChecks_of_error h]
    rfl
  · rw [exec_seqDecompress, sequenceChecks_of_error h]
    rfl

/-- Settles O51: each of the two checks gives its error, the quality's first, before anything else is done. -/
theorem sequenceRegisterChecks : Obligations.SequenceRegisterChecks := by
  intro i s hi
  refine ⟨fun hq => ?_, fun h1 h2 hs => ?_⟩
  · exact exec_of_sequenceError hi (checkSequence_quality hq)
  · exact exec_of_sequenceError hi (checkSequence_size ((qualityLegal_iff s.regs).2 ⟨h1, h2⟩) hs)

/-! ### A step with no command in progress (R225) -/

theorem step_of_noCommand {s : State} (h : s.seq.cmd = none) : step s = hostStep s := by
  unfold step
  rw [h]
  split <;> rfl

theorem hostStep_of_nil {s : State} (h : s.hostIn = []) : hostStep s = .next s := by
  unfold hostStep
  rw [h]

theorem hostStep_of_cons {s : State} {e : HostEvent} {rest : List HostEvent} (h : s.hostIn = e :: rest) :
    hostStep s = hostOp e.op { s with hostIn := rest } := by
  unfold hostStep
  rw [h]

/-- R30: a write to CMD with no command in progress issues the word. -/
theorem hostOp_writeCmd {s : State} (hr : s.rst = false) (hc : s.seq.cmd = none) (w : Word) :
    hostOp (.write 0x014 0xF w) s = .next ((s.issue w).reply false 0) := by
  have hb : s.busy = false := by rw [State.busy, hc]; rfl
  rw [hostOp, hr, hostWrite_reaches (off := 0x014) rfl w (.inl hb)]
  rfl

/-- Settles O5: the step is a host step, by the two cases of the queue; a write to CMD is an issue. -/
theorem idleStepServesHost : Obligations.IdleStepServesHost := by
  refine ⟨fun s hc hq => ?_, fun s e rest hc hq => ?_, fun s w rest g hr hc hq => ?_⟩
  · rw [step_of_noCommand hc, hostStep_of_nil hq]
  · rw [step_of_noCommand hc, hostStep_of_cons hq]
  · refine ⟨({ s with hostIn := rest }.issue w).reply false 0, ?_, rfl, rfl, rfl, rfl, rfl⟩
    rw [step_of_noCommand hc, hostStep_of_cons hq]
    exact hostOp_writeCmd (s := { s with hostIn := rest }) hr hc w

end Sys2Proof.Machine
end

section
/-! SUPPORT. The soft reset and the reset input, and the model's named stops (70_reset_and_hazards.md R230 to R232, R241;
93_implementation_defined.md U5, U10). -/

namespace Sys2Proof.Machine

/-! ### What a reset leaves (R230, R231) -/

/-- `t` is what a reset makes of `s`, but for the level of the reset input and the response of the host port. -/
structure AfterReset (s t : State) : Prop where
  seq : t.seq = Sequencer.idle
  regs : t.regs = Regs.reset
  status : t.status = Status.reset
  cb : t.cb = []
  pcount : t.pcount = 0
  busLog : t.busLog = s.busLog
  hostIn : t.hostIn = s.hostIn
  cbDepthLessOne : t.cbDepthLessOne = s.cbDepthLessOne
  mem : t.mem = memAfterAbandon s
  memResp : t.memResp = memRespAfterAbandon s

theorem resetIctc_afterReset (s : State) (level : Bool) (out : List HostResponse) :
    AfterReset s { s.resetIctc with rst := level, hostOut := out } := by
  obtain ⟨hr, hs, hp, hc, hq⟩ := reset_values (.inr rfl : s.resetIctc = State.reset ∨ s.resetIctc = s.resetIctc)
  exact ⟨hq, hr, hs, hc, hp, rfl, rfl, rfl, rfl, rfl⟩

/-- U9: memory after a reset is as it was, or has performed the outstanding transaction. -/
theorem memAfterAbandon_of_inflight {s : State} {r : Request} (h : s.seq.inflight = some r) :
    memAfterAbandon s = s.mem ∨ memAfterAbandon s = r.perform s.mem := by
  unfold memAfterAbandon
  rw [h]
  cases r with
  | write8 a v =>
    dsimp only
    split
    · exact .inr rfl
    · exact .inl rfl
  | write32 a w =>
    dsimp only
    split
    · exact .inr rfl
    · exact .inl rfl
  | read8 _ | read32 _ | txFwd _ | txInv _ => exact .inl rfl

/-- R231 step 2: the answer to an outstanding access is used up. -/
theorem memRespAfterAbandon_of_inflight {s : State} {r : Request} (h : s.seq.inflight = some r) :
    memRespAfterAbandon s = s.memResp.drop ([r].countP Request.isMaster) := by
  unfold memRespAfterAbandon
  rw [h]
  cases r with
  | read8 _ | read32 _ | write8 _ _ | write32 _ _ => exact List.drop_one.symm
  | txFwd _ | txInv _ => rfl

/-- R232: external memory is as it was, but for an outstanding write. -/
theorem memAfterAbandon_mayLeave (s : State) : s.mayLeave (memAfterAbandon s) := by
  cases h : s.seq.inflight with
  | none =>
    refine .inl ?_
    unfold memAfterAbandon
    rw [h]
  | some r =>
    rcases memAfterAbandon_of_inflight h with hm | hm
    · exact .inl hm
    · cases r with
      | write8 a v => exact .inr (.inl ⟨a, v, h, hm⟩)
      | write32 a w => exact .inr (.inr ⟨a, w, h, hm⟩)
      | read8 _ | read32 _ | txFwd _ | txInv _ => exact .inl hm

namespace AfterReset
variable {s t : State} (h : AfterReset s t)
include h

theorem busy : t.busy = false := by
  rw [State.busy, h.seq]
  rfl

theorem irq : t.irq = false := by
  rw [State.irq, h.regs]
  rfl

theorem mayLeave : s.mayLeave t.mem := by
  rw [h.mem]
  exact memAfterAbandon_mayLeave s

theorem memResp_of_idle (hi : s.seq.inflight = none) : t.memResp = s.memResp := by
  rw [h.memResp]
  unfold memRespAfterAbandon
  rw [hi]

end AfterReset

/-! ### The two resets -/

/-- R50, R231: CTRL is written while BUSY too. -/
theorem hostWrite_srst {w : Word} (h : w.getLsbD 0 = true) (s : State) :
    hostWrite 0x004 0xF w s = s.resetIctc.reply false 0 := by
  rw [hostWrite_reaches (off := 0x004) rfl w (.inr rfl)]
  change (writeCtrl w s).reply false 0 = _
  rw [writeCtrl, if_pos h]

theorem hostWrite_srst_afterReset {w : Word} (h : w.getLsbD 0 = true) (s : State) : AfterReset s (hostWrite 0x004 0xF w s) := by
  rw [hostWrite_srst h]
  exact resetIctc_afterReset s _ _

theorem hostWrite_srst_rst {w : Word} (h : w.getLsbD 0 = true) (s : State) : (hostWrite 0x004 0xF w s).rst = s.rst := by
  rw [hostWrite_srst h]
  rfl

/-- R230, R231: with the reset input released, a transaction of the host that abandons a command is a reset. -/
theorem hostOp_abandons {op : HostOp} (ho : op.abandons = true) {s : State} (hr : s.rst = false) :
    ∃ t, hostOp op s = .next t ∧ AfterReset s t ∧ t.rst = decide (op = .assertReset) := by
  cases op with
  | write off strb w =>
    simp only [HostOp.abandons, Bool.and_eq_true, beq_iff_eq] at ho
    obtain ⟨⟨rfl, rfl⟩, hw⟩ := ho
    exact ⟨_, by rw [hostOp, hr]; rfl, hostWrite_srst_afterReset hw s, (hostWrite_srst_rst hw s).trans hr⟩
  | assertReset => exact ⟨_, rfl, resetIctc_afterReset s true _, rfl⟩
  | read _ | store _ _ | releaseReset => exact nomatch ho

/-- Settles O14: the write reaches CTRL, BUSY or not, and what a reset leaves has been said. -/
theorem softReset : Obligations.SoftReset := by
  intro s w hw
  have h := hostWrite_srst_afterReset hw s
  exact ⟨_, rfl, h.seq, h.regs, h.status, h.cb, h.pcount, h.irq, h.busLog, hostWrite_srst_rst hw s, h.hostIn, h.cbDepthLessOne,
    h.mayLeave, h.memResp_of_idle⟩

/-- U10: while the reset input is asserted a transaction of the host is a store, or a reset event. -/
theorem hostOp_of_rst {op : HostOp} {s t : State} (hr : s.rst = true) (ht : hostOp op s = .next t) :
    t.busLog = s.busLog ∧ (s.busy = false → t.busy = false) := by
  cases op with
  | read off =>
    rw [hostOp, hr] at ht
    exact nomatch ht
  | write off strb w =>
    rw [hostOp, hr] at ht
    exact nomatch ht
  | store a b =>
    rw [hostOp] at ht
    split at ht <;> cases ht
    exact ⟨rfl, id⟩
  | assertReset =>
    cases ht
    have h := resetIctc_afterReset s true s.hostOut
    exact ⟨h.busLog, fun _ => h.busy⟩
  | releaseReset =>
    rw [hostOp, hr] at ht
    cases ht
    have h := resetIctc_afterReset s false s.hostOut
    exact ⟨h.busLog, fun _ => h.busy⟩

theorem step_of_rst {s : State} (hr : s.rst = true) : step s = hostStep s := if_pos hr

theorem hostStep_of_rst {s t : State} (hr : s.rst = true) (ht : hostStep s = .next t) :
    t.busLog = s.busLog ∧ (s.busy = false → t.busy = false) := by
  cases hq : s.hostIn with
  | nil =>
    rw [hostStep_of_nil hq] at ht
    cases ht
    exact ⟨rfl, id⟩
  | cons e rest =>
    rw [hostStep_of_cons hq] at ht
    exact hostOp_of_rst (s := { s with hostIn := rest }) hr ht

/-- Settles O15: both edges of the reset input are resets, and while it is asserted only the host's transactions move. -/
theorem resetInput : Obligations.ResetInput := by
  refine ⟨fun s => ?_, fun s t hr ht => hostStep_of_rst hr (step_of_rst hr ▸ ht),
    fun s hr hq => (step_of_rst hr).trans (hostStep_of_nil hq), fun s hr => ?_⟩
  · have h := resetIctc_afterReset s true s.hostOut
    exact ⟨_, rfl, rfl, h.busy, h.busLog, h.mayLeave⟩
  · have h := resetIctc_afterReset s false s.hostOut
    exact ⟨_, if_pos hr, rfl, h.seq, h.regs, h.status, h.cb, h.pcount, h.irq, h.busLog, h.mayLeave⟩

/-! ### The named stops (U5, U10) -/

theorem sequenceChecks_overlap {s : State} {stream : Regs → Region} (hc : checkSequence s.regs = .ok ())
    (ho : overlaps (imageRegion s.regs) (stream s.regs) = true) : sequenceChecks stream s = .refused .regionsOverlap := by
  rw [sequenceChecks, hc, ofCheck_ok, bind_ok, checkRegions, if_pos ho, bind_refused]

theorem checkSequence_ok {r : Regs} (hq : qualityLegal r = true) (hw : r.width ≠ 0) (hh : r.height ≠ 0) : checkSequence r = .ok () := by
  rw [checkSequence, hq, checkGeometry, if_neg (not_or.2 ⟨hw, hh⟩)]
  rfl

/-- R241: a host store to a region of the running command is a race. -/
theorem hostOp_store_race {s : State} {g : Region} (hg : g ∈ commandRegions s) {a : Addr} (ha : inRegion g a = true) (b : Byte) :
    hostOp (.store a b) s = .fault .regionRace := by
  rw [hostOp, if_pos (List.any_eq_true.2 ⟨g, hg, ha⟩)]

theorem commandRegions_seqCompress {s : State} (h : s.seq.cmd = some 0x20) :
    commandRegions s = [imageRegion s.regs, streamRegionCap s.regs] := by
  unfold commandRegions
  rw [h]
  rfl

theorem commandRegions_seqDecompress {s : State} (h : s.seq.cmd = some 0x21) :
    commandRegions s = [imageRegion s.regs, streamRegionLen s.regs] := by
  unfold commandRegions
  rw [h]
  rfl

/-- R76: the four commands that reach external memory have the image region. -/
theorem imageRegion_mem_commandRegions {s : State} {i : Instr} (hi : reachesMemory i = true) (h : s.seq.cmd = some (encode i)) :
    imageRegion s.regs ∈ commandRegions s := by
  unfold commandRegions
  rw [h, Option.map_some, decode_encode]
  cases i with
  | padFetch | cropStore | seqCompress | seqDecompress => exact List.mem_cons_self
  | _ => exact nomatch hi

/-- Settles O52: the check of the regions follows the register checks, and a store looks up the regions of the received word. -/
theorem namedStops : Obligations.NamedStops := by
  refine ⟨fun s h1 h2 hw hh => ?_, fun s a b w hc hw ha => ?_, fun s a b hc ha => ?_, fun s a b hc ha => ?_, fun s off strb w hr => ?_⟩
  · have hk := checkSequence_ok ((qualityLegal_iff s.regs).2 ⟨h1, h2⟩) hw hh
    refine ⟨fun ho => ?_, fun ho => ?_⟩
    · rw [exec_seqCompress, sequenceChecks_overlap hk ho]
      rfl
    · rw [exec_seqDecompress, sequenceChecks_overlap hk ho]
      rfl
  · refine hostOp_store_race ?_ ha b
    rcases hw with rfl | rfl | rfl | rfl
    · exact imageRegion_mem_commandRegions (i := .padFetch) rfl hc
    · exact imageRegion_mem_commandRegions (i := .cropStore) rfl hc
    · exact imageRegion_mem_commandRegions (i := .seqCompress) rfl hc
    · exact imageRegion_mem_commandRegions (i := .seqDecompress) rfl hc
  · refine hostOp_store_race ?_ ha b
    rw [commandRegions_seqCompress hc]
    exact List.mem_cons_of_mem _ List.mem_cons_self
  · refine hostOp_store_race ?_ ha b
    rw [commandRegions_seqDecompress hc]
    exact List.mem_cons_of_mem _ List.mem_cons_self
  · rw [hostOp, hostOp, hr]
    exact ⟨rfl, rfl⟩

end Sys2Proof.Machine
end

section
/-! SUPPORT. A piece of a command run twice: by itself, and with a reset that is to land while one of its transactions is outstanding
(70_reset_and_hazards.md R230, R231; 20_memory.md R78). -/

namespace Sys2Proof.Machine

/-- A reset still to come in the host's queue: the transaction that abandons a command, and the queue behind it. -/
structure PendingReset where
  op : HostOp
  rest : List HostEvent
  abandons : op.abandons = true

/-- The host's queue when the reset lands while the `k`-th transaction from here, from 0, is outstanding (log 2). -/
def PendingReset.queue (e : PendingReset) (k : Nat) : List HostEvent := { gap := some (k + 1), op := e.op } :: e.rest

/-- The host's queue replaced by one that begins with a reset. -/
def State.awaiting (e : PendingReset) (k : Nat) (s : State) : State := { s with hostIn := e.queue k }

@[simp] theorem State.awaiting_memResp (e : PendingReset) (k : Nat) (s : State) : (s.awaiting e k).memResp = s.memResp := rfl

/-- The part of the state that an abandoned run is told by: external memory, its answers, the transactions, the host's side. -/
structure Bus where
  mem : List Host.Cell
  memResp : List MemResponse
  busLog : List Request
  rst : Bool
  hostIn : List HostEvent

def State.bus (s : State) : Bus :=
  { mem := s.mem, memResp := s.memResp, busLog := s.busLog, rst := s.rst, hostIn := s.hostIn }

/-- From `b` a run has come to `b'` by the transactions `l`, which memory has performed and answered. -/
structure Bus.Advanced (b : Bus) (l : List Request) (b' : Bus) : Prop where
  mem : b'.mem = l.foldl Request.perform b.mem
  memResp : b'.memResp = b.memResp.drop (l.countP Request.isMaster)
  busLog : b'.busLog = l.reverse ++ b.busLog
  rst : b'.rst = b.rst
  hostIn : b'.hostIn = b.hostIn

theorem Bus.Advanced.refl (b : Bus) : b.Advanced [] b := ⟨rfl, rfl, rfl, rfl, rfl⟩

theorem Bus.Advanced.trans {b b' b'' : Bus} {l l' : List Request} (h : b.Advanced l b') (h' : b'.Advanced l' b'') :
    b.Advanced (l ++ l') b'' where
  mem := by rw [h'.mem, h.mem, List.foldl_append]
  memResp := by rw [h'.memResp, h.memResp, List.drop_drop, List.countP_append]
  busLog := by rw [h'.busLog, h.busLog, List.reverse_append, List.append_assoc]
  rst := h'.rst.trans h.rst
  hostIn := h'.hostIn.trans h.hostIn

/-- From `b` a run has done the transactions `done`, and the reset has landed while `r` was outstanding. -/
def AbandonedAt (e : PendingReset) (b : Bus) (done : List Request) (r : Request) (t : State) : Prop :=
  ∃ v : State, b.Advanced done v.bus ∧ AfterReset { v.waiting r with hostIn := e.rest } t ∧ t.rst = decide (e.op = .assertReset)

theorem Bus.Advanced.abandonedAt {e : PendingReset} {b : Bus} {s t : State} {l done : List Request} {r : Request}
    (h : b.Advanced l s.bus) (ht : AbandonedAt e s.bus done r t) : AbandonedAt e b (l ++ done) r t := by
  obtain ⟨v, hv, ht⟩ := ht
  exact ⟨v, h.trans hv, ht⟩

variable {α β : Type}

/-- The run `p'`, begun at `b`, is abandoned at the `k`-th, from 0, of the transactions `l`. -/
def AbandonedIn (e : PendingReset) (b : Bus) (l : List Request) (k : Nat) (p' : Run α) : Prop :=
  ∃ done r t, p' = .abandoned t ∧ done ++ [r] <+: l ∧ done.length = k ∧ AbandonedAt e b done r t

theorem AbandonedIn.bind {e : PendingReset} {b : Bus} {l : List Request} {k : Nat} {p' : Run α} (h : AbandonedIn e b l k p')
    (l' : List Request) (g : α → State → Run β) : AbandonedIn e b (l ++ l') k (p'.bind g) := by
  obtain ⟨done, r, t, rfl, hp, hk, ht⟩ := h
  exact ⟨done, r, t, rfl, hp.trans (List.prefix_append l l'), hk, ht⟩

/-- Transactions done before the run. -/
theorem AbandonedIn.after {e : PendingReset} {b : Bus} {s : State} {l l' : List Request} {k : Nat} {p' : Run α}
    (h : AbandonedIn e s.bus l' (k - l.length) p') (hb : b.Advanced l s.bus) (hk : l.length ≤ k) : AbandonedIn e b (l ++ l') k p' := by
  obtain ⟨done, r, t, rfl, hp, hd, ht⟩ := h
  refine ⟨l ++ done, r, t, rfl, ?_, ?_, hb.abandonedAt ht⟩
  · rw [List.append_assoc]
    exact (List.prefix_append_right_inj l).2 hp
  · rw [List.length_append, hd]
    omega

/-- The run `p` of a piece, begun at `b` with no host transaction to come, and its run `p'` with the reset due at the `k`-th
transaction, from 0: if `p` issues that transaction, `p'` is abandoned there, and else `p'` goes on where `p` does, with the reset
that much nearer. -/
def Tracks (e : PendingReset) (k : Nat) (p p' : Run α) (b : Bus) : Prop :=
  b.rst = false → b.hostIn = [] → p.Ensures
    (fun a u => ∃ l, b.Advanced l u.bus ∧ (l.length ≤ k → p' = .ok a (u.awaiting e (k - l.length))) ∧
      (k < l.length → AbandonedIn e b l k p'))
    (fun _ _ u => ∃ l, u.busLog = l.reverse ++ b.busLog ∧ (k < l.length → AbandonedIn e b l k p'))
    fun _ => False

section Rules
variable {e : PendingReset} {k : Nat} {b : Bus} {p p' q q' : Run α}

/-- A piece that makes no transaction. -/
theorem tracks_ok {a : α} {u : State} : Tracks e k (.ok a u) (.ok a (u.awaiting e k)) u.bus := fun _ _ =>
  ensures_ok.2 ⟨[], .refl _, fun _ => rfl, fun h => absurd h (Nat.not_lt_zero k)⟩

theorem tracks_raised {c : ErrCode} {i : Word} {u : State} : Tracks e k (.raised c i u) p' u.bus := fun _ _ =>
  ensures_raised.2 ⟨[], rfl, fun h => absurd h (Nat.not_lt_zero k)⟩

theorem tracks_refused {x : Refusal} : Tracks e k (.refused x) p' b := fun _ _ => ensures_refused.2 trivial

theorem tracks_ite {c : Prop} [Decidable c] (hp : Tracks e k p p' b) (hq : Tracks e k q q' b) :
    Tracks e k (if c then p else q) (if c then p' else q') b := by
  by_cases h : c
  · rwa [if_pos h, if_pos h]
  · rwa [if_neg h, if_neg h]

theorem tracks_check (r : Except (ErrCode × Word) α) (s : State) :
    Tracks e k (ofCheck r s) (ofCheck r (s.awaiting e k)) s.bus := by
  cases r with
  | ok a => exact tracks_ok
  | error x => exact tracks_raised

/-- Sequencing: the reset lands in the first piece, or the second begins with the reset nearer. -/
theorem Tracks.bind {g g' : α → State → Run β} (h : Tracks e k p p' b)
    (hg : ∀ a u j, Tracks e j (g a u) (g' a (u.awaiting e j)) u.bus) : Tracks e k (p.bind g) (p'.bind g') b := by
  intro hr hq
  have h := h hr hq
  cases p with
  | ok a u =>
    obtain ⟨l, hl, hpast, hin⟩ := ensures_ok.1 h
    have later {l' : List Request} (hl' : k - l.length < l'.length →
        AbandonedIn e u.bus l' (k - l.length) (g' a (u.awaiting e (k - l.length)))) (hk : k < (l ++ l').length) :
        AbandonedIn e b (l ++ l') k (p'.bind g') := by
      rw [List.length_append] at hk
      rcases Nat.lt_or_ge k l.length with hkl | hkl
      · exact (hin hkl).bind l' g'
      · rw [hpast hkl, bind_ok]
        exact (hl' (by omega)).after hl hkl
    refine (hg a u (k - l.length) (hl.rst.trans hr) (hl.hostIn.trans hq)).mono ?_ ?_ fun _ => id
    · rintro x v ⟨l', hv, hpast', hin'⟩
      refine ⟨l ++ l', hl.trans hv, fun hk => ?_, later hin'⟩
      rw [List.length_append] at hk
      rw [hpast (by omega), bind_ok, hpast' (by omega), List.length_append, Nat.sub_sub]
    · rintro c i v ⟨l', hv, hin'⟩
      exact ⟨l ++ l', by rw [hv, List.reverse_append, List.append_assoc]; exact congrArg _ hl.busLog, later hin'⟩
  | raised c i u =>
    obtain ⟨l, hl, hin⟩ := ensures_raised.1 h
    refine ensures_raised.2 ⟨l, hl, fun hk => ?_⟩
    have := (hin hk).bind [] g'
    rwa [List.append_nil] at this
  | abandoned u => exact (ensures_abandoned.1 h).elim
  | fault x => exact ensures_fault.2 trivial
  | refused x => exact ensures_refused.2 trivial

theorem tracks_forCount {body : Nat → State → Run Unit}
    (hb : ∀ n s k, Tracks e k (body n s) (body n (s.awaiting e k)) s.bus) (m n k : Nat) (s : State) :
    Tracks e k (forCount body m n s) (forCount body m n (s.awaiting e k)) s.bus := by
  induction m generalizing n k s with
  | zero => exact tracks_ok
  | succ m ih => exact (hb n s k).bind fun _ u j => ih (n + 1) j u

/-- A change of the state when a command ends. -/
theorem Tracks.atEnd (h : Tracks e k p p' b) {f : State → State} {g : ErrCode → State → State} (hf : ∀ s, (f s).bus = s.bus)
    (hq : ∀ s j, f (s.awaiting e j) = (f s).awaiting e j) (hg : ∀ c s, (g c s).busLog = s.busLog) :
    Tracks e k (p.atEnd f g) (p'.atEnd f g) b := by
  have past {l : List Request} (hin : k < l.length → AbandonedIn e b l k p') (hk : k < l.length) :
      AbandonedIn e b l k (p'.atEnd f g) := by
    obtain ⟨done, r, t, rfl, ht⟩ := hin hk
    exact ⟨done, r, t, rfl, ht⟩
  intro hr hi
  refine (h hr hi).atEnd ?_ ?_
  · rintro a u ⟨l, hl, hpast, hin⟩
    exact ⟨l, by rwa [hf], fun hk => by rw [hpast hk, atEnd_ok, hq], past hin⟩
  · rintro c i u ⟨l, hl, hin⟩
    exact ⟨l, by rwa [hg], past hin⟩

end Rules

/-! ### Transactions -/

theorem landDue_of_abandons {op : HostOp} {rest : List HostEvent} {s t : State} (h : hostOp op { s with hostIn := rest } = .next t)
    (hb : t.busy = false) : landDue ({ gap := some 0, op := op } :: rest) s = .abandoned t := by
  rw [landDue, h]
  exact if_neg (by rw [hb]; decide)

/-- R231: the reset lands while the transaction is outstanding. -/
theorem request_awaiting_zero {s : State} (hr : s.rst = false) (e : PendingReset) (r : Request) : ∃ t,
    request r (s.awaiting e 0) = .abandoned t ∧ AfterReset { s.waiting r with hostIn := e.rest } t ∧
      t.rst = decide (e.op = .assertReset) := by
  obtain ⟨t, hop, ht, hrst⟩ := hostOp_abandons e.abandons (s := { s.waiting r with hostIn := e.rest }) hr
  exact ⟨t, landDue_of_abandons hop ht.busy, ht, hrst⟩

/-- The reset is not due yet. -/
theorem request_awaiting_succ (e : PendingReset) (k : Nat) (s : State) (r : Request) :
    request r (s.awaiting e (k + 1)) = .ok () ((s.waiting r).awaiting e k) := rfl

section Transactions
variable {e : PendingReset} {k : Nat} {s : State}

/-- A transaction `r`, in which the reset lands or not, and what `g` makes of its answer. -/
theorem tracks_request {r : Request} {g g' : Unit → State → Run α} (hg : (g () (s.waiting r)).Ensures
      (fun a u => s.bus.Advanced [r] u.bus ∧ ∀ j, g' () ((s.waiting r).awaiting e j) = .ok a (u.awaiting e j))
      (fun _ _ u => u.busLog = r :: s.busLog) fun _ => False) :
    Tracks e k ((request r s).bind g) ((request r (s.awaiting e k)).bind g') s.bus := by
  intro hr hq
  have hin (hk : k < [r].length) : AbandonedIn e s.bus [r] k ((request r (s.awaiting e k)).bind g') := by
    obtain rfl : k = 0 := Nat.lt_one_iff.1 hk
    obtain ⟨t, ht, hres, hrst⟩ := request_awaiting_zero hr e r
    exact ⟨[], r, t, by rw [ht, bind_abandoned], List.prefix_rfl, rfl, s, .refl _, hres, hrst⟩
  have ha : s.Alone := by
    rw [State.Alone, show s.hostIn = [] from hq]
    rfl
  rw [request_alone ha, bind_ok]
  refine hg.mono (fun a u ⟨hu, hpast⟩ => ⟨[r], hu, fun hk => ?_, hin⟩) (fun _ _ u hu => ⟨[r], hu, hin⟩) fun _ => id
  obtain ⟨j, rfl⟩ : ∃ j, k = j + 1 := ⟨k - 1, (Nat.sub_add_cancel hk).symm⟩
  rw [request_awaiting_succ, bind_ok, hpast]
  rfl

/-- A transaction that memory has answered and, if it is a write, performed. -/
theorem advanced_answered {r : Request} (hr : r.isMaster = true) (s : State) :
    s.bus.Advanced [r] { (s.waiting r).answered with mem := r.perform s.mem }.bus where
  mem := rfl
  memResp := by
    rw [List.countP_singleton, if_pos hr]
    exact List.drop_one.symm
  busLog := rfl
  rst := rfl
  hostIn := rfl

/-- A transform request, which the Memory agent does not see. -/
theorem advanced_transformed {r : Request} (hr : r.txBlock.isSome = true) (s : State) (y : Block 32) :
    s.bus.Advanced [r] ((s.waiting r).transformed y).bus := by
  cases r with
  | txFwd _ | txInv _ => exact ⟨rfl, rfl, rfl, rfl, rfl⟩
  | _ => exact nomatch hr

theorem memRead8_tracks (a : Addr) : Tracks e k (memRead8 a s) (memRead8 a (s.awaiting e k)) s.bus := by
  refine tracks_request ?_
  split
  case h_1 h => exact ensures_ok.2 ⟨advanced_answered rfl s, fun j => by simp only [State.awaiting_memResp, h]; rfl⟩
  case h_2 w h => exact ensures_ok.2 ⟨advanced_answered rfl s, fun j => by simp only [State.awaiting_memResp, h]; rfl⟩
  case h_3 => exact ensures_raised.2 rfl

theorem memRead32_tracks (a : Addr) : Tracks e k (memRead32 a s) (memRead32 a (s.awaiting e k)) s.bus := by
  refine tracks_request ?_
  split
  case h_1 h => exact ensures_ok.2 ⟨advanced_answered rfl s, fun j => by simp only [State.awaiting_memResp, h]; rfl⟩
  case h_2 w h => exact ensures_ok.2 ⟨advanced_answered rfl s, fun j => by simp only [State.awaiting_memResp, h]; rfl⟩
  case h_3 => exact ensures_raised.2 rfl

/-- A write `r` and its answer (R84). -/
theorem answerWrite_tracks {r : Request} (hr : r.isMaster = true) (a : Addr) : Tracks e k
    ((request r s).bind fun _ s => answerWrite a (r.perform s.mem) s)
    ((request r (s.awaiting e k)).bind fun _ s => answerWrite a (r.perform s.mem) s) s.bus := by
  refine tracks_request ?_
  unfold answerWrite
  split
  case h_1 h => exact ensures_ok.2 ⟨advanced_answered hr s, fun j => by simp only [State.awaiting_memResp, h]; rfl⟩
  case h_2 w h => exact ensures_ok.2 ⟨advanced_answered hr s, fun j => by simp only [State.awaiting_memResp, h]; rfl⟩
  case h_3 => exact ensures_raised.2 rfl

theorem memWrite8_tracks (a : Addr) (v : Byte) : Tracks e k (memWrite8 a v s) (memWrite8 a v (s.awaiting e k)) s.bus :=
  answerWrite_tracks (r := .write8 a v) rfl a

theorem memWrite32_tracks (a : Addr) (w : Word) : Tracks e k (memWrite32 a w s) (memWrite32 a w (s.awaiting e k)) s.bus :=
  answerWrite_tracks (r := .write32 a w) rfl a

theorem bodyTxFwd_tracks : Tracks e k (bodyTxFwd s) (bodyTxFwd (s.awaiting e k)) s.bus :=
  tracks_request (ensures_ok.2 ⟨advanced_transformed rfl s _, fun _ => rfl⟩)

theorem bodyTxInv_tracks : Tracks e k (bodyTxInv s) (bodyTxInv (s.awaiting e k)) s.bus :=
  tracks_request (ensures_ok.2 ⟨advanced_transformed rfl s _, fun _ => rfl⟩)

end Transactions

end Sys2Proof.Machine
end

section
/-! SUPPORT. A reset that lands while a transaction of a command is outstanding (70_reset_and_hazards.md R230 to R232). -/

namespace Sys2Proof.Machine

variable {e : PendingReset} {k : Nat} {s : State}

/-! ### Pieces that make no transaction -/

/-- The buffers, PCOUNT and the flags replaced. -/
theorem tracks_buffers {α : Type} {a : α} {c : Block 32} {q z : Block 16} {p : Block 32} {n : BitVec 7} {st : Status} :
    Tracks e k (.ok a { s with cbuf := c, qbuf := q, zbuf := z, pbuf := p, pcount := n, status := st })
      (.ok a { s.awaiting e k with cbuf := c, qbuf := q, zbuf := z, pbuf := p, pcount := n, status := st }) s.bus := tracks_ok

theorem bodyQgen_tracks : Tracks e k (bodyQgen s) (bodyQgen (s.awaiting e k)) s.bus := tracks_ite tracks_raised tracks_ok

theorem bodyQuant_tracks : Tracks e k (bodyQuant s) (bodyQuant (s.awaiting e k)) s.bus := tracks_ite tracks_raised tracks_buffers

theorem bodyDequant_tracks : Tracks e k (bodyDequant s) (bodyDequant (s.awaiting e k)) s.bus := tracks_ite tracks_raised tracks_buffers

theorem bodyZzFlat_tracks : Tracks e k (bodyZzFlat s) (bodyZzFlat (s.awaiting e k)) s.bus := tracks_buffers

theorem bodyZzUnflat_tracks : Tracks e k (bodyZzUnflat s) (bodyZzUnflat (s.awaiting e k)) s.bus := tracks_buffers

theorem bodyRleEnc_tracks : Tracks e k (bodyRleEnc s) (bodyRleEnc (s.awaiting e k)) s.bus := tracks_buffers

theorem bodyRleDec_tracks : Tracks e k (bodyRleDec s) (bodyRleDec (s.awaiting e k)) s.bus :=
  (tracks_check _ s).bind fun _ _ _ => tracks_ite tracks_raised tracks_buffers

theorem bodyCbClear_tracks : Tracks e k (bodyCbClear s) (bodyCbClear (s.awaiting e k)) s.bus := tracks_ok

theorem bodyCbAccum_tracks : Tracks e k (bodyCbAccum s) (bodyCbAccum (s.awaiting e k)) s.bus :=
  (tracks_check _ s).bind fun _ _ _ => tracks_ok

theorem bodyCbBuild_tracks : Tracks e k (bodyCbBuild s) (bodyCbBuild (s.awaiting e k)) s.bus := tracks_ok

theorem bodyCbEncode_tracks : Tracks e k (bodyCbEncode s) (bodyCbEncode (s.awaiting e k)) s.bus :=
  (tracks_check _ s).bind fun _ _ _ => tracks_buffers

theorem bodyCbDecode_tracks : Tracks e k (bodyCbDecode s) (bodyCbDecode (s.awaiting e k)) s.bus :=
  (tracks_check _ s).bind fun _ _ _ => tracks_buffers

theorem bodyCbLoad_tracks : Tracks e k (bodyCbLoad s) (bodyCbLoad (s.awaiting e k)) s.bus :=
  (tracks_check _ s).bind fun _ _ _ => tracks_ok

theorem bodyCbRead_tracks : Tracks e k (bodyCbRead s) (bodyCbRead (s.awaiting e k)) s.bus := by
  cases h : s.cb[s.regs.cbIndex.toNat]? with
  | none =>
    rw [bodyCbRead, h]
    exact tracks_raised
  | some c =>
    have hq : (s.awaiting e k).cb[(s.awaiting e k).regs.cbIndex.toNat]? = some c := h
    rw [bodyCbRead, bodyCbRead, h, hq]
    exact tracks_ok

theorem sequenceChecks_tracks (stream : Regs → Region) :
    Tracks e k (sequenceChecks stream s) (sequenceChecks stream (s.awaiting e k)) s.bus :=
  (tracks_check _ s).bind fun _ _ _ => Tracks.bind (tracks_ite tracks_refused tracks_ok) fun _ _ _ => bodyQgen_tracks

/-! ### Pieces of PAD_FETCH, CROP_STORE and the sequences -/

theorem fetchCell_tracks (row col n : Nat) : Tracks e k (fetchCell row col n s) (fetchCell row col n (s.awaiting e k)) s.bus :=
  tracks_ite ((memRead8_tracks _).bind fun _ _ _ => tracks_buffers) tracks_buffers

theorem fetchBlock_tracks (row col : Nat) : Tracks e k (fetchBlock row col s) (fetchBlock row col (s.awaiting e k)) s.bus :=
  tracks_forCount (fun n _ _ => fetchCell_tracks row col n) 64 0 k s

theorem storeCell_tracks (row col n : Nat) : Tracks e k (storeCell row col n s) (storeCell row col n (s.awaiting e k)) s.bus :=
  tracks_ite (memWrite8_tracks _ _) tracks_ok

theorem storeBlock_tracks (row col : Nat) : Tracks e k (storeBlock row col s) (storeBlock row col (s.awaiting e k)) s.bus :=
  tracks_forCount (fun n _ _ => storeCell_tracks row col n) 64 0 k s

theorem streamPairs_tracks (ws : List Word) : Tracks e k (streamPairs ws s) (streamPairs ws (s.awaiting e k)) s.bus := by
  induction ws generalizing k s with
  | nil => exact tracks_ok
  | cons w ws ih => exact tracks_ite tracks_raised ((memWrite32_tracks _ w).bind fun _ u _ => ih (s := u.nextWord))

theorem compressBlock_tracks (b : Nat) : Tracks e k (compressBlock b s) (compressBlock b (s.awaiting e k)) s.bus := by
  refine (fetchBlock_tracks (s := s.atBlock b) _ _).bind fun _ _ _ => ?_
  refine bodyTxFwd_tracks.bind fun _ _ _ => ?_
  refine bodyQuant_tracks.bind fun _ _ _ => ?_
  refine bodyZzFlat_tracks.bind fun _ _ _ => ?_
  refine bodyRleEnc_tracks.bind fun _ _ _ => ?_
  refine bodyCbAccum_tracks.bind fun _ _ _ => ?_
  exact (streamPairs_tracks _).bind fun _ _ _ => tracks_ok

theorem substWith_tracks (n : Nat) (w : Word) : Tracks e k (substWith n w s) (substWith n w (s.awaiting e k)) s.bus := by
  by_cases h : lenField w ≠ 0
  · rw [substWith_pairForm h]
    exact tracks_raised
  · cases hc : codeOf s.cb (symField w) with
    | none =>
      rw [substWith_unknownValue h hc]
      exact tracks_raised
    | some c =>
      rw [substWith_write h hc, substWith_write (s := s.awaiting e k) h hc]
      exact (memWrite32_tracks _ _).bind fun _ _ _ => tracks_ok

theorem substWord_tracks (n : Nat) : Tracks e k (substWord n s) (substWord n (s.awaiting e k)) s.bus :=
  (memRead32_tracks _).bind fun w _ _ => substWith_tracks n w

theorem substPhase_tracks : Tracks e k (substPhase s) (substPhase (s.awaiting e k)) s.bus := by
  rw [substPhase_eq, substPhase_eq]
  exact (tracks_forCount (fun n _ _ => substWord_tracks n) _ 0 k s.built.startSubst).bind fun _ _ _ => tracks_ok

theorem compressPhases_tracks (n : Nat) : Tracks e k (compressPhases n s) (compressPhases n (s.awaiting e k)) s.bus :=
  (tracks_forCount (fun b _ _ => compressBlock_tracks b) n 0 k s).bind fun _ _ _ => substPhase_tracks

theorem validateWords_tracks (left : Nat) : Tracks e k (validateWords left s) (validateWords left (s.awaiting e k)) s.bus := by
  induction left generalizing k s with
  | zero => exact tracks_raised
  | succ left ih =>
    rw [validateWords_succ, validateWords_succ]
    refine (memRead32_tracks _).bind fun w u j => ?_
    refine tracks_ite tracks_raised (tracks_ite tracks_raised (tracks_ite tracks_raised (tracks_ite ?_ ?_)))
    · exact tracks_ite tracks_raised tracks_ok
    · exact ih (s := (u.setSum (u.seq.sum + (runField w).toNat)).nextWord)

theorem validateBlock_tracks (b : Nat) : Tracks e k (validateBlock b s) (validateBlock b (s.awaiting e k)) s.bus :=
  validateWords_tracks (s := s.setSum 0) _

theorem validatePhase_tracks : Tracks e k (validatePhase s) (validatePhase (s.awaiting e k)) s.bus :=
  (tracks_forCount (fun b _ _ => validateBlock_tracks b) _ 0 k (s.startPass .validate)).bind fun _ _ _ =>
    tracks_ite tracks_raised tracks_ok

theorem readPairs_tracks (left m : Nat) : Tracks e k (readPairs left m s) (readPairs left m (s.awaiting e k)) s.bus := by
  induction left generalizing k m s with
  | zero => exact tracks_raised
  | succ left ih =>
    refine tracks_ite tracks_raised ((memRead32_tracks _).bind fun w u j => tracks_ite tracks_ok ?_)
    exact ih (s := (u.withPbuf (u.pbuf.setIfInBounds m (maskPair w))).nextWord) (m + 1)

theorem rebuildAndStore_tracks : Tracks e k (rebuildAndStore s) (rebuildAndStore (s.awaiting e k)) s.bus := by
  refine bodyCbDecode_tracks.bind fun _ _ _ => ?_
  refine bodyRleDec_tracks.bind fun _ _ _ => ?_
  refine bodyZzUnflat_tracks.bind fun _ _ _ => ?_
  refine bodyDequant_tracks.bind fun _ _ _ => ?_
  refine bodyTxInv_tracks.bind fun _ _ _ => ?_
  exact (storeBlock_tracks _ _).bind fun _ _ _ => tracks_ok

theorem decompressBlock_tracks (b : Nat) : Tracks e k (decompressBlock b s) (decompressBlock b (s.awaiting e k)) s.bus :=
  (readPairs_tracks (s := s.atBlock b) _ 0).bind fun m u _ => rebuildAndStore_tracks (s := u.counted m)

theorem decompressPhases_tracks : Tracks e k (decompressPhases s) (decompressPhases (s.awaiting e k)) s.bus :=
  validatePhase_tracks.bind fun _ u j => tracks_forCount (fun b _ _ => decompressBlock_tracks b) _ 0 j (u.startPass .blocks)

/-! ### Whole commands -/

theorem sequenceEnd_tracks {p p' : Run Unit} {b : Bus} (h : Tracks e k p p' b) : Tracks e k (sequenceEnd p) (sequenceEnd p') b :=
  h.atEnd (fun _ => by unfold State.bus; simp) (fun _ _ => by unfold State.freeScratch; rfl) fun _ _ => State.freeScratch_busLog _

theorem fetchFailed_busLog (c : ErrCode) (s : State) : (fetchFailed c s).busLog = s.busLog := (fetchFailed_endKeeps c s).busLog

/-- Every command is a body that a pending reset abandons at the transaction it lands in, and its end. -/
theorem exec_eq_finish_tracks (i : Instr) (e : PendingReset) (k : Nat) (s : State) :
    ∃ p p', exec i s = finish p ∧ exec i (s.awaiting e k) = finish p' ∧ Tracks e k p p' s.bus := by
  cases i with
  | nop => exact ⟨.ok () s, .ok () (s.awaiting e k), rfl, rfl, tracks_ok⟩
  | qgen => exact ⟨_, _, rfl, rfl, bodyQgen_tracks⟩
  | quant => exact ⟨_, _, rfl, rfl, bodyQuant_tracks⟩
  | dequant => exact ⟨_, _, rfl, rfl, bodyDequant_tracks⟩
  | txFwd => exact ⟨_, _, rfl, rfl, bodyTxFwd_tracks⟩
  | txInv => exact ⟨_, _, rfl, rfl, bodyTxInv_tracks⟩
  | zzFlat => exact ⟨_, _, rfl, rfl, bodyZzFlat_tracks⟩
  | zzUnflat => exact ⟨_, _, rfl, rfl, bodyZzUnflat_tracks⟩
  | rleEnc => exact ⟨_, _, rfl, rfl, bodyRleEnc_tracks⟩
  | rleDec => exact ⟨_, _, rfl, rfl, bodyRleDec_tracks⟩
  | cbClear => exact ⟨_, _, rfl, rfl, bodyCbClear_tracks⟩
  | cbAccum => exact ⟨_, _, rfl, rfl, bodyCbAccum_tracks⟩
  | cbBuild => exact ⟨_, _, rfl, rfl, bodyCbBuild_tracks⟩
  | cbEncode => exact ⟨_, _, rfl, rfl, bodyCbEncode_tracks⟩
  | cbDecode => exact ⟨_, _, rfl, rfl, bodyCbDecode_tracks⟩
  | cbLoad => exact ⟨_, _, rfl, rfl, bodyCbLoad_tracks⟩
  | cbRead => exact ⟨_, _, rfl, rfl, bodyCbRead_tracks⟩
  | padFetch =>
    refine ⟨_, _, rfl, rfl, Tracks.atEnd (Tracks.bind (tracks_check _ s) fun _ u j => ?_) (fun _ => rfl) (fun _ _ => rfl)
      fetchFailed_busLog⟩
    exact fetchBlock_tracks _ _
  | cropStore =>
    refine ⟨_, _, rfl, rfl, Tracks.bind (tracks_check _ s) fun _ u j => ?_⟩
    exact storeBlock_tracks _ _
  | seqCompress =>
    exact ⟨_, _, exec_seqCompress s, exec_seqCompress _, sequenceEnd_tracks ((sequenceChecks_tracks _).bind fun _ u _ =>
      compressPhases_tracks (s := u.startCompress) _)⟩
  | seqDecompress =>
    exact ⟨_, _, exec_seqDecompress s, exec_seqDecompress _, sequenceEnd_tracks ((sequenceChecks_tracks _).bind fun _ u _ =>
      decompressPhases_tracks (s := u.clearBlkDone))⟩

/-- R231: a reset that lands while the `k`-th transaction of a command is outstanding abandons it there. -/
theorem exec_awaiting {i : Instr} {e : PendingReset} {k : Nat} {s u : State} {log : List Request} (hr : s.rst = false)
    (hq : s.hostIn = []) (hu : exec i s = .next u) (hlog : u.busLog = log.reverse ++ s.busLog) (hk : k < log.length) :
    ∃ done r t, exec i (s.awaiting e k) = .next t ∧ done ++ [r] <+: log ∧ done.length = k ∧ AbandonedAt e s.bus done r t := by
  obtain ⟨p, p', hp, hp', h⟩ := exec_eq_finish_tracks i e k s
  have ends {l : List Request} (hl : u.busLog = l.reverse ++ s.busLog) (hin : k < l.length → AbandonedIn e s.bus l k p') :
      ∃ done r t, exec i (s.awaiting e k) = .next t ∧ done ++ [r] <+: log ∧ done.length = k ∧ AbandonedAt e s.bus done r t := by
    obtain rfl : l = log := List.reverse_injective (List.append_cancel_right (hl.symm.trans hlog))
    obtain ⟨done, r, t, rfl, ht⟩ := hin hk
    exact ⟨done, r, t, hp', ht⟩
  have h := h hr hq
  rcases finish_next (hp ▸ hu) with ⟨v, rfl, rfl⟩ | ⟨c, w, v, rfl, rfl⟩ | rfl
  · obtain ⟨l, hl, -, hin⟩ := ensures_ok.1 h
    exact ends hl.busLog hin
  · obtain ⟨l, hl, hin⟩ := ensures_raised.1 h
    exact ends hl hin
  · exact (ensures_abandoned.1 h).elim

section AbandonedAt
variable {b : Bus} {done : List Request} {r : Request} {t : State} (h : AbandonedAt e b done r t)
include h

/-- R232, U9: memory holds what the transactions before wrote, and what the outstanding one writes or not. -/
theorem AbandonedAt.mem :
    t.mem = done.foldl Request.perform b.mem ∨ t.mem = (done ++ [r]).foldl Request.perform b.mem := by
  obtain ⟨v, hv, ht, -⟩ := h
  rw [ht.mem, List.foldl_append, ← hv.mem]
  exact memAfterAbandon_of_inflight (s := { v.waiting r with hostIn := e.rest }) rfl

/-- R231: the Memory agent's answers to the transactions, the outstanding one with them, are used up. -/
theorem AbandonedAt.memResp : t.memResp = b.memResp.drop ((done ++ [r]).countP Request.isMaster) := by
  obtain ⟨v, hv, ht, -⟩ := h
  rw [ht.memResp, memRespAfterAbandon_of_inflight (s := { v.waiting r with hostIn := e.rest }) rfl, List.countP_append,
    ← List.drop_drop, ← hv.memResp]
  rfl

theorem AbandonedAt.busLog : t.busLog = (done ++ [r]).reverse ++ b.busLog := by
  obtain ⟨v, hv, ht, -⟩ := h
  rw [ht.busLog, List.reverse_append, List.append_assoc, ← hv.busLog]
  rfl

end AbandonedAt

/-- R230, R231: a command with a reset in the host's queue, told by the transactions of its run without the reset. -/
theorem exec_abandoned {i : Instr} {s u : State} {op : HostOp} {rest : List HostEvent} {k : Nat} {log : List Request}
    (hr : s.rst = false) (ho : op.abandons = true) (hq : s.hostIn = { gap := some (k + 1), op := op } :: rest)
    (hu : exec i { s with hostIn := [] } = .next u) (hlog : u.busLog = log.reverse ++ s.busLog) (hk : k < log.length) :
    ∃ t, exec i s = .next t ∧ t.seq = Sequencer.idle ∧ t.status = Status.reset ∧ t.regs = Regs.reset ∧ t.cb = [] ∧
      t.pcount = 0 ∧ t.irq = false ∧ t.rst = decide (op = .assertReset) ∧ t.hostIn = rest ∧
      t.busLog = (log.take (k + 1)).reverse ++ s.busLog ∧
      (t.mem = (log.take k).foldl Request.perform s.mem ∨ t.mem = (log.take (k + 1)).foldl Request.perform s.mem) ∧
      t.memResp = s.memResp.drop ((log.take (k + 1)).countP Request.isMaster) := by
  obtain ⟨done, r, t, ht, hp, hd, h⟩ := exec_awaiting (e := ⟨op, rest, ho⟩) (s := { s with hostIn := [] }) hr rfl hu hlog hk
  have hs : State.awaiting ⟨op, rest, ho⟩ k { s with hostIn := [] } = s := by
    rw [State.awaiting, PendingReset.queue, ← hq]
  obtain ⟨l, rfl⟩ := hp
  have hk1 : (done ++ [r] ++ l).take (k + 1) = done ++ [r] := List.take_left' (by simp [hd])
  have hk0 : (done ++ [r] ++ l).take k = done := by
    rw [List.append_assoc]
    exact List.take_left' hd
  rw [hs] at ht
  rw [hk1, hk0]
  have ⟨v, _, hreset, hrst⟩ := h
  exact ⟨t, ht, hreset.seq, hreset.status, hreset.regs, hreset.cb, hreset.pcount, hreset.irq, hrst, hreset.hostIn, h.busLog, h.mem,
    h.memResp⟩

/-- Settles O16: the run with the reset follows the run without it, up to the transaction in which the reset lands; TX_FWD issues one. -/
theorem resetAbandonsCommand : Obligations.ResetAbandonsCommand := by
  refine ⟨fun i s u op rest k log => exec_abandoned, fun s w rest hr _ hw hq => ?_⟩
  obtain ⟨t, ht, hseq, hstatus, hregs, -, -, hirq, -, hin, hlog, hmem, hresp⟩ := exec_abandoned (i := .txFwd) (k := 0)
    (log := [.txFwd s.cbuf]) hr (by simp [HostOp.abandons, hw]) hq
    (by rw [exec_txFwd, bodyTxFwd_undisturbed rfl, finish_ok]) rfl Nat.one_pos
  exact ⟨t, ht, hseq, hstatus, hregs, hirq, hlog, hmem.elim id id, hresp, hin⟩

end Sys2Proof.Machine
end
